-- ==== Sys2Proof/Word.lean ====
section
/-!
DEFINITION. The word types of the D9 and their plainest arithmetic (spec 07 R133, R135, R136).
-/

namespace Sys2Proof

/-- A scalar register, an address or a CSR: 64 bits (R133). -/
abbrev Word := BitVec 64
/-- One byte, the unit of location (R78). -/
abbrev Byte := BitVec 8
/-- A vector register: 512 bytes, byte 0 in the low bits (R135). -/
abbrev VReg := BitVec 4096
/-- A mask register: 512 bits, bit j for byte lane j (R136). -/
abbrev KReg := BitVec 512

namespace Word

/-- The low `n` bits sign-extended to 64 bits (R148). -/
def sext (n : Nat) (x : Word) : Word := (x.setWidth n).signExtend 64

/-- The low `n` bits zero-extended to 64 bits (R148). -/
def zext (n : Nat) (x : Word) : Word := (x.setWidth n).setWidth 64

/-- Bits [lo+n-1:lo], zero-extended (R148). -/
def bits (x : Word) (lo n : Nat) : Word := zext n (x >>> lo)

/-- The window address of the first byte of hitch slot `n` (R10, R148). -/
def wslot (n : Nat) : Word := BitVec.ofNat 64 (0xE000000000000000 + n * 2 ^ 18)

/-- 1 for true and 0 for false. -/
def ofBool (b : Bool) : Word := if b then 1#64 else 0#64

end Word

end Sys2Proof
end

