-- ==== Sys2Proof/Config.lean ====
section
/-!
DEFINITION. What is fixed for a DK9-576L (spec 00 R1 to R5, 07 R141, 16 R279), and the free values of the model.
-/

namespace Sys2Proof.Config

/-- Cores of the device (R3). -/
def cores : Nat := 768
/-- Clusters of the device (R3). -/
def clusters : Nat := 48
/-- Cores of a cluster (R3). -/
def coresPerCluster : Nat := 16
/-- Wagons of a yard (R1). -/
def wagons : Nat := 128
/-- Bytes of a wagon (R1). -/
def wagonBytes : Nat := 262144
/-- Slots of a hitch table (R3). -/
def slots : Nat := 32
/-- Entries of an inbox (R3). -/
def inboxSize : Nat := 64
/-- Entries of a receive queue (R3). -/
def rqSize : Nat := 16
/-- HBM size in 4 KiB units, CONFIG.HBMSZ (R141). -/
def hbmUnits : Nat := 140625000
/-- HBM size in bytes (R24, R141). -/
def hbmBytes : Nat := 140625000 * 4096
/-- Whole 64 KiB frames of HBM (R279). -/
def frames : Nat := 8789062
/-- Entries of a cluster's TLB (R27). -/
def tlbSize : Nat := 2048
/-- Transfers a copy channel holds (R204). -/
def channelXfers : Nat := 8
/-- Stagecoach commands a core may have outstanding (R216). -/
def coachOutstanding : Nat := 8
/-- Commands of one dray lease (R211). -/
def leaseCommands : Nat := 64
/-- Core cycles that the clearing of one wagon takes (R33). -/
def zeroCycles : Nat := 512
/-- Wagons a yard clears at once (R33). -/
def zeroAtOnce : Nat := 4
/-- Offered feature bits 63 to 0 (R275). -/
def featOff0 : Word := 0xFF
/-- The offered feature bits 127 to 64 (R275). -/
def featOff1 : Word := 0
/-- The fused power limit in W and clock limit in MHz (R276, R280). -/
def maxPower : Nat := 2700
/-- The fused clock limit in MHz (R280). -/
def maxClock : Nat := 1200
/-- DESIGN CHOICE (log 8): bytes of a read-cache line. -/
def lineBytes : Nat := 64
/-- Lines of the 32 KiB read cache (R3). -/
def cacheLines : Nat := 512
/-- DESIGN CHOICE (log 14): the overflow of each shared pool of Table 06-12: queue slots, yard wagons, copy transfer slots, inbox credits, scrub pool pages. -/
def overflow : Nat → Nat
  | 0 => 65536 | 1 => 128 | 2 => 6144 | 3 => 64 | _ => 8789062

/-- Whether a value that is no integer and overflows an integer destination raises NX beside NV: R183's example says so, R314 has NV alone
(log 44). -/
opaque overflowInexact : Bool

/-- A value the spec leaves open, by the number of open values met before it (log 4). -/
opaque freeValue : Nat → BitVec 64

end Sys2Proof.Config
end

