-- ==== Sys2Proof/Machine/Num.lean ====
section
/-!
DEFINITION. Number formats and exact arithmetic with one rounding (spec 03 R58 to R71, R314; 09 R171, R174, Table 09-3).
A value is exact: a NaN, an infinity, or sign * m / d * 2^e. Flag sets are the bits NV 1, DZ 2, OF 4, UF 8, NX 16 of FFLAGS.
-/

namespace Sys2Proof.Machine

/-- Element formats with arithmetic (Tables 03-2, 03-3, 07-2). -/
inductive Fmt where
  | f32 | bf16 | f16 | e4m3 | e5m2 | e3m2 | e2m3 | e2m1
  | int (w : Nat)
  deriving DecidableEq, Repr

/-- Rounding modes (Table 03-5). -/
inductive RMode where
  | rne | sr | rna | rtz | rup | rdn
  deriving DecidableEq, Repr

/-- An exact value; `sig` marks a signalling NaN (R171). -/
inductive Val where
  | nan (sig : Bool)
  | inf (neg : Bool)
  | fin (neg : Bool) (m d : Nat) (e : Int)
  deriving DecidableEq, Repr

/-- Exponent bits of a float format. -/
def fmtExp : Fmt → Nat
  | .f32 => 8 | .bf16 => 8 | .f16 => 5 | .e4m3 => 4 | .e5m2 => 5 | .e3m2 => 3 | .e2m3 => 2 | .e2m1 => 2 | .int _ => 0

/-- Mantissa bits of a float format. -/
def fmtMan : Fmt → Nat
  | .f32 => 23 | .bf16 => 7 | .f16 => 10 | .e4m3 => 3 | .e5m2 => 2 | .e3m2 => 2 | .e2m3 => 3 | .e2m1 => 1 | .int _ => 0

/-- Bits of an element. -/
def fmtWidth : Fmt → Nat
  | .int w => w
  | f => 1 + fmtExp f + fmtMan f

/-- Formats with an infinity (R58, Table 03-3). -/
def fmtInf : Fmt → Bool
  | .f32 => true | .bf16 => true | .f16 => true | .e5m2 => true | _ => false

/-- The canonical NaN of a format, or what a format without NaN receives (R59, Table 03-6). -/
def fmtNan : Fmt → Nat
  | .f32 => 0x7FC00000 | .bf16 => 0x7FC0 | .f16 => 0x7E00 | .e4m3 => 0x7F | .e5m2 => 0x7E | _ => 0

/-- Formats that have a NaN (R59). -/
def fmtHasNan : Fmt → Bool
  | .f32 => true | .bf16 => true | .f16 => true | .e4m3 => true | .e5m2 => true | _ => false

/-- The magnitude code of the largest finite value (Table 03-3). -/
def fmtMax : Fmt → Nat
  | .e4m3 => 0x7E
  | .int w => 2 ^ (w - 1) - 1
  | f => if fmtInf f then (2 ^ fmtExp f - 1) * 2 ^ fmtMan f - 1 else 2 ^ (fmtExp f + fmtMan f) - 1

/-- The exponent of the smallest normal value. -/
def fmtEmin (f : Fmt) : Int := 2 - (2 ^ (fmtExp f - 1) : Nat)

/-- Two's complement value of the low w bits. -/
def intOf (w x : Nat) : Int := if x % 2 ^ w < 2 ^ (w - 1) then (x % 2 ^ w : Nat) else (x % 2 ^ w : Nat) - (2 ^ w : Nat)

/-- The low w bits of an integer in two's complement. -/
def intBits (w : Nat) (i : Int) : Nat := (i % (2 ^ w : Nat)).toNat

/-- An integer as an exact value. -/
def valOfInt (i : Int) : Val := .fin (decide (i < 0)) i.natAbs 1 0

/-- The value an element stands for (R58 to R60). -/
def decodeVal (f : Fmt) (x : Nat) : Val :=
  match f with
  | .int w => valOfInt (intOf w x)
  | f =>
    let mb := fmtMan f
    let eb := fmtExp f
    let man := x % 2 ^ mb
    let ex := x / 2 ^ mb % 2 ^ eb
    let neg := x / 2 ^ (mb + eb) % 2 = 1
    if fmtInf f && ex == 2 ^ eb - 1 then
      if man = 0 then .inf neg else .nan (man / 2 ^ (mb - 1) = 0)
    else if f = .e4m3 ∧ ex = 15 ∧ man = 7 then .nan false
    else if ex = 0 then .fin neg man 1 (fmtEmin f - mb)
    else .fin neg (2 ^ mb + man) 1 (fmtEmin f - mb + ex - 1)

/-- Whether the magnitude with quotient q and remainder r out of d (R67, R68) rounds up; `draw` is the 16-bit draw of SR. -/
def roundsUp (mode : RMode) (draw : Nat) (neg : Bool) (q r d : Nat) : Bool :=
  match mode with
  | .rne => decide (2 * r > d) || (decide (2 * r = d) && decide (q % 2 = 1))
  | .rna => decide (2 * r ≥ d)
  | .rtz => false
  | .rup => decide (r ≠ 0) && !neg
  | .rdn => decide (r ≠ 0) && neg
  | .sr => decide (r * 65536 + draw * d ≥ d * 65536)

/-- The quotient and remainder of num/den * 2^ex by 2^q. -/
def scaledDiv (num den : Nat) (ex q : Int) : Nat × Nat × Nat :=
  let n := if ex ≥ q then num * 2 ^ (ex - q).toNat else num
  let d := if ex ≥ q then den else den * 2 ^ (q - ex).toNat
  (n / d, n % d, d)

/-- floor(log2(num/den * 2^ex)) of a positive value. -/
def ilog2 (num den : Nat) (ex : Int) : Int :=
  let g : Int := (num.log2 : Int) - den.log2
  let lt := if g ≥ 0 then decide (num < den * 2 ^ g.toNat) else decide (num * 2 ^ (-g).toNat < den)
  (if lt then g - 1 else g) + ex

/-- The mode rounds magnitudes toward zero (R70). -/
def towardZero (mode : RMode) (neg : Bool) : Bool :=
  match mode with
  | .rtz => true | .rdn => !neg | .rup => neg | _ => false

/-- A magnitude code with its sign. -/
def signed (f : Fmt) (neg : Bool) (code : Nat) : Nat := if neg then code + 2 ^ (fmtExp f + fmtMan f) else code

/-- The settled result of an overflow (Table 03-6, Table 03-9). -/
def overflowed (f : Fmt) (mode : RMode) (sat neg : Bool) : Nat × Nat :=
  let big := signed f neg (fmtMax f)
  let r := match f with
    | .e4m3 => if sat || towardZero mode neg then big else 0x7F
    | .e5m2 => if sat || towardZero mode neg then big else signed f neg 0x7C
    | .f32 | .bf16 | .f16 => if towardZero mode neg then big else signed f neg (fmtMax f + 1)
    | _ => big
  (r, 20)

/-- Rounding of a positive magnitude into a float format (R67), with its flags (R71, R314). -/
def roundMag (f : Fmt) (mode : RMode) (sat : Bool) (draw : Nat) (neg : Bool) (num den : Nat) (ex : Int) : Nat × Nat :=
  let e := ilog2 num den ex
  let emin := fmtEmin f
  let mb : Int := fmtMan f
  let q := (if e < emin then emin else e) - mb
  let t := scaledDiv num den ex q
  let n := if roundsUp mode draw neg t.1 t.2.1 t.2.2 then t.1 + 1 else t.1
  let code := (q - (emin - mb)).toNat * 2 ^ fmtMan f + n
  let u := scaledDiv num den ex (e - mb)
  let un := if roundsUp mode draw neg u.1 u.2.1 u.2.2 then u.1 + 1 else u.1
  let tiny := decide (e < emin) && !(decide (e = emin - 1) && decide (un = 2 ^ (fmtMan f + 1)))
  if code > fmtMax f then overflowed f mode sat neg
  else (signed f neg code, if t.2.1 = 0 then 0 else if tiny then 24 else 16)

/-- Rounding to an integer and saturation (R67 with q = 1, R70). An overflow raises NV (R314), and NX for a value that is no integer or
not: R183's example and R314 differ (log 44). -/
def roundInt (w : Nat) (mode : RMode) (draw : Nat) (neg : Bool) (num den : Nat) (ex : Int) : Nat × Nat :=
  let t := scaledDiv num den ex 0
  let n := if roundsUp mode draw neg t.1 t.2.1 t.2.2 then t.1 + 1 else t.1
  let flags := if t.2.1 ≠ 0 ∧ Config.overflowInexact then 17 else 1
  if neg && decide (n > 2 ^ (w - 1)) then (2 ^ (w - 1), flags)
  else if !neg && decide (n ≥ 2 ^ (w - 1)) then (2 ^ (w - 1) - 1, flags)
  else (intBits w (if neg then -(n : Int) else n), if t.2.1 = 0 then 0 else 16)

/-- round(x, F, m, sat): the bits and the flags of an exact value in a format (R67, R70, R314). -/
def roundVal (f : Fmt) (mode : RMode) (sat : Bool) (draw : Nat) (v : Val) : Nat × Nat :=
  match f, v with
  | .int w, .fin neg m d e => if m = 0 then (0, 0) else roundInt w mode draw neg m d e
  | .int w, .inf neg => (if neg then 2 ^ (w - 1) else 2 ^ (w - 1) - 1, 1)
  | .int _, .nan _ => (0, 1)
  | f, .fin neg m d e => if m = 0 then (signed f neg 0, 0) else roundMag f mode sat draw neg m d e
  | f, .inf neg =>
    match f with
    | .e4m3 => (if sat then signed f neg (fmtMax f) else 0x7F, 1)
    | .e5m2 => if sat then (signed f neg (fmtMax f), 1) else (signed f neg 0x7C, 0)
    | .f32 | .bf16 | .f16 => (signed f neg (fmtMax f + 1), 0)
    | _ => (signed f neg (fmtMax f), 1)
  | f, .nan sig => (fmtNan f, if sig || !fmtHasNan f then 1 else 0)

/-- A value is a NaN. -/
def isNan : Val → Bool
  | .nan _ => true
  | _ => false
/-- A value is a signalling NaN. -/
def isSig : Val → Bool
  | .nan s => s
  | _ => false
/-- A value is zero. -/
def isZero : Val → Bool
  | .fin _ m _ _ => m == 0
  | _ => false
/-- A value is an infinity. -/
def isInf : Val → Bool
  | .inf _ => true
  | _ => false
/-- The sign of a value. -/
def negOf : Val → Bool
  | .inf n => n
  | .fin n _ _ _ => n
  | _ => false
/-- The value with its sign changed. -/
def negVal : Val → Val
  | .inf n => .inf (!n)
  | .fin n m d e => .fin (!n) m d e
  | v => v
/-- The value with a power of two as factor. -/
def scaleVal (k : Int) : Val → Val
  | .fin n m d e => .fin n m d (e + k)
  | v => v

/-- The signed numerator of a value over a common exponent, for denominators 1. -/
def numerAt (k : Int) : Val → Int
  | .fin n m _ e => (if n then -1 else 1) * (m * 2 ^ (e - k).toNat : Nat)
  | _ => 0

/-- The exponent of a value. -/
def expOf : Val → Int
  | .fin _ _ _ e => e
  | _ => 0

/-- The exact sum of two finite values of denominator 1; the sign of a zero sum of unlike signs is `nz` (Table 09-3). -/
def addFin (nz : Bool) (a b : Val) : Val :=
  let k := if isZero a then expOf b else if isZero b then expOf a else min (expOf a) (expOf b)
  let n := (if isZero a then 0 else numerAt k a) + (if isZero b then 0 else numerAt k b)
  if n = 0 then .fin (if negOf a == negOf b then negOf a else nz) 0 1 0 else .fin (decide (n < 0)) n.natAbs 1 k

/-- The exact product of two finite values. -/
def mulFin (a b : Val) : Val :=
  match a, b with
  | .fin n m d e, .fin n' m' d' e' => .fin (n != n') (m * m') (d * d') (e + e')
  | _, _ => .nan false

/-- Exact sum with the special cases of Table 09-3, and its flags. -/
def addVal (mode : RMode) (a b : Val) : Val × Nat :=
  if isNan a || isNan b then (.nan false, if isSig a || isSig b then 1 else 0)
  else match a, b with
    | .inf n, .inf n' => if n == n' then (.inf n, 0) else (.nan false, 1)
    | .inf n, _ => (.inf n, 0)
    | _, .inf n => (.inf n, 0)
    | a, b => (addFin (decide (mode = .rdn)) a b, 0)

/-- Exact product with the special cases of Table 09-3. -/
def mulVal (a b : Val) : Val × Nat :=
  if isNan a || isNan b then (.nan false, if isSig a || isSig b then 1 else 0)
  else if (isInf a && isZero b) || (isZero a && isInf b) then (.nan false, 1)
  else if isInf a || isInf b then (.inf (negOf a != negOf b), 0)
  else (mulFin a b, 0)

/-- a * b + c, exact (Table 09-2): with a NaN operand the flags are those of the NaN row alone. -/
def fmaVal (mode : RMode) (a b c : Val) : Val × Nat :=
  if isNan a || isNan b || isNan c then (.nan false, if isSig a || isSig b || isSig c then 1 else 0)
  else
    let p := mulVal a b
    if isNan p.1 then p else addVal mode p.1 c

/-- Exact quotient with the special cases of Table 09-3. -/
def divVal (a b : Val) : Val × Nat :=
  if isNan a || isNan b then (.nan false, if isSig a || isSig b then 1 else 0)
  else match a, b with
    | .inf _, .inf _ => (.nan false, 1)
    | .inf n, b => (.inf (n != negOf b), 0)
    | a, .inf n => (.fin (negOf a != n) 0 1 0, 0)
    | .fin n m d e, .fin n' m' d' e' =>
      if m' = 0 then (if m = 0 then (.nan false, 1) else (.inf (n != n'), 2))
      else (.fin (n != n') (m * d') (d * m') (e - e'), 0)
    | _, _ => (.nan false, 0)

/-- One bit of an integer square root: from root `r` of the leading bits, with `fuel` bits to come. -/
def isqrtGo (n : Nat) : Nat → Nat → Nat
  | 0, r => r
  | fuel + 1, r =>
    let c := r + 2 ^ fuel
    isqrtGo n fuel (if c * c ≤ n then c else r)

/-- The integer square root. -/
def isqrt (n : Nat) : Nat := isqrtGo n (n.log2 / 2 + 1) 0

/-- The square root of m * 2^e to 64 more bits than any format holds, with a last bit that says it is not exact. -/
def sqrtFin (m : Nat) (d : Nat) (e : Int) : Val :=
  let e2 := if e % 2 = 0 then e else e - 1
  let m2 := if e % 2 = 0 then m else m * 2
  let n := m2 * 2 ^ 256 / d
  let r := isqrt n
  .fin false (2 * r + (if r * r = n ∧ m2 * 2 ^ 256 % d = 0 then 0 else 1)) 1 (e2 / 2 - 129)

/-- Square root with the special cases of Table 09-3. -/
def sqrtVal (a : Val) : Val × Nat :=
  match a with
  | .nan s => (.nan false, if s then 1 else 0)
  | .inf n => if n then (.nan false, 1) else (.inf false, 0)
  | .fin n m d e => if m = 0 then (.fin n 0 1 0, 0) else if n then (.nan false, 1) else (sqrtFin m d e, 0)

/-- The product of 2^(2^-i) over the set bits i of g, the fraction of `k` bits, in fixed point of 320 bits, from below. -/
def exp2Go : Nat → Nat → Nat → Nat → Nat
  | 0, _, _, acc => acc
  | k + 1, g, r, acc =>
    let r' := isqrt (r * 2 ^ 320)
    exp2Go k (g % 2 ^ k) r' (if g / 2 ^ k = 1 then acc * r' / 2 ^ 320 else acc)

/-- 2^(n + g / 2^k) with g below 2^k: exact for g = 0, else to 160 bits with a last bit that says it lies above. -/
def exp2Frac (n : Int) (g k : Nat) : Val :=
  if g = 0 then .fin false 1 1 n
  else .fin false (2 * (exp2Go k g (2 * 2 ^ 320) (2 ^ 320) / 2 ^ 160) + 1) 1 (n - 161)

/-- 2^x of a finite dyadic x; beyond 2^15 in magnitude a value past every format (R174). -/
def exp2Fin (neg : Bool) (m : Nat) (e : Int) : Val :=
  if (m.log2 : Int) + e ≥ 15 then (if neg then .fin false 1 1 (-(2 ^ 15 : Nat)) else .fin false 3 1 (2 ^ 15 : Nat))
  else if e ≥ 0 then .fin false 1 1 ((if neg then -1 else 1) * (m * 2 ^ e.toNat : Nat))
  else if e < -256 then
    -- |x| is below 2^-200: the result differs from 1 by less than any format can show
    (if neg then .fin false (2 ^ 161 - 1) 1 (-161) else .fin false (2 ^ 161 + 1) 1 (-161))
  else
    let k := (-e).toNat
    let x : Int := if neg then -(m : Int) else m
    exp2Frac (x / (2 ^ k : Nat)) (x % (2 ^ k : Nat)).toNat k

/-- VEXP2 (R174, Table 09-3). -/
def exp2Val (a : Val) : Val × Nat :=
  match a with
  | .nan s => (.nan false, if s then 1 else 0)
  | .inf n => (if n then .fin false 0 1 0 else .inf false, 0)
  | .fin n m _ e => if m = 0 then (.fin false 1 1 0, 0) else (exp2Fin n m e, 0)

/-- Binary digits of log2 of y / 2^512 in [1, 2), `k` of them, appended to `acc`. -/
def log2Go : Nat → Nat → Nat → Nat
  | 0, _, acc => acc
  | k + 1, y, acc =>
    let z := y * y / 2 ^ 512
    if z ≥ 2 ^ 513 then log2Go k (z / 2) (2 * acc + 1) else log2Go k z (2 * acc)

/-- log2 of a positive m * 2^e as an integer over 2^161: exact for a power of two, else 160 bits and a last bit that says it lies above. -/
def log2Fix (m : Nat) (e : Int) : Int :=
  let l := m.log2
  let base : Int := (e + l) * (2 ^ 161 : Nat)
  if m = 2 ^ l then base
  else base + 2 * (log2Go 160 (m * 2 ^ 512 / 2 ^ l) 0 : Nat) + 1

/-- An integer over 2^k as an exact value. -/
def valOfFix (i : Int) (k : Nat) : Val := .fin (decide (i < 0)) i.natAbs 1 (-(k : Int))

/-- VLOG2 (R174, Table 09-3). -/
def log2Val (a : Val) : Val × Nat :=
  match a with
  | .nan s => (.nan false, if s then 1 else 0)
  | .inf n => if n then (.nan false, 1) else (.inf false, 0)
  | .fin n m _ e => if m = 0 then (.inf true, 2) else if n then (.nan false, 1) else (valOfFix (log2Fix m e) 161, 0)

/-- Compares two values that are not NaN: true when a < b, zeros equal. -/
def ltVal (a b : Val) : Bool :=
  match a, b with
  | .inf n, .inf n' => n && !n'
  | .inf n, _ => n
  | _, .inf n => !n
  | a, b =>
    let k := min (expOf a) (expOf b)
    decide (numerAt k a < numerAt k b)

/-- Compares two values that are not NaN for equality, zeros equal. -/
def eqVal (a b : Val) : Bool := !ltVal a b && !ltVal b a

/-- round_fp32(v, RNE) (Table 07-20). -/
def fp32 (v : Val) : Nat := (roundVal .f32 .rne false 0 v).1

/-- The FP32 sum rounded RNE. -/
def addF32 (a b : Nat) : Nat := fp32 (addVal .rne (decodeVal .f32 a) (decodeVal .f32 b)).1

/-- One step of the generator of R68. -/
def srNext (g : Word) : Word :=
  let g1 := g ^^^ (g <<< 13)
  let g2 := g1 ^^^ (g1 >>> 7)
  g2 ^^^ (g2 <<< 17)

/-- The 16-bit draw of a generator state (R68). -/
def srDraw (g : Word) : Nat := (g >>> 48).toNat

/-- The generator state after n draws (R69). -/
def srAdvance : Nat → Word → Word
  | 0, g => g
  | n + 1, g => srAdvance n (srNext g)

/-- The rounding mode of an RMODE value; codes 6 and 7, and SR without feature 5, round as RNE (R66, R275). -/
def modeOf (srOn : Bool) (rmode : Word) : RMode :=
  match (rmode &&& 7).toNat with
  | 1 => if srOn then .sr else .rne
  | 2 => .rna | 3 => .rtz | 4 => .rup | 5 => .rdn | _ => .rne

/-- The saturation switch of an RMODE value (Table 03-5). -/
def satOf (rmode : Word) : Bool := rmode.getLsbD 3

/-- The format of a vector type code (Table 07-2). -/
def fmtOfType (t : BitVec 4) : Fmt :=
  match t.toNat with
  | 0 => .f32 | 1 => .bf16 | 2 => .f16 | 3 => .e4m3 | 4 => .e5m2 | 5 => .int 32 | 6 => .int 16 | 7 => .int 8 | 8 => .int 4 | _ => .int 64

/-- The format of a livery's FMT code, none for Raw, LCB2 and reserved codes (Table 03-2). -/
def fmtOfLivery (c : Nat) : Option Fmt :=
  match c with
  | 1 => some .f32 | 2 => some .bf16 | 3 => some .f16 | 4 => some .e4m3 | 5 => some .e5m2 | 6 => some .e3m2 | 7 => some .e2m3
  | 8 => some .e2m1 | 9 => some (.int 8) | 10 => some (.int 4) | 11 => some (.int 32) | _ => none

/-! ### Block scales (R62, R73) -/

/-- A scale byte of a scale mode as a value (Table 03-1, R62). -/
def scaleOf (mode b : Nat) : Val :=
  if mode = 2 then decodeVal .e4m3 b else if b % 256 = 255 then .nan false else .fin false 1 1 ((b % 256 : Nat) - 127)

/-- A scaled element (R62); mode 0 leaves the element as it is. A NaN that scaling gives is quiet: decoding is no operation (R186). -/
def scaledVal (mode : Nat) (v : Val) (b : Nat) : Val :=
  if mode = 0 then v else if isNan (scaleOf mode b) || isNan v then .nan false else (mulVal v (scaleOf mode b)).1

/-- emax of a format for UE8M0 scales (R73). -/
def fmtEmaxScale : Fmt → Int
  | .e4m3 => 8 | .e5m2 => 15 | .e3m2 => 4 | .e2m3 => 2 | .e2m1 => 2 | .int 8 => 6 | _ => 2

/-- The magnitude of a value. -/
def absVal : Val → Val
  | .inf _ => .inf false
  | .fin _ m d e => .fin false m d e
  | v => v

/-- The largest magnitude among the finite values of a list (R73); 0 when there is none (DESIGN CHOICE, log 61: R73 names no amax of a
block without a finite value). -/
def amaxOf (vs : List Val) : Val :=
  (vs.filter (fun v => !isNan v && !isInf v)).foldl (fun a v => if ltVal a (absVal v) then absVal v else a) (.fin false 0 1 0)

/-- The scale byte of a block with these source values (R73). -/
def deriveScale (mode : Nat) (f : Fmt) (vs : List Val) : Nat :=
  if vs.any isNan then (if mode = 2 then 0x7F else 0xFF)
  else match amaxOf vs with
    | .fin _ m d e =>
      if m = 0 then 0
      else if mode = 2 then
        let r := (roundVal .e4m3 .rne true 0 (divVal (.fin false m d e) (decodeVal f (fmtMax f))).1).1
        if r = 0 then 1 else r
      else (max (-127) (min 127 (ilog2 m d e - fmtEmaxScale f)) + 127).toNat
    | _ => 0

/-- An element written under a derived scale (R73): the value divided by the scale, rounded once. -/
def encodeScaled (f : Fmt) (mode : Nat) (rm : RMode) (sat : Bool) (draw : Nat) (v : Val) (b : Nat) : Nat :=
  let sc := scaleOf mode b
  if isNan sc then fmtNan f
  else if isZero sc then (match f with | .int _ => 0 | f => signed f (negOf v) 0)
  else (roundVal f rm sat draw (divVal v sc).1).1

end Sys2Proof.Machine
end

