-- ==== Sys2Proof/Machine/Sparse.lean ====
section
/-!
DEFINITION. Sparse maps from a natural number to plain data: a list of (key, value) pairs in one canonical form, keys strictly rising
and no entry equal to the default `d` that an unlisted key reads as. Equal maps are equal lists. Memory, the cores and every
register file of the machine are held this way.
-/

namespace Sys2Proof.Machine

/-- The list behind a sparse map. -/
abbrev Sparse (α : Type) := List (Nat × α)

namespace Sparse

variable {α : Type}

/-- The value at a key; the list is read as rising, so the search ends at the first greater key. -/
def get (d : α) : Sparse α → Nat → α
  | [], _ => d
  | (k', v) :: l, k => if k < k' then d else if k = k' then v else get d l k

/-- Drops the leading entries with keys up to `k`. -/
def dropLE : Sparse α → Nat → Sparse α
  | [], _ => []
  | (k', v) :: l, k => if k' ≤ k then dropLE l k else (k', v) :: l

/-- Puts an entry in front unless it holds the default. -/
def front [DecidableEq α] (d : α) (k : Nat) (v : α) (l : Sparse α) : Sparse α := if v = d then l else (k, v) :: l

/-- The map with `v` at key `k`; writing the default removes the entry. -/
def set [DecidableEq α] (d : α) : Sparse α → Nat → α → Sparse α
  | [], k, v => front d k v []
  | (k', v') :: l, k, v =>
    if k < k' then front d k v ((k', v') :: l)
    else if k = k' then front d k v (dropLE l k)
    else (k', v') :: set d l k v

/-- Every key of the list is above `b`. -/
def above (b : Nat) (l : Sparse α) : Bool := l.all (fun e => decide (b < e.1))

/-- The canonical form: keys strictly rising, no default value listed. -/
def wf [DecidableEq α] (d : α) : Sparse α → Bool
  | [] => true
  | (k, v) :: l => decide (v ≠ d) && above k l && wf d l

/-- The map with a function applied to the value at one key. -/
def modify [DecidableEq α] (d : α) (l : Sparse α) (k : Nat) (f : α → α) : Sparse α := set d l k (f (get d l k))

/-- Writes several entries, the later ones last. -/
def setMany [DecidableEq α] (d : α) (l : Sparse α) (es : List (Nat × α)) : Sparse α :=
  es.foldl (fun m e => set d m e.1 e.2) l

end Sparse

end Sys2Proof.Machine
end

