-- ==== Sys2Proof/Syntax.lean ====
section
/-!
DEFINITION. The steps of the machine: one constructor per row of spec/opcode_table.json.
The first 240 are the encoded instructions, their fields named as the encoding tables name them; the other 63 are the steps of
the agents other than a core's issue (spec 95_what_each_step_holds.md) and carry what that step acts on.
-/

namespace Sys2Proof

/-- A request of a peer device (R25): at a UALink port, for the remote partition that sends it. -/
structure PeerReq where
  /-- UALink port it arrives on. -/
  port   : Nat
  /-- Tag of the remote partition that sends it. -/
  remote : Nat
  /-- Partition of this device whose memory is asked for. -/
  part   : Nat
  /-- True: a wagon, `addr` being cluster, wagon and offset as in REGION 3 of Table 01-7; false: a global virtual address. -/
  wagon  : Bool
  addr   : Nat
  write  : Bool
  /-- The 8 bytes to write. -/
  val    : Word
  /-- They belong to this chunk of this transfer of the sender, with remote-signal enable (R103). -/
  chunk  : Option (Nat × Nat) := none
  /-- They are the flag of this transfer, after chunks of these numbers of bytes (R103). -/
  flag   : Option (Nat × List Nat) := none
  deriving DecidableEq, Repr

/-- A host CXL.mem request for the 8 bytes at a device physical address (R278). -/
structure CxlReq where
  pa     : Nat
  write  : Bool
  val    : Word
  /-- Inside the IDE stream. -/
  ide    : Bool
  deriving DecidableEq, Repr

/-- A request of the management controller's firmware (R280). -/
inductive MgmtReq where
  | setPower (watts : Nat)
  | setClock (mhz : Nat)
  | clearIde
  | rekeyIde
  | writeHost (addr : Nat) (val : Byte)
  | readHost (addr : Nat)
  | readFrame (pa : Nat)
  | readFaultQueue (idx : Nat)
  | writeFrameOwner (frame : Nat)
  deriving DecidableEq, Repr

/-- The five settings of a hardware queue (R123). -/
structure QueueConf where
  owner : Option Nat
  prio  : Nat
  depth : Nat
  cls   : Nat
  sup   : Bool
  deriving DecidableEq, Repr

/-- A rotation as the driver sets it (R130): clusters, gangs of partitions, and the switch tick in ns. -/
structure RotConf where
  clusters : List Nat
  gangs    : List (List Nat)
  tick     : Nat
  deriving DecidableEq, Repr

/-- One step of the machine. -/
inductive Instr where
  /-- ADD (R150). Writes sA + sB modulo 2^64 to sD. -/
  | add (d : BitVec 6) (a : BitVec 6) (b : BitVec 6)
  /-- SUB (R150). Writes sA - sB modulo 2^64 to sD. -/
  | sub (d : BitVec 6) (a : BitVec 6) (b : BitVec 6)
  /-- AND (R150). Writes the bitwise AND of sA and sB to sD. -/
  | andR (d : BitVec 6) (a : BitVec 6) (b : BitVec 6)
  /-- OR (R150). Writes the bitwise OR of sA and sB to sD. -/
  | orR (d : BitVec 6) (a : BitVec 6) (b : BitVec 6)
  /-- XOR (R150). Writes the bitwise XOR of sA and sB to sD. -/
  | xorR (d : BitVec 6) (a : BitVec 6) (b : BitVec 6)
  /-- ANDN (R150). Writes sA AND NOT sB to sD. -/
  | andn (d : BitVec 6) (a : BitVec 6) (b : BitVec 6)
  /-- SHL (R150). Shifts sA left by sB[5:0]. -/
  | shl (d : BitVec 6) (a : BitVec 6) (b : BitVec 6)
  /-- SHR (R150). Shifts sA right logically by sB[5:0]. -/
  | shr (d : BitVec 6) (a : BitVec 6) (b : BitVec 6)
  /-- SHRA (R150). Shifts sA right arithmetically by sB[5:0]. -/
  | shra (d : BitVec 6) (a : BitVec 6) (b : BitVec 6)
  /-- ROR (R150). Rotates sA right by sB[5:0]. -/
  | ror (d : BitVec 6) (a : BitVec 6) (b : BitVec 6)
  /-- MIN (R150). Writes the signed smaller of sA and sB. -/
  | minS (d : BitVec 6) (a : BitVec 6) (b : BitVec 6)
  /-- MAX (R150). Writes the signed larger of sA and sB. -/
  | maxS (d : BitVec 6) (a : BitVec 6) (b : BitVec 6)
  /-- MINU (R150). Writes the unsigned smaller of sA and sB. -/
  | minu (d : BitVec 6) (a : BitVec 6) (b : BitVec 6)
  /-- MAXU (R150). Writes the unsigned larger of sA and sB. -/
  | maxu (d : BitVec 6) (a : BitVec 6) (b : BitVec 6)
  /-- SLT (R150). Writes 1 if sA < sB as signed values, else 0. -/
  | slt (d : BitVec 6) (a : BitVec 6) (b : BitVec 6)
  /-- SLTU (R150). Writes 1 if sA < sB as unsigned values, else 0. -/
  | sltu (d : BitVec 6) (a : BitVec 6) (b : BitVec 6)
  /-- SEQ (R150). Writes 1 if sA = sB, else 0. -/
  | seq (d : BitVec 6) (a : BitVec 6) (b : BitVec 6)
  /-- ADDI (R151). Adds a signed 13-bit immediate to sA. -/
  | addi (d : BitVec 6) (a : BitVec 6) (i : BitVec 13)
  /-- ANDI (R151). ANDs sA with a signed 11-bit immediate. -/
  | andi (d : BitVec 6) (a : BitVec 6) (i : BitVec 11)
  /-- ORI (R151). ORs sA with a zero-extended 11-bit immediate. -/
  | ori (d : BitVec 6) (a : BitVec 6) (i : BitVec 11)
  /-- XORI (R151). XORs sA with a zero-extended 11-bit immediate. -/
  | xori (d : BitVec 6) (a : BitVec 6) (i : BitVec 11)
  /-- SLTI (R151). Signed compare of sA with a signed 9-bit immediate. -/
  | slti (d : BitVec 6) (a : BitVec 6) (i : BitVec 9)
  /-- SLTUI (R151). Unsigned compare of sA with a sign-extended 9-bit immediate. -/
  | sltui (d : BitVec 6) (a : BitVec 6) (i : BitVec 9)
  /-- SHLI (R151). Shifts sA left by an immediate from 0 to 63. -/
  | shli (d : BitVec 6) (a : BitVec 6) (n : BitVec 6)
  /-- SHRI (R151). Shifts sA right logically by an immediate. -/
  | shri (d : BitVec 6) (a : BitVec 6) (n : BitVec 6)
  /-- SHRAI (R151). Shifts sA right arithmetically by an immediate. -/
  | shrai (d : BitVec 6) (a : BitVec 6) (n : BitVec 6)
  /-- RORI (R151). Rotates sA right by an immediate. -/
  | rori (d : BitVec 6) (a : BitVec 6) (n : BitVec 6)
  /-- LUI (R152). Writes sext(imm19) x 2^13 to sD. -/
  | lui (d : BitVec 6) (i : BitVec 19)
  /-- ADDPC (R152). Writes PC + sext(imm19) x 2^13 to sD. -/
  | addpc (d : BitVec 6) (i : BitVec 19)
  /-- MUL (R153). Writes the low 64 bits of sA x sB. -/
  | mul (d : BitVec 6) (a : BitVec 6) (b : BitVec 6)
  /-- MULH (R153). Writes the high 64 bits of the signed 128-bit product. -/
  | mulh (d : BitVec 6) (a : BitVec 6) (b : BitVec 6)
  /-- MULHU (R153). Writes the high 64 bits of the unsigned 128-bit product. -/
  | mulhu (d : BitVec 6) (a : BitVec 6) (b : BitVec 6)
  /-- DIV (R153). Signed quotient rounded toward zero; division by zero traps with TCAUSE 8 when DZT[0] is 1. -/
  | div (d : BitVec 6) (a : BitVec 6) (b : BitVec 6)
  /-- DIVU (R153). Unsigned quotient, with the division-by-zero rule of DZT. -/
  | divu (d : BitVec 6) (a : BitVec 6) (b : BitVec 6)
  /-- REM (R153). Signed remainder with the dividend's sign. -/
  | rem (d : BitVec 6) (a : BitVec 6) (b : BitVec 6)
  /-- REMU (R153). Unsigned remainder. -/
  | remu (d : BitVec 6) (a : BitVec 6) (b : BitVec 6)
  /-- MADD (R153). Writes (sA x sB + sD) mod 2^64 to sD. -/
  | madd (d : BitVec 6) (a : BitVec 6) (b : BitVec 6)
  /-- SEL (R153). Writes sA to sD if sD is non-zero, else sB. -/
  | sel (d : BitVec 6) (a : BitVec 6) (b : BitVec 6)
  /-- CLZ (R153). Counts the leading zero bits of sA. -/
  | clz (d : BitVec 6) (a : BitVec 6)
  /-- CTZ (R153). Counts the trailing zero bits of sA. -/
  | ctz (d : BitVec 6) (a : BitVec 6)
  /-- POPC (R153). Counts the one bits of sA. -/
  | popc (d : BitVec 6) (a : BitVec 6)
  /-- BREV (R153). Reverses the bit order of sA. -/
  | brev (d : BitVec 6) (a : BitVec 6)
  /-- SEXTB (R153). Sign-extends the low 8 bits of sA. -/
  | sextb (d : BitVec 6) (a : BitVec 6)
  /-- SEXTH (R153). Sign-extends the low 16 bits of sA. -/
  | sexth (d : BitVec 6) (a : BitVec 6)
  /-- SEXTW (R153). Sign-extends the low 32 bits of sA. -/
  | sextw (d : BitVec 6) (a : BitVec 6)
  /-- BFX (R153). Extracts a sign-extended bit field of sA. -/
  | bfx (d : BitVec 6) (a : BitVec 6) (p : BitVec 6) (l : BitVec 6)
  /-- BFXU (R153). Extracts a zero-extended bit field of sA. -/
  | bfxu (d : BitVec 6) (a : BitVec 6) (p : BitVec 6) (l : BitVec 6)
  /-- BFI (R153). Inserts the low bits of sA into a field of sD. -/
  | bfi (d : BitVec 6) (a : BitVec 6) (p : BitVec 6) (l : BitVec 6)
  /-- BR.EQ (R154). Branches when sA = sB. -/
  | brEq (a : BitVec 6) (b : BitVec 6) (i : BitVec 11)
  /-- BR.NE (R154). Branches when sA differs from sB. -/
  | brNe (a : BitVec 6) (b : BitVec 6) (i : BitVec 11)
  /-- BR.LT (R154). Branches when sA < sB as signed values. -/
  | brLt (a : BitVec 6) (b : BitVec 6) (i : BitVec 11)
  /-- BR.GE (R154). Branches when sA >= sB as signed values. -/
  | brGe (a : BitVec 6) (b : BitVec 6) (i : BitVec 11)
  /-- BR.LTU (R154). Branches when sA < sB as unsigned values. -/
  | brLtu (a : BitVec 6) (b : BitVec 6) (i : BitVec 11)
  /-- BR.GEU (R154). Branches when sA >= sB as unsigned values. -/
  | brGeu (a : BitVec 6) (b : BitVec 6) (i : BitVec 11)
  /-- JMP (R155). Jumps to a PC-relative word offset. -/
  | jmp (i : BitVec 25)
  /-- CALL (R155). Writes PC + 4 to s63 and jumps to a PC-relative target. -/
  | call (i : BitVec 25)
  /-- JR (R155). Jumps to the address in sA. -/
  | jr (a : BitVec 6)
  /-- CALLR (R155). Writes PC + 4 to s63 and jumps to the earlier value of sA. -/
  | callr (a : BitVec 6)
  /-- WLOOP (R158). Branches while END_dim of the walker is 0, otherwise clears END_0 to END_dim and falls through. -/
  | wloop (w : BitVec 3) (n : BitVec 2) (i : BitVec 11)
  /-- LDB (R159). Loads a sign-extended byte. -/
  | ldb (d : BitVec 6) (a : BitVec 6) (i : BitVec 11)
  /-- LDBU (R159). Loads a zero-extended byte. -/
  | ldbu (d : BitVec 6) (a : BitVec 6) (i : BitVec 11)
  /-- LDH (R159). Loads a sign-extended halfword. -/
  | ldh (d : BitVec 6) (a : BitVec 6) (i : BitVec 11)
  /-- LDHU (R159). Loads a zero-extended halfword. -/
  | ldhu (d : BitVec 6) (a : BitVec 6) (i : BitVec 11)
  /-- LDW (R159). Loads a sign-extended word. -/
  | ldw (d : BitVec 6) (a : BitVec 6) (i : BitVec 11)
  /-- LDWU (R159). Loads a zero-extended word. -/
  | ldwu (d : BitVec 6) (a : BitVec 6) (i : BitVec 11)
  /-- LDD (R159). Loads a doubleword; on an event line it waits for a generation change (R13). -/
  | ldd (d : BitVec 6) (a : BitVec 6) (i : BitVec 11)
  /-- LDP (R19). Reads a parameter window with zero fill beyond its bound and sets PWSTAT on an out-of-bound read. -/
  | ldp (d : BitVec 6) (a : BitVec 6) (w : BitVec 3) (s : BitVec 2) (u : BitVec 1) (i : BitVec 5)
  /-- STB (R160). Stores the low byte of sD. -/
  | stb (d : BitVec 6) (a : BitVec 6) (i : BitVec 12)
  /-- STH (R160). Stores the low halfword of sD. -/
  | sth (d : BitVec 6) (a : BitVec 6) (i : BitVec 12)
  /-- STW (R160). Stores the low word of sD. -/
  | stw (d : BitVec 6) (a : BitVec 6) (i : BitVec 12)
  /-- STD (R160). Stores sD as a doubleword; in space 0xEC it writes a channel shadow register as CPSET does. -/
  | std (d : BitVec 6) (a : BitVec 6) (i : BitVec 12)
  /-- AADD (R162). Atomic add of sB to memory, returning the old value. -/
  | aadd (d : BitVec 6) (a : BitVec 6) (b : BitVec 5) (o : BitVec 2) (s : BitVec 3)
  /-- AAND (R162). Atomic AND of sB into memory. -/
  | aand (d : BitVec 6) (a : BitVec 6) (b : BitVec 5) (o : BitVec 2) (s : BitVec 3)
  /-- AOR (R162). Atomic OR of sB into memory. -/
  | aor (d : BitVec 6) (a : BitVec 6) (b : BitVec 5) (o : BitVec 2) (s : BitVec 3)
  /-- AXOR (R162). Atomic XOR of sB into memory. -/
  | axor (d : BitVec 6) (a : BitVec 6) (b : BitVec 5) (o : BitVec 2) (s : BitVec 3)
  /-- AMIN (R162). Atomic signed minimum. -/
  | amin (d : BitVec 6) (a : BitVec 6) (b : BitVec 5) (o : BitVec 2) (s : BitVec 3)
  /-- AMAX (R162). Atomic signed maximum. -/
  | amax (d : BitVec 6) (a : BitVec 6) (b : BitVec 5) (o : BitVec 2) (s : BitVec 3)
  /-- AMINU (R162). Atomic unsigned minimum. -/
  | aminu (d : BitVec 6) (a : BitVec 6) (b : BitVec 5) (o : BitVec 2) (s : BitVec 3)
  /-- AMAXU (R162). Atomic unsigned maximum. -/
  | amaxu (d : BitVec 6) (a : BitVec 6) (b : BitVec 5) (o : BitVec 2) (s : BitVec 3)
  /-- ASWP (R162). Atomic swap with sB. -/
  | aswp (d : BitVec 6) (a : BitVec 6) (b : BitVec 5) (o : BitVec 2) (s : BitVec 3)
  /-- ACAS (R162). Atomic compare-and-swap that writes sB when memory equals sD. -/
  | acas (d : BitVec 6) (a : BitVec 6) (b : BitVec 5) (o : BitVec 2) (s : BitVec 3)
  /-- AFADD (R162). Atomic 4-byte FP32 add under RMODE. -/
  | afadd (d : BitVec 6) (a : BitVec 6) (b : BitVec 5) (o : BitVec 2) (s : BitVec 3)
  /-- FENCE (R98). Orders the predecessor set before the successor set at a scope. -/
  | fence (p : BitVec 2) (q : BitVec 2) (s : BitVec 3)
  /-- IFENCE (R87). Makes later fetches observe the stores and acquired writes of the core. -/
  | ifence
  /-- LDx.ACQ (R163). Acquire load of a given width at a scope. -/
  | ldAcq (d : BitVec 6) (a : BitVec 6) (u : BitVec 1) (w : BitVec 2) (s : BitVec 3)
  /-- STx.REL (R163). Release store of a given width at a scope. -/
  | stRel (d : BitVec 6) (a : BitVec 6) (w : BitVec 2) (s : BitVec 3)
  /-- WBIND (R156). Binds a walker to a base and four dimensions read from sB onwards. -/
  | wbind (w : BitVec 3) (a : BitVec 6) (b : BitVec 6)
  /-- WUNBIND (R156). Unbinds a walker. -/
  | wunbind (w : BitVec 3)
  /-- WSTAT (R158). Reads the address, flags or an index of a walker without advancing it. -/
  | wstat (d : BitVec 6) (w : BitVec 3) (q : BitVec 6)
  /-- CSRR (R164). Reads a CSR into sD. -/
  | csrr (d : BitVec 6) (c : BitVec 12)
  /-- CSRW (R164). Reads a CSR into sD and writes sA to it. -/
  | csrw (d : BitVec 6) (a : BitVec 6) (c : BitVec 12)
  /-- CSRS (R164). Reads a CSR into sD and sets the bits of sA. -/
  | csrs (d : BitVec 6) (a : BitVec 6) (c : BitVec 12)
  /-- CSRC (R164). Reads a CSR into sD and clears the bits of sA. -/
  | csrc (d : BitVec 6) (a : BitVec 6) (c : BitVec 12)
  /-- SYSCALL (R165). Traps with TCAUSE 13 and the 12-bit code in TVAL. -/
  | syscall (c : BitVec 12)
  /-- BREAK (R165). Traps with TCAUSE 12 and the 12-bit code in TVAL. -/
  | brk (c : BitVec 12)
  /-- TRET (R166). Returns from a trap to TEPC, restoring privilege and clearing NEST. -/
  | tret
  /-- DONE (R167). Begins retirement of the task. -/
  | doneT
  /-- WAITI (R165). Waits until the inbox or the receive queue holds an entry. -/
  | waiti
  /-- INBOX (R168). Removes the oldest inbox entry into sD and s(D+1); a completion kind acquires the command's writes. -/
  | inbox (d : BitVec 6)
  /-- INPEEK (R168). Reads the oldest inbox entry without removing it. -/
  | inpeek (d : BitVec 6)
  /-- NOP (R169). Hint code 0; no effect. -/
  | nop
  /-- HINT (R169). Tool marker hint with no effect. -/
  | hint (n : BitVec 26)
  /-- HINT.PF (R169). Prefetches the line at si into the read cache. -/
  | hintPf (i : BitVec 6)
  /-- HINT.PFM (R169). Prefetches the line at si into the memory-side cache. -/
  | hintPfm (i : BitVec 6)
  /-- HINT.SPIN (R169). Marks a polling loop. -/
  | hintSpin
  /-- VADD (R174). Vector floating-point add, rounded once under RMODE. -/
  | vadd (d : BitVec 5) (a : BitVec 5) (b : BitVec 5) (k : BitVec 3) (t : BitVec 4)
  /-- VSUB (R174). Vector floating-point subtract. -/
  | vsub (d : BitVec 5) (a : BitVec 5) (b : BitVec 5) (k : BitVec 3) (t : BitVec 4)
  /-- VMUL (R174). Vector floating-point multiply. -/
  | vmul (d : BitVec 5) (a : BitVec 5) (b : BitVec 5) (k : BitVec 3) (t : BitVec 4)
  /-- VFMA (R174). Fused a x b + c. -/
  | vfma (d : BitVec 5) (a : BitVec 5) (b : BitVec 5) (k : BitVec 3) (t : BitVec 4)
  /-- VFMS (R174). Fused a x b - c. -/
  | vfms (d : BitVec 5) (a : BitVec 5) (b : BitVec 5) (k : BitVec 3) (t : BitVec 4)
  /-- VFNMA (R174). Fused -(a x b) + c. -/
  | vfnma (d : BitVec 5) (a : BitVec 5) (b : BitVec 5) (k : BitVec 3) (t : BitVec 4)
  /-- VDIV (R174). Vector floating-point divide, correctly rounded. -/
  | vdiv (d : BitVec 5) (a : BitVec 5) (b : BitVec 5) (k : BitVec 3) (t : BitVec 4)
  /-- VSQRT (R174). Vector square root. -/
  | vsqrt (d : BitVec 5) (a : BitVec 5) (k : BitVec 3) (t : BitVec 4)
  /-- VRCP (R174). Vector reciprocal. -/
  | vrcp (d : BitVec 5) (a : BitVec 5) (k : BitVec 3) (t : BitVec 4)
  /-- VMIN (R174). Vector floating-point minimum, not rounded. -/
  | vmin (d : BitVec 5) (a : BitVec 5) (b : BitVec 5) (k : BitVec 3) (t : BitVec 4)
  /-- VMAX (R174). Vector floating-point maximum, not rounded. -/
  | vmax (d : BitVec 5) (a : BitVec 5) (b : BitVec 5) (k : BitVec 3) (t : BitVec 4)
  /-- VABS (R174). Clears the sign bit of each element. -/
  | vabs (d : BitVec 5) (a : BitVec 5) (k : BitVec 3) (t : BitVec 4)
  /-- VNEG (R174). Inverts the sign bit of each element. -/
  | vneg (d : BitVec 5) (a : BitVec 5) (k : BitVec 3) (t : BitVec 4)
  /-- VEXP2 (R174). Correctly rounded 2^a. -/
  | vexp2 (d : BitVec 5) (a : BitVec 5) (k : BitVec 3) (t : BitVec 4)
  /-- VLOG2 (R174). Correctly rounded log2 a. -/
  | vlog2 (d : BitVec 5) (a : BitVec 5) (k : BitVec 3) (t : BitVec 4)
  /-- VIADD (R175). Vector integer add modulo 2^w. -/
  | viadd (d : BitVec 5) (a : BitVec 5) (b : BitVec 5) (k : BitVec 3) (t : BitVec 4)
  /-- VISUB (R175). Vector integer subtract. -/
  | visub (d : BitVec 5) (a : BitVec 5) (b : BitVec 5) (k : BitVec 3) (t : BitVec 4)
  /-- VIMUL (R175). Low w bits of the product. -/
  | vimul (d : BitVec 5) (a : BitVec 5) (b : BitVec 5) (k : BitVec 3) (t : BitVec 4)
  /-- VIMAD (R175). Low w bits of a x b + c. -/
  | vimad (d : BitVec 5) (a : BitVec 5) (b : BitVec 5) (k : BitVec 3) (t : BitVec 4)
  /-- VIMIN (R175). Signed vector minimum. -/
  | vimin (d : BitVec 5) (a : BitVec 5) (b : BitVec 5) (k : BitVec 3) (t : BitVec 4)
  /-- VIMAX (R175). Signed vector maximum. -/
  | vimax (d : BitVec 5) (a : BitVec 5) (b : BitVec 5) (k : BitVec 3) (t : BitVec 4)
  /-- VIMINU (R175). Unsigned vector minimum. -/
  | viminu (d : BitVec 5) (a : BitVec 5) (b : BitVec 5) (k : BitVec 3) (t : BitVec 4)
  /-- VIMAXU (R175). Unsigned vector maximum. -/
  | vimaxu (d : BitVec 5) (a : BitVec 5) (b : BitVec 5) (k : BitVec 3) (t : BitVec 4)
  /-- VISHL (R175). Vector shift left. -/
  | vishl (d : BitVec 5) (a : BitVec 5) (b : BitVec 5) (k : BitVec 3) (t : BitVec 4)
  /-- VISHR (R175). Vector logical right shift. -/
  | vishr (d : BitVec 5) (a : BitVec 5) (b : BitVec 5) (k : BitVec 3) (t : BitVec 4)
  /-- VISHRA (R175). Vector arithmetic right shift. -/
  | vishra (d : BitVec 5) (a : BitVec 5) (b : BitVec 5) (k : BitVec 3) (t : BitVec 4)
  /-- VIADDS (R175). Saturating signed add that raises NV on saturation. -/
  | viadds (d : BitVec 5) (a : BitVec 5) (b : BitVec 5) (k : BitVec 3) (t : BitVec 4)
  /-- VAND (R176). Bitwise AND of vA and vB. -/
  | vand (d : BitVec 5) (a : BitVec 5) (b : BitVec 5) (k : BitVec 3) (t : BitVec 4)
  /-- VOR (R176). Bitwise OR of vA and vB. -/
  | vor (d : BitVec 5) (a : BitVec 5) (b : BitVec 5) (k : BitVec 3) (t : BitVec 4)
  /-- VXOR (R176). Bitwise XOR of vA and vB. -/
  | vxor (d : BitVec 5) (a : BitVec 5) (b : BitVec 5) (k : BitVec 3) (t : BitVec 4)
  /-- VNOT (R176). Bitwise NOT of vA. -/
  | vnot (d : BitVec 5) (a : BitVec 5) (k : BitVec 3) (t : BitVec 4)
  /-- VPERM (R177). Permutes the elements of vA by the indices in vB. -/
  | vperm (d : BitVec 5) (a : BitVec 5) (b : BitVec 5) (k : BitVec 3) (t : BitVec 4)
  /-- VSLIDE (R178). Slides elements down by an immediate, filling with zero. -/
  | vslide (d : BitVec 5) (a : BitVec 5) (n : BitVec 5) (k : BitVec 3) (t : BitVec 4)
  /-- VBCAST (R178). Broadcasts element n of vA to every active element. -/
  | vbcast (d : BitVec 5) (a : BitVec 5) (n : BitVec 5) (k : BitVec 3) (t : BitVec 4)
  /-- VSEL (R179). Selects vA where the mask is set, else vB. -/
  | vsel (d : BitVec 5) (a : BitVec 5) (b : BitVec 5) (k : BitVec 3) (t : BitVec 4)
  /-- VCMP.EQ (R180). Compares for equality into a mask. -/
  | vcmpEq (d : BitVec 3) (a : BitVec 5) (b : BitVec 5) (k : BitVec 3) (t : BitVec 4)
  /-- VCMP.NE (R180). Compares for inequality into a mask. -/
  | vcmpNe (d : BitVec 3) (a : BitVec 5) (b : BitVec 5) (k : BitVec 3) (t : BitVec 4)
  /-- VCMP.LT (R180). Compares a < b into a mask. -/
  | vcmpLt (d : BitVec 3) (a : BitVec 5) (b : BitVec 5) (k : BitVec 3) (t : BitVec 4)
  /-- VCMP.LE (R180). Compares a <= b into a mask. -/
  | vcmpLe (d : BitVec 3) (a : BitVec 5) (b : BitVec 5) (k : BitVec 3) (t : BitVec 4)
  /-- VCMP.LTU (R180). Unsigned compare a < b into a mask. -/
  | vcmpLtu (d : BitVec 3) (a : BitVec 5) (b : BitVec 5) (k : BitVec 3) (t : BitVec 4)
  /-- VCMP.LEU (R180). Unsigned compare a <= b into a mask. -/
  | vcmpLeu (d : BitVec 3) (a : BitVec 5) (b : BitVec 5) (k : BitVec 3) (t : BitVec 4)
  /-- VCMP.UN (R180). Tests whether either operand is NaN. -/
  | vcmpUn (d : BitVec 3) (a : BitVec 5) (b : BitVec 5) (k : BitVec 3) (t : BitVec 4)
  /-- VCVT (R182). Converts elements between two types of the same width. -/
  | vcvt (d : BitVec 5) (a : BitVec 5) (s : BitVec 4) (k : BitVec 3) (t : BitVec 4)
  /-- VWIDEN (R182). Converts into a wider type, filling a pair or quad in blocked order. -/
  | vwiden (d : BitVec 5) (a : BitVec 5) (s : BitVec 4) (k : BitVec 3) (t : BitVec 4)
  /-- VNARROW (R182). Converts a pair or quad into a narrower type. -/
  | vnarrow (d : BitVec 5) (a : BitVec 5) (s : BitVec 4) (k : BitVec 3) (t : BitVec 4)
  /-- VLD (R185). Contiguous vector load from sA + sB. -/
  | vld (d : BitVec 5) (a : BitVec 6) (b : BitVec 6) (k : BitVec 3) (w : BitVec 3)
  /-- VST (R185). Contiguous vector store of active elements. -/
  | vst (d : BitVec 5) (a : BitVec 6) (b : BitVec 6) (k : BitVec 3) (w : BitVec 3)
  /-- VLDS (R185). Strided vector load. -/
  | vlds (d : BitVec 5) (a : BitVec 6) (b : BitVec 6) (k : BitVec 3) (w : BitVec 3)
  /-- VSTS (R185). Strided vector store. -/
  | vsts (d : BitVec 5) (a : BitVec 6) (b : BitVec 6) (k : BitVec 3) (w : BitVec 3)
  /-- VLDG (R185). Gathered vector load by an index vector. -/
  | vldg (d : BitVec 5) (a : BitVec 6) (b : BitVec 5) (k : BitVec 3) (w : BitVec 1)
  /-- VSTG (R185). Scattered vector store by an index vector. -/
  | vstg (d : BitVec 5) (a : BitVec 6) (b : BitVec 5) (k : BitVec 3) (w : BitVec 1)
  /-- VLDX (R186). Loads wagon elements and decodes them by the wagon's livery. -/
  | vldx (d : BitVec 5) (a : BitVec 6) (b : BitVec 6) (k : BitVec 3) (t : BitVec 3)
  /-- VRSUM (R187). Pairwise-tree sum into element 0. -/
  | vrsum (d : BitVec 5) (a : BitVec 5) (k : BitVec 3) (t : BitVec 4)
  /-- VRMAX (R187). Pairwise-tree maximum into element 0. -/
  | vrmax (d : BitVec 5) (a : BitVec 5) (k : BitVec 3) (t : BitVec 4)
  /-- VRMIN (R187). Pairwise-tree minimum into element 0. -/
  | vrmin (d : BitVec 5) (a : BitVec 5) (k : BitVec 3) (t : BitVec 4)
  /-- VSCAN (R188). Inclusive prefix sums. -/
  | vscan (d : BitVec 5) (a : BitVec 5) (k : BitVec 3) (t : BitVec 4)
  /-- KAND (R190). Mask AND. -/
  | kand (d : BitVec 3) (a : BitVec 3) (b : BitVec 3)
  /-- KOR (R190). Mask OR. -/
  | kor (d : BitVec 3) (a : BitVec 3) (b : BitVec 3)
  /-- KXOR (R190). Mask XOR. -/
  | kxor (d : BitVec 3) (a : BitVec 3) (b : BitVec 3)
  /-- KNOT (R190). Mask NOT. -/
  | knot (d : BitVec 3) (a : BitVec 3)
  /-- KPOPC (R190). Counts the active elements of a mask. -/
  | kpopc (d : BitVec 5) (a : BitVec 3) (t : BitVec 4)
  /-- KFIRST (R190). Returns the lowest active element index. -/
  | kfirst (d : BitVec 5) (a : BitVec 3) (t : BitVec 4)
  /-- KFROM (R190). Builds a mask with the first sA elements active. -/
  | kfrom (d : BitVec 3) (a : BitVec 5) (t : BitVec 4)
  /-- VGET (R191). Reads one element of vA into a scalar register. -/
  | vget (i : BitVec 5) (a : BitVec 5) (d : BitVec 6) (t : BitVec 4)
  /-- VPUT (R191). Writes a scalar into one element of vD. -/
  | vput (d : BitVec 5) (i : BitVec 5) (b : BitVec 6) (t : BitVec 4)
  /-- VMOV (R191). Copies the active elements of vA into vD. -/
  | vmov (d : BitVec 5) (a : BitVec 5) (k : BitVec 2) (t : BitVec 4)
  /-- VMOV.S (R191). Writes a scalar to every active element of vD. -/
  | vmovS (d : BitVec 5) (b : BitVec 6) (k : BitVec 2) (t : BitVec 4)
  /-- HITCH (R193). Supervisor allocation of a wagon into a free slot, waiting for any zeroing. -/
  | hitch (d : BitVec 6) (s : BitVec 5)
  /-- HAND (R39). Makes the hand-over checks and commits a hand-over of a wagon to a target slot. -/
  | hand (d : BitVec 6) (s : BitVec 5) (b : BitVec 6)
  /-- TAKE (R43). Takes an arriving wagon, waiting on a detached slot. -/
  | take (d : BitVec 6) (s : BitVec 5)
  /-- TAKE.T (R43). Takes an arriving wagon, comparing its tag with ETAG. -/
  | takeT (d : BitVec 6) (s : BitVec 5)
  /-- DROP (R37). Returns a wagon to the yard or clears RVK. -/
  | drop (d : BitVec 6) (s : BitVec 5)
  /-- HSTAT (R34). Reads a slot's hitch entry. -/
  | hstat (d : BitVec 6) (s : BitVec 5)
  /-- LVSET (R52). Waits until PEND is 0 and writes the wagon's livery. -/
  | lvset (s : BitVec 5) (b : BitVec 6)
  /-- LVGET (R52). Reads the wagon's livery. -/
  | lvget (d : BitVec 6) (s : BitVec 5)
  /-- WTAG (R52). Sets the sequence tag of the wagon in a slot. -/
  | wtag (s : BitVec 5) (b : BitVec 6)
  /-- WTAG.E (R193). Sets the expected tag ETAG of a slot. -/
  | wtagE (s : BitVec 5) (b : BitVec 6)
  /-- HITCH.IMP (R48). Supervisor claim of an impounded wagon of its own partition. -/
  | hitchImp (d : BitVec 6) (s : BitVec 5) (b : BitVec 6)
  /-- BINIT (R197). Sets the members of a caravan barrier. -/
  | binit (d : BitVec 6) (n : BitVec 6) (b : BitVec 6)
  /-- BARR (R197). Arrives at a barrier without waiting. -/
  | barr (d : BitVec 6) (n : BitVec 6)
  /-- BWAIT (R197). Waits on a barrier line as an event-line LDD. -/
  | bwait (d : BitVec 6) (n : BitVec 6)
  /-- BARRW (R197). Arrives at a barrier and waits for the phase. -/
  | barrw (d : BitVec 6) (n : BitVec 6)
  /-- BWDR (R197). Withdraws a member from a barrier. -/
  | bwdr (d : BitVec 6) (n : BitVec 6) (b : BitVec 6)
  /-- EVWAIT (R197). Waits on an event flag line. -/
  | evwait (d : BitVec 6) (n : BitVec 6)
  /-- EVSIG (R197). Raises the generation of an event flag line and wakes its waiters. -/
  | evsig (d : BitVec 6) (n : BitVec 6)
  /-- MLOCK (R196). Waits until a mutex is granted to the core. -/
  | mlock (d : BitVec 6) (n : BitVec 6)
  /-- MUNLOCK (R196). Frees a mutex and grants it to the next waiter. -/
  | munlock (n : BitVec 6)
  /-- TRIG (R99). Marks the task triggered for dependent launches. -/
  | trig
  /-- HALTPT (R116). Records a live-range table and is a pre-emption point. -/
  | haltpt (a : BitVec 6)
  /-- VCCWAIT (R113). Holds the core until VCC reaches sA. -/
  | vccwait (a : BitVec 6)
  /-- SUBMIT (R120). Stores a 64-byte launch or group packet to a hardware queue and returns its status. -/
  | submit (d : BitVec 6) (a : BitVec 6) (b : BitVec 5)
  /-- CPSET (R202). Writes a copy-channel shadow register. -/
  | cpset (a : BitVec 6) (r : BitVec 6) (c : BitVec 2)
  /-- CPGET (R202). Reads a copy-channel shadow register. -/
  | cpget (d : BitVec 6) (r : BitVec 6) (c : BitVec 2)
  /-- CPGO (R204). Checks the shadows and starts a transfer or returns an error id. -/
  | cpgo (d : BitVec 6) (c : BitVec 2)
  /-- CPWM (R209). Reads the watermark of a channel's oldest window transfer. -/
  | cpwm (d : BitVec 6) (c : BitVec 2)
  /-- CPABORT (R209). Aborts an incomplete transfer by its id. -/
  | cpabort (d : BitVec 6) (a : BitVec 6)
  /-- DLEASE (R211). Requests the lease of a dray and waits for the grant. -/
  | dlease (u : BitVec 1)
  /-- DFREE (R211). Closes the open batch, waits for the lease's batches and releases the lease. -/
  | dfree (u : BitVec 1)
  /-- DCOMMIT (R215). Closes the open batch and returns its number. -/
  | dcommit (d : BitVec 6) (u : BitVec 1)
  /-- DWAIT (R215). Waits for a batch to complete and posts its completion message. -/
  | dwait (d : BitVec 6) (a : BitVec 6) (u : BitVec 1)
  /-- MMA (R212). Issues an asynchronous matrix multiply-accumulate on one dray. -/
  | mma (d : BitVec 6) (a : BitVec 6) (b : BitVec 6) (u : BitVec 1)
  /-- MMAC (R212). Issues a matrix multiply-accumulate spanning both drays. -/
  | mmac (d : BitVec 6) (a : BitVec 6) (b : BitVec 6)
  /-- ACCRD (R214). Reads one accumulator element. -/
  | accrd (d : BitVec 6) (a : BitVec 6) (u : BitVec 1)
  /-- ACCRD.V (R214). Reads 128 accumulator elements of a row into a vector. -/
  | accrdV (d : BitVec 5) (a : BitVec 6) (u : BitVec 1)
  /-- ACCWR (R214). Writes 128 accumulator elements of a row from a vector. -/
  | accwr (a : BitVec 6) (b : BitVec 5) (u : BitVec 1)
  /-- ACCZERO (R214). Sets accumulator rows to +0. -/
  | acczero (d : BitVec 6) (a : BitVec 6) (u : BitVec 1)
  /-- ACCST (R214). Converts an accumulator region into a wagon. -/
  | accst (d : BitVec 6) (a : BitVec 6) (b : BitVec 6) (u : BitVec 1)
  /-- ACCWR.CB (R214). Loads the dray's LCB2 magnitude table from a wagon. -/
  | accwrCb (d : BitVec 6) (a : BitVec 6) (u : BitVec 1)
  /-- SCCFG (R220). Loads and checks the core's stagecoach configuration block. -/
  | sccfg (d : BitVec 6) (a : BitVec 6)
  /-- SCTOPK (R223). Issues top-k expert selection by rows into the manifest. -/
  | sctopk (d : BitVec 6)
  /-- SCCOLK (R224). Issues token selection by expert columns into the manifest. -/
  | sccolk (d : BitVec 6)
  /-- SCROUTE (R225). Issues row assignment, counts and drop records. -/
  | scroute (d : BitVec 6) (a : BitVec 6)
  /-- SCROUTE.CNT (R225). Issues the counting loop of SCROUTE only. -/
  | scrouteCnt (d : BitVec 6)
  /-- SCSEND (R228). Issues the scatter of routed token rows to expert rows. -/
  | scsend (d : BitVec 6)
  /-- SCGATHER (R229). Issues the weighted combine of expert rows into output rows. -/
  | scgather (d : BitVec 6) (a : BitVec 6)
  /-- SCMREAD (R231). Waits for earlier manifest writers and reads one manifest entry. -/
  | scmread (d : BitVec 6) (a : BitVec 6)
  /-- SCCLAIM (R227). Issues a capped fetch-and-add claim on a counter. -/
  | scclaim (d : BitVec 6) (a : BitVec 6) (b : BitVec 6)
  /-- SCSTAT (R231). Returns stagecoach status by selector. -/
  | scstat (d : BitVec 6) (a : BitVec 6)
  /-- MSET (R234). Loads an accumulator configuration and resets its lanes. -/
  | mset (a : BitVec 6) (u : BitVec 3)
  /-- MTBL (R235). Loads a table pair image into pair q. -/
  | mtbl (a : BitVec 6) (q : BitVec 3)
  /-- MACC (R244). Transforms and accumulates the active elements of vA into lanes. -/
  | macc (v : BitVec 5) (k : BitVec 3) (u : BitVec 3)
  /-- MACCQ.V (R241). Consumes receive-queue entries of 16 FP32 values into an accumulator. -/
  | maccqV (d : BitVec 6) (u : BitVec 3)
  /-- MACCQ.S (R241). Consumes receive-queue entries of packed lane states and merges them. -/
  | maccqS (d : BitVec 6) (u : BitVec 3)
  /-- MMERGE (R238). Merges each lane of mA into mU. -/
  | mmerge (m : BitVec 3) (u : BitVec 3)
  /-- MFOLD (R238). Merges all lanes into lane 0 by the pairwise tree. -/
  | mfold (u : BitVec 3)
  /-- MFIN (R239). Forms the mean result of each active lane. -/
  | mfin (d : BitVec 5) (k : BitVec 3) (u : BitVec 3)
  /-- MSAVE (R242). Stores packed lane states to memory. -/
  | msave (a : BitVec 6) (k : BitVec 3) (u : BitVec 3)
  /-- MLOAD (R242). Loads packed lane states from memory. -/
  | mload (a : BitVec 6) (k : BitVec 3) (u : BitVec 3)
  /-- XSEND (R247). Sends a vector register to a caravan rank's port at a VCC slot. -/
  | xsend (v : BitVec 5) (a : BitVec 6) (r : BitVec 4)
  /-- XRECV (R249). Receives the message of a VCC slot from the core's port. -/
  | xrecv (d : BitVec 5) (a : BitVec 6) (r : BitVec 4)
  /-- QPUT (R251). Sends 64 bytes to another core's receive queue. -/
  | qput (d : BitVec 6) (v : BitVec 5) (b : BitVec 6)
  /-- QGET (R252). Removes the oldest receive-queue entry. -/
  | qget (d : BitVec 6) (v : BitVec 5)
  /-- LDRED (R255). Reads every member of an address group and reduces them in rank order. -/
  | ldred (d : BitVec 5) (a : BitVec 6) (o : BitVec 2) (s : BitVec 3) (t : BitVec 3)
  /-- STMC (R256). Writes 512 bytes to every member of an address group. -/
  | stmc (v : BitVec 5) (a : BitVec 6) (o : BitVec 2) (s : BitVec 3)
  /-- XCHK (R257). Acquire-reads a chunk flag and compares it with a chunk count. -/
  | xchk (d : BitVec 6) (a : BitVec 6) (b : BitVec 6)
  /-- LAUNCH (R16). An LDD of a channel's LAUNCH register starts a transfer exactly as CPGO. -/
  | launch (d : BitVec 6) (c : BitVec 2)
  /-- REGISTER_WRITE (R272). A write to a register that has no row of its own, including the frozen-register check of TDISP. -/
  | registerWrite (off : Nat) (val : Word)
  /-- WRITE_PERFORMED (R78). A buffered write reaches its point of coherence and becomes visible, lowering PEND where counted. -/
  | writePerformed (core idx : Nat)
  /-- READ_CACHE_FILL (R79). The read cache fills a line at any moment after it was last dropped. -/
  | readCacheFill (core line : Nat)
  /-- WAGON_ZEROING_DONE (R33). Clearing of a ZEROING wagon ends after 512 cycles and the waiting HITCH or bind completes. -/
  | wagonZeroingDone (cluster wagon : Nat)
  /-- OWNER_CHANGE (R40). In the cycle after a hand-over's drain ends, the wagon changes owner and the arrival message is posted. -/
  | ownerChange (core slot : Nat)
  /-- DROP_DRAIN_END (R37). PEND of a dropped LEAVING slot reaches 0 and the wagon returns to the yard. -/
  | dropDrainEnd (core slot : Nat)
  /-- HELD_MESSAGE_POST (R44). A message held for a full inbox is posted when an entry frees. -/
  | heldMessagePost (core : Nat)
  /-- TRAP_ENTRY (R259). A precise trap records its CSRs and enters the handler or takes the fatal path. -/
  | trapEntry (cause : Nat) (tval : Word)
  /-- IMPOUND (R46). A revoked slot goes to IMPOUNDED once its PEND is 0 and the wagon enters the impound list. -/
  | impound (core slot : Nat)
  /-- IMPOUND_RELEASE (R48). A supervisor releases an impounded wagon of its partition to the yard as FREE. -/
  | impoundRelease (wagon : Nat)
  /-- PARTITION_FAULT_REPORT (R265). A router report of a discarded store reaches the sender, which takes TCAUSE 15. -/
  | partitionFaultReport (core : Nat)
  /-- PACKET_EJECTION (R278). A router compares a packet's tag with its receiver and discards it on mismatch. -/
  | packetEjection (core idx : Nat)
  /-- PEER_REQUEST (R25). A read or write request from a peer device is admitted or refused at a wagon or memory. -/
  | peerRequest (r : PeerReq)
  /-- PEER_KILL_REPORT (R254). A peer reports that a member owner's context was killed, making the member lost. -/
  | peerKillReport (part gid rank : Nat)
  /-- COPY_CHUNK (R205). The die's copy engine starts a ready chunk and performs its reads and then its writes. -/
  | copyChunk (core ch : Nat)
  /-- COPY_COMPLETION (R206). A transfer ends and posts its copy completion message. -/
  | copyCompletion (core ch : Nat)
  /-- REMOTE_SIGNAL (R207). The receiving UALink port writes the chunk flag once the chunks have been performed. -/
  | remoteSignal (core ch : Nat)
  /-- KILL_QUIESCENCE (R208). Quiescence of a killed context's copies is confirmed. -/
  | killQuiescence (part : Nat)
  /-- LEASE_GRANT (R211). A waiting DLEASE is granted the dray, clearing it first for another partition. -/
  | leaseGrant (cluster dray : Nat)
  /-- DRAY_COMMAND_RUN (R212). A queued dray command reads its operands and writes its accumulators or wagon. -/
  | drayCommandRun (cluster dray : Nat)
  /-- BATCH_COMPLETE (R215). A closed dray batch completes when all its commands have completed. -/
  | batchComplete (cluster dray : Nat)
  /-- STAGECOACH_COMPLETION (R230). The stagecoach engine completes a command and posts its completion message. -/
  | stagecoachCompletion (cluster : Nat)
  /-- BARRIER47_REMOTE_ARRIVAL (R98). The event unit receives a barrier-47 arrival from another cluster. -/
  | barrier47RemoteArrival (disp lin : Nat)
  /-- TIMED_INSTRUCTION_DUE (R113). VCC reaches the slot of a held timed instruction or VCCWAIT. -/
  | timedInstructionDue (core : Nat)
  /-- DISTRIBUTOR_SELECT (R125). The distributor selects the next caravan when a resource or readiness changes. -/
  | distributorSelect
  /-- CARAVAN_BIND (R127). A per-die binder binds a selected caravan once a cluster qualifies. -/
  | caravanBind (disp : Nat)
  /-- TASK_RETIRE (R100). A task retires after its stores, commands and hand-overs resolve. -/
  | taskRetire (core : Nat)
  /-- HOST_SUBMISSION (R120). A host 64-byte deferrable write to a submission port is checked and accepted or refused. -/
  | hostSubmission (queue : Nat) (pkt : BitVec 512)
  /-- SWITCH_TICK (R131). The gang switch tick stops selection for the running gang and sends pre-emption requests. -/
  | switchTick (rot : Nat)
  /-- SAVE_DEADLINE (R131). The 200 us save deadline expires; unsaved gangs resume and a third miss kills the gang. -/
  | saveDeadline (rot : Nat)
  /-- CONTEXT_SAVE (R268). When every member has reached its point, the caravan writes its context records and releases its wagons. -/
  | contextSave (car : Nat)
  /-- CARAVAN_RESTORE (R270). The distributor restores a saved caravan on its cores and restarts it. -/
  | caravanRestore (car : Nat)
  /-- BUDGET_PERIOD (R128). A 1 us budget period ends and waiting requests are served. -/
  | budgetPeriod
  /-- FRAME_SCRUB (R279). The scrubber zeroes the next queued frame and adds it to the clean pool. -/
  | frameScrub
  /-- PSET (R277). Driver command that installs a partition descriptor. -/
  | pset (pkt : BitVec 512)
  /-- PCLR (R273). Driver command that kills and removes a partition. -/
  | pclr (pkt : BitVec 512)
  /-- INVAL (R28). Driver command that invalidates cached translations. -/
  | inval (pkt : BitVec 512)
  /-- KILL (R271). Driver command, or third missed deadline, that kills a context. -/
  | kill (pkt : BitVec 512)
  /-- PFANS (R30). Driver command that retries or aborts a stopped pool transfer. -/
  | pfans (pkt : BitVec 512)
  /-- DBSWAP (R282). Driver command that flips the collecting dirty bitmap. -/
  | dbswap (pkt : BitVec 512)
  /-- SETW (R273). Driver command that sets the timed-window exponent w. -/
  | setw (pkt : BitVec 512)
  /-- FREE (R279). Driver command that moves owned frames to the scrub queue. -/
  | free (pkt : BitVec 512)
  /-- ALLOC (R279). Driver command that allocates clean frames and sets their owner. -/
  | alloc (pkt : BitVec 512)
  /-- DRIVER_COMMAND_COMPLETE (R273). An asynchronous driver command finishes and writes its completion word. -/
  | driverCommandComplete (idx : Nat)
  /-- FAULT_QUEUE_WRITE (R274). The device writes a held fault record into the host ring once there is room. -/
  | faultQueueWrite
  /-- FEATACC_WRITE (R275). A host write of the accepted feature bits, ignored after the first PSET. -/
  | feataccWrite (idx : Nat) (val : Word)
  /-- LOCK_INTERFACE (R276). TDISP request that moves CONFIG_UNLOCKED to CONFIG_LOCKED. -/
  | lockInterface
  /-- START_INTERFACE (R276). TDISP request that moves CONFIG_LOCKED to RUN. -/
  | startInterface
  /-- STOP_INTERFACE (R276). TDISP request that returns the interface to CONFIG_UNLOCKED after any kills. -/
  | stopInterface
  /-- IDE_INTEGRITY_FAILURE (R276). An IDE integrity failure moves a locked or running interface to ERROR. -/
  | ideIntegrityFailure
  /-- DEVICE_RESET (R32). Device reset frees every wagon, clears state and queues frames for scrubbing. -/
  | deviceReset
  /-- HOST_CXL_MEM_ACCESS (R278). A host CXL.mem request reads or writes HBM at system scope. -/
  | hostCxlMemAccess (r : CxlReq)
  /-- TIMEBASE_LOCK (R315). Lock to an IEEE 1588 domain is reached and TIME is set or slewed. -/
  | timebaseLock (domain time : Nat)
  /-- TIMEBASE_LOCK_LOST (R281). Timebase lock is lost and a TYPE 7 fault record is written. -/
  | timebaseLockLost
  /-- ROUTE_FAILED (R266). A Tlanil or UALink route fails; members behind it become absent. -/
  | routeFailed (route : Nat)
  /-- THERMAL_LIMIT (R266). A thermal limit is reached and recorded in the host fault queue. -/
  | thermalLimit
  /-- EOLDAYS_UPDATE (R283). Hourly, the management controller recomputes EOLDAYS. -/
  | eoldaysUpdate (days : BitVec 32)
  /-- READ_PERFORMED (R78). A read of a core load or engine read has its value fixed, writing the destination register of a late load. -/
  | readPerformed (core idx : Nat)
  /-- BACKGROUND_SCRUBBER (R264). The background scrubber meets an uncorrectable error in HBM or a wagon and retires the frame or wagon with a fault record. -/
  | backgroundScrubber (loc : Nat)
  /-- MANAGEMENT_CONTROLLER_REQUEST (R280). A request of the management controller firmware is clamped, dropped or served with zero as the hardware bounds require. -/
  | managementControllerRequest (r : MgmtReq)
  /-- QUEUE_CONFIGURATION (R123). The driver sets a hardware queue's owner, priority, depth, budget class and supervisor flag. -/
  | queueConfiguration (queue : Nat) (c : QueueConf)
  /-- ROTATION_CONFIGURATION (R130). The driver places partitions into a gang rotation over clusters and sets the switch tick. -/
  | rotationConfiguration (rot : Nat) (c : RotConf)
  deriving DecidableEq, Repr

namespace Instr

/-- True for the rows that have no encoding: the steps of the other agents. -/
def isEvent : Instr → Bool
  | .launch _ _ => true
  | .registerWrite _ _ => true
  | .writePerformed _ _ => true
  | .readCacheFill _ _ => true
  | .wagonZeroingDone _ _ => true
  | .ownerChange _ _ => true
  | .dropDrainEnd _ _ => true
  | .heldMessagePost _ => true
  | .trapEntry _ _ => true
  | .impound _ _ => true
  | .impoundRelease _ => true
  | .partitionFaultReport _ => true
  | .packetEjection _ _ => true
  | .peerRequest _ => true
  | .peerKillReport _ _ _ => true
  | .copyChunk _ _ => true
  | .copyCompletion _ _ => true
  | .remoteSignal _ _ => true
  | .killQuiescence _ => true
  | .leaseGrant _ _ => true
  | .drayCommandRun _ _ => true
  | .batchComplete _ _ => true
  | .stagecoachCompletion _ => true
  | .barrier47RemoteArrival _ _ => true
  | .timedInstructionDue _ => true
  | .distributorSelect => true
  | .caravanBind _ => true
  | .taskRetire _ => true
  | .hostSubmission _ _ => true
  | .switchTick _ => true
  | .saveDeadline _ => true
  | .contextSave _ => true
  | .caravanRestore _ => true
  | .budgetPeriod => true
  | .frameScrub => true
  | .pset _ => true
  | .pclr _ => true
  | .inval _ => true
  | .kill _ => true
  | .pfans _ => true
  | .dbswap _ => true
  | .setw _ => true
  | .free _ => true
  | .alloc _ => true
  | .driverCommandComplete _ => true
  | .faultQueueWrite => true
  | .feataccWrite _ _ => true
  | .lockInterface => true
  | .startInterface => true
  | .stopInterface => true
  | .ideIntegrityFailure => true
  | .deviceReset => true
  | .hostCxlMemAccess _ => true
  | .timebaseLock _ _ => true
  | .timebaseLockLost => true
  | .routeFailed _ => true
  | .thermalLimit => true
  | .eoldaysUpdate _ => true
  | .readPerformed _ _ => true
  | .backgroundScrubber _ => true
  | .managementControllerRequest _ => true
  | .queueConfiguration _ _ => true
  | .rotationConfiguration _ _ => true
  | _ => false

end Instr

end Sys2Proof
end

