-- ==== Sys2Proof/Machine/State.lean ====
section
/-!
DEFINITION. The state of the whole device as plain data (INVENTORY.md, State), and the state right after device reset.
Sparse maps hold every indexed family; a key that is not listed reads as the family's default, named beside each field.
-/

namespace Sys2Proof.Machine

/-- One dimension of a walker (R156). -/
structure Dim where
  cnt : BitVec 32 := 0
  str : BitVec 32 := 0
  idx : BitVec 32 := 0
  fin : Bool := false
  deriving DecidableEq, Repr

/-- A walker (R156). -/
structure Walker where
  base  : Word := 0
  d0    : Dim := {}
  d1    : Dim := {}
  d2    : Dim := {}
  d3    : Dim := {}
  bound : Bool := false
  deriving DecidableEq, Repr

/-- One lane of a mean accumulator (R233). -/
structure Lane where
  s : BitVec 32 := 0
  e : Nat := 0
  n : Nat := 0
  deriving DecidableEq, Repr

/-- A mean accumulator (R233): lanes 0 to 127, default a lane of zeros. -/
structure MAcc where
  cfg   : Word := 0
  lanes : Sparse Lane := []
  deriving DecidableEq, Repr

/-- The writable CSRs of a core (R139, Table 07-4). -/
structure Csrs where
  rmode  : Word := 0
  fflags : Word := 0
  srseed : Word := 0
  dzt    : Word := 1
  tvec   : Word := 0
  tcause : Word := 0
  tepc   : Word := 0
  tval   : Word := 0
  tword  : Word := 0
  tstat  : Word := 0
  tscr   : Word := 0
  pwstat : Word := 0
  xstat  : Word := 0
  bwstat : Word := 0
  deriving DecidableEq, Repr

/-- The states of a hitch entry (Table 02-4). -/
inductive HState where
  | detached | attached | arriving | leaving | impounded
  deriving DecidableEq, Repr

/-- A hitch entry (R34). For a LEAVING entry `dest` is the target core and slot of its hand-over, none after DROP, and `since` the
number of the first access of the core after it (R97). -/
structure Hitch where
  st    : HState := .detached
  wagon : Nat := 0
  inb   : Bool := false
  rvk   : Bool := false
  etag  : BitVec 16 := 0
  dest  : Option (Nat × Nat) := none
  since : Nat := 0
  deriving DecidableEq, Repr

/-- A parameter window (Table 01-3). -/
structure Window where
  base  : Word := 0
  size  : BitVec 32 := 0
  bound : Bool := false
  deriving DecidableEq, Repr

/-- An inbox message of two words (R168). -/
structure Msg where
  w0 : Word
  w1 : Word
  deriving DecidableEq, Repr

/-- A receive-queue entry (R251): the data, the sender's logical index, and its global index and task for R115. -/
structure QEntry where
  data   : BitVec 512
  sender : Nat
  core   : Nat
  uid    : Nat
  deriving DecidableEq, Repr

/-- The message of a receive port (R247); `fresh` until the cycle after its XSEND. -/
structure PortMsg where
  data   : VReg
  slot   : Word
  sender : Nat
  fresh  : Bool
  deriving DecidableEq, Repr

/-- How a transfer treats its elements (Table 03-8). -/
inductive CopyKind where
  | bytes | bits | conv
  deriving DecidableEq, Repr

/-- How far a transfer is (R206, R30). -/
inductive XferState where
  | running | stopped | ended
  deriving DecidableEq, Repr

/-- The shadow values of one side of a transfer (R203): base, four extents, four strides, four starts, the livery of its format, its
lowest and highest address, the region of its first page (R206, STATUS 6), whether the walk of its lowest address failed at CPGO (R204). -/
structure Side where
  base : Nat
  ext  : List Nat
  str  : List Int
  start : List Int
  livery : BitVec 32
  lo : Nat
  hi : Nat
  region : Option Nat
  noLow  : Bool := false
  deriving DecidableEq, Repr

/-- A copy transfer started and not yet completed (R204 to R206). -/
structure Xfer where
  id     : Nat
  uid    : Nat
  part   : Nat
  acct   : Nat
  sup    : Bool
  kind   : CopyKind
  src    : Side
  dst    : Side
  rmode  : Word
  seed   : Word
  flag   : Option Nat
  cls    : Nat
  pos    : Nat
  chunks : Nat
  signalled : Nat
  wm     : Nat
  st     : XferState
  status : Nat
  faddr  : Word
  silent : Bool
  deriving DecidableEq, Repr

/-- A copy channel (R15, R204): 19 shadows (default 0), the sequence, the transfers in order of their start. -/
structure Chan where
  shadow : Sparse Word := []
  seq    : BitVec 16 := 0
  xfers  : List Xfer := []
  deriving DecidableEq, Repr

/-- The stagecoach state of a core (R216, R231): default counts 0. -/
structure SCore where
  cfg    : Option (BitVec 512) := none
  seq    : Nat := 0
  lseq   : Nat := 0
  lfunc  : Nat := 0
  lstat  : Nat := 0
  result : Word := 0
  routed : Nat := 0
  drops  : Nat := 0
  resid  : Nat := 0
  discarded : Nat := 0
  counts : Sparse Nat := []
  deriving DecidableEq, Repr

/-- A write accepted and not yet performed (R78): up to 8 bytes at one location, those of `mask`; `seq` numbers the instruction,
`rel` marks a release, `whole` an access that covers the whole ECC granule (R264), `member` the rank of an STMC member, `win` the window
in which it issued (R102). -/
structure Write where
  loc   : Nat
  n     : Nat
  val   : Word
  mask  : BitVec 8
  va    : Word
  seq   : Nat
  rel   : Bool
  mtype : Nat
  slot  : Option Nat
  part  : Nat
  whole : Bool
  member : Option Nat
  win   : Nat
  deriving DecidableEq, Repr

/-- Where a late read writes its value: a scalar register with extension, or bytes of a vector register. -/
inductive Dest where
  | scalar (d : Nat) (signed : Bool)
  | vector (d : Nat) (byte : Nat)
  deriving DecidableEq, Repr

/-- A read issued and not yet performed (R78); `dep` is the stamp of the accesses that its address depends on (R84, R85 case 2). -/
structure Late where
  loc   : Nat
  n     : Nat
  mask  : BitVec 8
  va    : Word
  seq   : Nat
  mtype : Nat
  slot  : Option Nat
  dest  : Dest
  dep   : Nat := 0
  deriving DecidableEq, Repr

/-- Consecutive bytes of an address-group member: their first location, how many, and the memory type of their page. -/
structure Piece where
  loc   : Nat
  n     : Nat
  mtype : Nat
  deriving DecidableEq, Repr

/-- How far a waiting instruction of the core has got; owners of group members are a core and its launch. -/
inductive Hold where
  /-- Nothing of the current instruction has taken effect. -/
  | free
  /-- BARRW has arrived (R197). -/
  | arrived
  /-- HITCH waits for the zeroing of its wagon (R193). -/
  | zeroing
  /-- A timed instruction waits for VCC to reach its slot (R113); `vw` for a VCCWAIT, which never pauses VCC; `peer` the target of an XSEND. -/
  | timed (slot : Word) (vw : Bool) (peer : Option Nat)
  /-- The slot of a timed instruction has been reached and it is not performed yet (R112). -/
  | due (slot : Word) (vw : Bool) (peer : Option Nat)
  /-- An XRECV of this slot has discarded a stale message of this rank (R249, CODE 1). -/
  | stale (slot : Word) (rank : Nat)
  /-- CPGO has passed its checks with these sides and waits for a free place of its channel (R204). -/
  | cpgo (kind : CopyKind) (src dst : Side)
  /-- LDRED has issued on a group: the places of its members by rank, their owners, the members read so far and their stamp (R84). -/
  | ldred (gid : Nat) (members : List (List Piece)) (owners : List (Option (Nat × Nat))) (data : List Nat) (stamp : Nat)
  /-- STMC has issued on a group: the owners of its members by rank, and the lowest rank whose write has failed. -/
  | stmc (gid : Nat) (owners : List (Option (Nat × Nat))) (failed : Option Nat)
  /-- MLOCK or DLEASE is among the waiters (R196, R211). -/
  | queued
  deriving DecidableEq, Repr

/-- What a core is doing (R108, R111, R118). -/
inductive Run where
  /-- No task. -/
  | idle
  /-- A task is bound and its wagons are being cleared (R33, R127). -/
  | binding
  /-- The task issues instructions. -/
  | running
  /-- The task has executed DONE and waits to retire (R167). -/
  | done
  /-- The task waits at a pre-emption point for its caravan (R118). -/
  | point
  /-- The task has retired or ended; the core stays with its caravan (R111). -/
  | finished
  deriving DecidableEq, Repr

/-- The task bound to a core (R108 to R111). -/
structure Task where
  uid  : Nat
  disp : Nat
  lin  : Nat
  rank : Nat
  car  : Nat
  part : Nat
  acct : Nat
  deriving DecidableEq, Repr

/-- A line of a read cache (R79): its bytes, and the number of its fill. -/
structure Line where
  data : BitVec 512
  born : Nat
  deriving DecidableEq, Repr

/-- The memory-side state of a core (R78, R79, R87): store buffer and late reads in program order, the number of the next access, the
read cache by line (default: not held), the fills of the cache so far, the memory its instruction fetch sees. A stamp is a number of
fills: of the issuing instruction's operands (`now`, R84), of the last read of TIME or CYCLE (`timed`, R102). -/
structure CoreMem where
  wbuf   : List Write := []
  late   : List Late := []
  seq    : Nat := 0
  rcache : Sparse (Option Line) := []
  tick   : Nat := 0
  now    : Nat := 0
  timed  : Nat := 0
  imem   : List Host.Cell := []
  deriving DecidableEq, Repr

/-- The register files of a core (R133): defaults 0, unbound, a cleared accumulator, a pair not loaded. `dep` holds the stamps of the
registers (R84): s from key 0, v from 64, k from 96, walkers from 104, mean accumulators from 112; `upset` the registers that hold an
uncorrectable error (R264), by the same keys, a lane i of accumulator u by 128 + 128 u + i. -/
structure Regs where
  s : Sparse Word := []
  v : Sparse VReg := []
  k : Sparse KReg := []
  w : Sparse Walker := []
  m : Sparse MAcc := []
  pairs : Sparse (Option (BitVec 132096)) := []
  dep   : Sparse Nat := []
  upset : List Nat := []
  deriving DecidableEq, Repr

/-- The queues of a core (R168, R44, R251, R247); `emptied` says that the port has given up a message in this cycle (R249). -/
structure Mail where
  inbox : List Msg := []
  held  : List Msg := []
  rq    : List QEntry := []
  port  : Option PortMsg := none
  emptied : Bool := false
  deriving DecidableEq, Repr

/-- What a context save has found live (R116, Table 06-5): register masks, and wagon ranges (slot, offset, length). -/
structure Live where
  s : BitVec 64
  v : BitVec 32
  k : BitVec 8
  m : BitVec 8
  ranges : List (Nat × Nat × Nat)
  deriving DecidableEq, Repr

/-- The task-side state of a core that is no register: `dead` says that its task took the fatal path (R261), `unwound` that it is still to be withdrawn from its barriers (R46 step 5), `ptWord` is the word of the HALTPT or wait at which the core reached its
pre-emption point (R117), `wantLease` the drays whose lease it gave up at a point or asks for again (R211, R270). -/
structure Sched where
  run       : Run := .idle
  task      : Option Task := none
  hold      : Hold := .free
  lrt       : Option Word := none
  triggered : Bool := false
  dead      : Bool := false
  unwound   : Bool := false
  preempt   : Bool := false
  wantLease : List Nat := []
  pfWay     : List Word := []
  pfHere    : List Word := []
  ptWord    : BitVec 32 := 0
  deriving DecidableEq, Repr

/-- One core. Hitch slots default to a free entry, windows to an unbound one, channels to zeroed shadows, observed generations to 0. -/
structure Core where
  pc    : Word := 0
  sup   : Bool := false
  regs  : Regs := {}
  csr   : Csrs := {}
  hitch : Sparse Hitch := []
  wins  : Sparse Window := []
  mail  : Mail := {}
  chans : Sparse Chan := []
  sc    : SCore := {}
  obs   : Sparse Word := []
  mem   : CoreMem := {}
  sched : Sched := {}
  deriving DecidableEq, Repr

/-- A barrier 0 to 46 of a caravan (R195). -/
structure Bar where
  gen     : Word := 0
  members : BitVec 16 := 0
  arrived : BitVec 16 := 0
  deriving DecidableEq, Repr

/-- Where a caravan stands: its wagons being cleared before the start, running, saved and waiting for its gang, saved too late (R268), its
wagons being cleared before the resume. -/
inductive CarState where
  | starting | running | saved | late | restoring
  deriving DecidableEq, Repr

/-- What the device keeps of a saved member beside its context record (R269, log 25): its rank and task, what the record holds live, its
queues (how many entries, from whom), and its stagecoach results. -/
structure Saved where
  rank : Nat
  task : Task
  live : Live
  mail : Mail
  sc   : SCore
  deriving DecidableEq, Repr

/-- A bound caravan (R111): its launch and number, the partition that its tasks run for, the partition and the account that it occupies
cores of (R124), its cores by rank, VCC, barriers (default no members), the ranks of the members that have retired or ended, and its saved
members. -/
structure Caravan where
  disp  : Nat
  num   : Nat
  size  : Nat
  part  : Nat
  own   : Nat
  acct  : Nat
  cores : List Nat
  vcc   : Word := 0
  bars  : Sparse Bar := []
  st    : CarState := .running
  ended : List Nat := []
  saved : List Saved := []
  deriving DecidableEq, Repr

/-- Barrier 47 of a dispatch (R114, R98): linear indices withdrawn, arrived, and on their way from other clusters; `owed` holds for a
saved task the BWSTAT bits that withdrawals have set since (R197, default 0). -/
structure Bar47 where
  gen       : Word := 0
  withdrawn : List Nat := []
  arrived   : List Nat := []
  flight    : List Nat := []
  lost      : List Nat := []
  owed      : Sparse Word := []
  deriving DecidableEq, Repr

/-- The fields of a launch packet (Table 06-7). -/
structure Packet where
  entry : Word
  pwtab : Word
  crec  : Word
  lid   : Nat
  pred0 : Nat
  pred1 : Nat
  x     : Nat
  y     : Nat
  z     : Nat
  csize : Nat
  wagons : Nat
  prio  : Nat
  inben : Bool
  itgt  : Nat
  part  : Nat
  deriving DecidableEq, Repr

/-- The first fatal trap of a launch (R262), and the CYCLE it was taken in. -/
structure FirstFault where
  lin   : Nat
  uid   : Nat
  cause : Nat
  imp   : Nat
  epc   : Word
  tval  : Word
  at_   : Nat
  deriving DecidableEq, Repr

/-- A caravan selected and not yet bound (R124, R126): its number, and the partition and account of its selection. -/
structure Pick where
  num  : Nat
  own  : Nat
  acct : Nat
  deriving DecidableEq, Repr

/-- A live launch (R120 to R122): `nextC` is the next caravan to select, `picks` the selected ones, oldest first. For its address groups: `gone` lists the cores whose task of this launch was withdrawn by BWDR or by
revocation, `dead` those whose task took a fatal trap (R254). -/
structure Dispatch where
  pkt      : Packet
  queue    : Nat
  sup      : Bool
  nextC    : Nat := 0
  picks    : List Pick := []
  boundC   : Nat := 0
  done     : Nat := 0
  ended    : Nat := 0
  trig     : Nat := 0
  written  : Nat := 0
  fault    : Option FirstFault := none
  malformed : Bool := false
  killed   : Bool := false
  predBad  : Bool := false
  final    : Option Nat := none
  b47      : Bar47 := {}
  home     : Option Nat := none
  gone     : List Nat := []
  dead     : List Nat := []
  deriving DecidableEq, Repr

/-- Yard states (Table 02-2). -/
inductive Yard where
  | free | zeroing | hitched | impounded
  deriving DecidableEq, Repr

/-- The state of a wagon beside its bytes (Table 02-1); `next` is the partition that a wagon in ZEROING goes to. -/
structure Wagon where
  livery : BitVec 32 := 0
  tag    : BitVec 16 := 0
  prec   : Option Nat := none
  yard   : Yard := .free
  next   : Option Nat := none
  retired : Bool := false
  deriving DecidableEq, Repr

/-- An impound record (R48). -/
structure Impound where
  wagon : Nat
  core  : Nat
  slot  : Nat
  part  : Nat
  cause : Nat
  deriving DecidableEq, Repr

/-- A mutex (R196). -/
structure Mutex where
  holder  : Option Nat := none
  last    : Nat := 767
  dead    : Bool := false
  waiters : List Nat := []
  deriving DecidableEq, Repr

/-- An operand of a dray command (R212): first location of its wagon, hitch slot, element index of its address, row stride, livery. -/
structure DOper where
  wagon  : Nat
  slot   : Nat
  first  : Nat
  ld     : Nat
  livery : BitVec 32
  deriving DecidableEq, Repr

/-- A matrix command (R212); `both` for MMAC. `aacc` holds the bank and the first row of an A source in the accumulators, `atype` its
down-converter target E4M3. -/
structure MmaOp where
  m : Nat
  n : Nat
  k : Nat
  row0 : Nat
  bank : Bool
  ovw  : Bool
  bt   : Bool
  aacc : Option (Bool × Nat)
  atype : Bool
  a : DOper
  b : DOper
  both  : Bool
  rmode : Word
  seed  : Word
  deriving DecidableEq, Repr

/-- A dray command in a queue (R212, R214); `raw` for an ACCST into a Raw wagon. -/
inductive DOp where
  | mma (o : MmaOp)
  | accwr (bank : Bool) (row : Nat) (col : Nat) (data : VReg)
  | acczero (bank : Bool) (row : Nat) (nr : Nat)
  | accst (bank : Bool) (row col nr nc : Nat) (dst : DOper) (raw : Bool) (rmode seed : Word)
  | acccb (loc : Nat) (slot : Nat)
  deriving DecidableEq, Repr

/-- A dray command with its issuer, its batch and its position there; it stays until its batch completes (R211, R215). -/
structure DCmd where
  core : Nat
  uid  : Nat
  part : Nat
  bat  : Nat
  pos  : Nat
  done : Bool
  op   : DOp
  deriving DecidableEq, Repr

/-- A dray (R211 to R215): `closed` the batches committed and not complete, `fails` the batches with a failed command and the position of
its first, `giveUp` a lease whose holder is dead. Accumulator (bank, r, c) has key bank * 65536 + r * 256 + c, default +0. -/
structure Dray where
  holder   : Option Nat := none
  last     : Nat := 15
  lastPart : Option Nat := none
  waiters  : List Nat := []
  acc      : Sparse (BitVec 32) := []
  mag      : BitVec 6144 := 0
  cmds     : List DCmd := []
  issued   : Nat := 0
  next     : Nat := 1
  closed   : List Nat := []
  fails    : List (Nat × Nat) := []
  giveUp   : Bool := false
  deriving DecidableEq, Repr

/-- An accepted stagecoach command (R216): its tables as read at issue. -/
structure CCmd where
  core  : Nat
  uid   : Nat
  part  : Nat
  acct  : Nat
  sup   : Bool
  seq   : Nat
  func  : Nat
  cfg   : BitVec 512
  a     : Word
  b     : Word
  table : List Word
  rmode : Word
  seed  : Word
  slots : List Nat
  deriving DecidableEq, Repr

/-- A cached translation (R27): the leaf of a page of one partition. -/
structure TlbEntry where
  part  : Nat
  base  : Nat
  size  : Nat
  leaf  : Word
  entry : Nat
  deriving DecidableEq, Repr

/-- A cached non-leaf entry (R27): the table of level `level` for the addresses of a partition with these upper bits. -/
structure WalkEntry where
  part  : Nat
  level : Nat
  upper : Nat
  table : Nat
  deriving DecidableEq, Repr

/-- A cluster. Wagons default to FREE, flags (key partition * 64 + n) to generation 0, mutexes (key partition * 16 + n) to free. `order`
holds for a slot, a barrier, a flag or the stagecoach the last event that reached it: CYCLE + 1 and its place among those of one cycle
(R38, R199, R216; default none). -/
structure Cluster where
  wagons   : Sparse Wagon := []
  zeroing  : List (Nat × Option Nat) := []
  impounds : List Impound := []
  flags    : Sparse Word := []
  mutexes  : Sparse Mutex := []
  dray0    : Dray := {}
  dray1    : Dray := {}
  coach    : List CCmd := []
  tlb      : List TlbEntry := []
  throttled : Bool := false
  order    : Sparse (Nat × Nat) := []
  deriving DecidableEq, Repr

/-- A hardware queue (R123): its settings, its packets (dispatch keys, oldest first), QSTAT. -/
structure Queue where
  owner : Option Nat := none
  prio  : Nat := 0
  depth : Nat := 1
  cls   : Nat := 0
  sup   : Bool := false
  pkts  : List Nat := []
  qstat : Nat := 0
  deriving DecidableEq, Repr

/-- A member of an address group (Table 14-4). -/
structure Member where
  absent : Bool
  base   : Nat
  owner  : Option Nat
  deriving DecidableEq, Repr

/-- An address group in effect (R253); `lost` lists the ranks whose peer reported a kill, or whose owner died in a launch that has ended,
`gone` those whose owner was withdrawn from barrier 47 of such a launch (R254). -/
structure Group where
  base    : Nat
  size    : Nat
  dlid    : Nat
  members : List Member
  lost    : List Nat
  gone    : List Nat := []
  deriving DecidableEq, Repr

/-- A group packet accepted and not yet in effect (R253); `group` is none for a removal. -/
structure PendGroup where
  gid   : Nat
  queue : Nat
  dlid  : Nat
  group : Option Group
  deriving DecidableEq, Repr

/-- An installed partition (R277), by its tag: its number in driver commands, its descriptor, mode and usage; usage and groups default to 0 and none. -/
structure Partition where
  num    : Nat
  root   : Nat
  csave  : Word
  table  : List (Option Nat)
  strict : Bool
  supOk  : Bool
  peer   : List Nat
  accts  : List (Nat × Nat)
  budget : List (Nat × Nat)
  resv   : List Nat
  poolB  : Nat
  poolS  : Nat
  out    : Bool := false
  groups : Sparse (Option Group) := []
  pend   : List PendGroup := []
  usage  : Sparse Nat := []
  killing : Bool := false
  deriving DecidableEq, Repr

/-- A gang of a rotation (R130, R131). -/
structure Gang where
  parts  : List Nat
  skip   : Bool := false
  misses : Nat := 0
  deriving DecidableEq, Repr

/-- A rotation (R130): its switch tick in ns, the running gang, the gang it goes to, the TIME of the next tick, the TIME of the save
deadline of a tick in progress, and whether its running gang is being killed for a third miss. -/
structure Rotation where
  clusters : List Nat
  gangs    : List Gang
  tick     : Nat
  running  : Nat := 0
  into     : Nat := 0
  next     : Word := 0
  deadline : Option Word := none
  ending   : Bool := false
  deriving DecidableEq, Repr

/-- A fault record that the device holds: words 0 and 1, the others being zero (R274). -/
structure FRec where
  w0 : Word
  w1 : Word
  deriving DecidableEq, Repr

/-- A driver command accepted and not finished (R273). `wait` lists the accesses that an INVAL waits for: a core, and the number of the
first instruction that it does not wait for; `readers` the cores with an LDRED under way (R28). -/
structure DrvCmd where
  pkt     : BitVec 512
  started : Bool := false
  status  : Nat := 0
  wait    : List (Nat × Nat) := []
  readers : List Nat := []
  deriving DecidableEq, Repr

/-- The TDISP states (Table 16-4). -/
inductive Tdisp where
  | unlocked | locked | run | error
  deriving DecidableEq, Repr

/-- The last answer of the device to an outside requester. -/
inductive Reply where
  | quiet
  | accepted
  | data (val : Word)
  | retry
  | unsupported
  | refused
  | errorResponse
  deriving DecidableEq, Repr

/-- The BAR 0 registers that hold a value (Table 16-1). -/
structure Bar0 where
  featAcc0 : Word := 0
  featAcc1 : Word := 0
  fqBase   : Word := 0
  fqSize   : Word := 0
  fqHead   : Word := 0
  fqTail   : Word := 0
  tsync    : Bool := false
  domain   : Nat := 0
  eoldays  : BitVec 32 := 0xFFFFFFFF
  dbBase0  : Word := 0
  dbBase1  : Word := 0
  dbSel    : Bool := false
  age      : Sparse Word := []
  cecnt    : Sparse Word := []
  lretry   : Sparse Word := []
  deriving DecidableEq, Repr

/-- The bytes of a chunk of a peer copy with remote-signal enable that a port has seen performed (R103). -/
structure Arrived where
  port   : Nat
  remote : Nat
  xfer   : Nat
  chunk  : Nat
  bytes  : Nat
  deriving DecidableEq, Repr

/-- The host-side state of the device: registers, interface, driver commands, fault records (R272 to R283). `featSet` has bit 0 or 1 set
once FEATACC0 or FEATACC1 has been written (R284). `slew` is what TIME is behind the time of its domain and `credit` the ticks that have passed
toward the next tick of correction (R315); `arrived` and `flags` are the counts of the receiving ports and the flags they hold back (R103). -/
structure HostSide where
  bar0     : Bar0 := {}
  frozen   : Sparse Word := []
  tdisp    : Tdisp := .unlocked
  ide      : Bool := false
  firstPset : Bool := false
  featSet  : Nat := 0
  held     : List FRec := []
  cmds     : List DrvCmd := []
  stopping : Bool := false
  everLocked : Bool := false
  thermal  : Bool := false
  power    : Nat := 2700
  clock    : Nat := 1200
  hours    : Nat := 0
  dma      : List (Nat × Nat) := []
  slew     : Int := 0
  credit   : Nat := 0
  arrived  : List Arrived := []
  flags    : List PeerReq := []
  reply    : Reply := .quiet
  deriving DecidableEq, Repr

/-- The frames of HBM (R279): owners (default none), the scrub queue and the clean pool as runs (first frame, count), retired frames. -/
structure Frames where
  owner   : Sparse (Option Nat) := []
  scrub   : List (Nat × Nat) := [(0, 8789062)]
  clean   : List (Nat × Nat) := []
  retired : List Nat := []
  deriving DecidableEq, Repr

/-- Who waits for a budget (R128): a core at an instruction, an access of a core already issued, a transfer with its next chunk, a
stagecoach command with its accesses. -/
inductive Asker where
  | core (g uid : Nat) (pc : Word)
  | access (g seq : Nat)
  | chunk (g ch id : Nat)
  | command (g seq : Nat)
  deriving DecidableEq, Repr

/-- A request that waits for the budget of its account (R128): the activity (Table 06-11, 0 to 4), the unit that serves it, the amount. -/
structure Ask where
  by_    : Asker
  act    : Nat
  unit   : Nat
  part   : Nat
  acct   : Nat
  amount : Nat
  deriving DecidableEq, Repr

/-- Which agent moves next (log 1). -/
inductive Turn where
  /-- Core `g` steps; with `late` a load it issues is performed later. -/
  | core (g : Nat) (late : Bool)
  /-- A step of another agent. -/
  | event (e : Instr)
  /-- One period of the core clock passes, and TIME advances by so many ticks. -/
  | clock (ticks : Nat)
  /-- An uncorrectable error arises in the granule that holds a location (R264). -/
  | upset (loc : Nat)
  /-- An uncorrectable error arises in a register of core `g` (R264), by its key in `Regs.upset`. -/
  | regUpset (g : Nat) (reg : Nat)
  /-- The host reads a register of BAR 0 (Table 16-1). -/
  | hostRead (off : Nat)
  /-- A throttle holds a cluster's clock idle, or lets it run (R112). -/
  | throttle (cluster : Nat) (on : Bool)
  /-- An agent outside the device writes a byte of its own memory: host, pool or peer. -/
  | outside (loc : Nat) (val : Byte)
  /-- A correctable error, a link retry or an oscillator drift reaches a health counter (Table 16-1). -/
  | health (reg : Nat) (val : Word)
  /-- A core drops a line of its read cache (R79, replacement). -/
  | dropLine (g : Nat) (line : Nat)
  /-- A cluster drops a cached translation (R27). -/
  | dropTlb (cluster : Nat) (idx : Nat)
  /-- A die drops an entry of its walk caches (R27). -/
  | dropWalk (die : Nat) (idx : Nat)
  /-- A peer refuses what reaches n bytes of it from a location on, or admits it again (R25, log 21). -/
  | peerRefuses (loc n : Nat) (on : Bool)
  deriving DecidableEq, Repr

/-- The machine. `cur` is the core that issues, `word` the word it issues, `late` whether a load it issues is performed later;
`walks` holds the walk caches of the dies, `refuses` the ranges of peer memory that a peer does not admit (log 21), `asks` the requests that wait for a budget in the order of their arrival (R128), `free` counts the open values met, `schedule` holds the turns to come, `nextId` numbers launches, caravans and tasks. Defaults of the maps: `Core` at reset, no caravan, no dispatch, `Cluster` at reset, `Queue` unowned, no partition, no rotation. -/
structure State where
  cores    : Sparse Core
  caravans : Sparse (Option Caravan)
  disps    : Sparse (Option Dispatch)
  clusters : Sparse Cluster
  queues   : Sparse Queue
  rr       : Sparse Nat
  parts    : Sparse (Option Partition)
  rots     : Sparse (Option Rotation)
  mem      : List Host.Cell
  bad      : Sparse Bool
  frames   : Frames
  host     : HostSide
  routes   : List Nat
  walks    : Sparse (List WalkEntry)
  refuses  : List (Nat × Nat)
  asks     : List Ask
  cycle    : Word
  time     : Word
  w        : Nat
  nextId   : Nat
  cur      : Nat
  word     : BitVec 32
  late     : Bool
  free     : Nat
  schedule : List Turn
  deriving DecidableEq, Repr

/-- Why the machine stops with a fault. -/
inductive Fault where
  /-- Raised by the step when the schedule names a core above 767 or gives an encoded instruction as an event: no agent of the
  device makes that step (log 1). Safe: the device goes on in some other way. -/
  | noSuchAgent
  deriving DecidableEq, Repr

/-- Why the machine refuses an instruction. -/
inductive Refusal where
  /-- Raised by `exec` for an instruction that has no meaning in this model yet. Safe: the hardware goes on. -/
  | notModelled (mnemonic : String)
  deriving DecidableEq, Repr

/-- The state right after device reset (R32, R102, R125, R139, R272, R279, R315; the values the spec gives no reset for: log 2). -/
def State.reset : State :=
  { cores := [], caravans := [], disps := [], clusters := [], queues := [], rr := [], parts := [], rots := [],
    mem := [], bad := [], frames := {}, host := {}, routes := [], walks := [], refuses := [], asks := [], cycle := 0, time := 0, w := 12, nextId := 0,
    cur := 0, word := 0, late := false, free := 0, schedule := [] }

end Sys2Proof.Machine
end

