-- ==== Sys2Proof/Machine/Base.lean ====
section
/-!
DEFINITION. Access to the parts of the state: cores, clusters, caravans, launches, partitions, and the registers of the issuing core
(spec 07 R133 to R142).
-/

namespace Sys2Proof.Machine

/-- The three outcomes with the model's reasons. -/
abbrev Out := Host.Outcome State Fault Refusal

namespace State

/-- The core of a global index. -/
def core (s : State) (g : Nat) : Core := Sparse.get {} s.cores g
/-- Replaces a core. -/
def setCore (s : State) (g : Nat) (c : Core) : State := { s with cores := Sparse.set {} s.cores g c }
/-- Changes a core. -/
def updCore (s : State) (g : Nat) (f : Core → Core) : State := s.setCore g (f (s.core g))
/-- The issuing core. -/
def me (s : State) : Core := s.core s.cur
/-- Changes the issuing core. -/
def upd (s : State) (f : Core → Core) : State := s.updCore s.cur f
/-- The cluster of a global cluster index. -/
def cluster (s : State) (c : Nat) : Cluster := Sparse.get {} s.clusters c
/-- Replaces a cluster. -/
def setCluster (s : State) (c : Nat) (x : Cluster) : State := { s with clusters := Sparse.set {} s.clusters c x }
/-- Changes a cluster. -/
def updCluster (s : State) (c : Nat) (f : Cluster → Cluster) : State := s.setCluster c (f (s.cluster c))
/-- The caravan of a number. -/
def caravan (s : State) (i : Nat) : Option Caravan := Sparse.get none s.caravans i
/-- Replaces a caravan. -/
def setCaravan (s : State) (i : Nat) (c : Option Caravan) : State := { s with caravans := Sparse.set none s.caravans i c }
/-- The launch of a number. -/
def disp (s : State) (i : Nat) : Option Dispatch := Sparse.get none s.disps i
/-- Replaces a launch. -/
def setDisp (s : State) (i : Nat) (d : Option Dispatch) : State := { s with disps := Sparse.set none s.disps i d }
/-- Changes a launch that exists. -/
def updDisp (s : State) (i : Nat) (f : Dispatch → Dispatch) : State :=
  match s.disp i with
  | none => s
  | some d => s.setDisp i (some (f d))
/-- The queue of a number (R123). -/
def queue (s : State) (q : Nat) : Queue := Sparse.get {} s.queues q
/-- Replaces a queue. -/
def setQueue (s : State) (q : Nat) (x : Queue) : State := { s with queues := Sparse.set {} s.queues q x }
/-- The partition of a tag. -/
def part (s : State) (p : Nat) : Option Partition := Sparse.get none s.parts p
/-- Replaces a partition. -/
def setPart (s : State) (p : Nat) (x : Option Partition) : State := { s with parts := Sparse.set none s.parts p x }
/-- Changes a partition that is installed. -/
def updPart (s : State) (p : Nat) (f : Partition → Partition) : State :=
  match s.part p with
  | none => s
  | some x => s.setPart p (some (f x))

/-- An accepted feature bit: offered and accepted by the driver (R275). -/
def feature (s : State) (i : Nat) : Bool := (s.host.bar0.featAcc0 &&& Config.featOff0).getLsbD i

end State

/-- The global cluster index of a core (R5). -/
def clusterOf (g : Nat) : Nat := g / 16
/-- The die of a cluster (R5). -/
def dieOf (cl : Nat) : Nat := cl / 12

/-! ### The order of one cycle (R38, R199, R216) -/

/-- The key of a hitch slot in its cluster's order. -/
def slotKey (g n : Nat) : Nat := g % 16 * 32 + n
/-- The key of a flag of a partition. -/
def flagKey (p n : Nat) : Nat := 512 + p * 64 + n
/-- The key of the stagecoach. -/
def coachKey : Nat := 4608
/-- The key of a barrier: 0 to 46 of a caravan, 47 of a launch. -/
def barKey (owner n : Nat) : Nat := 4609 + owner * 48 + n

/-- An event of this place may reach a unit now: none of a later place has reached it in this cycle. -/
def State.mayReach (s : State) (cl key place : Nat) : Bool :=
  let e := Sparse.get (0, 0) (s.cluster cl).order key
  decide (e.1 ≠ s.cycle.toNat + 1) || decide (e.2 ≤ place)
/-- No event has reached a unit in this cycle. -/
def State.untouched (s : State) (cl key : Nat) : Bool := decide ((Sparse.get (0, 0) (s.cluster cl).order key).1 ≠ s.cycle.toNat + 1)
/-- An event of this place reaches a unit. -/
def State.reached (s : State) (cl key place : Nat) : State :=
  s.updCluster cl (fun c => { c with order := Sparse.set (0, 0) c.order key (s.cycle.toNat + 1, place) })

/-- The partition of a core's task; 0 without one. -/
def Core.part (c : Core) : Nat := match c.sched.task with | some t => t.part | none => 0
/-- The account of a core's task. -/
def Core.acct (c : Core) : Nat := match c.sched.task with | some t => t.acct | none => 0
/-- The number of a core's task; 0 without one. -/
def Core.uid (c : Core) : Nat := match c.sched.task with | some t => t.uid | none => 0
/-- The hitch entry of a slot (R34). -/
def Core.slot (c : Core) (n : Nat) : Hitch := Sparse.get {} c.hitch n
/-- Replaces a hitch entry. -/
def Core.setSlot (c : Core) (n : Nat) (h : Hitch) : Core := { c with hitch := Sparse.set {} c.hitch n h }
/-- A copy channel (R15). -/
def Core.chan (c : Core) (n : Nat) : Chan := Sparse.get {} c.chans n
/-- Replaces a copy channel. -/
def Core.setChan (c : Core) (n : Nat) (h : Chan) : Core := { c with chans := Sparse.set {} c.chans n h }
/-- Changes the task-side state of a core. -/
def Core.sch (c : Core) (f : Sched → Sched) : Core := { c with sched := f c.sched }
/-- The core has a task that issues or waits: bound, neither ended nor saved (R39, R251). A task whose wagons are still being cleared does
not count (DESIGN CHOICE, log 59: R39 has a task count while it is bound, R127 starts it when its wagons are clear). -/
def Core.live (c : Core) : Bool := c.sched.run == .running || c.sched.run == .done || c.sched.run == .point

/-- A scalar register of a core; s0 reads zero (R133). -/
def Core.getS (c : Core) (i : Nat) : Word := if i = 0 then 0 else Sparse.get 0 c.regs.s i
/-- The stamp of a register (R84): key i for a scalar register, 64 + i for a vector, 96 + i for a mask, 104 + i for a walker, 112 + i for a
mean accumulator. -/
def Core.stamp (c : Core) (key : Nat) : Nat := Sparse.get 0 c.regs.dep key
/-- A register takes the stamp of the instruction that writes it (R84). -/
def Core.mark (c : Core) (key : Nat) : Sparse Nat := Sparse.set 0 c.regs.dep key c.mem.now
/-- The registers with an uncorrectable error once one is written (R264): keys as for stamps, and 128 + 128 u + i for lane i of mean
accumulator u. -/
def Core.heal (c : Core) (key : Nat) : List Nat := c.regs.upset.filter (· != key)
/-- Writes a scalar register; a write to s0 is discarded (R134). -/
def Core.setS (c : Core) (i : Nat) (v : Word) : Core :=
  if i = 0 then c else { c with regs := { c.regs with s := Sparse.set 0 c.regs.s i v, dep := c.mark i, upset := c.heal i } }
/-- A vector register of a core (R135). -/
def Core.getV (c : Core) (i : Nat) : VReg := Sparse.get 0 c.regs.v i
/-- Writes a vector register. -/
def Core.setV (c : Core) (i : Nat) (v : VReg) : Core :=
  { c with regs := { c.regs with v := Sparse.set 0 c.regs.v i v, dep := c.mark (64 + i), upset := c.heal (64 + i) } }
/-- The elements that a load leaves in a vector register keep the dependency of what it held (R84). -/
def Core.holdV (c : Core) (i : Nat) : Core := { c with mem := { c.mem with now := max c.mem.now (c.stamp (64 + i)) } }
/-- A mask register of a core; k0 reads all ones (R136). -/
def Core.getK (c : Core) (i : Nat) : KReg := if i = 0 then BitVec.allOnes 512 else Sparse.get 0 c.regs.k i
/-- Writes a mask register; a write to k0 is discarded (R136). -/
def Core.setK (c : Core) (i : Nat) (v : KReg) : Core :=
  if i = 0 then c else { c with regs := { c.regs with k := Sparse.set 0 c.regs.k i v, dep := c.mark (96 + i), upset := c.heal (96 + i) } }
/-- A walker of a core (R156). -/
def Core.getW (c : Core) (i : Nat) : Walker := Sparse.get {} c.regs.w i
/-- Replaces a walker. -/
def Core.setW (c : Core) (i : Nat) (w : Walker) : Core :=
  { c with regs := { c.regs with w := Sparse.set {} c.regs.w i w, upset := c.heal (104 + i) } }
/-- Binds a walker: its addresses depend on what the registers named in its WBIND depended on (R84). -/
def Core.bindW (c : Core) (i : Nat) (w : Walker) : Core := { c.setW i w with regs := { (c.setW i w).regs with dep := c.mark (104 + i) } }
/-- A mean accumulator of a core (R233). -/
def Core.getM (c : Core) (i : Nat) : MAcc := Sparse.get {} c.regs.m i
/-- Lane l of mean accumulator i has an uncorrectable error (R264). -/
def Core.laneUpset (c : Core) (i l : Nat) : Bool := c.regs.upset.contains (128 + 128 * i + l)
/-- A mean accumulator has an uncorrectable error in a lane (R264). -/
def Core.meanUpset (c : Core) (i : Nat) : Bool := c.regs.upset.any (fun k => decide (k / 128 = i + 1))
/-- Replaces a mean accumulator of which some lanes are written anew; it depends on what it depended on and on what the instruction read
(R84). -/
def Core.setM (c : Core) (i : Nat) (m : MAcc) (on : List Nat := List.range 128) : Core :=
  { c with regs := { c.regs with m := Sparse.set {} c.regs.m i m, dep := Sparse.set 0 c.regs.dep (112 + i) (max c.mem.now (c.stamp (112 + i))),
                                 upset := c.regs.upset.filter (fun k => !(decide (k / 128 = i + 1) && on.contains (k % 128))) } }
/-- Goes to an address; the next instruction starts with nothing of it done. -/
def Core.goto (c : Core) (a : Word) : Core := { c with pc := a, sched := { c.sched with hold := .free } }
/-- Changes the CSRs of a core. -/
def Core.updCsr (c : Core) (f : Csrs → Csrs) : Core := { c with csr := f c.csr }

namespace State

/-- A scalar register of the issuing core. -/
def getS (s : State) (i : BitVec n) : Word := s.me.getS i.toNat
/-- Writes a scalar register of the issuing core. -/
def setS (s : State) (i : BitVec n) (v : Word) : State := s.upd (fun c => c.setS i.toNat v)
/-- A vector register of the issuing core. -/
def getV (s : State) (i : BitVec n) : VReg := s.me.getV i.toNat
/-- Writes a vector register of the issuing core. -/
def setV (s : State) (i : BitVec n) (v : VReg) : State := s.upd (fun c => c.setV i.toNat v)
/-- A mask register of the issuing core. -/
def getK (s : State) (i : BitVec n) : KReg := s.me.getK i.toNat
/-- Writes a mask register of the issuing core. -/
def setK (s : State) (i : BitVec n) (v : KReg) : State := s.upd (fun c => c.setK i.toNat v)
/-- The program counter of the issuing core. -/
def pc (s : State) : Word := s.me.pc
/-- Sets the program counter of the issuing core. -/
def goto (s : State) (a : Word) : State := s.upd (fun c => c.goto a)
/-- Moves past the instruction (R143). -/
def advance (s : State) : State := s.goto (s.pc + 4)
/-- Records how far the waiting instruction has got. -/
def setHold (s : State) (h : Hold) : State := s.upd (fun c => c.sch (fun x => { x with hold := h }))
/-- How far the waiting instruction has got. -/
def hold (s : State) : Hold := s.me.sched.hold
/-- The partition of the issuing core's task. -/
def myPart (s : State) : Nat := s.me.part
/-- The issuing core's partition runs in strict mode (R142). -/
def strict (s : State) : Bool := match s.part s.myPart with | some p => p.strict | none => false
/-- The caravan of the issuing core. -/
def myCar (s : State) : Option Caravan := match s.me.sched.task with | some t => s.caravan t.car | none => none
/-- The cluster of the issuing core. -/
def myCluster (s : State) : Cluster := s.cluster (clusterOf s.cur)
/-- Changes the cluster of the issuing core. -/
def updMyCluster (s : State) (f : Cluster → Cluster) : State := s.updCluster (clusterOf s.cur) f
/-- The caravan rank of the issuing core. -/
def myRank (s : State) : Nat := match s.me.sched.task with | some t => t.rank | none => 0

/-- The physical core of a logical index in a partition's core table (R5, R277). -/
def physOf (s : State) (p l : Nat) : Option Nat := match s.part p with | some x => (x.table[l]?).join | none => none
/-- The logical index of a physical core in a partition's core table; 0 without one. -/
def logicalOf (s : State) (p g : Nat) : Nat := match s.part p with | some x => x.table.findIdx (fun e => e == some g) | none => 0

/-- Adds a fault record to those held for the host ring (R274). -/
def fqPush (s : State) (w0 w1 : Nat) : State :=
  { s with host := { s.host with held := s.host.held ++ [⟨BitVec.ofNat 64 w0, BitVec.ofNat 64 w1⟩] } }

/-- The logical index of the issuing core. -/
def myLogical (s : State) : Nat := s.logicalOf s.myPart s.cur

end State

/-- Word 0 of a fault record (R274). -/
def frecWord (type part core ch id : Nat) : Nat := type + part % 64 * 2 ^ 8 + core % 1024 * 2 ^ 16 + ch % 4 * 2 ^ 26 + id % 2 ^ 32 * 2 ^ 32

/-- The inbox entries of core g that its partition may fill: its reservation of inbox credits and the overflow (R129, log 14). -/
def State.credits (s : State) (g : Nat) : Nat :=
  let resv := fun (x : Option Partition) => match x with | some p => (p.resv[3]?).getD 0 | none => 0
  min Config.inboxSize (resv (s.part (s.core g).part) + (Config.overflow 3 - (s.parts.map (fun e => resv e.2)).sum))

/-- Places a message in a core's inbox, or holds it in order while no credit is left (R44, R129, R148). -/
def Core.post (c : Core) (credits : Nat) (m : Msg) : Core :=
  if c.mail.held = [] ∧ c.mail.inbox.length < credits then { c with mail := { c.mail with inbox := c.mail.inbox ++ [m] } }
  else { c with mail := { c.mail with held := c.mail.held ++ [m] } }

/-- How an instruction gets on at its issue. -/
inductive Issue (α : Type) where
  /-- It completes with this result. -/
  | ok (a : α)
  /-- It takes a precise trap and has no effect (R260). -/
  | trap (cause : Nat) (tval : Word)
  /-- It takes a precise trap and leaves this state behind (flags, applied queue entries: R71, R172, R241). -/
  | trapAt (s : State) (cause : Nat) (tval : Word)
  /-- It has not completed and leaves this state behind. -/
  | stay (s : State)
  /-- It waits at issue. -/
  | wait
  deriving DecidableEq, Repr

/-- Goes on with the result of an issue that completes. -/
def Issue.bind {α β : Type} (x : Issue α) (f : α → Issue β) : Issue β :=
  match x with
  | .ok a => f a
  | .trap c v => .trap c v
  | .trapAt s c v => .trapAt s c v
  | .stay s => .stay s
  | .wait => .wait

/-- Traps when a check fails. -/
def Issue.check {β : Type} (c : Bool) (cause : Nat) (tval : Word) (k : Issue β) : Issue β := if c then k else .trap cause tval

/-- Waits until a condition holds. -/
def Issue.until {β : Type} (c : Bool) (k : Issue β) : Issue β := if c then k else .wait

/-- An event reaches a unit in its place among those of one cycle; when a later one has reached it in this cycle, it waits for the next
(R38, R199, R216). -/
def inOrder (s : State) (cl key place : Nat) (k : State → Issue State) : Issue State :=
  if s.mayReach cl key place then k (s.reached cl key place) else .wait

/-- Walks over a list with a state, ending at the first issue that does not complete. -/
def Issue.fold {α β : Type} (f : β → α → Issue β) : List α → β → Issue β
  | [], b => .ok b
  | a :: l, b => (f b a).bind (fun b' => Issue.fold f l b')

end Sys2Proof.Machine
end

