-- ==== Sys2Proof/Machine/Mem.lean ====
section
/-!
DEFINITION. Memory: one list of located bytes for the whole device and its outside, ECC granules, the dirty bitmap, page tables and
translation, and the buffered accesses of a core (spec 01 R7 to R28, 04 R78 to R94, 15 R264, 16 R278, R282).
-/

namespace Sys2Proof.Machine

/-- The location of a byte of HBM: its device physical address (R24). -/
def locHbm (pa : Nat) : Nat := pa
/-- The location of a byte of a wagon, by global cluster index, wagon number and offset (R5, R10). -/
def locWagon (cl w off : Nat) : Nat := 2 ^ 64 + (cl * 128 + w) * 2 ^ 18 + off
/-- The location of a byte of the CXL pool (R24). -/
def locPool (a : Nat) : Nat := 2 * 2 ^ 64 + a
/-- The location of a byte of host memory (R273, R274). -/
def locHost (a : Nat) : Nat := 3 * 2 ^ 64 + a
/-- The first location that belongs to a peer. -/
def locPeers : Nat := 4 * 2 ^ 64
/-- The location of a byte of a peer's memory, by peer, the partition paired there and the global virtual address in it (R24, R277). -/
def locPeer (p q va : Nat) : Nat := (4 + p * 64 + q % 64) * 2 ^ 64 + va
/-- The location of a byte of a peer's wagon, by peer and translated value (R24). -/
def locPeerWagon (p a : Nat) : Nat := (4 + 16384 + p) * 2 ^ 64 + a

/-! ### Dies and links (R4, R24) -/

/-- The die whose stacks hold a byte of HBM: stack (PA >> 12) mod 12, three to a die (R4, R24). -/
def dieOfHbm (pa : Nat) : Nat := pa / 4096 % 12 / 3
/-- The Tlanil links that traffic between two dies may cross: the direct one, or those of both ways across one other die (R4). Link 0
joins dies 0 and 1, link 1 dies 0 and 2, link 2 dies 1 and 3, link 3 dies 2 and 3 (Table 16-1). -/
def linksOf (a b : Nat) : List Nat :=
  match min a b, max a b with
  | 0, 1 => [0]
  | 0, 2 => [1]
  | 1, 3 => [2]
  | 2, 3 => [3]
  | x, y => if x = y then [] else [0, 1, 2, 3]

/-- The ways between two dies, each as the links it crosses (R4). -/
def waysOf (a b : Nat) : List (List Nat) :=
  match min a b, max a b with
  | 0, 3 => [[0, 2], [1, 3]]
  | 1, 2 => [[0, 1], [2, 3]]
  | x, y => if x = y then [[]] else [linksOf x y]

/-- First location of the ECC granule of a location: 32 bytes in HBM, 8 bytes elsewhere (R264). -/
def granuleOf (loc : Nat) : Nat := if loc < 2 ^ 64 then loc / 32 * 32 else loc / 8 * 8
/-- Bytes of the ECC granule of a location (R264). -/
def granuleSize (loc : Nat) : Nat := if loc < 2 ^ 64 then 32 else 8

/-- The canonical form of memory: locations strictly rising, no byte listed that an unlisted location reads as (log 3). -/
def Memory.wf (m : List Host.Cell) : Bool := Sparse.wf 0 m

/-- Byte i of a little-endian value. -/
def byteOf (x i : Nat) : Byte := BitVec.ofNat 8 (x / 2 ^ (8 * i))

namespace State

/-- A byte of memory; an unlisted location reads 0 (log 3). -/
def byte (s : State) (loc : Nat) : Byte := Sparse.get 0 s.mem loc

/-- n bytes at a location, little-endian (R6). -/
def bytes (s : State) (loc : Nat) : Nat → Nat
  | 0 => 0
  | n + 1 => (s.byte loc).toNat + 256 * s.bytes (loc + 1) n

/-- Puts bytes at locations, the later ones last. -/
def putBytes (s : State) (es : List (Nat × Byte)) : State := { s with mem := Sparse.setMany 0 s.mem es }

/-- The device physical base of the collecting bitmap (R282). -/
def dirtyBase (s : State) : Nat := (if s.host.bar0.dbSel then s.host.bar0.dbBase1 else s.host.bar0.dbBase0).toNat

/-- Sets the dirty bit of the frame of an HBM location in the collecting bitmap, when the feature is accepted (R282, R2). -/
def markDirty (s : State) (loc : Nat) : State :=
  if s.feature 7 ∧ loc < Config.hbmBytes then
    let a := s.dirtyBase + loc / 65536 / 8
    { s with mem := Sparse.set 0 s.mem a (s.byte a ||| BitVec.ofNat 8 (2 ^ (loc / 65536 % 8))) }
  else s

/-- Some granule that n bytes at a location touch holds an uncorrectable error (R264). -/
def hasBad (s : State) (loc n : Nat) : Bool :=
  s.bad.any (fun e => e.2 && decide (e.1 < loc + n) && decide (loc < e.1 + granuleSize e.1))

/-- A location lies in a granule that holds an uncorrectable error (R264). -/
def badAt (s : State) (loc : Nat) : Bool := !s.bad.isEmpty && Sparse.get false s.bad (granuleOf loc)

/-- A byte of a written group is discarded: its granule holds an error and the group does not cover the granule (R264). -/
def discarded (s : State) (es : List (Nat × Byte)) (e : Nat × Byte) : Bool :=
  s.badAt e.1 && !(List.range (granuleSize (granuleOf e.1))).all (fun i => es.any (fun x => x.1 == granuleOf e.1 + i))

/-- The granules of written bytes hold no error from now on (R264). -/
def repair (s : State) (es : List (Nat × Byte)) : State :=
  if s.bad.isEmpty then s else { s with bad := es.foldl (fun b e => Sparse.set false b (granuleOf e.1) false) s.bad }

/-- Sets the dirty bits of some frames. -/
def markFrames (s : State) (fs : List Nat) : State := fs.foldl (fun t f => t.markDirty (f * 65536)) s

/-- A group of bytes of which some are discarded leaves a "store lost" record (R264, R274). -/
def lostRecord (s : State) (part g : Nat) : Option (Nat × Byte) → State
  | none => s
  | some e => s.fqPush (frecWord 3 part g 0 0) e.1

/-- A write of a group of bytes is performed (R78, R264, R282): bytes of a bad granule that the group does not cover whole are
discarded with a record, a whole granule is repaired, the dirty bits of the frames are set. -/
def writeGroup (s : State) (part g : Nat) (es : List (Nat × Byte)) : State :=
  let kept := es.filter (fun e => !s.discarded es e)
  (((s.repair kept).lostRecord part g (es.find? (s.discarded es))).putBytes kept).markFrames ((kept.map (fun e => e.1 / 65536)).eraseDups)

/-- The bytes of a masked little-endian value at a location. -/
def maskedBytes (loc n : Nat) (val : Word) (mask : BitVec 8) : List (Nat × Byte) :=
  (List.range n).filterMap (fun i => if mask.getLsbD i then some (loc + i, byteOf val.toNat i) else none)

/-- A write of one unit is performed; `whole` when its access covers the whole granule (R264). -/
def writeUnit (s : State) (part g loc n : Nat) (val : Word) (mask : BitVec 8) (whole : Bool) : State :=
  (if whole then s.repair [(loc, 0)] else s).writeGroup part g (maskedBytes loc n val mask)

end State

/-- Kinds of access (R23). -/
inductive Access where
  | load | store | atomic | fetch
  deriving DecidableEq, Repr

/-- A translated address (R23). -/
structure Xl where
  pa     : Nat
  region : Nat
  peer   : Nat
  mtype  : Nat
  deriving DecidableEq, Repr

/-- A field of a page-table entry. -/
def pteField (e lo n : Nat) : Nat := e / 2 ^ lo % 2 ^ n

/-- Reads the tables from a level down to the leaf (R23): the TCAUSE of a failure, or the leaf, its address and its level. The indices
are added to the table address as it is, and a table beyond HBM is an address fault (DESIGN CHOICE, log 54: R21 has tables of 8 KiB
aligned in local HBM and names no outcome for a ROOT that is not). -/
def walkFrom (s : State) (part va : Nat) : (level : Nat) → (table : Nat) → Except Nat (Nat × Nat × Nat)
  | 0, _ => .error 2
  | l + 1, table =>
    let at_ := table + va / 2 ^ (16 + 10 * l) % 1024 * 8
    if at_ + 8 > Config.hbmBytes then .error 2
    else if Sparse.get none s.frames.owner (at_ / 65536) ≠ some part then .error 15
    else
      let e := s.bytes (locHbm at_) 8
      if pteField e 0 1 = 0 ∨ pteField e 56 8 ≠ 0 ∨ pteField e 12 1 ≠ 0 then .error 2
      else if pteField e 1 1 = 0 then
        if pteField e 48 8 ≠ 0 ∨ pteField e 2 10 ≠ 0 ∨ l = 0 ∨ pteField e 13 35 * 8192 + 8192 > Config.hbmBytes then .error 2
        else walkFrom s part va l (pteField e 13 35 * 8192)
      else .ok (e, at_, l + 1)

/-- The access is permitted by a leaf (R23). -/
def leafPermits (e : Nat) (k : Access) (sup : Bool) : Bool :=
  (match k with
    | .load => pteField e 2 1 == 1
    | .store => pteField e 3 1 == 1
    | .atomic => pteField e 2 1 == 1 && pteField e 3 1 == 1
    | .fetch => pteField e 4 1 == 1) && (sup || pteField e 5 1 == 0)

/-- Checks a leaf and forms the translated address (R22 to R24, R275): a region whose feature is not accepted is an address fault,
and so is a pool address beyond the granted window; so is a region-3 leaf whose bits [47:31] are not zero (DESIGN CHOICE, log 53: Table
01-7 says they hold zero, R23 has no test of them). -/
def leafUse (s : State) (part : Nat) (k : Access) (sup : Bool) (e level va : Nat) : Except Nat Xl :=
  let size := 2 ^ (6 + 10 * level)
  let base := pteField e 13 35 * 8192
  let region := pteField e 10 2
  let pool := match s.part part with | some p => (p.poolB, p.poolS) | none => (0, 0)
  if region ≤ 1 ∧ pteField e 48 8 ≠ 0 then .error 2
  else if level = 4 ∨ base % size ≠ 0 ∨ pteField e 8 2 = 3 ∨ (region = 3 ∧ level ≠ 1) then .error 2
  else if region = 0 ∧ base + size > Config.hbmBytes then .error 2
  else if region = 3 ∧ pteField e 31 17 ≠ 0 then .error 2
  else if (region = 1 ∧ !s.feature 3) ∨ (region ≥ 2 ∧ !s.feature 2) then .error 2
  else if !leafPermits e k sup then .error 3
  else if region = 1 ∧ base + va % size ≥ pool.2 then .error 2
  else .ok { pa := base + va % size + (if region = 1 then pool.1 else 0), region := region, peer := pteField e 48 8, mtype := pteField e 8 2 }

/-- The bits the walker sets in a leaf (R22, R23): A, and D for a store or atomic. -/
def walkBits (k : Access) : Nat := match k with | .store => 192 | .atomic => 192 | _ => 64

/-- Stores a leaf whose bits have changed (R22, R23). -/
def setLeaf (s : State) (part at_ e e2 : Nat) : State :=
  if e2 = e then s else s.writeGroup part 0 (State.maskedBytes at_ 8 (BitVec.ofNat 64 e2) 0xFF)

/-- A cluster caches a translation, in place of an older one of the same page (R27). -/
def cacheLeaf (s : State) (cl : Nat) (ent : TlbEntry) : State :=
  s.updCluster cl (fun c => { c with tlb := (ent :: c.tlb.filter (fun t => !(t.part == ent.part && t.base == ent.base))).take Config.tlbSize })

/-- The entries that a walk reads on its way to the leaf, as the walk caches keep them: the levels below 4 and their tables (R27). -/
def walkTables (s : State) (part va : Nat) : (level : Nat) → (table : Nat) → List WalkEntry
  | 0, _ => []
  | l + 1, table =>
    let e := s.bytes (locHbm (table + va / 2 ^ (16 + 10 * l) % 1024 * 8)) 8
    if pteField e 1 1 = 1 ∨ l = 0 then []
    else ⟨part, l, va / 2 ^ (16 + 10 * l), pteField e 13 35 * 8192⟩ :: walkTables s part va l (pteField e 13 35 * 8192)

/-- An entry of a walk cache serves an address of a partition. -/
def WalkEntry.serves (w : WalkEntry) (part va : Nat) : Bool := w.part == part && w.upper == va / 2 ^ (16 + 10 * w.level)

/-- Where a walk of a die begins: at the lowest table that its walk caches give, else at the root (R27, R28). -/
def walkStart (s : State) (die part va root : Nat) : Nat × Nat :=
  let ws := (Sparse.get [] s.walks die).filter (fun w => w.serves part va && decide (1 ≤ w.level ∧ w.level ≤ 3))
  match [1, 2, 3].findSome? (fun l => ws.find? (fun w => w.level == l)) with
  | some w => (w.level, w.table)
  | none => (4, root)

/-- A die's walk caches take the entries of a walk, in place of older ones (R27). -/
def cacheTables (s : State) (die part va : Nat) (ts : List WalkEntry) : State :=
  if ts.isEmpty then s
  else { s with walks := Sparse.modify [] s.walks die (fun ws =>
    ts ++ ws.filter (fun w => !(w.serves part va && ts.any (fun t => t.level == w.level)))) }

/-- walk(va, kind) by the walker of cluster `cl` (R23, R27, R28): a cached entry is used unless D is still to be set; otherwise the
tables are read from where the die's walk caches begin, A and D are updated in memory, and the leaf and the tables are cached. -/
def translate (s : State) (cl part : Nat) (sup : Bool) (k : Access) (va : Nat) : Except Nat (State × Xl) :=
  let cached := (s.cluster cl).tlb.find? (fun t => t.part == part && decide (t.base ≤ va) && decide (va < t.base + t.size))
  let usable := match cached with
    | some t => if (walkBits k &&& t.leaf.toNat) == walkBits k then some t else none
    | none => none
  match usable with
  | some t => (leafUse s part k sup t.leaf.toNat ((t.size.log2 - 6) / 10) va).map (fun x => (s, x))
  | none =>
    match s.part part with
    | none => .error 2
    | some p =>
      let w := walkStart s (dieOf cl) part va p.root
      match walkFrom s part va w.1 w.2 with
      | .error c => .error c
      | .ok (e, at_, level) =>
        match leafUse s part k sup e level va with
        | .error c => .error c
        | .ok x =>
          let size := 2 ^ (6 + 10 * level)
          .ok (cacheTables (cacheLeaf (setLeaf s part at_ e (e ||| walkBits k)) cl
            { part := part, base := va / size * size, size := size, leaf := BitVec.ofNat 64 (e ||| walkBits k), entry := at_ })
            (dieOf cl) part va (walkTables s part va w.1 w.2), x)

/-- Several walks of one agent, their A and D bits kept whatever becomes of the access (R23). -/
def walkAll (s : State) (cl part : Nat) (sup : Bool) (k : Access) (as : List Nat) : State :=
  as.foldl (fun t a => match translate t cl part sup k a with | .ok (t1, _) => t1 | .error _ => t) s

/-- A frame of HBM belongs to a partition, as the router compares tags at ejection (R278). -/
def State.owns (s : State) (part pa : Nat) : Bool := Sparse.get none s.frames.owner (pa / 65536) == some part

/-- Every way from a die to a byte of HBM crosses a failed Tlanil link (R266; DEDUCED, log 40: the spec names no way that traffic takes
round a failed link). -/
def State.cut (s : State) (die pa : Nat) : Bool := (waysOf die (dieOfHbm pa)).all (fun w => w.any (fun l => s.routes.contains l))

/-- A peer refuses what reaches some of n bytes of it (R25, log 21). -/
def State.refused (s : State) (loc n : Nat) : Bool := s.refuses.any (fun r => decide (r.1 < loc + n) && decide (loc < r.1 + r.2))

/-- The partition of a peer that a partition is paired with on a port (R24, Table 16-5). -/
def State.pairOf (s : State) (part peer : Nat) : Option Nat :=
  ((s.part part).bind (fun p => p.peer[peer]?)).filter (fun q => decide (q < 255))

/-- The location of a translated address of REGION 2 or 3 for a partition (R24). -/
def Xl.far (x : Xl) (s : State) (part : Nat) : Nat :=
  if x.region = 2 then locPeer x.peer ((s.pairOf part x.peer).getD 255) x.pa else locPeerWagon x.peer x.pa

/-- The peer of a translated address of REGION 2 or 3 serves a partition: they are paired there, the port's route has not failed, and the
peer admits the bytes (R24, R25, R266; log 21). -/
def Xl.answers (x : Xl) (s : State) (part n : Nat) : Bool :=
  (s.pairOf part x.peer).isSome && !s.routes.contains (x.peer + 4) && !s.refused (x.far s part) n

/-- Where an access of a core lands: location, memory type, hitch slot for a window access. -/
structure Place where
  loc   : Nat
  mtype : Nat
  slot  : Option Nat
  deriving DecidableEq, Repr

/-- The space byte of an address (R7). -/
def spaceOf (a : Word) : Nat := a.toNat / 2 ^ 56

/-- Finds the place of an access of core g (R8 to R10, R23, R24, R278): the TCAUSE of the failure, or the state after the walk and the
place. Alignment is the caller's. A load or atomic is checked against the frame's owner; a store is at its ejection (R265). -/
def locate (s : State) (g : Nat) (sup : Bool) (k : Access) (a : Word) : Except Nat (State × Place) :=
  let c := s.core g
  if spaceOf a = 0xE0 then
    if a.toNat % 2 ^ 56 / 2 ^ 23 ≠ 0 then .error 2
    else
      let n := a.toNat / 2 ^ 18 % 32
      let h := c.slot n
      if h.st ≠ .attached then .error 5
      else .ok (s, { loc := locWagon (clusterOf g) h.wagon (a.toNat % 2 ^ 18), mtype := 0, slot := some n })
  else if spaceOf a = 0 then
    match translate s (clusterOf g) c.part sup k a.toNat with
    | .error e => .error e
    | .ok (s1, x) =>
      if x.region ≠ 0 then .error 2
      else if k ≠ .store ∧ !s.owns c.part x.pa then .error 15
      else .ok (s1, { loc := locHbm x.pa, mtype := x.mtype, slot := none })
  else .error 2

/-! ### Budgets (R128) -/

/-- The unit that serves an activity of core g (Table 06-11): the HBM controllers, the copy engine of its die, its cluster's way into the
fabric, the host link, its cluster's stagecoach. -/
def unitOf (act g : Nat) : Nat :=
  match act with
  | 1 => dieOf (clusterOf g)
  | 2 => clusterOf g
  | 4 => clusterOf g
  | _ => 0

/-- A request of core g. -/
def askOf (by_ : Asker) (g part acct act amount : Nat) : Ask := { by_ := by_, act := act, unit := unitOf act g, part := part, acct := acct, amount := amount }

/-- The issuing core's request at its instruction. -/
def State.atIssue (s : State) : Asker := .core s.cur s.me.uid s.pc

/-- A request still waits: its core stands at the instruction, its access is not performed, its transfer or command is not over. -/
def Asker.stands (s : State) : Asker → Bool
  | .core g uid pc => (s.core g).uid == uid && (s.core g).pc == pc && (s.core g).sched.run == .running
  | .access g seq => (s.core g).mem.wbuf.any (fun w => w.seq == seq) || (s.core g).mem.late.any (fun w => w.seq == seq)
  | .chunk g ch id => ((s.core g).chan ch).xfers.any (fun x => x.id == id && x.st == .running)
  | .command g seq => (s.cluster (clusterOf g)).coach.any (fun c => c.core == g && c.seq == seq)

/-- What the account of a request has used of its activity in this period. -/
def Ask.used (s : State) (a : Ask) : Nat := match s.part a.part with | some p => Sparse.get 0 p.usage (a.acct * 5 + a.act) | none => 0
/-- The floor and the ceiling of a request's account; without a budget, none. -/
def Ask.limits (s : State) (a : Ask) : Option (Nat × Nat) := (s.part a.part).bind (fun p => p.budget[a.acct * 5 + a.act]?)
/-- A request leaves its account within the ceiling of the period. -/
def Ask.fits (s : State) (a : Ask) : Bool := match a.limits s with | some (_, ceil) => decide (a.used s + a.amount ≤ ceil) | none => true
/-- The account of a request is still below its floor in the period. -/
def Ask.below (s : State) (a : Ask) : Bool := match a.limits s with | some (floor, _) => decide (a.used s < floor) | none => false

/-- A request is served before those that wait for the same unit: accounts below their floors first, else in the order of arrival (R128,
R132). -/
def State.mayServe (s : State) (a : Ask) : Bool :=
  let rival := fun (x : Ask) => x.act == a.act && x.unit == a.unit && x.by_ != a.by_ && x.by_.stands s && x.fits s
  let earlier := (s.asks.takeWhile (fun x => x.by_ != a.by_ || x.act != a.act)).filter rival
  if a.below s then earlier.all (fun x => !x.below s) else earlier.isEmpty && (s.asks.filter rival).all (fun x => !x.below s)

/-- Counts an activity of an account in this period; none when the request has to wait (R128). -/
def State.charge (s : State) (a : Ask) : Option State :=
  if a.amount = 0 then some s
  else if !(a.fits s && s.mayServe a) then none
  else some ({ s with asks := s.asks.filter (fun x => x.by_ != a.by_ || x.act != a.act) }.updPart a.part
    (fun p => { p with usage := Sparse.set 0 p.usage (a.acct * 5 + a.act) (a.used s + a.amount) }))

/-- Counts an activity that has taken place (R128). -/
def State.count (s : State) (part acct act n : Nat) : State :=
  s.updPart part (fun p => { p with usage := Sparse.modify 0 p.usage (acct * 5 + act) (· + n) })

/-- Counts several activities, all or none. -/
def State.chargeList (s : State) : List Ask → Option State
  | [] => some s
  | a :: l => (s.charge a).bind (fun t => t.chargeList l)

/-- Requests that cannot be served now join those that wait, unless they are among them (R128). -/
def State.enlist (s : State) (l : List Ask) : State :=
  { s with asks := s.asks.filter (fun x => x.by_.stands s) ++
      l.filter (fun a => decide (a.amount ≠ 0) && !s.asks.any (fun x => x.by_ == a.by_ && x.act == a.act)) }

/-- The requests of an access of core g to n bytes at a location: HBM is reached over the fabric (R128, Table 06-11). -/
def hbmAsks (s : State) (by_ : Asker) (g loc n : Nat) : List Ask :=
  if loc < 2 ^ 64 then [0, 2].map (fun act => askOf by_ g (s.core g).part (s.core g).acct act n) else []

/-! ### Geometry of transfers (R203 to R205) -/

/-- Bits of an element of a livery's format; Raw counts as bytes and LCB2 as 16-bit indices. -/
def liveryBits (l : BitVec 32) : Nat :=
  match fmtOfLivery (l.toNat % 256) with
  | some f => fmtWidth f
  | none => if l.toNat % 256 = 12 then 16 else 8

/-- The scale mode of a livery (Table 03-1). -/
def liveryMode (l : BitVec 32) : Nat := l.toNat / 256 % 16
/-- The scale region offset of a livery in bytes. -/
def liveryOff (l : BitVec 32) : Nat := l.toNat / 65536 * 64

/-- A side is packed (R203). -/
def sidePacked (d : Side) : Bool := decide (liveryBits d.livery < 8) || decide (liveryMode d.livery ≠ 0)

/-- The indices (i0, i1, i2, i3) of the element at position p, i0 fastest (R203). -/
def posIdx (ext : List Nat) (p : Nat) : List Nat :=
  match ext with
  | [] => []
  | e :: l => (p % e) :: posIdx l (p / e)

/-- The bit offset from the base of the element with these indices (R203). -/
def sideBit (d : Side) (idx : List Nat) : Int :=
  ((idx.zip (d.start.zip d.str)).zipIdx.map (fun x =>
    let i := (x.1.2.1 + (x.1.1 : Int))
    if x.2 = 0 && sidePacked d then i * liveryBits d.livery else i * x.1.2.2 * 8)).foldl (· + ·) 0

/-- The byte address of the element at a position and its bit within that byte. -/
def sideAt (d : Side) (p : Nat) : Nat × Nat :=
  let b := sideBit d (posIdx d.ext p)
  (((d.base : Int) + b / 8).toNat, (b % 8).toNat)

/-- Elements of a transfer. -/
def xferTotal (x : Xfer) : Nat := x.dst.ext.foldl (· * ·) 1

/-- The address of the scale byte of the element at an address of a scaled side: one byte for each 32 elements in mode 1, for each 16 in
modes 2 and 3, from SCOFF on in the element's wagon; an LCB2 index counts as eight (R57). -/
def sideScale (d : Side) (a : Nat) : Nat :=
  let e := a % 2 ^ 18 * 8 / liveryBits d.livery
  let w := if d.livery.toNat % 256 = 12 then e * 8 else e
  a / 2 ^ 18 * 2 ^ 18 + liveryOff d.livery + w / (if liveryMode d.livery = 1 then 32 else 16)

/-- The bits from one element to the next of dimension d (R203). -/
def strideBits (d : Side) (i : Nat) : Int := if i = 0 && sidePacked d then (liveryBits d.livery : Int) else (d.str[i]?.getD 0) * 8

/-- The boxes of indices that make up the index space from position p on: for each dimension the first and the last index. -/
def boxesFrom (ext : List Nat) (p : Nat) : List (List (Nat × Nat)) :=
  let idx := posIdx ext p
  let at_ := fun (i : Nat) => idx[i]?.getD 0
  let top := fun (i : Nat) => (ext[i]?.getD 1) - 1
  if p < ext.foldl (· * ·) 1 then
    (List.range 4).filterMap (fun j =>
      -- indices above j as now, index j further on (or, for j = 0, from now on), indices below j any
      let first := if j = 0 then at_ 0 else at_ j + 1
      if first < (ext[j]?.getD 1) then
        some ((List.range 4).map (fun i => if i < j then (0, top i) else if i = j then (first, top j) else (at_ i, at_ i)))
      else none)
  else []

/-- A box as steps in bits with the first and the last coordinate, outermost dimension first. -/
def boxDims (d : Side) (b : List (Nat × Nat)) : List (Int × Int × Int) :=
  (b.zipIdx.map (fun x => (strideBits d x.2, (d.start[x.2]?.getD 0) + (x.1.1 : Int), (d.start[x.2]?.getD 0) + (x.1.2 : Int)))).reverse

/-- The least and the greatest sum of one step of each dimension. -/
def boxSpan : List (Int × Int × Int) → Int × Int
  | [] => (0, 0)
  | (st, a, b) :: l => ((boxSpan l).1 + min (a * st) (b * st), (boxSpan l).2 + max (a * st) (b * st))

/-- An element of w bits of a box has a bit from lo to hi. -/
def boxMeets (w : Nat) (lo hi : Int) : List (Int × Int × Int) → Int → Bool
  | [], o => decide (o ≤ hi) && decide (lo < o + w)
  | (st, a, b) :: l, o =>
    let r := boxSpan ((st, a, b) :: l)
    decide (o + r.1 ≤ hi) && decide (lo < o + r.2 + w) &&
      (List.range (if st = 0 then 1 else (b - a).toNat + 1)).any (fun j => boxMeets w lo hi l (o + (a + (j : Int)) * st))

/-- The address intervals that the elements from position p on lie in: one interval for each box, and for a scaled side the scale bytes
of those. -/
def remaining (d : Side) (p : Nat) : List (Nat × Nat) :=
  let boxes := (boxesFrom d.ext p).map (fun b =>
    let r := boxSpan (boxDims d b)
    (((d.base : Int) + r.1 / 8).toNat, ((d.base : Int) + (r.2 + liveryBits d.livery - 1) / 8).toNat))
  boxes ++ (if liveryMode d.livery = 0 then [] else boxes.map (fun r => (sideScale d r.1, sideScale d r.2)))

/-- Bits of the data that one scale byte of a scaled side covers (R57). -/
def scaleSpan (d : Side) : Nat :=
  (if liveryMode d.livery = 1 then 32 else 16) / (if d.livery.toNat % 256 = 12 then 8 else 1) * liveryBits d.livery

/-- An element from position p on, or its scale byte, has a byte from address a to b (R91). -/
def sideMeets (d : Side) (p a b : Nat) : Bool :=
  let data := fun (lo hi : Int) => (boxesFrom d.ext p).any (fun x => boxMeets (liveryBits d.livery) lo hi (boxDims d x) 0)
  data ((a : Int) * 8 - d.base * 8) ((b : Int) * 8 + 7 - d.base * 8) ||
    (decide (liveryMode d.livery ≠ 0) &&
      (let w := d.base / 2 ^ 18 * 2 ^ 18
       let first := w + liveryOff d.livery
       decide (first ≤ b) &&
         data ((w * 8 + (a - first) * scaleSpan d : Nat) - (d.base * 8 : Nat)) ((w * 8 + (b - first + 1) * scaleSpan d - 1 : Nat) - (d.base * 8 : Nat))))

/-- A byte from a to b lies in the range of a side and is not behind the transfer: an element from position p on has it, or no element of
the transfer has it (R91: bytes that the command does not touch still count). -/
def sideHolds (d : Side) (p a b : Nat) : Bool :=
  (List.range (b + 1 - a)).any (fun i =>
    let x := a + i
    decide (d.lo ≤ x) && decide (x ≤ d.hi) && (sideMeets d p x x || !sideMeets d 0 x x))

/-- The scale bytes of a scaled side lie in the wagon of its base: their window addresses for the elements of a position on. -/
def sideSlots (d : Side) : List Nat :=
  if d.lo / 2 ^ 56 = 0xE0 then (List.range (d.hi / 2 ^ 18 % 64 - d.lo / 2 ^ 18 % 64 + 1)).map (· + d.lo / 2 ^ 18 % 64) else []

/-- A transfer still reads or writes (R206). -/
def Xfer.active (x : Xfer) : Bool := x.st != .ended

/-- The watermark of a transfer: the lowest window address it writes and has not performed, hi + 1 when none is left (R50, R51). -/
def xferWm (x : Xfer) : Nat :=
  if x.active then (remaining x.dst x.pos).foldl (fun m b => min m b.1) (x.dst.hi + 1) else x.dst.hi + 1

/-! ### Pending accesses and interlocks (R36, R50, R91) -/

/-- The dray commands of a core that are not done. -/
def State.drayCmds (s : State) (g : Nat) : List DCmd :=
  let c := s.cluster (clusterOf g)
  (c.dray0.cmds ++ c.dray1.cmds).filter (fun d => d.core == g && !d.done)

/-- The stagecoach commands of a core's task not yet complete. -/
def State.coachCmds (s : State) (g : Nat) : List CCmd :=
  (s.cluster (clusterOf g)).coach.filter (fun d => d.core == g && d.uid == (s.core g).uid)

/-- The transfers of a core not yet complete. -/
def Core.xfers (c : Core) : List Xfer := c.chans.flatMap (fun e => e.2.xfers)

/-- The hitch slots whose wagons a dray command still has to read or write (R36). -/
def DOp.slots : DOp → List Nat
  | .mma o => (if o.aacc.isNone then [o.a.slot] else []) ++ [o.b.slot]
  | .accst _ _ _ _ _ d _ _ _ => [d.slot]
  | .acccb _ n => [n]
  | _ => []

/-- The slots that a transfer names. -/
def Xfer.slots (x : Xfer) : List Nat := sideSlots x.src ++ sideSlots x.dst

/-- A transfer still reads or writes the wagon of a slot (R36). -/
def Xfer.names (x : Xfer) (n : Nat) : Bool :=
  let w := 0xE000000000000000 + n * 2 ^ 18
  x.active && [x.src, x.dst].any (fun d => (sideSlots d).contains n && sideMeets d x.pos w (w + 2 ^ 18 - 1))

/-- The dray commands of a core that are not done; one that both drays work on counts once (R36). -/
def State.drayNames (s : State) (g n : Nat) : Nat :=
  let c := s.cluster (clusterOf g)
  let mine := fun (l : List DCmd) => l.filter (fun d => d.core == g && !d.done && d.op.slots.contains n)
  let both := fun (d : DCmd) => match d.op with | .mma o => o.both | _ => false
  let here := mine c.dray0.cmds
  let there := mine c.dray1.cmds
  (here.filter (fun d => !both d)).length + (there.filter (fun d => !both d)).length + max (here.filter both).length (there.filter both).length

/-- PEND of a slot of a core (R36). -/
def State.pend (s : State) (g n : Nat) : Nat :=
  let c := s.core g
  let ws := (c.mem.wbuf.filter (fun w => w.slot == some n)).map (·.seq)
  let rs := (c.mem.late.filter (fun w => w.slot == some n)).map (·.seq)
  (ws ++ rs).eraseDups.length + (c.xfers.filter (fun x => x.names n)).length + s.drayNames g n
    + ((s.coachCmds g).filter (fun d => d.slots.contains n)).length

/-- Two address ranges meet. -/
def meets (a b lo hi : Nat) : Bool := decide (a ≤ hi) && decide (lo ≤ b)

/-- The window range (first and last address) of a dray operand with `rows` rows of `cols` elements, the scale bytes included; an LCB2
index holds eight elements (R63, R91). -/
def operRange (o : DOper) (rows cols : Nat) : Nat × Nat :=
  let b := liveryBits o.livery
  let w := 0xE000000000000000 + o.slot * 2 ^ 18
  let n := if o.livery.toNat % 256 = 12 then 8 else 1
  let last := o.first + (rows - 1) * o.ld + cols - 1
  let hi := (last / n * b + b - 1) / 8
  (w + o.first / n * b / 8,
    w + (if liveryMode o.livery = 0 then hi else max hi (liveryOff o.livery + last / (if liveryMode o.livery = 1 then 32 else 16))))

/-- The source ranges of a dray command in its core's window (R91). -/
def DOp.sources : DOp → List (Nat × Nat)
  | .mma o => (if o.aacc.isNone then [operRange o.a o.m o.k] else []) ++ [if o.bt then operRange o.b o.n o.k else operRange o.b o.k o.n]
  | .acccb loc n => [(0xE000000000000000 + n * 2 ^ 18 + loc % 2 ^ 18, 0xE000000000000000 + n * 2 ^ 18 + loc % 2 ^ 18 + 767)]
  | _ => []

/-- The destination ranges of a dray command in its core's window (R91). -/
def DOp.dests : DOp → List (Nat × Nat)
  | .accst _ _ _ nr nc d _ _ _ => [operRange d nr nc]
  | _ => []

/-- A field of a stagecoach configuration block (Table 12-3). -/
def cfgField (cfg : BitVec 512) (lo n : Nat) : Nat := cfg.toNat / 2 ^ lo % 2 ^ n

/-- The areas of a stagecoach command: source ranges and destination ranges (Table 12-13, R91). -/
def CCmd.areas (d : CCmd) : List (Nat × Nat) × List (Nat × Nat) :=
  let ne := cfgField d.cfg 0 9
  let k := cfgField d.cfg 9 4
  let nt := cfgField d.cfg 16 14
  let cap := cfgField d.cfg 32 14
  let rowb := cfgField d.cfg 64 16
  let area := fun (lo bytes : Nat) => (cfgField d.cfg lo 64, cfgField d.cfg lo 64 + bytes - 1)
  let man := area 384 (nt * k * 4)
  match d.func with
  | 1 | 2 => ([area 128 (nt * ne * 4)], [man])
  | 3 => ([man], [man, area 448 (1024 + 4 * nt * k)])
  | 4 => ([man], [area 448 (4 * ne)])
  | 5 => ([man, area 192 (nt * rowb)], d.table.map (fun t => (t.toNat, t.toNat + cap * rowb - 1)))
  | 6 => ([man, area 256 (nt * k * 4)] ++ (if cfgField d.cfg 49 1 = 1 then [area 192 (nt * rowb)] else [])
      ++ d.table.map (fun t => (t.toNat, t.toNat + cap * rowb - 1)), [(d.a.toNat, d.a.toNat + nt * rowb - 1)])
  | _ => ([], [])

/-- What an interlock does with an access (Table 04-7). -/
inductive Lock where
  | go | stall | strictTrap
  deriving DecidableEq, Repr

/-- Bytes a to b overlap a window destination of a copy of core g whose watermark has not passed b (R50). -/
def State.wmStall (s : State) (g a b : Nat) : Bool :=
  (s.core g).xfers.any (fun x => x.active && decide (x.dst.lo / 2 ^ 56 = 0xE0) && meets a b x.dst.lo x.dst.hi && decide (b ≥ xferWm x))

/-- The interlocks of Table 04-7 beside the watermark that a store or atomic of core g meets with its bytes a to b (R91, R263). -/
def State.interlock (s : State) (g a b : Nat) : Lock :=
  let c := s.core g
  let xs := c.xfers.filter Xfer.active
  if (s.drayCmds g).any (fun d => d.op.sources.any (fun r => meets a b r.1 r.2)) then
    (match s.part c.part with | some p => if p.strict then .strictTrap else .stall | none => .stall)
  else if (s.drayCmds g).any (fun d => d.op.dests.any (fun r => meets a b r.1 r.2)) then .stall
  else if xs.any (fun x => sideHolds x.src x.pos a b) then .stall
  else if xs.any (fun x => decide (x.dst.lo / 2 ^ 56 ≠ 0xE0) && sideHolds x.dst x.pos a b) then .stall
  else if (s.coachCmds g).any (fun d => (d.areas.1 ++ d.areas.2).any (fun r => meets a b r.1 r.2)) then .stall
  else .go

/-! ### Accesses of a core (R78, R79, R83, R86) -/

/-- Two byte ranges of memory meet. -/
def overlap (l n l' n' : Nat) : Bool := decide (l < l' + n') && decide (l' < l + n)

/-- The line of a read cache that holds a location. -/
def CoreMem.line (m : CoreMem) (loc : Nat) : Option Line := Sparse.get none m.rcache (loc / Config.lineBytes)

/-- The line that may serve a load of an address with a stamp (R79, R84, R85 case 2): MTYPE 0 or 1, and filled after every access that
the address depends on. -/
def CoreMem.hit (m : CoreMem) (mtype stamp loc : Nat) : Option Line :=
  if mtype ≤ 1 then (m.line loc).filter (fun l => decide (stamp < l.born)) else none

/-- The youngest store of the core before an access that covers a byte and is not performed yet (R86, forwarding). -/
def CoreMem.forward (m : CoreMem) (before loc : Nat) : Option Write :=
  m.wbuf.reverse.find? (fun w => decide (w.seq < before) && decide (w.loc ≤ loc) && decide (loc < w.loc + w.n) && w.mask.getLsbD (loc - w.loc))

/-- The byte that a load of core g reads (R79, R86): the youngest earlier store of the core to it that is not yet performed, else a
read-cache hit, else memory. `before` is the number of the load's instruction, `stamp` that of its address. -/
def State.coreByte (s : State) (g : Nat) (mtype before stamp loc : Nat) : Byte :=
  let m := (s.core g).mem
  match m.forward before loc with
  | some w => byteOf w.val.toNat (loc - w.loc)
  | none =>
    match m.hit mtype stamp loc with
    | some l => byteOf l.data.toNat (loc % Config.lineBytes)
    | none => s.byte loc

/-- The n bytes that a load of core g reads. -/
def State.coreRead (s : State) (g mtype before stamp loc : Nat) : Nat → Nat
  | 0 => 0
  | n + 1 => (s.coreByte g mtype before stamp loc).toNat + 256 * s.coreRead g mtype before stamp (loc + 1) n

/-- The stamp of a byte read: a forwarded byte adds none, one from a line counts as read at the line's fill, one from memory as read
now (R79, R85). -/
def CoreMem.stampOf (m : CoreMem) (mtype before stamp loc : Nat) : Nat :=
  match m.forward before loc with
  | some _ => stamp
  | none =>
    match m.hit mtype stamp loc with
    | some l => max stamp (l.born - 1)
    | none => m.tick

/-- The stamp of n bytes read. -/
def CoreMem.readStamp (m : CoreMem) (mtype before stamp loc n : Nat) : Nat :=
  (List.range n).foldl (fun k i => max k (m.stampOf mtype before stamp (loc + i))) stamp

/-- Drops the lines of a read cache that hold some of n bytes at a location. -/
def dropLines (rc : Sparse (Option Line)) (loc n : Nat) : Sparse (Option Line) :=
  rc.filter (fun e => !(decide (loc / Config.lineBytes ≤ e.1) && decide (e.1 * Config.lineBytes < loc + n)))

/-- Drops those of them that were filled no later than a stamp. -/
def dropOld (rc : Sparse (Option Line)) (loc n stamp : Nat) : Sparse (Option Line) :=
  rc.filter (fun e => !(decide (loc / Config.lineBytes ≤ e.1) && decide (e.1 * Config.lineBytes < loc + n) &&
    (match e.2 with | some l => decide (l.born ≤ stamp) | none => false)))

/-- A core's memory side after a read of n bytes: an uncached access drops the lines it meets, another one those that could not serve it
(R26, R83), and what the read writes carries its stamp. -/
def CoreMem.afterRead (m : CoreMem) (mtype before stamp loc n : Nat) : CoreMem :=
  { m with rcache := if mtype = 2 then dropLines m.rcache loc n else dropOld m.rcache loc n stamp,
           now := max m.now (m.readStamp mtype before stamp loc n) }

/-- Drops every line of the issuing core's read cache (R79, R96). -/
def Core.dropCache (c : Core) : Core := { c with mem := { c.mem with rcache := [] } }

/-- The writes of a line fill: the bytes of memory from its first location on (R79). -/
def State.lineData (s : State) (line : Nat) : BitVec 512 := BitVec.ofNat 512 (s.bytes (line * Config.lineBytes) Config.lineBytes)

/-- A read cache with one more line; a full cache first replaces the line filled longest ago (R3, R79, log 8). -/
def CoreMem.fill (m : CoreMem) (line : Nat) (data : BitVec 512) : CoreMem :=
  let rc := if m.rcache.length < Config.cacheLines ∨ (Sparse.get none m.rcache line).isSome then m.rcache
    else match (m.rcache.filterMap (fun e => e.2.map (fun l => l.born))).min? with
      | some b => m.rcache.filter (fun e => e.2.map (fun l => l.born) != some b)
      | none => m.rcache
  { m with rcache := Sparse.set none rc line (some ⟨data, m.tick + 1⟩), tick := m.tick + 1 }

/-- Every earlier access of a core has been performed or reported (R265, R97): the condition of a release. -/
def Core.drained (c : Core) : Bool := c.mem.wbuf.isEmpty && c.mem.late.isEmpty && c.sched.pfWay.isEmpty

/-- Every access of a core before a number has been performed or reported (R97, R265). -/
def Core.drainedTo (c : Core) (since : Nat) : Bool :=
  !c.mem.wbuf.any (fun w => decide (w.seq < since)) && !c.mem.late.any (fun w => decide (w.seq < since)) && c.sched.pfWay.isEmpty

/-- A hand-over or a drop of the core is a release that has not been performed yet (R97, R85 cases 7 and 8). -/
def Core.giving (c : Core) : Bool := c.hitch.any (fun e => e.2.st == .leaving)

/-- A place can be read now by core g: no late read overlaps it, no unperformed uncached access is before an uncached one (R83, R85 case 9). -/
def Core.readable (c : Core) (p : Place) (n : Nat) : Bool :=
  !c.mem.late.any (fun l => overlap l.loc l.n p.loc n) &&
    (p.mtype != 2 || (!c.mem.wbuf.any (fun w => w.mtype == 2) && !c.mem.late.any (fun w => w.mtype == 2)))

end Sys2Proof.Machine
end

