-- ==== Sys2Proof/Machine/Event.lean ====
section
/-!
DEFINITION. The cluster event unit: barrier phases and withdrawal, address groups that take effect at a phase, mutex grants
(spec 10 R195 to R199, 05 R98, 06 R114, 14 R253, R254).
-/

namespace Sys2Proof.Machine

/-- A barrier after an event: a phase completes when a member is counted and every member counted has arrived (R197). -/
def Bar.settle (b : Bar) : Bar :=
  if b.members ≠ 0 ∧ b.arrived &&& b.members = b.members then { b with gen := b.gen + 1, arrived := 0 } else b

/-- The mask of a rank. -/
def rankBit (r : Nat) : BitVec 16 := BitVec.ofNat 16 (2 ^ r)

/-- Barrier n of a caravan (R195). -/
def Caravan.bar (c : Caravan) (n : Nat) : Bar := Sparse.get {} c.bars n
/-- Replaces a barrier of a caravan. -/
def Caravan.setBar (c : Caravan) (n : Nat) (b : Bar) : Caravan := { c with bars := Sparse.set {} c.bars n b }

/-- The BWSTAT bits that a withdrawal from barrier n sets (Table 10-5). -/
def bwBits (n : Nat) (rvk : Bool) : Word := BitVec.ofNat 64 (2 ^ n + if rvk then 2 ^ 48 else 0)

/-- Sets BWSTAT bits of a core. -/
def Core.orBw (c : Core) (b : Word) : Core := c.updCsr (fun x => { x with bwstat := x.bwstat ||| b })

/-- How a member leaves a barrier: by BWDR, by revocation, by retirement (R197, R114). -/
inductive Leave where
  | bwdr | revoked | retired
  deriving DecidableEq, Repr

/-- Sets the BWSTAT bits of the cores of the ranks in a set, other than one rank. -/
def markRanks (s : State) (cores : List Nat) (set : BitVec 16) (except_ : Nat) (b : Word) : State :=
  cores.zipIdx.foldl (fun t x => if set.getLsbD x.2 && x.2 != except_ then t.updCore x.1 (fun c => c.orBw b) else t) s

/-- Withdraws a rank from barrier n of a caravan (R197). -/
def withdrawBar (s : State) (car n rank : Nat) (how : Leave) : State :=
  match s.caravan car with
  | none => s
  | some c =>
    let b := c.bar n
    if !b.members.getLsbD rank then s
    else
      let m := b.members &&& ~~~(rankBit rank)
      let s1 := if how = .retired then s else markRanks s c.cores m rank (bwBits n (how == .revoked))
      s1.setCaravan car (some (c.setBar n ({ b with members := m, arrived := b.arrived &&& m }).settle))

/-- Tasks of a launch (R110). -/
def Packet.total (p : Packet) : Nat := p.x * p.y * p.z
/-- Tasks of a caravan of a launch (Table 06-7). -/
def Packet.size (p : Packet) : Nat := 2 ^ p.csize
/-- Tasks of a launch that count: those bound, once its window table was found malformed (R18), else all. -/
def Dispatch.counting (d : Dispatch) : Nat := if d.malformed then d.boundC * d.pkt.size else d.pkt.total

/-- The packets of a launch id that wait for its next phase take effect on the groups of a partition (R253, R254). -/
def Partition.groupEffect (p : Partition) (lid : Nat) : Partition :=
  let now := p.pend.filter (fun g => g.dlid == lid)
  { p with groups := now.foldl (fun m g => Sparse.set none m g.gid g.group) p.groups, pend := p.pend.filter (fun g => g.dlid != lid) }

/-- Barrier 47 of a launch after an event (R197, R98, R254). -/
def settle47 (s : State) (did : Nat) : State :=
  match s.disp did with
  | none => s
  | some d =>
    let counted := d.counting - d.b47.withdrawn.length
    if counted > 0 ∧ d.b47.arrived.length ≥ counted then
      let s1 := s.setDisp did (some { d with b47 := { d.b47 with gen := d.b47.gen + 1, arrived := [] } })
      s1.updPart d.pkt.part (fun p => p.groupEffect d.pkt.lid)
    else s

/-- The cores that run a task of a launch: global index, linear index. A task that has not started has no BWSTAT yet (R198). -/
def State.members47 (s : State) (did : Nat) : List (Nat × Nat) :=
  s.cores.filterMap (fun e => match e.2.sched.task with
    | some t => if t.disp = did ∧ e.2.sched.run ≠ .idle ∧ e.2.sched.run ≠ .finished ∧ e.2.sched.run ≠ .binding then some (e.1, t.lin) else none
    | none => none)

/-- The linear indices of the tasks of a launch that are saved or being restored. -/
def State.saved47 (s : State) (did : Nat) : List Nat :=
  s.caravans.flatMap (fun e => match e.2 with
    | some c => if c.disp = did ∧ (c.st = .saved ∨ c.st = .late ∨ c.st = .restoring) then c.saved.map (fun x => x.task.lin) else []
    | none => [])

/-- The core that runs the task of a launch with a linear index. -/
def State.coreOfLin (s : State) (did lin : Nat) : Option Nat :=
  (s.cores.find? (fun e => match e.2.sched.task with | some t => t.disp == did && t.lin == lin | none => false)).map (fun e => e.1)

/-- Withdraws a task from barrier 47 of its launch for the rest of the launch (R197, R114); unless it retires, the members of address
groups that it owns become absent (R254). -/
def withdraw47 (s : State) (did lin : Nat) (how : Leave) : State :=
  match s.disp did with
  | none => s
  | some d =>
    if d.b47.withdrawn.contains lin then s
    else
      let b := { d.b47 with withdrawn := lin :: d.b47.withdrawn, arrived := d.b47.arrived.filter (· != lin), flight := d.b47.flight.filter (· != lin),
                            lost := if how = .retired then d.b47.lost else lin :: d.b47.lost }
      let bits := bwBits 47 (how == .revoked)
      let far := (s.saved47 did).filter (fun x => x != lin && !b.withdrawn.contains x)
      let b1 := if how = .retired then b else { b with owed := far.foldl (fun m x => Sparse.modify 0 m x (· ||| bits)) b.owed }
      let left := match s.coreOfLin did lin with | some g => if how = .retired then d.gone else g :: d.gone | none => d.gone
      let s1 := s.setDisp did (some { d with b47 := b1, gone := left })
      let s2 := if how = .retired then s1
        else (s1.members47 did).foldl (fun t x =>
          if x.2 != lin && !b.withdrawn.contains x.2 then t.updCore x.1 (fun c => c.orBw bits) else t) s1
      settle47 s2 did

/-- The place of an arrival, BWDR or retirement of a core among the events of one cycle (R199). -/
def placeArrive (g : Nat) : Nat := g
/-- The place of a revocation of a core (R199). -/
def placeRevoke (g : Nat) : Nat := 768 + g
/-- The place of an EVSIG of a core (R199). -/
def placeSignal (g : Nat) : Nat := 1536 + g

/-- The event unit and the key of barrier n of core g's task (R98). -/
def State.barUnit (s : State) (g n : Nat) : Nat × Nat :=
  match (s.core g).sched.task with
  | none => (clusterOf g, barKey 0 n)
  | some t => if n = 47 then (((s.disp t.disp).bind (fun d => d.home)).getD (clusterOf g), barKey t.disp 47) else (clusterOf g, barKey t.car n)

/-- The barriers that core g's task is a counted member of. -/
def State.barriersOf (s : State) (g : Nat) : List Nat :=
  match (s.core g).sched.task with
  | none => []
  | some t =>
    (match s.caravan t.car with | some c => (List.range 47).filter (fun n => (c.bar n).members.getLsbD t.rank) | none => []) ++
      (match s.disp t.disp with | some d => if d.b47.withdrawn.contains t.lin then [] else [47] | none => [])

/-- An event of core g at a place may reach every barrier it belongs to (R199). -/
def mayWithdraw (s : State) (g place : Nat) : Bool :=
  (s.barriersOf g).all (fun n => s.mayReach (s.barUnit g n).1 (s.barUnit g n).2 place)

/-- An event of core g at a place reaches every barrier it belongs to. -/
def reachAll (s : State) (g place : Nat) : State :=
  (s.barriersOf g).foldl (fun t n => t.reached (s.barUnit g n).1 (s.barUnit g n).2 place) s

/-- Withdraws a core's task from every barrier it belongs to (R46, R114). -/
def withdrawAll (s : State) (g : Nat) (how : Leave) : State :=
  match (s.core g).sched.task with
  | none => s
  | some t =>
    let s0 := reachAll s g (if how = .revoked then placeRevoke g else placeArrive g)
    withdraw47 ((List.range 47).foldl (fun u n => withdrawBar u t.car n t.rank how) s0) t.disp t.lin how

/-- The current generation of a line of core g: a barrier of its caravan or launch, or a flag of its partition (R13). -/
def State.lineGen (s : State) (g line : Nat) : Word :=
  match (s.core g).sched.task with
  | none => 0
  | some t =>
    if line < 47 then (match s.caravan t.car with | some c => (c.bar line).gen | none => 0)
    else if line = 47 then (match s.disp t.disp with | some d => d.b47.gen | none => 0)
    else Sparse.get 0 (s.cluster (clusterOf g)).flags (t.part * 64 + (line - 64))

/-- Grants a free mutex to the waiter above the last holder, wrapping (R196). -/
def Mutex.grant (m : Mutex) : Mutex :=
  match m.holder with
  | some _ => m
  | none =>
    let above := m.waiters.filter (fun w => decide (w > m.last))
    let pick := match (if above.isEmpty then m.waiters else above).min? with
      | some w => some w
      | none => none
    match pick with
    | none => m
    | some w => { m with holder := some w, last := w, waiters := m.waiters.filter (· != w) }

/-- Changes a mutex of a cluster (R196). -/
def State.updMutex (s : State) (cl part n : Nat) (f : Mutex → Mutex) : State :=
  s.updCluster cl (fun c => { c with mutexes := Sparse.modify {} c.mutexes (part * 16 + n) f })

/-- Changes the mutexes of a partition in a cluster. -/
def Cluster.mapMutexes (c : Cluster) (part : Nat) (f : Mutex → Mutex) : Cluster :=
  { c with mutexes := c.mutexes.foldl (fun m e => if e.1 / 16 = part then Sparse.set {} m e.1 (f e.2) else m) c.mutexes }

/-- Frees the mutexes that a core holds for its task and takes it off their waiting lists; `dead` makes the next grant return 1 (R196). -/
def freeMutexes (s : State) (g : Nat) : State :=
  s.updCluster (clusterOf g) (fun c => c.mapMutexes (s.core g).part (fun m =>
    let x := { m with waiters := m.waiters.filter (· != g) }
    if x.holder = some g then ({ x with holder := none, dead := true }).grant else x))

/-- The holder of a mutex while its task is saved (R196): no core, until the task is back on one. -/
def parked (uid : Nat) : Nat := Config.cores + uid

end Sys2Proof.Machine
end

