-- ==== Sys2Proof/Machine/Yard.lean ====
section
/-!
DEFINITION. The yard: allocation of wagons from reservation and overflow, zeroing, return, hand-over messages (spec 02 R31 to R54, 06 R129).
-/

namespace Sys2Proof.Machine

/-- Room for `n` more items of a pool for partition `p` (R129, log 14): the excess of every partition over its reservation fits what the
pool leaves beside the reservations. -/
def poolRoom (s : State) (pool : Nat) (used : Nat → Nat) (p n : Nat) : Bool :=
  let tags := s.parts.map (fun e => e.1)
  let resv := fun (q : Nat) => match s.part q with | some x => (x.resv[pool]?).getD 0 | none => 0
  let spare := Config.overflow pool - (tags.map resv).sum
  decide (((tags.map (fun q => used q + (if q = p then n else 0) - resv q)).sum) ≤ spare)

/-- The wagon of a number in a yard (R31). -/
def Cluster.wagon (c : Cluster) (w : Nat) : Wagon := Sparse.get {} c.wagons w
/-- Changes a wagon of a yard. -/
def Cluster.updWagon (c : Cluster) (w : Nat) (f : Wagon → Wagon) : Cluster := { c with wagons := Sparse.modify {} c.wagons w f }

/-- The partition that a wagon in use belongs to: while it is cleared, the one it goes to. -/
def Wagon.holder (w : Wagon) : Option Nat := match w.yard with | .free => none | .zeroing => w.next | _ => w.prec

/-- Wagons of a yard that a partition holds (R129). -/
def Cluster.held (c : Cluster) (p : Nat) : Nat := (c.wagons.filter (fun e => e.2.holder == some p)).length

/-- The lowest FREE wagon that is not retired (R33, R264). -/
def Cluster.freeWagon (c : Cluster) : Option Nat :=
  (List.range Config.wagons).find? (fun w => (c.wagon w).yard == .free && !(c.wagon w).retired)

/-- FREE wagons of a yard that can be allocated. -/
def Cluster.freeCount (c : Cluster) : Nat :=
  ((List.range Config.wagons).filter (fun w => (c.wagon w).yard == .free && !(c.wagon w).retired)).length

/-- Starts the clearing of the first waiting wagons, four at once (R33). -/
def startZeroing (now : Nat) (l : List (Nat × Option Nat)) : List (Nat × Option Nat) :=
  l.zipIdx.map (fun x => if x.2 < Config.zeroAtOnce && x.1.2.isNone then (x.1.1, some now) else x.1)

/-- Allocates a wagon to a holder of a partition: livery and tag zero, zeroing when its record differs or `clear` (R33, R54). The record of
a wagon to be cleared follows when it is clear (Table 02-1). -/
def takeWagon (s : State) (cl w part : Nat) (clear : Bool) : State :=
  let c := s.cluster cl
  let z := clear || decide ((c.wagon w).prec ≠ some part)
  let c1 := c.updWagon w (fun x => if z then { x with livery := 0, tag := 0, yard := .zeroing, next := some part }
    else { x with livery := 0, tag := 0, yard := .hitched, prec := some part })
  s.setCluster cl (if z then { c1 with zeroing := startZeroing s.cycle.toNat (c1.zeroing ++ [(w, none)]) } else c1)

/-- Returns a wagon to the yard as FREE, its record, data, livery and tag kept; a zeroing of it ends, with the record still that of the
last holder whose bytes it may hold (R37, R49). -/
def freeWagonBack (s : State) (cl w : Nat) : State :=
  s.updCluster cl (fun c =>
    let c1 := c.updWagon w (fun x => { x with yard := .free, next := none })
    { c1 with zeroing := startZeroing s.cycle.toNat (c1.zeroing.filter (fun e => e.1 != w)) })

/-- The word of a hand-over message (Table 08-13). -/
def handWord (tag : BitVec 16) (wagon tslot gslot giver status : Nat) : Word :=
  BitVec.ofNat 64 (tag.toNat * 2 ^ 48 + wagon % 128 * 2 ^ 40 + tslot % 32 * 2 ^ 32 + gslot % 32 * 2 ^ 26 + giver % 1024 * 2 ^ 16 + status % 256 * 2 ^ 8 + 1)

/-- Every entry of a core is DETACHED with nothing inbound, and a dead task on it has left its barriers, so that the distributor may bind
to it (R46, R48, R111). -/
def Core.free (c : Core) : Bool := c.sched.run == .idle && !c.sched.unwound && c.hitch.all (fun e => e.2.st == .detached && !e.2.inb)

/-- Sets every entry of a core to DETACHED with INB, RVK and ETAG zero (R49, R53). -/
def Core.clearHitch (c : Core) : Core := { c with hitch := [] }

/-- The revocation event of the target of a LEAVING entry: INB := 0, RVK := 1, a message with status 5 (R46). The TAG field holds the tag
of the wagon at the revocation (DESIGN CHOICE, log 55: R44 names the tag at the owner change, which a revocation has not). -/
def revokeTarget (s : State) (g n : Nat) : State :=
  let h := (s.core g).slot n
  match h.dest with
  | none => s
  | some (tc, ts) =>
    let t := s.core tc
    let e := t.slot ts
    if !e.inb then s
    else
      let p := (s.core g).part
      let tag := ((s.cluster (clusterOf g)).wagon h.wagon).tag
      (s.reached (clusterOf tc) (slotKey tc ts) 1).setCore tc ((t.setSlot ts { e with inb := false, rvk := true }).post (s.credits tc) ⟨handWord tag h.wagon ts n (s.logicalOf p g) 5, 0⟩)

/-- The first fatal trap of the launch of a dead core counts one more wagon impounded (R262). -/
def countImpound (s : State) (g : Nat) : State :=
  match (s.core g).sched.task with
  | none => s
  | some t => s.updDisp t.disp (fun d => match d.fault with
      | some f => if f.uid = t.uid then { d with fault := some { f with imp := f.imp + 1 } } else d
      | none => d)

/-- A wagon goes to IMPOUNDED in a slot of a dead core and enters the impound list (R46, R47). -/
def impoundSlot (s : State) (g n w : Nat) : State :=
  let cl := clusterOf g
  let c := s.core g
  let s1 := s.setCore g (c.setSlot n { c.slot n with st := .impounded, wagon := w, inb := false, dest := none })
  let s2 := s1.updCluster cl (fun y =>
    let y1 := y.updWagon w (fun x => { x with yard := .impounded })
    { y1 with impounds := y1.impounds ++ [⟨w, g, n, c.part, c.csr.tcause.toNat⟩] })
  countImpound s2 g

end Sys2Proof.Machine
end

