-- ==== Sys2Proof/Machine/Launch.lean ====
section
/-!
DEFINITION. Launches: the packet and its checks, readiness, the completion record, the end of a task and of a launch, group packets
(spec 06 R114, R119 to R129, 14 R253, R254, 15 R262).
-/

namespace Sys2Proof.Machine

/-- A field of a 64-byte packet. -/
def pktField (p : BitVec 512) (lo n : Nat) : Nat := p.toNat / 2 ^ lo % 2 ^ n

/-- The fields of a launch packet (Table 06-7). -/
def packetOf (p : BitVec 512) : Packet :=
  { entry := BitVec.ofNat 64 (pktField p 0 64), pwtab := BitVec.ofNat 64 (pktField p 64 64), crec := BitVec.ofNat 64 (pktField p 128 64),
    lid := pktField p 192 32, pred0 := pktField p 224 32, pred1 := pktField p 256 32, x := pktField p 288 16, y := pktField p 304 16,
    z := pktField p 320 16, csize := pktField p 336 3, wagons := pktField p 344 6, prio := pktField p 352 3,
    inben := pktField p 360 1 == 1, itgt := pktField p 368 10, part := pktField p 384 6 }

/-- The reserved bits of a launch packet are zero (Table 06-7). -/
def packetClean (p : BitVec 512) : Bool :=
  [(392, 120), (390, 2), (378, 6), (361, 7), (355, 5), (350, 2), (339, 5)].all (fun f => pktField p f.1 f.2 == 0)

/-- The live launches of a partition: number and launch. -/
def State.launches (s : State) (p : Nat) : List (Nat × Dispatch) :=
  s.disps.filterMap (fun e => match e.2 with | some d => if d.pkt.part = p then some (e.1, d) else none | none => none)

/-- The live launch of a partition with a launch id (R121). -/
def State.byLid (s : State) (p lid : Nat) : Option (Nat × Dispatch) := (s.launches p).find? (fun e => e.2.pkt.lid == lid)

/-- An address in space 0x00 with an alignment. -/
def globalAligned (a : Word) (n : Nat) : Bool := decide (spaceOf a = 0) && decide (a.toNat % n = 0)

/-- A launch packet is malformed (Table 06-8, check 2). -/
def packetBad (s : State) (p : BitVec 512) : Bool :=
  let k := packetOf p
  let n := k.x * k.y * k.z
  !packetClean p || decide (k.csize > 4) || decide (k.wagons > 32) || decide (k.wagons * k.size > 128) ||
  k.x == 0 || k.y == 0 || k.z == 0 || decide (n > 2 ^ 24) || decide (n % k.size ≠ 0) ||
  !globalAligned k.entry 4 || (k.pwtab != 0 && !globalAligned k.pwtab 16) || (k.crec != 0 && !globalAligned k.crec 32) ||
  k.lid == 0 || (s.byLid k.part k.lid).isSome || k.pred0 == k.lid || k.pred1 == k.lid ||
  (k.inben && (s.physOf k.part k.itgt).isNone)

/-- Packets that a queue holds: launch packets with an unselected caravan and group packets not in effect (R120, R123, R253). A launch packet
counts until its last caravan is selected (DESIGN CHOICE, log 57: the spec says when a group packet stops counting only). -/
def State.queueHeld (s : State) (q : Nat) : Nat :=
  let groups := (s.parts.map (fun e => match e.2 with | some p => (p.pend.filter (fun g => g.queue == q)).length | none => 0)).sum
  (s.queue q).pkts.length + groups

/-- Queue slots that a partition uses: packets it holds in any queue (R129, R253). -/
def State.slotsUsed (s : State) (p : Nat) : Nat :=
  let pk := (s.queues.map (fun e => if e.2.owner = some p then e.2.pkts.length else 0)).sum
  pk + (match s.part p with | some x => x.pend.length | none => 0)

/-- Reads n bytes at a global address for the distributor with a partition's translation (R18, R122, R253). -/
def distRead (s : State) (p : Nat) (a : Word) (n : Nat) : Option Nat :=
  if spaceOf a ≠ 0 then none
  else match translate s 0 p true .load a.toNat with
    | .ok (_, x) => if x.region = 0 ∧ s.owns p x.pa ∧ !s.hasBad (locHbm x.pa) n then some (s.bytes (locHbm x.pa) n) else none
    | .error _ => none

/-- The walks of the distributor's reads set the A bits of their leaves (R22, R23). -/
def distWalk (s : State) (p : Nat) (as : List Nat) : State := walkAll s 0 p true .load as

/-- A read of the distributor that the router discards under the partition check. -/
def distDiscarded (s : State) (p a : Nat) : Bool :=
  match translate s 0 p true .load a with
  | .ok (_, x) => x.region == 0 && !s.owns p x.pa
  | .error c => c == 15

/-- The first of the distributor's reads that the router discards leaves a TYPE 8 record (R278, R274). -/
def distRecord (s : State) (p : Nat) (as : List Nat) : State :=
  match as.find? (distDiscarded s p) with
  | some a => s.fqPush (frecWord 8 p 0 0 0) a
  | none => s

/-- A write of the distributor into a completion record, as a store of the partition; one that fails leaves a TYPE 9 record (R122).
With `add` the value is added to what the field holds. -/
def recWrite (s : State) (d : Dispatch) (off n val : Nat) (add : Bool := false) : State :=
  if d.pkt.crec = 0 then s
  else
    let a := d.pkt.crec.toNat + off
    let fail := fun (t : State) => t.fqPush (frecWord 9 d.pkt.part 0 0 d.pkt.lid) d.pkt.crec.toNat
    match translate s 0 d.pkt.part d.sup .store a with
    | .ok (s1, x) =>
      if x.region = 0 ∧ s.owns d.pkt.part x.pa then
        s1.writeGroup d.pkt.part 0 ((List.range n).map (fun i => (locHbm x.pa + i, byteOf (if add then s1.bytes (locHbm x.pa) n + val else val) i)))
      else fail s1
    | .error _ => fail s

/-- The TASKS field of the record counts one more task (R122). -/
def recAddTask (s : State) (d : Dispatch) : State := recWrite s d 4 4 1 true

/-- The status a launch ends with (R122). -/
def Dispatch.status (d : Dispatch) : Nat :=
  if d.killed then 4 else if d.malformed then 2 else if d.predBad then 5 else if d.fault.isSome then 3 else 1

/-- Every hand-over to the first dead core of the launch has resolved, so that FIMP is complete (R262). -/
def faultResolved (s : State) (d : Dispatch) : Bool :=
  match d.fault with
  | none => true
  | some f => s.cores.all (fun e => e.2.uid != f.uid || e.2.hitch.all (fun h => (h.2.st == .detached || h.2.st == .impounded) && !h.2.inb))

/-- The launch has nothing left to run: a kill, a failed predecessor with no caravan bound, or every counted task over (R121, R122). -/
def Dispatch.ready (d : Dispatch) : Bool :=
  d.killed || (d.predBad && d.boundC == 0) || (d.ended ≥ d.counting && (d.malformed || d.nextC * d.pkt.size ≥ d.pkt.total))

/-- The ranks of a group whose owners, logical indices of a partition's core table, run on one of some cores. -/
def ranksOf (s : State) (p : Nat) (g : Group) (cores : List Nat) : List Nat :=
  g.members.zipIdx.filterMap (fun m => match m.1.owner with
    | some o => match s.physOf p o with | some c => if cores.contains c then some m.2 else none | none => none
    | none => none)

/-- What a launch that ends leaves to the address groups it governs: the ranks whose owners were withdrawn or died (R254). -/
def keepOwners (s : State) (d : Dispatch) : State :=
  let keep := fun (g : Group) => if g.dlid = d.pkt.lid then
      { g with lost := g.lost ++ ranksOf s d.pkt.part g d.dead, gone := g.gone ++ ranksOf s d.pkt.part g d.gone } else g
  s.updPart d.pkt.part (fun p => { p with
    groups := p.groups.map (fun e => (e.1, e.2.map keep)),
    pend := p.pend.map (fun e => { e with group := e.group.map keep }) })

/-- Makes the records of launches final that can be, and stops their unbound dependents in turn (R121, R122). The final update is four
writes, of the doublewords of the fault fields and of STATUS, and each that fails leaves a record of its own (DESIGN CHOICE, log 56). -/
def finalize : Nat → State → Nat → State
  | 0, s, _ => s
  | fuel + 1, s, did =>
    match s.disp did with
    | none => s
    | some d =>
      if !(d.ready && (d.killed || faultResolved s d)) then s
      else
        let st := d.status
        let f := match d.fault with | some f => if st = 3 then some f else none | none => none
        let w1 := match f with | some f => f.lin + f.cause % 256 * 2 ^ 32 + f.imp % 256 * 2 ^ 40 | none => 0
        let s1 := recWrite s d 8 8 w1
        let s2 := recWrite s1 d 16 8 (match f with | some f => f.epc.toNat | none => 0)
        let s3 := recWrite s2 d 24 8 (match f with | some f => f.tval.toNat | none => 0)
        let s4 := recWrite s3 d 0 4 st
        let s5 := match s.physOf d.pkt.part d.pkt.itgt with
          | some g => if d.pkt.inben ∧ (s4.core g).live ∧ (s4.core g).part = d.pkt.part then
              s4.updCore g (fun c => c.post (s4.credits g) ⟨BitVec.ofNat 64 (5 + st * 256), BitVec.ofNat 64 (d.pkt.lid + d.done * 2 ^ 32)⟩) else s4
          | none => s4
        let q := s5.queue d.queue
        let s6 := (keepOwners (s5.setQueue d.queue { q with pkts := q.pkts.filter (· != did) }) d).setDisp did none
        if st = 1 then s6
        else
          let deps := (s6.launches d.pkt.part).filter (fun e => (e.2.pkt.pred0 == d.pkt.lid || e.2.pkt.pred1 == d.pkt.lid) && e.2.boundC == 0)
          deps.foldl (fun t e => finalize fuel (t.updDisp e.1 (fun x => { x with predBad := true })) e.1) s6

/-- finalize with room for every live launch. -/
def tryFinal (s : State) (did : Nat) : State := finalize (s.disps.length + 1) s did

/-- A core whose task is over no longer stays with its caravan (R111). -/
def Core.rest (c : Core) : Core := if c.sched.run = .finished then c.sch (fun y => { y with run := .idle, preempt := false }) else c

/-- The member of a rank is over: with the last of them the cores are free and the caravan is gone; a saved caravan holds no core (R111,
R268). -/
def memberOver (s : State) (car rank : Nat) : State :=
  match s.caravan car with
  | none => s
  | some c =>
    let past := rank :: c.ended
    let rest := c.cores.foldl (fun t g => t.updCore g Core.rest) s
    if past.length ≥ c.size then rest.setCaravan car none
    else (if c.st = .saved then rest else s).setCaravan car (some { c with ended := past })

/-- A task has retired or ended (R111, R114, R121, R122). -/
def taskOver (s : State) (g : Nat) (retired : Bool) : State :=
  match (s.core g).sched.task with
  | none => s
  | some t =>
    let trig := (s.core g).sched.triggered
    let s1 := s.updCore g (fun c => c.sch (fun x => { x with run := .finished, hold := .free, preempt := false }))
    let s2 := s1.updDisp t.disp (fun d => { d with ended := d.ended + 1, done := d.done + (if retired then 1 else 0), trig := d.trig + (if trig then 0 else 1) })
    let s3 := match s2.disp t.disp with | some d => if retired then recAddTask s2 d else s2 | none => s2
    tryFinal (memberOver s3 t.car t.rank) t.disp

/-- A predecessor id is satisfied: it names no live launch, or every task of that launch has triggered (R121). -/
def predDone (s : State) (p lid : Nat) : Bool :=
  lid == 0 || (match s.byLid p lid with | some (_, d) => d.trig ≥ d.counting | none => true)

/-! ### Group packets (R253) -/

/-- The member entry of a table word, none when it is malformed (Table 14-4). -/
def memberOf (s : State) (p e : Nat) : Option Member :=
  let owner := e % 1024
  let ownv := e / 1024 % 2 = 1
  if e / 2048 % 2 ≠ 0 ∨ e / 2 ^ 56 % 128 ≠ 0 ∨ (ownv ∧ (s.physOf p owner).isNone) then none
  else some { absent := e / 2 ^ 63 % 2 == 1, base := e / 4096 % 2 ^ 44 * 4096, owner := if ownv then some owner else none }

/-- Two group ranges meet. -/
def groupMeets (a : Group) (b n : Nat) : Bool := decide (a.base < b + n) && decide (b < a.base + a.size)

/-- The group that an install packet asks for, none when the packet is malformed (R253, Table 14-3). -/
def groupOf (s : State) (p : Nat) (x : Partition) (k : BitVec 512) : Option Group :=
  let gid := pktField k 364 6
  let nmem := pktField k 352 7
  let base := pktField k 128 64
  let size := pktField k 192 64
  let mtab := pktField k 256 64
  let clean := [(390, 114), (377, 7), (370, 6), (359, 5), (0, 128)].all (fun f => pktField k f.1 f.2 == 0)
  let others := x.groups.any (fun e => e.1 != gid && (match e.2 with | some g => groupMeets g base size | none => false)) ||
    x.pend.any (fun e => e.gid != gid && (match e.group with | some g => groupMeets g base size | none => false))
  if !clean || nmem == 0 || decide (nmem > 64) || !globalAligned (BitVec.ofNat 64 base) 4096 || decide (size % 4096 ≠ 0) || decide (size < 4096)
    || decide (size > 2 ^ 32) || others || decide (mtab % 64 ≠ 0) then none
  else
    let ms := (List.range nmem).map (fun i => match distRead s p (BitVec.ofNat 64 (mtab + 8 * i)) 8 with | some e => memberOf s p e | none => none)
    if ms.all Option.isSome then some { base := base, size := size, dlid := pktField k 320 32, members := ms.filterMap id, lost := [] } else none

/-- Takes an accepted group packet: at once when its DLID names no live launch, else at that launch's next phase (R254). -/
def acceptGroup (s : State) (p : Nat) (g : PendGroup) : State :=
  if (s.byLid p g.dlid).isSome then s.updPart p (fun x => { x with pend := x.pend ++ [g] })
  else s.updPart p (fun x => { x with groups := Sparse.set none x.groups g.gid g.group })

/-- Check 2 of a group packet: the packet it makes, none when it is malformed (R253). -/
def groupPacket (s : State) (p q : Nat) (x : Partition) (k : BitVec 512) : Option PendGroup :=
  let gid := pktField k 364 6
  if pktField k 376 1 = 1 then
    let clean := [(390, 114), (377, 7), (370, 6), (359, 5), (0, 128)].all (fun f => pktField k f.1 f.2 == 0)
    let there := (Sparse.get none x.groups gid).isSome || x.pend.any (fun e => e.gid == gid && e.group.isSome)
    if clean && there then some { gid := gid, queue := q, dlid := pktField k 320 32, group := none } else none
  else (groupOf s p x k).map (fun g => { gid := gid, queue := q, dlid := g.dlid, group := some g })

/-- A packet arrives at a queue from a submitter of partition `p` (none for the host) at a privilege: the status of Table 06-8, and the
state with the packet taken when it is 0 (R120, R114, R253). -/
def submit (s : State) (q : Nat) (p : Option Nat) (sup : Bool) (k : BitVec 512) : State × Nat :=
  let qu := s.queue q
  match qu.owner with
  | none => (s, 3)
  | some own =>
    match s.part own with
    | none => (s, 3)
    | some x =>
      if (p.isSome ∧ p ≠ some own) ∨ pktField k 384 6 ≠ own ∨ (qu.sup ∧ !sup) then (s, 3)
      else if qu.sup ∧ pktField k 504 8 = 0x47 then
        match groupPacket s own q x k with
        | none => (s, 2)
        | some g =>
          if s.queueHeld q ≥ qu.depth then (s, 1)
          else if !poolRoom s 0 s.slotsUsed own 1 then (s, 4)
          else (acceptGroup (distWalk s own (if g.group.isSome then [pktField k 256 64, pktField k 256 64 + 8 * (pktField k 352 7 - 1)] else [])) own g, 0)
      else if packetBad s k then (s, 2)
      else if s.queueHeld q ≥ qu.depth then (s, 1)
      else if !poolRoom s 0 s.slotsUsed own 1 then (s, 4)
      else
        let did := s.nextId
        let s1 := { s with nextId := did + 1 }
        ((s1.setDisp did (some { pkt := packetOf k, queue := q, sup := qu.sup })).setQueue q { qu with pkts := qu.pkts ++ [did] }, 0)

end Sys2Proof.Machine
end

