-- ==== Sys2Proof/Machine/Ops.lean ====
section
/-!
DEFINITION. The shared operations of instructions: base addresses and walkers (08 R157), dray leases and batches (11 R211, R215), taking
an exception with the fatal path (15 R259, R261, 02 R46), the return from one (08 R166), and how an issue ends.
-/

namespace Sys2Proof.Machine

/-! ### Walkers (R156, R157) -/

/-- The current address of a walker (R156). -/
def Walker.addr (w : Walker) : Word :=
  let t := fun (d : Dim) => d.idx.setWidth 64 * d.str.signExtend 64
  w.base + t w.d0 + t w.d1 + t w.d2 + t w.d3

/-- One dimension takes a step: the dimension after it, and whether it carries (R157; a count of 0 acts as 1, R156). -/
def Dim.step (d : Dim) : Dim × Bool :=
  if d.idx.toNat + 1 < d.cnt.toNat then ({ d with idx := d.idx + 1 }, false) else ({ d with idx := 0, fin := true }, true)

/-- walker_advance (R157). -/
def Walker.advance (w : Walker) : Walker :=
  let a0 := w.d0.step
  if !a0.2 then { w with d0 := a0.1 } else
  let a1 := w.d1.step
  if !a1.2 then { w with d0 := a0.1, d1 := a1.1 } else
  let a2 := w.d2.step
  if !a2.2 then { w with d0 := a0.1, d1 := a1.1, d2 := a2.1 } else
  { w with d0 := a0.1, d1 := a1.1, d2 := a2.1, d3 := (w.d3.step).1 }

/-- Register i names a bound walker when used as a base address (R134). -/
def Core.walks (c : Core) (i : Nat) : Bool := decide (48 ≤ i) && decide (i ≤ 55) && (c.getW (i - 48)).bound

namespace State

/-- The value of a base address operand: the walker's address or the register (R134). -/
def base (s : State) (a : BitVec n) : Word := if s.me.walks a.toNat then (s.me.getW (a.toNat - 48)).addr else s.getS a

/-- The walker of a base address operand advances, once the instruction completes (R157). -/
def stepBase (s : State) (a : BitVec n) : State :=
  if s.me.walks a.toNat then s.upd (fun c => c.setW (a.toNat - 48) (c.getW (a.toNat - 48)).advance) else s

end State

/-! ### Dray leases and batches (R211, R215) -/

/-- Dray 0 or 1 of a cluster. -/
def Cluster.dray (c : Cluster) (d : Nat) : Dray := if d = 0 then c.dray0 else c.dray1
/-- Replaces a dray of a cluster. -/
def Cluster.setDray (c : Cluster) (d : Nat) (x : Dray) : Cluster := if d = 0 then { c with dray0 := x } else { c with dray1 := x }
/-- A dray of cluster `cl`. -/
def State.dray (s : State) (cl d : Nat) : Dray := (s.cluster cl).dray d
/-- Changes a dray of cluster `cl`. -/
def State.updDray (s : State) (cl d : Nat) (f : Dray → Dray) : State := s.updCluster cl (fun c => c.setDray d (f (c.dray d)))

/-- The batch number after n (R215). -/
def batchNext (n : Nat) : Nat := if n + 1 ≥ 2 ^ 32 then 1 else n + 1

/-- Commands of the open batch. -/
def Dray.inOpen (d : Dray) : Nat := (d.cmds.filter (fun c => c.bat == d.next)).length

/-- Commits the open batch under the next number; an empty one only when `empty` asks for it (R215). -/
def Dray.commit (d : Dray) (empty : Bool) : Dray :=
  if d.inOpen = 0 ∧ !empty then d else { d with closed := d.closed ++ [d.next], next := batchNext d.next }

/-- Every batch of the lease has completed: nothing open, nothing closed and not complete (R211). -/
def Dray.quiet (d : Dray) : Bool := d.closed.isEmpty && d.cmds.isEmpty

/-- The lease is given up (R211). -/
def Dray.release (d : Dray) : Dray := { d with holder := none, issued := 0, giveUp := false }

/-- Grants a dray that no core holds to a waiting core of partition `part`, clearing it for another partition (R211, R64). -/
def Dray.grantTo (d : Dray) (core n part : Nat) : Dray :=
  let d1 := if d.lastPart.isSome ∧ d.lastPart ≠ some part then { d with acc := [], mag := 0 } else d
  { d1 with holder := some core, last := n, lastPart := some part, waiters := d1.waiters.filter (· != core), issued := 0 }

/-- The waiter that the next grant goes to: the lowest core number above the last holder's, wrapping (R211). -/
def Dray.nextWaiter (d : Dray) : Option Nat :=
  let above := d.waiters.filter (fun g => decide (g % 16 > d.last))
  (if above.isEmpty then d.waiters else above).min?

/-- Core g asks again for the leases that it gave up, and issues nothing until every one is granted (R211, R270). -/
def requestLeases (s : State) (g : Nat) : State :=
  (s.core g).sched.wantLease.foldl (fun t i => t.updDray (clusterOf g) i (fun d =>
    if d.waiters.contains g then d else { d with waiters := d.waiters ++ [g] })) s

/-! ### The fatal path (R261, R46) -/

/-- The core's entries that name a wagon it owns, gives or receives. -/
def Core.named (c : Core) : List Nat :=
  (c.hitch.filter (fun e => e.2.st == .attached || e.2.st == .arriving || e.2.st == .leaving)).map (fun e => e.1)

/-- A transfer goes on without a message, or is cancelled when it names one of the core's wagons (R46, R208). -/
def Core.cancelCopies (c : Core) : Core :=
  let named := c.named
  { c with chans := c.chans.map (fun e => (e.1, { e.2 with xfers :=
      (e.2.xfers.filter (fun x => !(x.active && x.slots.any named.contains))).map (fun x => { x with silent := true }) })) }

/-- A dray drops the queued commands of a dead core that still have to read or write one of its wagons, closes its open batch, and is
given up once its other commands are done (R46, R211). -/
def Dray.dead (d : Dray) (g : Nat) : Dray :=
  let d1 := { d with waiters := d.waiters.filter (· != g) }
  if d1.holder = some g then
    ({ d1 with cmds := d1.cmds.filter (fun x => x.done || !(x.core == g && !x.op.slots.isEmpty)), giveUp := true }).commit false
  else d1

/-- Records the first fatal trap of a launch; of several in one cycle, that of the lowest linear index (R262). -/
def firstFault (d : Dispatch) (t : Task) (c : Csrs) (cycle : Nat) : Dispatch :=
  let mine : FirstFault := { lin := t.lin, uid := t.uid, cause := c.tcause.toNat, imp := 0, epc := c.tepc, tval := c.tval, at_ := cycle }
  match d.fault with
  | some f => if f.at_ = cycle ∧ t.lin < f.lin then { d with fault := some mine } else d
  | none => { d with fault := some mine }

/-- R46 step 5: a dead core none of whose wagons is left to impound is withdrawn from its barriers, after the events of this cycle that
come before a revocation (R199). -/
def unwind (s : State) (g : Nat) : State :=
  if (s.core g).sched.unwound && (s.core g).named.isEmpty && mayWithdraw s g (placeRevoke g) then
    withdrawAll (s.updCore g (fun c => c.sch (fun x => { x with unwound := false }))) g .revoked
  else s

/-- The fatal path of core g (R261): its commands are cancelled or go on unannounced, its leases, mutexes and queues are given up, its
task ends. Its wagons are impounded by IMPOUND and OWNER_CHANGE as their accesses end, and with the last it is withdrawn from every
barrier; with none left, at once (R46, R47). -/
def fatalPath (s : State) (g : Nat) : State :=
  match (s.core g).sched.task with
  | none => s
  | some t =>
    let cl := clusterOf g
    let s1 := s.updCore g (fun c => { c.cancelCopies with mail := {}, sched := { c.sched with dead := true, unwound := true } })
    let s2 := s1.updCluster cl (fun c =>
      { c with dray0 := c.dray0.dead g, dray1 := c.dray1.dead g, coach := c.coach.filter (fun x => !(x.core == g && !x.slots.isEmpty)) })
    let s3 := freeMutexes s2 g
    let s4 := unwind s3 g
    let s5 := s4.updDisp t.disp (fun d => { firstFault d t (s.core g).csr s.cycle.toNat with dead := g :: d.dead })
    taskOver s5 g false

/-! ### Traps (R259) -/

/-- The trap CSRs after a trap (R259). -/
def trapCsrs (c : Core) (cause : Nat) (tval : Word) (word : BitVec 32) : Csrs :=
  { c.csr with tcause := BitVec.ofNat 64 (cause % 32), tval := tval, tepc := c.pc, tword := word.setWidth 64,
               tstat := (if c.sup then 1 else 0) ||| 2 }

/-- A trap with NEST set, with TVEC 0, or for a register-file error ends the task (R259, R264). -/
def trapFatal (c : Core) (cause : Nat) (tval : Word) : Bool :=
  c.csr.tstat.getLsbD 1 || c.csr.tvec == 0 || (cause == 11 && tval == BitVec.allOnes 64)

/-- trap_entry (R259): TCAUSE, TVAL, TEPC, TWORD and TSTAT are written; the core goes to its handler at the privilege it has, or takes
the fatal path. -/
def trapEntry (s : State) (cause : Nat) (tval : Word) : State :=
  let c := s.me
  let s1 := s.upd (fun x => { x with csr := trapCsrs c cause tval s.word, sched := { x.sched with hold := .free } })
  if trapFatal c cause tval then fatalPath s1 s.cur
  else s1.goto (c.csr.tvec + BitVec.ofNat 64 (128 * (cause % 32)))

/-- A packet that the router discards under the partition check leaves a TYPE 8 record (R278, R274). -/
def discardRecord (s : State) (cause : Nat) (a : Word) : State :=
  if cause = 15 then s.fqPush (frecWord 8 s.myPart s.cur 0 0) a.toNat else s

/-- Ends an issue: the next state, with the trap taken when there is one. -/
def finish (s : State) : Issue State → Out
  | .ok s' => .next s'
  | .trap c v => .next (trapEntry (discardRecord s c v) c v)
  | .trapAt s' c v => .next (trapEntry (discardRecord s' c v) c v)
  | .stay s' => .next s'
  | .wait => .next s

/-- TRET (R166). -/
def trapReturn (s : State) : Issue State :=
  let c := s.me
  let target := c.csr.tepc
  if target.toNat % 4 ≠ 0 then .trap 4 target
  else if !c.sup ∧ c.csr.tstat.getLsbD 0 then .trap 3 0
  else .ok ((s.upd (fun x =>
    { x with
      sup := if x.sup then x.csr.tstat.getLsbD 0 else x.sup,
      csr := { x.csr with tstat := x.csr.tstat &&& ~~~(2#64) } })).goto target)

/-- A supervisor-only instruction at task privilege takes TCAUSE 3 (R147 step 3). -/
def needSup {α : Type} (s : State) (k : Issue α) : Issue α := if s.me.sup then k else .trap 3 0

end Sys2Proof.Machine
end

