-- ==== Sys2Proof/Machine/Alu.lean ====
section
/-!
DEFINITION. Integer instructions: ALU register and immediate forms, upper immediates, multiply and divide, bits and select
(spec 08 R150 to R153, Tables 08-2 to 08-6).
-/

namespace Sys2Proof.Machine

/-- Writes a result to a scalar register and moves on (R150). -/
def result (s : State) (d : BitVec 6) (v : Word) : Out := .next ((s.setS d v).advance)

/-! ### ALU operations on values (Table 08-2) -/

/-- SA + sB (Table 08-2). -/
def aluAdd (x y : Word) : Word := x + y
/-- SA - sB (Table 08-2). -/
def aluSub (x y : Word) : Word := x - y
/-- SA and sB (Table 08-2). -/
def aluAndR (x y : Word) : Word := x &&& y
/-- SA or sB (Table 08-2). -/
def aluOrR (x y : Word) : Word := x ||| y
/-- SA xor sB (Table 08-2). -/
def aluXorR (x y : Word) : Word := x ^^^ y
/-- SA and not sB (Table 08-2). -/
def aluAndn (x y : Word) : Word := x &&& ~~~y
/-- Left shift by sB[5:0] (Table 08-2). -/
def aluShl (x y : Word) : Word := x <<< (y.toNat % 64)
/-- Logical right shift by sB[5:0] (Table 08-2). -/
def aluShr (x y : Word) : Word := x >>> (y.toNat % 64)
/-- Arithmetic right shift by sB[5:0] (Table 08-2). -/
def aluShra (x y : Word) : Word := x.sshiftRight (y.toNat % 64)
/-- Right rotation by sB[5:0] (Table 08-2). -/
def aluRor (x y : Word) : Word := x.rotateRight (y.toNat % 64)
/-- The smaller, as signed (Table 08-2). -/
def aluMinS (x y : Word) : Word := if x.slt y then x else y
/-- The larger, as signed (Table 08-2). -/
def aluMaxS (x y : Word) : Word := if x.slt y then y else x
/-- The smaller, as unsigned (Table 08-2). -/
def aluMinu (x y : Word) : Word := if x.ult y then x else y
/-- The larger, as unsigned (Table 08-2). -/
def aluMaxu (x y : Word) : Word := if x.ult y then y else x
/-- 1 if sA < sB as signed (Table 08-2). -/
def aluSlt (x y : Word) : Word := Word.ofBool (x.slt y)
/-- 1 if sA < sB as unsigned (Table 08-2). -/
def aluSltu (x y : Word) : Word := Word.ofBool (x.ult y)
/-- 1 if sA = sB (Table 08-2). -/
def aluSeq (x y : Word) : Word := Word.ofBool (x == y)

/-! ### ALU register (R150) -/

/-- ADD (R150). -/
def execAdd (d a b : BitVec 6) (s : State) : Out := result s d (aluAdd (s.getS a) (s.getS b))
/-- SUB (R150). -/
def execSub (d a b : BitVec 6) (s : State) : Out := result s d (aluSub (s.getS a) (s.getS b))
/-- AND (R150). -/
def execAndR (d a b : BitVec 6) (s : State) : Out := result s d (aluAndR (s.getS a) (s.getS b))
/-- OR (R150). -/
def execOrR (d a b : BitVec 6) (s : State) : Out := result s d (aluOrR (s.getS a) (s.getS b))
/-- XOR (R150). -/
def execXorR (d a b : BitVec 6) (s : State) : Out := result s d (aluXorR (s.getS a) (s.getS b))
/-- ANDN (R150). -/
def execAndn (d a b : BitVec 6) (s : State) : Out := result s d (aluAndn (s.getS a) (s.getS b))
/-- SHL (R150). -/
def execShl (d a b : BitVec 6) (s : State) : Out := result s d (aluShl (s.getS a) (s.getS b))
/-- SHR (R150). -/
def execShr (d a b : BitVec 6) (s : State) : Out := result s d (aluShr (s.getS a) (s.getS b))
/-- SHRA (R150). -/
def execShra (d a b : BitVec 6) (s : State) : Out := result s d (aluShra (s.getS a) (s.getS b))
/-- ROR (R150). -/
def execRor (d a b : BitVec 6) (s : State) : Out := result s d (aluRor (s.getS a) (s.getS b))
/-- MIN (R150). -/
def execMinS (d a b : BitVec 6) (s : State) : Out := result s d (aluMinS (s.getS a) (s.getS b))
/-- MAX (R150). -/
def execMaxS (d a b : BitVec 6) (s : State) : Out := result s d (aluMaxS (s.getS a) (s.getS b))
/-- MINU (R150). -/
def execMinu (d a b : BitVec 6) (s : State) : Out := result s d (aluMinu (s.getS a) (s.getS b))
/-- MAXU (R150). -/
def execMaxu (d a b : BitVec 6) (s : State) : Out := result s d (aluMaxu (s.getS a) (s.getS b))
/-- SLT (R150). -/
def execSlt (d a b : BitVec 6) (s : State) : Out := result s d (aluSlt (s.getS a) (s.getS b))
/-- SLTU (R150). -/
def execSltu (d a b : BitVec 6) (s : State) : Out := result s d (aluSltu (s.getS a) (s.getS b))
/-- SEQ (R150). -/
def execSeq (d a b : BitVec 6) (s : State) : Out := result s d (aluSeq (s.getS a) (s.getS b))

/-! ### ALU immediate (R151, Table 08-3) -/

/-- ADDI (R151). -/
def execAddi (d a : BitVec 6) (i : BitVec 13) (s : State) : Out := result s d (aluAdd (s.getS a) (i.signExtend 64))
/-- ANDI (R151). -/
def execAndi (d a : BitVec 6) (i : BitVec 11) (s : State) : Out := result s d (aluAndR (s.getS a) (i.signExtend 64))
/-- ORI (R151). -/
def execOri (d a : BitVec 6) (i : BitVec 11) (s : State) : Out := result s d (aluOrR (s.getS a) (i.setWidth 64))
/-- XORI (R151). -/
def execXori (d a : BitVec 6) (i : BitVec 11) (s : State) : Out := result s d (aluXorR (s.getS a) (i.setWidth 64))
/-- SLTI (R151). -/
def execSlti (d a : BitVec 6) (i : BitVec 9) (s : State) : Out := result s d (aluSlt (s.getS a) (i.signExtend 64))
/-- SLTUI (R151). -/
def execSltui (d a : BitVec 6) (i : BitVec 9) (s : State) : Out := result s d (aluSltu (s.getS a) (i.signExtend 64))
/-- SHLI (R151). -/
def execShli (d a : BitVec 6) (i : BitVec 6) (s : State) : Out := result s d (aluShl (s.getS a) (i.setWidth 64))
/-- SHRI (R151). -/
def execShri (d a : BitVec 6) (i : BitVec 6) (s : State) : Out := result s d (aluShr (s.getS a) (i.setWidth 64))
/-- SHRAI (R151). -/
def execShrai (d a : BitVec 6) (i : BitVec 6) (s : State) : Out := result s d (aluShra (s.getS a) (i.setWidth 64))
/-- RORI (R151). -/
def execRori (d a : BitVec 6) (i : BitVec 6) (s : State) : Out := result s d (aluRor (s.getS a) (i.setWidth 64))

/-! ### Upper immediates (R152) -/

/-- The immediate of LUI and ADDPC: sext(imm19, 19) * 2^13. -/
def upperImm (i : BitVec 19) : Word := i.signExtend 64 <<< 13
/-- LUI (R152). -/
def execLui (d : BitVec 6) (i : BitVec 19) (s : State) : Out := result s d (upperImm i)
/-- ADDPC (R152). -/
def execAddpc (d : BitVec 6) (i : BitVec 19) (s : State) : Out := result s d (s.pc + upperImm i)

/-! ### Multiply and divide (R153) -/

/-- High 64 bits of the signed product (Table 08-4). -/
def mulHigh (x y : Word) : Word := BitVec.ofInt 64 (x.toInt * y.toInt / 2 ^ 64)
/-- High 64 bits of the unsigned product (Table 08-4). -/
def mulHighU (x y : Word) : Word := BitVec.ofNat 64 (x.toNat * y.toNat / 2 ^ 64)
/-- Signed quotient rounded toward zero; -2^63 / -1 gives -2^63 (R153). -/
def quotS (x y : Word) : Word := BitVec.ofInt 64 (x.toInt.tdiv y.toInt)
/-- Signed remainder with the sign of the dividend (R153). -/
def remS (x y : Word) : Word := BitVec.ofInt 64 (x.toInt.tmod y.toInt)
/-- Unsigned quotient (R153). -/
def quotU (x y : Word) : Word := BitVec.ofNat 64 (x.toNat / y.toNat)
/-- Unsigned remainder (R153). -/
def remU (x y : Word) : Word := BitVec.ofNat 64 (x.toNat % y.toNat)

/-- MUL (R153). -/
def execMul (d a b : BitVec 6) (s : State) : Out := result s d (s.getS a * s.getS b)
/-- MULH (R153). -/
def execMulh (d a b : BitVec 6) (s : State) : Out := result s d (mulHigh (s.getS a) (s.getS b))
/-- MULHU (R153). -/
def execMulhu (d a b : BitVec 6) (s : State) : Out := result s d (mulHighU (s.getS a) (s.getS b))

/-- divide (R153): a zero divisor traps with TCAUSE 8 when DZT[0] is 1, else gives `z`. -/
def divideOp (f : Word → Word → Word) (z : Word → Word) (d a b : BitVec 6) (s : State) : Issue State :=
  let y := s.getS b
  if y = 0 then
    if s.me.csr.dzt.getLsbD 0 then .trap 8 0 else .ok ((s.setS d (z (s.getS a))).advance)
  else .ok ((s.setS d (f (s.getS a) y)).advance)

/-- DIV (R153). -/
def execDiv (d a b : BitVec 6) (s : State) : Out := finish s (divideOp quotS (fun _ => BitVec.allOnes 64) d a b s)
/-- DIVU (R153). -/
def execDivu (d a b : BitVec 6) (s : State) : Out := finish s (divideOp quotU (fun _ => BitVec.allOnes 64) d a b s)
/-- REM (R153). -/
def execRem (d a b : BitVec 6) (s : State) : Out := finish s (divideOp remS id d a b s)
/-- REMU (R153). -/
def execRemu (d a b : BitVec 6) (s : State) : Out := finish s (divideOp remU id d a b s)
/-- MADD (R153). -/
def execMadd (d a b : BitVec 6) (s : State) : Out := result s d (s.getS a * s.getS b + s.getS d)

/-! ### Bits and select (Table 08-5) -/

/-- The number of one bits among the low n bits. -/
def onesBelow (x : Word) : Nat → Nat
  | 0 => 0
  | n + 1 => onesBelow x n + (if x.getLsbD n then 1 else 0)
/-- The number of leading zero bits among the low n bits. -/
def leadZeros (x : Word) : Nat → Nat
  | 0 => 0
  | n + 1 => if x.getLsbD n then 0 else leadZeros x n + 1
/-- The number of trailing zero bits. -/
def trailZeros (x : Word) : Nat := leadZeros x.reverse 64
/-- The len low bits of sA from pos on, as a bit vector of that length. -/
def bitField (x : Word) (pos len : Nat) : BitVec len := x.extractLsb' pos len
/-- sD with bits [pos+len-1:pos] replaced by sA[len-1:0]. -/
def insertField (old x : Word) (pos len : Nat) : Word :=
  let m : Word := (BitVec.allOnes len).setWidth 64 <<< pos
  (old &&& ~~~m) ||| ((x <<< pos) &&& m)

/-- SEL (Table 08-5). -/
def execSel (d a b : BitVec 6) (s : State) : Out := result s d (if s.getS d ≠ 0 then s.getS a else s.getS b)
/-- CLZ (Table 08-5). -/
def execClz (d a : BitVec 6) (s : State) : Out := result s d (BitVec.ofNat 64 (leadZeros (s.getS a) 64))
/-- CTZ (Table 08-5). -/
def execCtz (d a : BitVec 6) (s : State) : Out := result s d (BitVec.ofNat 64 (trailZeros (s.getS a)))
/-- POPC (Table 08-5). -/
def execPopc (d a : BitVec 6) (s : State) : Out := result s d (BitVec.ofNat 64 (onesBelow (s.getS a) 64))
/-- BREV (Table 08-5). -/
def execBrev (d a : BitVec 6) (s : State) : Out := result s d (s.getS a).reverse
/-- SEXTB (Table 08-5). -/
def execSextb (d a : BitVec 6) (s : State) : Out := result s d (Word.sext 8 (s.getS a))
/-- SEXTH (Table 08-5). -/
def execSexth (d a : BitVec 6) (s : State) : Out := result s d (Word.sext 16 (s.getS a))
/-- SEXTW (Table 08-5). -/
def execSextw (d a : BitVec 6) (s : State) : Out := result s d (Word.sext 32 (s.getS a))
/-- BFX; `l` is len - 1 (Table 08-5). -/
def execBfx (d a p l : BitVec 6) (s : State) : Out := result s d ((bitField (s.getS a) p.toNat (l.toNat + 1)).signExtend 64)
/-- BFXU; `l` is len - 1 (Table 08-5). -/
def execBfxu (d a p l : BitVec 6) (s : State) : Out := result s d ((bitField (s.getS a) p.toNat (l.toNat + 1)).setWidth 64)
/-- BFI; `l` is len - 1 (Table 08-5). -/
def execBfi (d a p l : BitVec 6) (s : State) : Out := result s d (insertField (s.getS d) (s.getS a) p.toNat (l.toNat + 1))

end Sys2Proof.Machine
end

