-- ==== Sys2Proof/Machine/Operands.lean ====
section
/-!
DEFINITION. Vector operands: elements, masks, register groups, element-wise results with their draws (spec 07 R135 to R137, 09 R170, R171).
-/

namespace Sys2Proof.Machine

/-- Bits of an element of a vector type code (Table 07-2). -/
def typeWidth (t : BitVec 4) : Nat := fmtWidth (fmtOfType t)
/-- Elements of a register in a width (Table 07-2). -/
def elemCount (w : Nat) : Nat := 4096 / w
/-- elem(x, T, i) of a width (R135). -/
def elem (x : VReg) (w i : Nat) : Nat := (x.extractLsb' (w * i) w).toNat
/-- active(k, T, i) of a width (R136). -/
def active (k : KReg) (w i : Nat) : Bool := k.getLsbD (i * w / 8)

/-- A little-endian list of w-bit elements as one number. -/
def packElems (w : Nat) : List Nat → Nat
  | [] => 0
  | x :: l => x % 2 ^ w + 2 ^ w * packElems w l

/-- The register that holds these elements (R135). -/
def ofElems (w : Nat) (l : List Nat) : VReg := BitVec.ofNat 4096 (packElems w l)

/-- Every active element takes f of its index, every other keeps its earlier value (R170). -/
def mapElems (w : Nat) (k : KReg) (old : VReg) (f : Nat → Nat) : VReg :=
  ofElems w ((List.range (elemCount w)).map (fun i => if active k w i then f i else elem old w i))

/-- elem(x, T, i) := y (R148). -/
def setElem (w : Nat) (x : VReg) (i y : Nat) : VReg := ofElems w ((List.range (elemCount w)).map (fun j => if j = i then y else elem x w j))

/-- The active elements of a width, ascending. -/
def actives (k : KReg) (w : Nat) : List Nat := (List.range (elemCount w)).filter (active k w)

/-- Results of a list of elements in lane order with the flags raised and the generator left (R68, R171, R172): element i is `f i draw`
when active, each active one after one draw when `draws`; an inactive element gives `old i`. -/
def lanes (draws : Bool) (act : Nat → Bool) (old : Nat → Nat) (f : Nat → Nat → Nat × Nat) : List Nat → Word → List Nat × Nat × Word
  | [], g => ([], 0, g)
  | i :: l, g =>
    if act i then
      let g1 := if draws then srNext g else g
      let r := f i (srDraw g1)
      let t := lanes draws act old f l g1
      (r.1 :: t.1, r.2 ||| t.2.1, t.2.2)
    else
      let t := lanes draws act old f l g
      (old i :: t.1, t.2.1, t.2.2)

/-- The value of element i of a register in a type. -/
def elemVal (t : BitVec 4) (x : VReg) (i : Nat) : Val := decodeVal (fmtOfType t) (elem x (typeWidth t) i)

/-- The signed value of element i of a register in a width. -/
def elemInt (w : Nat) (x : VReg) (i : Nat) : Int := intOf w (elem x w i)

/-- Byte i of a register. -/
def vbyte (x : VReg) (i : Nat) : Nat := elem x 8 i

/-- The register with n bytes of a value at byte i. -/
def setBytes (x : VReg) (i n v : Nat) : VReg :=
  let m : VReg := BitVec.ofNat 4096 ((2 ^ (8 * n) - 1) * 2 ^ (8 * i))
  (x &&& ~~~m) ||| (BitVec.ofNat 4096 (v * 2 ^ (8 * i)) &&& m)

end Sys2Proof.Machine
end

