-- ==== Sys2Proof/Machine/Flags.lean ====
section
/-!
DEFINITION. The rounding mode an instruction samples, the IEEE flags it raises, and the trap of an enabled flag (spec 03 R65, R66, R71; 09 R172).
-/

namespace Sys2Proof.Machine

/-- An instruction samples RMODE (R66, R275): in strict mode the codes 6 and 7, and SR while feature 5 is not accepted, trap with
TCAUSE 1 and TVAL holding RMODE. -/
def sampleRmode {α : Type} (s : State) (k : Issue α) : Issue α :=
  let r := s.me.csr.rmode
  let code := (r &&& 7).toNat
  if s.strict ∧ (code ≥ 6 ∨ (code = 1 ∧ !s.feature 5)) then .trap 1 r else k

/-- The sampled mode. -/
def State.mode (s : State) : RMode := modeOf (s.feature 5) s.me.csr.rmode
/-- The sampled saturation switch. -/
def State.sat (s : State) : Bool := satOf s.me.csr.rmode
/-- The sampled mode draws (R68). -/
def State.drawing (s : State) : Bool := decide (s.mode = .sr)

/-- Sets raised flags in FFLAGS; they are sticky (R71). -/
def State.raise (s : State) (flags : Nat) : State :=
  s.upd (fun c => c.updCsr (fun x => { x with fflags := x.fflags ||| BitVec.ofNat 64 (flags % 32) }))

/-- A raised flag has its enable bit set (R71). -/
def State.enabled (s : State) (flags : Nat) : Bool := (s.me.csr.fflags >>> 8) &&& BitVec.ofNat 64 (flags % 32) != 0

/-- Sets SRSEED (R68). -/
def State.setSeed (s : State) (g : Word) : State := s.upd (fun c => c.updCsr (fun x => { x with srseed := g }))

/-- Ends an instruction that raised flags (R71, R172): the flags are set; an enabled one traps with TCAUSE 9 and nothing else is
written, else the instruction goes on. -/
def raising (s : State) (flags : Nat) (k : State → Issue State) : Issue State :=
  if s.enabled flags then .trapAt (s.raise flags) 9 (BitVec.ofNat 64 (flags % 32)) else k (s.raise flags)

end Sys2Proof.Machine
end

