-- ==== Sys2Proof/Machine/Access.lean ====
section
/-!
DEFINITION. The accesses of a core at issue: the checks of scalar and vector accesses, reads performed at once or later, writes entered
in the store buffer (spec 01 R8 to R11, R29; 04 R78 to R86, R91; 08 R161; 09 R185; 15 R264).
-/

namespace Sys2Proof.Machine

/-! ### Checks -/

/-- A further access to the wagon of a place stalls: PEND is 255 (R36). -/
def State.pendFull (s : State) (p : Place) : Bool := match p.slot with | some n => decide (s.pend s.cur n ≥ 255) | none => false

/-- A byte of a load comes from memory, neither forwarded nor from the read cache (R79, R86). -/
def State.fromMemory (s : State) (g mtype before stamp loc : Nat) : Bool :=
  let m := (s.core g).mem
  (m.forward before loc).isNone && (m.hit mtype stamp loc).isNone

/-- A load of n bytes meets an uncorrectable error (R264). -/
def State.readBad (s : State) (g mtype before stamp loc n : Nat) : Bool :=
  !s.bad.isEmpty && (List.range n).any (fun i => Sparse.get false s.bad (granuleOf (loc + i)) && s.fromMemory g mtype before stamp (loc + i))

/-- Goes on once some requests are served, and waits among them until then (R128). -/
def served {α : Type} (s : State) (l : List Ask) (k : State → Issue α) : Issue α :=
  match s.chargeList l with
  | none => .stay (s.enlist l)
  | some t => k t

/-- The bytes of a load that come from memory. -/
def State.memBytes (s : State) (g mtype before stamp loc n : Nat) : Nat :=
  ((List.range n).filter (fun i => s.fromMemory g mtype before stamp (loc + i))).length

/-- The checks of a scalar access (R161): alignment, space, slot, translation. -/
def scalarPlace (s : State) (k : Access) (a : Word) (w : Nat) : Issue (State × Place) :=
  if a.toNat % w ≠ 0 then .trap 4 a
  else match locate s s.cur s.me.sup k a with
    | .error c => .trap c a
    | .ok x => .ok x

/-! ### Reads and writes -/

/-- What a read of the issuing core at a place does to its read cache and to the stamp of what it writes (R26, R79, R84). -/
def State.noteRead (s : State) (p : Place) (n : Nat) : State :=
  s.upd (fun c => { c with mem := c.mem.afterRead p.mtype c.mem.seq c.mem.now p.loc n })

/-- The bytes that the issuing core reads at a place now. -/
def State.readNow (s : State) (p : Place) (n : Nat) : Nat := s.coreRead s.cur p.mtype s.me.mem.seq s.me.mem.now p.loc n

/-- The budget requests of a read of the issuing core at a place: those of its bytes that come from memory (R128). -/
def State.readAsks (s : State) (p : Place) (n : Nat) : List Ask :=
  hbmAsks s s.atIssue s.cur p.loc (s.memBytes s.cur p.mtype s.me.mem.seq s.me.mem.now p.loc n)

/-- A read of the issuing core at a place meets an uncorrectable error (R264). -/
def State.badNow (s : State) (p : Place) (n : Nat) : Bool := s.readBad s.cur p.mtype s.me.mem.seq s.me.mem.now p.loc n

/-- Enters reads to be performed later; those of one instruction carry one number (R78). -/
def State.pushLate (s : State) (rs : List Late) : State :=
  s.upd (fun c => { c with mem := { c.mem with late := c.mem.late ++ rs.map (fun r => { r with seq := c.mem.seq, dep := c.mem.now }), seq := c.mem.seq + 1 } })

/-- The bytes of a write. -/
def Write.covers (w : Write) (loc : Nat) : Bool := decide (w.loc ≤ loc) && decide (loc < w.loc + w.n) && w.mask.getLsbD (loc - w.loc)

/-- The window of timed visibility that holds a value of TIME (R102). -/
def State.windowOf (s : State) (t : Word) : Nat := t.toNat / 2 ^ s.w

/-- Enters the writes of one instruction in the store buffer: they carry one number and the window of their issue, and each says whether
the instruction covers its whole ECC granule (R78, R102, R264). -/
def State.pushWrites (s : State) (rel : Bool) (ws : List Write) : State :=
  let full := fun (w : Write) => (List.range (granuleSize w.loc)).all (fun i => ws.any (fun x => x.covers (granuleOf w.loc + i)))
  s.upd (fun c => { c with mem :=
    { c.mem with wbuf := c.mem.wbuf ++ ws.map (fun w => { w with seq := c.mem.seq, rel := rel, part := c.part, whole := full w, win := s.windowOf s.time }), seq := c.mem.seq + 1 } })

/-- A write of n bytes at a place, before it is numbered. -/
def writeAt (p : Place) (a : Word) (n : Nat) (val : Word) (mask : BitVec 8) : Write :=
  { loc := p.loc, n := n, val := val, mask := mask, va := a, seq := 0, rel := false, mtype := p.mtype, slot := p.slot, part := 0, whole := false,
    member := none, win := 0 }

/-- A value of w bytes as a register holds it (R159). -/
def loaded (w : Nat) (sgn : Bool) (v : Nat) : Word := if sgn then Word.sext (8 * w) (BitVec.ofNat 64 v) else BitVec.ofNat 64 v

/-- A scalar load after its checks (R161): it stalls on PEND, a watermark or an earlier read that it follows; then it meets an error,
or is performed at once or entered to be performed later. -/
def loadAt (s : State) (d : BitVec 6) (a : Word) (p : Place) (w : Nat) (sgn late : Bool) : Issue State :=
  if s.pendFull p || s.wmStall s.cur a.toNat (a.toNat + w - 1) then .stay s
  else if s.badNow p w then .trapAt s 11 a
  else if late && !s.hasBad p.loc w then
    .ok (s.pushLate [{ loc := p.loc, n := w, mask := 0xFF, va := a, seq := 0, mtype := p.mtype, slot := p.slot, dest := .scalar d.toNat sgn }])
  else if !s.me.readable p w then .stay s
  else served s (s.readAsks p w) (fun s1 => .ok ((s1.noteRead p w).setS d (loaded w sgn (s.readNow p w))))

/-- A scalar load (R161). -/
def loadScalar (s : State) (d : BitVec 6) (a : Word) (w : Nat) (sgn : Bool) : Issue State :=
  (scalarPlace s .load a w).bind (fun x => loadAt x.1 d a x.2 w sgn s.late)

/-- The stalls and strict-mode traps of a store or atomic of w bytes (R36, R50, R91, R263). -/
def storeLocks (s : State) (a : Word) (p : Place) (w : Nat) (k : Issue State) : Issue State :=
  if s.pendFull p || s.wmStall s.cur a.toNat (a.toNat + w - 1) then .stay s
  else match s.interlock s.cur a.toNat (a.toNat + w - 1) with
    | .strictTrap => .trapAt s 14 a
    | .stall => .stay s
    | .go => k

/-- A scalar store (R161): its write enters the store buffer. -/
def storeScalar (s : State) (v : Word) (a : Word) (w : Nat) (rel : Bool) : Issue State :=
  (scalarPlace s .store a w).bind (fun x => storeLocks x.1 a x.2 w (.ok (x.1.pushWrites rel [writeAt x.2 a w v 0xFF])))

/-! ### Vector accesses (R185) -/

/-- The cause that an element's space and slot checks fail with (R8, R10, R11): `slot` is the one that a contiguous access must lie in. -/
def spaceCause (s : State) (slot : Option Nat) (a : Word) : Option Nat :=
  if spaceOf a = 0 then none
  else if spaceOf a ≠ 0xE0 ∨ a.toNat % 2 ^ 56 / 2 ^ 23 ≠ 0 then some 2
  else
    let n := a.toNat / 2 ^ 18 % 32
    if slot.isSome ∧ slot ≠ some n then some 2
    else if (s.me.slot n).st ≠ .attached then some 5 else none

/-- An active element of a vector access: its index, address and place. -/
structure VElem where
  idx   : Nat
  addr  : Word
  place : Place
  deriving DecidableEq, Repr

/-- The checks of a vector access of elements of nb bytes from a base (R185): alignment, then space and slot, then translation, each over
all active elements; the lowest that fails gives TVAL. `run` is set for a contiguous access. -/
def vectorPlaces (s : State) (k : Access) (run : Bool) (base : Word) (nb : Nat) (els : List (Nat × Word)) : Issue (State × List VElem) :=
  match els.find? (fun e => decide (base.toNat % 64 ≠ 0) || decide (e.2.toNat % nb ≠ 0)) with
  | some e => .trap 4 e.2
  | none =>
    let slot := if run ∧ spaceOf base = 0xE0 then some (base.toNat / 2 ^ 18 % 32) else none
    match els.findSome? (fun e => (spaceCause s slot e.2).map (fun c => (c, e.2))) with
    | some (c, a) => .trap c a
    | none =>
      (Issue.fold (fun (acc : State × List VElem) e => match locate acc.1 s.cur s.me.sup k e.2 with
        | .error c => .trap c e.2
        | .ok (s', p) => .ok (s', ⟨e.1, e.2, p⟩ :: acc.2)) els (s, [])).bind (fun x => .ok (x.1, x.2.reverse))

/-- The lowest and the highest byte address of a contiguous access; each element on its own otherwise (R50). -/
def wmRanges (run : Bool) (nb : Nat) (els : List VElem) : List (Nat × Nat) :=
  if run then
    match els.head?, els.getLast? with
    | some a, some b => [(a.addr.toNat, b.addr.toNat + nb - 1)]
    | _, _ => []
  else els.map (fun e => (e.addr.toNat, e.addr.toNat + nb - 1))

/-- A vector access stalls on PEND or a watermark (R36, R50). -/
def vectorStall (s : State) (run : Bool) (nb : Nat) (els : List VElem) : Bool :=
  els.any (fun e => s.pendFull e.place) || (wmRanges run nb els).any (fun r => s.wmStall s.cur r.1 r.2)

/-- The budget requests of the reads of all elements, as one amount (R128). -/
def elemAsks (s : State) (nb : Nat) (els : List VElem) : List Ask :=
  hbmAsks s s.atIssue s.cur 0 ((els.map (fun e =>
    if e.place.loc < 2 ^ 64 then s.memBytes s.cur e.place.mtype s.me.mem.seq s.me.mem.now e.place.loc nb else 0)).sum)

/-- The values of the elements of a vector load performed at once (R79). -/
def readElems (s : State) (nb : Nat) (els : List VElem) : List (Nat × Nat) :=
  els.map (fun e => (e.idx, s.readNow e.place nb))

/-- Puts loaded elements of nb bytes in a register. -/
def putElems (nb : Nat) (x : VReg) (vs : List (Nat × Nat)) : VReg := vs.foldl (fun r v => setBytes r (v.1 * nb) nb v.2) x

/-- What the reads of all elements do to the read cache and the stamp. -/
def noteElems (s : State) (nb : Nat) (els : List VElem) : State := els.foldl (fun t e => t.noteRead e.place nb) s

/-- A vector load after its checks; `late` enters its elements to be performed later, by 8-byte units (R78, R80). -/
def loadElems (s : State) (d : Nat) (run : Bool) (nb : Nat) (els : List VElem) (late : Bool) : Issue State :=
  if vectorStall s run nb els then .stay s
  else match els.find? (fun e => s.badNow e.place nb) with
    | some e => .trapAt s 11 e.addr
    | none =>
      if late && els.all (fun e => !s.hasBad e.place.loc nb) then
        .ok (s.pushLate (els.map (fun e =>
          { loc := e.place.loc, n := nb, mask := 0xFF, va := e.addr, seq := 0, mtype := e.place.mtype, slot := e.place.slot, dest := .vector d (e.idx * nb) })))
      else if els.any (fun e => !s.me.readable e.place nb) then .stay s
      else served s (elemAsks s nb els) (fun s1 => .ok ((noteElems s1 nb els).upd (fun c => (c.holdV d).setV d (putElems nb (s.me.getV d) (readElems s nb els)))))

/-- A vector load (R185). -/
def loadVector (s : State) (d : Nat) (run : Bool) (base : Word) (nb : Nat) (els : List (Nat × Word)) : Issue State :=
  (vectorPlaces s .load run base nb els).bind (fun x => loadElems x.1 d run nb x.2 s.late)

/-- Loads of w bytes from places that have passed their checks, performed at once: the state and the values. -/
def readPlaced (s : State) (w : Nat) (els : List VElem) : Issue (State × List Nat) :=
  if els.any (fun e => !s.me.readable e.place w) then .stay s
  else served s (elemAsks s w els) (fun s1 => .ok (noteElems s1 w els, (readElems s w els).map (fun v => v.2)))

/-- Reads n doublewords of a block as vector loads of the core, at once: the state and the little-endian value (R235, R220). With `run`
the block is one contiguous access, else each doubleword is checked against the slot of its own address. -/
def readBlock (s : State) (run : Bool) (a : Word) (n : Nat) : Issue (State × Nat) :=
  (vectorPlaces s .load run a 8 ((List.range n).map (fun i => (i, a + BitVec.ofNat 64 (8 * i))))).bind (fun x =>
    if vectorStall x.1 run 8 x.2 then .stay x.1
    else match x.2.find? (fun e => x.1.badNow e.place 8) with
      | some e => .trapAt x.1 11 e.addr
      | none => (readPlaced x.1 8 x.2).bind (fun y => .ok (y.1, packElems 64 y.2)))

/-- Whether 8 bytes from byte lane 8u on have an active lane, as a mask. -/
def laneMask (k : KReg) (u : Nat) : BitVec 8 := (k >>> (8 * u)).setWidth 8

/-- The writes of a vector store: by 8-byte units of a contiguous one, else by elements in ascending order (R80, R185). -/
def storeUnits (run : Bool) (nb : Nat) (x : VReg) (els : List VElem) : List Write :=
  let one := fun (e : VElem) => writeAt e.place e.addr nb (BitVec.ofNat 64 (elem x (8 * nb) e.idx)) 0xFF
  if !run then els.map one
  else (List.range 64).filterMap (fun u =>
    match els.filter (fun e => decide (e.idx * nb / 8 = u)) with
    | [] => none
    | e :: l =>
      let o := e.idx * nb % 8
      let mask := (e :: l).foldl (fun m y => m ||| BitVec.ofNat 8 ((2 ^ nb - 1) * 2 ^ (y.idx * nb % 8))) 0
      some (writeAt { e.place with loc := e.place.loc - o } (e.addr - BitVec.ofNat 64 o) 8 (BitVec.ofNat 64 (elem x 64 u)) mask))

/-- A vector store after its checks: it stalls, traps in strict mode, or enters its writes (R185, R91). -/
def storeWrites (s : State) (run : Bool) (nb : Nat) (els : List VElem) (ws : List Write) : Issue State :=
  if vectorStall s run nb els then .stay s
  else
    let locks := els.map (fun e => (e.addr, s.interlock s.cur e.addr.toNat (e.addr.toNat + nb - 1)))
    match locks.find? (fun l => l.2 == .strictTrap) with
    | some l => .trapAt s 14 l.1
    | none =>
      if locks.any (fun l => l.2 == .stall) then .stay s
      else if els.isEmpty then .ok s
      else .ok (s.pushWrites false ws)

/-- A vector store of a register after its checks. -/
def storeElems (s : State) (x : VReg) (run : Bool) (nb : Nat) (els : List VElem) : Issue State := storeWrites s run nb els (storeUnits run nb x els)

/-- A vector store (R185). -/
def storeVector (s : State) (x : VReg) (run : Bool) (base : Word) (nb : Nat) (els : List (Nat × Word)) : Issue State :=
  (vectorPlaces s .store run base nb els).bind (fun y => storeElems y.1 x run nb y.2)

end Sys2Proof.Machine
end

