-- ==== Sys2Proof/Machine/Hitch.lean ====
section
/-!
DEFINITION. Hitch and livery instructions, major 0x14 (spec 10 R192 to R194, 02 R31 to R45, R48, R52, 03 R56).
-/

namespace Sys2Proof.Machine

/-- A slot is free (R35). -/
def Hitch.free (h : Hitch) : Bool := h.st == .detached && !h.inb && !h.rvk

/-- The STATE code of an entry (Table 02-4). -/
def HState.code : HState → Nat
  | .detached => 0 | .attached => 1 | .arriving => 2 | .leaving => 3 | .impounded => 4

/-- The hitch entry that HSTAT returns (Table 02-3). -/
def hstatWord (h : Hitch) (pend : Nat) : Word :=
  BitVec.ofNat 64 (pend % 256 * 2 ^ 32 + h.etag.toNat * 2 ^ 16 + (if h.st = .detached then 0 else h.wagon % 128) * 2 ^ 8
    + (if h.rvk then 16 else 0) + (if h.inb then 8 else 0) + h.st.code)

/-- An acquire of the issuing core waits for its releases that are not yet performed: release stores, and hand-overs and drops (R85 case
7, R97). -/
def acquireWait (s : State) (k : Issue State) : Issue State :=
  if s.me.mem.wbuf.any (fun w => w.rel) || s.me.giving then .stay s else k

/-- An acquire of cluster scope or wider drops the read cache (R96). -/
def State.acquired (s : State) : State := s.upd Core.dropCache

/-- An event of the issuing core reaches one of its own slots: the first place of a cycle (R38). -/
def ownSlot (s : State) (slot : Nat) (k : State → Issue State) : Issue State := inOrder s (clusterOf s.cur) (slotKey s.cur slot) 0 k

/-- A release of the issuing core waits for its earlier accesses (R85 case 6, R265). -/
def releaseWait {α : Type} (s : State) (k : Issue α) : Issue α := if s.me.drained then k else .wait

/-- HITCH allocates a wagon into a free slot (R33, R129, R193). -/
def hitchAllocate (s : State) (slot : Nat) : Option (State × Nat) :=
  let cl := clusterOf s.cur
  let used := fun q => (s.cluster cl).held q
  match (s.cluster cl).freeWagon with
  | none => none
  | some w =>
    if !poolRoom s 1 used s.myPart 1 then none
    else
      let s1 := takeWagon s cl w s.myPart false
      some (s1.upd (fun c => c.setSlot slot { c.slot slot with st := .attached, wagon := w }), w)

/-- Ends a HITCH or a TAKE that gives a wagon: status 0, an acquire at cluster scope (R42, R97). -/
def gotWagon (s : State) (d : BitVec 6) : State := ((s.acquired).setS d 0).advance

/-- HITCH (R193). -/
def hitchOp (d : BitVec 6) (slot : BitVec 5) (s : State) : Issue State :=
  needSup s (acquireWait s (
    let h := s.me.slot slot.toNat
    if s.hold = .zeroing then
      if (s.myCluster.wagon h.wagon).yard = .hitched then .ok (gotWagon s d) else .wait
    else ownSlot s slot.toNat (fun t =>
      if !h.free then .ok ((t.setS d 1).advance)
      else match hitchAllocate t slot.toNat with
        | none => .ok ((t.setS d 6).advance)
        | some (s1, w) => if (s1.myCluster.wagon w).yard = .hitched then .ok (gotWagon s1 d) else .stay (s1.setHold .zeroing))))

/-- HITCH (R193). -/
def execHitch (d : BitVec 6) (n : BitVec 5) (s : State) : Out := finish s (hitchOp d n s)

/-- Removes the impound record of a wagon; the dead core's entry goes to DETACHED (R48). -/
def endImpound (s : State) (r : Impound) : State :=
  let s1 := s.updCluster (clusterOf r.core) (fun c => { c with impounds := c.impounds.filter (fun x => x.wagon != r.wagon) })
  s1.updCore r.core (fun c => c.setSlot r.slot { c.slot r.slot with st := .detached, wagon := 0 })

/-- The impound record of a partition for a wagon (R48). -/
def Cluster.record (c : Cluster) (w part : Nat) : Option Impound := c.impounds.find? (fun r => r.wagon == w && r.part == part)

/-- HITCH.IMP (R48, R193). -/
def hitchImpOp (d : BitVec 6) (slot : BitVec 5) (b : BitVec 6) (s : State) : Issue State :=
  needSup s (acquireWait s (
    ownSlot s slot.toNat (fun t =>
    if !(s.me.slot slot.toNat).free then .ok ((t.setS d 1).advance)
    else match s.myCluster.record ((s.getS b).toNat % 128) s.myPart with
      | none => .ok ((t.setS d 7).advance)
      | some r =>
        let s1 := endImpound t r
        let s2 := s1.updMyCluster (fun c => c.updWagon r.wagon (fun x => { x with yard := .hitched }))
        .ok (gotWagon (s2.upd (fun c => c.setSlot slot.toNat { c.slot slot.toNat with st := .attached, wagon := r.wagon })) d))))

/-- HITCH.IMP (R193). -/
def execHitchImp (d : BitVec 6) (n : BitVec 5) (b : BitVec 6) (s : State) : Out := finish s (hitchImpOp d n b s)

/-- The status of HAND's checks with the target core (Table 02-6): checks 1 to 4 in order. -/
def handCheck (s : State) (slot : Nat) (b : Word) : Nat × Nat :=
  if (s.me.slot slot).st ≠ .attached then (4, 0)
  else match s.physOf s.myPart (b.toNat % 1024) with
    | none => (2, 0)
    | some t =>
      if clusterOf t ≠ clusterOf s.cur then (2, 0)
      else if !((s.core t).live && (s.core t).part == s.myPart) then (3, 0)
      else if !((s.core t).slot (b.toNat / 2 ^ 16 % 32)).free then (1, 0) else (0, t)

/-- The commit of a hand-over (R40 step 1). -/
def handCommit (s : State) (slot t tslot : Nat) : State :=
  let s1 := s.upd (fun c => c.setSlot slot { c.slot slot with st := .leaving, dest := some (t, tslot), since := c.mem.seq })
  s1.updCore t (fun c => c.setSlot tslot { c.slot tslot with inb := true })

/-- The target slot that a HAND reaches: a core of the giver's cluster and a slot (R38). -/
def handTarget (s : State) (b : Word) : Option (Nat × Nat) :=
  (s.physOf s.myPart (b.toNat % 1024)).bind (fun t => if clusterOf t = clusterOf s.cur then some (t, b.toNat / 2 ^ 16 % 32) else none)

/-- HAND in its place among the events of its target slot: first for a slot of the giver itself, else after the yard, in the order of
the givers (R38). -/
def handReaches (s : State) (b : Word) (k : State → Issue State) : Issue State :=
  match handTarget s b with
  | none => k s
  | some (t, ts) => inOrder s (clusterOf t) (slotKey t ts) (if t = s.cur then 0 else 2 + s.cur) k

/-- HAND (R39, R193). -/
def handOp (d : BitVec 6) (n : BitVec 5) (b : BitVec 6) (s : State) : Issue State :=
  ownSlot s n.toNat (fun s0 => handReaches s0 (s.getS b) (fun s1 =>
    let r := handCheck s n.toNat (s.getS b)
    let s2 := if r.1 = 0 then handCommit s1 n.toNat r.2 ((s.getS b).toNat / 2 ^ 16 % 32) else s1
    .ok ((s2.setS d (BitVec.ofNat 64 r.1)).advance)))

/-- HAND (R193). -/
def execHand (d : BitVec 6) (n : BitVec 5) (b : BitVec 6) (s : State) : Out := finish s (handOp d n b s)

/-- TVAL of a schedule fault of TAKE (R45). -/
def takeTval (s : State) (slot : Nat) : Word :=
  let h := s.me.slot slot
  let tag := if h.st = .detached then 0 else ((s.myCluster.wagon h.wagon).tag).toNat
  BitVec.ofNat 64 (h.st.code * 2 ^ 40 + slot * 2 ^ 32 + h.etag.toNat * 2 ^ 16 + tag)

/-- TAKE and TAKE.T (R43, Table 02-5). -/
def takeOp (tagged : Bool) (d : BitVec 6) (n : BitVec 5) (s : State) : Issue State :=
  let h := s.me.slot n.toNat
  let upd := fun (t : State) (x : Hitch) => t.upd (fun c => c.setSlot n.toNat x)
  match h.st with
  | .detached => if h.rvk then ownSlot s n.toNat (fun t => .ok (((upd t { h with rvk := false }).setS d 5).advance)) else .wait
  | .arriving =>
    if tagged && (s.myCluster.wagon h.wagon).tag != h.etag then .trap 6 (takeTval s n.toNat)
    else acquireWait s (ownSlot s n.toNat (fun t => .ok (gotWagon (upd t { h with st := .attached }) d)))
  | _ => .trap 6 (takeTval s n.toNat)

/-- TAKE (R193). -/
def execTake (d : BitVec 6) (n : BitVec 5) (s : State) : Out := finish s (takeOp false d n s)
/-- TAKE.T (R193). -/
def execTakeT (d : BitVec 6) (n : BitVec 5) (s : State) : Out := finish s (takeOp true d n s)

/-- The DROP event (Table 02-5): the state after it and the status. An ATTACHED wagon goes to the yard once its accesses, and every earlier
access of the core, have been performed (R37, R97); `since` numbers the first later one. -/
def dropSlot (s : State) (slot : Nat) : State × Nat :=
  let h := s.me.slot slot
  let upd := fun (x : Hitch) => s.upd (fun c => c.setSlot slot x)
  match h.st with
  | .detached => if h.rvk then (upd { h with rvk := false }, 0) else (s, 4)
  | .attached => (upd { h with st := .leaving, dest := none, since := s.me.mem.seq }, 0)
  | .arriving => (freeWagonBack (upd { h with st := .detached, wagon := 0 }) (clusterOf s.cur) h.wagon, 0)
  | _ => (s, 4)

/-- DROP (R193). That of an ARRIVING slot returns the wagon at once, and waits as a release for the core's earlier accesses (R97). -/
def dropOp (d : BitVec 6) (n : BitVec 5) (s : State) : Issue State :=
  let go := ownSlot s n.toNat (fun t =>
    let r := dropSlot t n.toNat
    .ok ((r.1.setS d (BitVec.ofNat 64 r.2)).advance))
  if (s.me.slot n.toNat).st = .arriving then releaseWait s go else go

/-- DROP (R193). -/
def execDrop (d : BitVec 6) (n : BitVec 5) (s : State) : Out := finish s (dropOp d n s)

/-- HSTAT (R193). -/
def execHstat (d : BitVec 6) (n : BitVec 5) (s : State) : Out :=
  .next ((s.setS d (hstatWord (s.me.slot n.toNat) (s.pend s.cur n.toNat))).advance)

/-- A livery value is valid (R56); LCB2 needs feature 0 (R275). -/
def liveryValid (s : State) (l : BitVec 32) : Bool :=
  let x := l.toNat
  let fmt := x % 256
  let mode := x / 256 % 16
  let off := x / 65536
  decide (fmt ≤ 12) && (fmt != 12 || s.feature 0) && decide (x / 4096 % 16 = 0) &&
    (if mode = 0 then off == 0 else decide (mode ≤ 3) && decide (4 ≤ fmt) && fmt != 11 && decide (1 ≤ off) && decide (off ≤ 4095))

/-- An instruction that acts on the wagon of an ATTACHED slot; another state is a detached-wagon fault (R52, R193). -/
def withWagon (s : State) (slot : BitVec 5) (k : Nat → Issue State) : Issue State :=
  let h := s.me.slot slot.toNat
  if h.st = .attached then k h.wagon else .trap 5 (Word.wslot slot.toNat)

/-- LVSET (R52, R56). -/
def execLvset (n : BitVec 5) (b : BitVec 6) (s : State) : Out :=
  let l := (s.getS b).setWidth 32
  finish s (withWagon s n (fun w =>
    if !liveryValid s l then .trap 1 (l.setWidth 64)
    else if s.pend s.cur n.toNat ≠ 0 then .wait
    else .ok ((s.updMyCluster (fun c => c.updWagon w (fun x => { x with livery := l }))).advance)))

/-- LVGET (R52). -/
def execLvget (d : BitVec 6) (n : BitVec 5) (s : State) : Out :=
  finish s (withWagon s n (fun w => .ok ((s.setS d ((s.myCluster.wagon w).livery.setWidth 64)).advance)))

/-- WTAG (R52). -/
def execWtag (n : BitVec 5) (b : BitVec 6) (s : State) : Out :=
  finish s (withWagon s n (fun w =>
    .ok ((s.updMyCluster (fun c => c.updWagon w (fun x => { x with tag := (s.getS b).setWidth 16 }))).advance)))

/-- WTAG.E (R193): in any state. -/
def execWtagE (n : BitVec 5) (b : BitVec 6) (s : State) : Out :=
  .next ((s.upd (fun c => c.setSlot n.toNat { c.slot n.toNat with etag := (s.getS b).setWidth 16 })).advance)

end Sys2Proof.Machine
end

