-- ==== Sys2Proof/Machine/Barrier.lean ====
section
/-!
DEFINITION. Barriers, event flags and mutexes, major 0x15; triggers, halt points, VCC waits and submission, major 0x16 (spec 10 R195 to
R201, 01 R13, R17, 05 R97 to R99, 06 R113 to R116, R120).
-/

namespace Sys2Proof.Machine

/-! ### Pre-emption points (R115) -/

/-- A pre-emption point: with a request pending the core waits there for its save (R115, R118). -/
def State.point (s : State) : State :=
  if s.me.sched.preempt then s.upd (fun c => c.sch (fun x => { x with run := .point, ptWord := s.word })) else s

/-- Nothing that the core or its caravan has sent keeps a superstep boundary from being a point (R115). -/
def boundaryFree (s : State) : Bool :=
  (match s.myCar with
    | some c => c.cores.all (fun g => (s.core g).mail.port.isNone)
    | none => true) &&
  s.cores.all (fun e => e.2.mail.rq.all (fun q => q.core != s.cur || q.uid != s.me.uid))

/-! ### Lines (R13) -/

/-- The generation that the issuing core last observed of a line (R13). -/
def State.observed (s : State) (line : Nat) : Word := Sparse.get 0 s.me.obs line

/-- An LDD from a line (R13): waits until the generation differs from the observed one, returns it and records it; an acquire at cluster
scope. A return from barrier 47 is a superstep boundary (R115). -/
def lineLoad (s : State) (d : BitVec 6) (line : Nat) : Issue State :=
  let g := s.lineGen s.cur line
  if g = s.observed line then .stay s
  else acquireWait s (
    let s1 := ((s.acquired).upd (fun c => { c with obs := Sparse.set 0 c.obs line g })).setS d g
    .ok (if line = 47 ∧ boundaryFree s then s1.point else s1))

/-! ### Barriers (R197, R198) -/

/-- Arrival of the issuing core at barrier n: none when it is no counted member or has arrived; else the state and the generation of the
phase it joins. An arrival at barrier 47 from another cluster than the home of the event unit travels (R98). -/
def arrive (s : State) (n : Nat) : Option (State × Word) :=
  match s.me.sched.task with
  | none => none
  | some t =>
    if n = 47 then
      match s.disp t.disp with
      | none => none
      | some d =>
        if d.b47.withdrawn.contains t.lin || d.b47.arrived.contains t.lin || d.b47.flight.contains t.lin then none
        else if d.home = some (clusterOf s.cur) then
          some (settle47 (s.setDisp t.disp (some { d with b47 := { d.b47 with arrived := t.lin :: d.b47.arrived } })) t.disp, d.b47.gen)
        else some (s.setDisp t.disp (some { d with b47 := { d.b47 with flight := d.b47.flight ++ [t.lin] } }), d.b47.gen)
    else
      match s.caravan t.car with
      | none => none
      | some c =>
        let b := c.bar n
        if !b.members.getLsbD t.rank || b.arrived.getLsbD t.rank then none
        else some (s.setCaravan t.car (some (c.setBar n ({ b with arrived := b.arrived ||| rankBit t.rank }).settle)), b.gen)

/-- An event of the issuing core reaches barrier n of its task in its place (R199). -/
def atBarrier (s : State) (n place : Nat) (k : State → Issue State) : Issue State :=
  inOrder s (s.barUnit s.cur n).1 (s.barUnit s.cur n).2 place k

/-- An arrival of the issuing core in its place: one at barrier 47 from another cluster than the home of the event unit only sets out
(R98, R199). -/
def arriving (s : State) (n : Nat) (k : State → Issue State) : Issue State :=
  if (s.barUnit s.cur n).1 = clusterOf s.cur then atBarrier s n (placeArrive s.cur) k else k s

/-- The refusals of BINIT and the state it leaves (Table 10-4). -/
def binitOp (s : State) (n : Nat) (b : Word) : State × Nat :=
  if n = 47 then (s, 3)
  else match s.me.sched.task with
    | none => (s, 2)
    | some t => match s.caravan t.car with
      | none => (s, 2)
      | some c =>
        let m : BitVec 16 := b.setWidth 16
        if m = 0 ∨ m.toNat ≥ 2 ^ c.size then (s, 2)
        else if (c.bar n).arrived ≠ 0 then (s, 1)
        else (s.setCaravan t.car (some (c.setBar n { c.bar n with members := m, arrived := 0 })), 0)

/-- BINIT (R197). -/
def execBinit (d n b : BitVec 6) (s : State) : Out :=
  let r := binitOp s n.toNat (s.getS b)
  .next ((r.1.setS d (BitVec.ofNat 64 r.2)).advance)

/-- BARR (R197). -/
def execBarr (d n : BitVec 6) (s : State) : Out :=
  finish s (releaseWait s (arriving s n.toNat (fun t => match arrive t n.toNat with
    | none => .trap 6 (n.setWidth 64)
    | some (s1, g) => .ok ((s1.setS d g).advance))))

/-- BWAIT (R197). -/
def execBwait (d n : BitVec 6) (s : State) : Out := finish s ((lineLoad s d n.toNat).bind (fun t => .ok t.advance))

/-- BARRW (R197): BARR, then BWAIT. -/
def execBarrw (d n : BitVec 6) (s : State) : Out :=
  finish s (Issue.bind (
    if s.hold = .arrived then lineLoad s d n.toNat
    else releaseWait s (arriving s n.toNat (fun t => match arrive t n.toNat with
      | none => .trap 6 (n.setWidth 64)
      | some (s1, _) => lineLoad (s1.setHold .arrived) d n.toNat))) (fun t => .ok t.advance))

/-- BWDR (R197): the state and the status. -/
def bwdrOp (s : State) (n : Nat) (b : Word) : State × Nat :=
  match s.me.sched.task with
  | none => (s, 1)
  | some t =>
    if n = 47 then
      match s.disp t.disp with
      | none => (s, 1)
      | some d => if d.b47.withdrawn.contains t.lin then (s, 1) else (withdraw47 s t.disp t.lin .bwdr, 0)
    else match s.caravan t.car with
      | none => (s, 1)
      | some c => if (c.bar n).members.getLsbD (b.toNat % 16) then (withdrawBar s t.car n (b.toNat % 16) .bwdr, 0) else (s, 1)

/-- BWDR (R197). -/
def execBwdr (d n b : BitVec 6) (s : State) : Out :=
  finish s (atBarrier s n.toNat (placeArrive s.cur) (fun t =>
    let r := bwdrOp t n.toNat (s.getS b)
    .ok ((r.1.setS d (BitVec.ofNat 64 r.2)).advance)))

/-! ### Event flags and mutexes (R196, R197) -/

/-- EVWAIT (R197). -/
def execEvwait (d n : BitVec 6) (s : State) : Out := finish s ((lineLoad s d (64 + n.toNat)).bind (fun t => .ok t.advance))

/-- EVSIG (R197). -/
def execEvsig (d n : BitVec 6) (s : State) : Out :=
  finish s (releaseWait s (inOrder s (clusterOf s.cur) (flagKey s.myPart n.toNat) (placeSignal s.cur) (fun t =>
    let g := s.lineGen s.cur (64 + n.toNat) + 1
    .ok (((t.updMyCluster (fun c => { c with flags := Sparse.set 0 c.flags (s.myPart * 64 + n.toNat) g })).setS d g).advance))))

/-- A mutex as the issuing core sees it (R196). -/
def State.mutex (s : State) (n : Nat) : Mutex := Sparse.get {} s.myCluster.mutexes (s.myPart * 16 + n)

/-- The grant of a mutex to the issuing core: 1 after a dead holder (R196). -/
def gotMutex (s : State) (d : BitVec 6) (n : Nat) : State :=
  let r : Word := if (s.mutex n).dead then 1 else 0
  let s1 := s.updMutex (clusterOf s.cur) s.myPart n (fun m => { m with dead := false })
  ((s1.acquired).setS d r).advance

/-- MLOCK (R196, R198). -/
def mlockOp (d n : BitVec 6) (s : State) : Issue State :=
  acquireWait s (
    let k := n.toNat
    if s.hold = .queued then
      if (s.mutex k).holder = some s.cur then .ok (gotMutex s d k) else .wait
    else if (s.mutex k).holder = some s.cur then .trap 6 (n.setWidth 64)
    else
      let s1 := s.updMutex (clusterOf s.cur) s.myPart k (fun m => ({ m with waiters := m.waiters ++ [s.cur] }).grant)
      if (s1.mutex k).holder = some s.cur then .ok (gotMutex s1 d k) else .stay (s1.setHold .queued))

/-- MLOCK (R197). -/
def execMlock (d n : BitVec 6) (s : State) : Out := finish s (mlockOp d n s)

/-- MUNLOCK (R196, R198). -/
def execMunlock (n : BitVec 6) (s : State) : Out :=
  finish s (releaseWait s (
    if (s.mutex n.toNat).holder = some s.cur then
      .ok ((s.updMutex (clusterOf s.cur) s.myPart n.toNat (fun m => ({ m with holder := none }).grant)).advance)
    else .trap 6 (n.setWidth 64)))

/-! ### Triggers, halt points, VCC waits, submission (R201) -/

/-- TRIG (R99, R201): the first of the task counts. -/
def execTrig (s : State) : Out :=
  finish s (releaseWait s (.ok (State.advance (
    match s.me.sched.task with
    | none => s
    | some t =>
      if s.me.sched.triggered then s
      else (s.updDisp t.disp (fun d => { d with trig := d.trig + 1 })).upd (fun c => c.sch (fun x => { x with triggered := true }))))))

/-- HALTPT (R116, R201). -/
def execHaltpt (a : BitVec 6) (s : State) : Out :=
  let x := s.getS a
  finish s (Issue.check (x.toNat % 16 == 0) 4 x (Issue.check (spaceOf x == 0) 2 x (
    .ok (((s.upd (fun c => c.sch (fun y => { y with lrt := some x }))).advance).point))))

/-- The virtual cycle counter of the issuing core's caravan (R112). -/
def State.vcc (s : State) : Word := match s.myCar with | some c => c.vcc | none => 0

/-- VCCWAIT (R113, R201). -/
def execVccwait (a : BitVec 6) (s : State) : Out :=
  let t := s.getS a
  finish s (if t.ule s.vcc then .ok s.advance else .stay (s.setHold (.timed t true none)))

/-- SUBMIT (R17, R120, R201). -/
def execSubmit (d a : BitVec 6) (b : BitVec 5) (s : State) : Out :=
  let x := s.base a
  finish s (Issue.check (x.toNat % 64 == 0) 4 x (
    Issue.check (spaceOf x == 0xF0 && decide (x.toNat % 2 ^ 56 / 2 ^ 14 = 0)) 2 x (releaseWait s (
      let r := submit s (x.toNat / 64 % 256) (some s.myPart) s.me.sup ((s.getV b).setWidth 512)
      .ok (((r.1.setS d (BitVec.ofNat 64 r.2)).stepBase a).advance)))))

end Sys2Proof.Machine
end

