-- ==== Sys2Proof/Machine/Copy.lean ====
section
/-!
DEFINITION. Copy channels, major 0x20: shadow registers, the start checks of CPGO, chunks, completions, remote signals
(spec 11 R202 to R209, 01 R15, R16, R29, R30, 03 R72, R73).
-/

namespace Sys2Proof.Machine

/-! ### Shadow registers (R202, R203) -/

/-- A shadow register of a channel, by its index. -/
def Chan.sh (c : Chan) (i : Nat) : Word := Sparse.get 0 c.shadow i

/-- Writes a shadow register of the issuing core (R16). -/
def State.setShadow (s : State) (ch i : Nat) (v : Word) : State :=
  s.upd (fun c => c.setChan ch { c.chan ch with shadow := Sparse.set 0 (c.chan ch).shadow i v })

/-- A field of CFG (Table 11-2). -/
def Chan.cfg (c : Chan) (lo n : Nat) : Nat := (c.sh 18).toNat / 2 ^ lo % 2 ^ n

/-- Elements of one scale block (R57). -/
def blockSize (l : BitVec 32) : Nat := if liveryMode l = 1 then 32 else 16

/-- One side as the shadows give it, before its range is known; an extent of 0 acts as 1 (R203). -/
def rawSide (c : Chan) (dst : Bool) : Side :=
  { base := (c.sh (if dst then 1 else 0)).toNat,
    ext := (List.range 4).map (fun d => max (c.sh (2 + d)).toNat 1),
    str := (List.range 4).map (fun d => (c.sh ((if dst then 10 else 6) + d)).toInt),
    start := (List.range 4).map (fun d => (c.sh (14 + d)).toInt),
    livery := 0, lo := 0, hi := 0, region := none }

/-- The livery of the wagon in a slot of the issuing core; Raw where the slot is not ATTACHED. -/
def slotLivery (s : State) (n : Nat) : BitVec 32 := if (s.me.slot n).st = .attached then (s.myCluster.wagon (s.me.slot n).wagon).livery else 0

/-- The treatment of a pair of formats (Table 03-8); none is Error. LCB2 to LCB2 is the "same" column only under one scale mode
(DEDUCED, log 20). -/
def pairKind (a b : BitVec 32) : Option CopyKind :=
  let fa := a.toNat % 256
  let fb := b.toNat % 256
  if fa = 0 ∨ fb = 0 then some .bytes
  else if fa = fb ∧ liveryMode a = liveryMode b then some .bits
  else if fa = 12 ∨ fb = 12 then none
  else some .conv

/-! ### Start checks (R204) -/

/-- Bits of the storage group of a packed side (R203, R57). -/
def groupBits (l : BitVec 32) : Nat := if liveryBits l = 6 then 24 else if l.toNat % 256 = 12 then 16 else 8

/-- The exact range of bit offsets of a side's elements, none when a product or sum leaves the signed 64-bit range of bytes (R204). -/
def sideRange (d : Side) : Option (Int × Int) :=
  let inside := fun (x : Int) => decide (-(2 ^ 66 : Nat) ≤ x) && decide (x < (2 ^ 66 : Nat))
  (List.range 4).foldl (fun acc i => acc.bind (fun r =>
    let p0 := (d.start[i]?.getD 0) * strideBits d i
    let p1 := ((d.start[i]?.getD 0) + (d.ext[i]?.getD 1 : Nat) - 1) * strideBits d i
    let lo := r.1 + min p0 p1
    let hi := r.2 + max p0 p1
    if [p0, p1, lo, hi].all inside then some (lo, hi) else none)) (some (0, 0))

/-- The slots that a window range spans. -/
def spanned (lo hi : Nat) : List Nat := (List.range (hi / 2 ^ 18 % 32 - lo / 2 ^ 18 % 32 + 1)).map (· + lo / 2 ^ 18 % 32)

/-- The liveries that may be the format of a side (R203): Raw without CONV; for a memory side SFMT or DFMT; for a window side those of the
core's slots, beginning with the slot of its base. -/
def sideFormats (s : State) (c : Chan) (dst : Bool) (d : Side) : List (BitVec 32) :=
  if c.cfg 16 1 = 0 then [0]
  else if d.base / 2 ^ 56 = 0xE0 then (slotLivery s (d.base / 2 ^ 18 % 32) :: (List.range 32).map (slotLivery s)).eraseDups
  else [BitVec.ofNat 32 (if dst then c.cfg 8 8 else c.cfg 0 8)]

/-- Every slot that a window side's range spans carries a livery (R203). -/
def allCarry (s : State) (d : Side) (l : BitVec 32) : Bool :=
  decide (d.base / 2 ^ 56 ≠ 0xE0) ||
  (match sideRange d with
    | none => false
    | some (a, b) =>
      (spanned ((d.base : Int) + a / 8).toNat ((d.base : Int) + (b + liveryBits d.livery - 1) / 8).toNat).all (fun n => slotLivery s n == l))

/-- The formats of both sides (R203): the pair under which the slots that each side's range spans carry its format; when there is none, the
liveries of the slots of the bases, of which one differs from a slot spanned. -/
def pairFormats (s : State) (c : Chan) (a b : Side) : BitVec 32 × BitVec 32 :=
  let fa := sideFormats s c false a
  let fb := sideFormats s c true b
  let fits := fun (x y : BitVec 32) =>
    let raw := pairKind x y = some .bytes
    allCarry s { a with livery := if raw then 0 else x } x && allCarry s { b with livery := if raw then 0 else y } y
  ((fa.flatMap (fun x => fb.map (fun y => (x, y)))).find? (fun p => fits p.1 p.2)).getD (fa.headD 0, fb.headD 0)

/-- All sums of one term from each list. -/
def sumsOf : List (List Int) → List Int
  | [] => [0]
  | l :: ls => l.flatMap (fun a => (sumsOf ls).map (fun b => a + b))

/-- The bit offsets that dimension i adds; a dimension that does not move adds one. -/
def dimBits (d : Side) (i : Nat) : List Int :=
  let st := strideBits d i
  let a := d.start[i]?.getD 0
  if st = 0 then [0] else (List.range (d.ext[i]?.getD 1)).map (fun (j : Nat) => (a + (j : Int)) * st)

/-- The row starts of a window side as bit offsets from byte 0 of their wagons (R203). -/
def rowStarts (d : Side) : List Nat :=
  (sumsOf [dimBits d 1, dimBits d 2, dimBits d 3]).map (fun x => (((d.base : Int) * 8 + x + (d.start[0]?.getD 0) * liveryBits d.livery) % (2 ^ 21 : Nat)).toNat)

/-- Every row start falls on a storage group (R203). -/
def rowsOnGroups (d : Side) : Bool :=
  let g : Int := groupBits d.livery
  if d.base / 2 ^ 56 = 0xE0 then (rowStarts d).all (fun o => decide (o % groupBits d.livery = 0))
  else
    let o : Int := ([1, 2, 3].map (fun i => (d.start[i]?.getD 0) * strideBits d i)).foldl (· + ·) ((d.start[0]?.getD 0) * liveryBits d.livery)
    decide (o % g = 0) && [1, 2, 3].all (fun i => decide ((d.ext[i]?.getD 1) ≤ 1) || decide (strideBits d i % g = 0))

/-- A side lies in one slot. -/
def oneSlot (d : Side) : Bool := decide (d.lo / 2 ^ 18 = d.hi / 2 ^ 18)

/-- The end of the storage group of a row's last element, in bits from byte 0 of the wagon. -/
def rowEnd (d : Side) (o : Nat) : Nat :=
  let g := groupBits d.livery
  (o + (d.ext[0]?.getD 1) * liveryBits d.livery + g - 1) / g * g

/-- The packed-side rules of R203. -/
def packedOk (k : CopyKind) (d : Side) : Bool :=
  !sidePacked d ||
  ((d.str[0]?.getD 0) == 0 && rowsOnGroups d &&
    (liveryMode d.livery == 0 ||
      (d.base / 2 ^ 56 == 0xE0 && oneSlot d && (rowStarts d).all (fun o => decide (rowEnd d o ≤ liveryOff d.livery * 8)) &&
        (k != .bits || (rowStarts d).all (fun o =>
          decide (o / liveryBits d.livery * (if d.livery.toNat % 256 = 12 then 8 else 1) % blockSize d.livery = 0))))))

/-- No element, storage group or scale byte of a window side reaches beyond its wagon (R57). -/
def sideFits (d : Side) : Bool :=
  if d.base / 2 ^ 56 ≠ 0xE0 then true
  else if liveryMode d.livery ≠ 0 then !oneSlot d || decide (sideScale d d.hi / 2 ^ 18 = d.hi / 2 ^ 18)
  else if liveryBits d.livery = 6 then (rowStarts d).all (fun o => decide (o % 24 ≠ 0) || decide (rowEnd d o ≤ 2 ^ 21))
  else if liveryBits d.livery ≤ 8 ∨ oneSlot d then true
  else (sumsOf ((List.range 4).map (dimBits d))).all (fun x =>
    decide ((((d.base : Int) * 8 + x) % (2 ^ 21 : Nat)).toNat + liveryBits d.livery ≤ 2 ^ 21))

/-- The region of a side's lowest address, none when its walk fails (R204). -/
def lowRegion (s : State) (dst : Bool) (lo : Nat) : State × Option Nat :=
  match translate s (clusterOf s.cur) s.myPart s.me.sup (if dst then .store else .load) lo with
  | .ok (s1, x) => (s1, some x.region)
  | .error _ => (s, none)

/-- The checks of one side, codes 1 to 4 in order (R204): the state after the walk, and the code or the side with its range. -/
def checkSide (s : State) (dst : Bool) (d : Side) : Except (State × Nat) (State × Side) :=
  match sideRange d with
  | none => .error (s, 1)
  | some (a, b) =>
    let eb : Int := ((liveryBits d.livery + 7) / 8 : Nat)
    let lo := (d.base : Int) + a / 8
    let hi := (d.base : Int) + b / 8 + eb - 1
    if lo < 0 ∨ hi ≥ (2 ^ 64 : Nat) then .error (s, 1)
    else
      let l := lo.toNat
      let h := hi.toNat
      let sp := l / 2 ^ 56
      if sp ≠ h / 2 ^ 56 ∨ (sp ≠ 0 ∧ sp ≠ 0xE0) then .error (s, 2)
      else if sp = 0xE0 then
        if l % 2 ^ 56 / 2 ^ 23 ≠ 0 ∨ h % 2 ^ 56 / 2 ^ 23 ≠ 0 then .error (s, 2)
        else if (spanned l h).any (fun n => (s.me.slot n).st != .attached) then .error (s, 3)
        else
          let d1 := { d with lo := l, hi := h }
          if !sideFits d1 then .error (s, 3)
          else .ok (s, { d1 with hi := max h (if liveryMode d.livery = 0 then ((d.base : Int) + (b + liveryBits d.livery - 1) / 8).toNat else sideScale d h) })
      else
        let r := lowRegion s dst l
        if r.2 = some 1 ∧ dst then .error (r.1, 4)
        else .ok (r.1, { d with lo := l, hi := max h ((d.base : Int) + (b + liveryBits d.livery - 1) / 8).toNat, region := r.2, noLow := r.2.isNone })

/-- Every slot that a window side spans carries the side's format (R203). -/
def oneLivery (s : State) (d : Side) (l : BitVec 32) : Bool := d.lo / 2 ^ 56 != 0xE0 || (spanned d.lo d.hi).all (fun n => slotLivery s n == l)

/-- The core waits at a CPGO that has passed its checks (R204). -/
def Core.copyHeld (c : Core) : Bool := match c.sched.hold with | .cpgo _ _ _ => true | _ => false

/-- Copy transfer slots of a die that a partition uses, the one a stalled CPGO holds among them (R129, R204). -/
def State.copySlots (s : State) (die p : Nat) : Nat :=
  (s.cores.map (fun e => if clusterOf e.1 / 12 = die then
    (e.2.xfers.filter (fun x => x.active && x.part == p)).length + (if e.2.copyHeld ∧ e.2.part = p then 1 else 0) else 0)).sum

/-- What CPGO starts: the sides and the treatment. -/
structure CopyPlan where
  kind : CopyKind
  src  : Side
  dst  : Side
  deriving DecidableEq, Repr

/-- The checks of CPGO in the order of R204: the state after the walks (R23), and an error code or the plan. LCB2 needs feature 0 (R2, R275). -/
def cpgoCheck (s : State) (c : Chan) : Except (State × Nat) (State × CopyPlan) :=
  if c.cfg 21 11 ≠ 0 ∨ c.cfg 17 1 ≠ 0 ∨ c.cfg 18 2 > 1 ∨ c.cfg 0 8 > 12 ∨ c.cfg 8 8 > 12 ∨ ((c.cfg 0 8 = 12 ∨ c.cfg 8 8 = 12) ∧ !s.feature 0) then .error (s, 6)
  else if (rawSide c false).ext.any (fun n => decide (n > 2 ^ 32)) then .error (s, 7)
  else
    let ls := (pairFormats s c (rawSide c false) (rawSide c true)).1
    let ld := (pairFormats s c (rawSide c false) (rawSide c true)).2
    let kind := pairKind ls ld
    let raw := kind = some .bytes
    match checkSide s false { rawSide c false with livery := if raw then 0 else ls } with
    | .error e => .error e
    | .ok (s1, a) =>
      match checkSide s1 true { rawSide c true with livery := if raw then 0 else ld } with
      | .error e => .error e
      | .ok (s2, b) =>
        match kind with
        | none => .error (s2, 5)
        | some k =>
          if (c.cfg 16 1 = 1 ∧ !(oneLivery s a ls && oneLivery s b ld)) ∨ !packedOk k a ∨ !packedOk k b then .error (s2, 5)
          else if (b.ext.foldl (· * ·) 1 * liveryBits b.livery + 7) / 8 > 2 ^ 42 then .error (s2, 7)
          else if c.cfg 20 1 = 1 ∧ (b.lo / 2 ^ 56 ≠ 0 ∨ b.region = some 0) then .error (s2, 4)
          else if !poolRoom s 2 (s.copySlots (clusterOf s.cur / 12)) s.myPart 1 then .error (s2, 8)
          else .ok (s2, ⟨k, a, b⟩)

/-- The id of a transfer (Table 11-3). -/
def xferId (seq : BitVec 16) (ch : Nat) : Nat := seq.toNat / 64 * 256 + seq.toNat % 64 * 4 + ch

/-- The draws of a transfer: one for each element it rounds (R69). -/
def xferDraws (k : CopyKind) (srMode : Bool) (d : Side) : Nat := if k = .conv ∧ srMode then d.ext.foldl (· * ·) 1 else 0

/-- The flag address of a transfer with FLAG set (R203, R204). -/
def flagAddr (c : Chan) : Option Nat :=
  if c.cfg 20 1 = 1 then some (c.sh 1 + (BitVec.ofNat 32 (c.cfg 32 32)).signExtend 64 * 8).toNat else none

/-- Starts a transfer (R204, R205). -/
def startXfer (s : State) (ch : Nat) (p : CopyPlan) : State × Nat :=
  let c := s.me.chan ch
  let id := xferId c.seq ch
  let x : Xfer :=
    { id := id, uid := s.me.uid, part := s.myPart, acct := s.me.acct, sup := s.me.sup, kind := p.kind, src := p.src, dst := p.dst,
      rmode := s.me.csr.rmode, seed := s.me.csr.srseed, flag := flagAddr c, cls := c.cfg 18 2, pos := 0, chunks := 0, signalled := 0,
      wm := 0, st := .running, status := 0, faddr := 0, silent := false }
  let s1 := s.setSeed (srAdvance (xferDraws p.kind s.drawing p.dst) s.me.csr.srseed)
  (s1.upd (fun k => k.setChan ch { k.chan ch with seq := (k.chan ch).seq + 1, xfers := (k.chan ch).xfers ++ [x] }), id)

/-- A CPGO that has passed its checks starts its transfer, or waits with its plan while the channel is full or PEND of a slot is 255
(R204, R36). -/
def cpgoGo (s : State) (d : BitVec 6) (ch : Nat) (p : CopyPlan) : Issue State :=
  if ((s.me.chan ch).xfers.filter Xfer.active).length ≥ Config.channelXfers
    ∨ (sideSlots p.src ++ sideSlots p.dst).any (fun n => decide (s.pend s.cur n ≥ 255)) then .stay (s.setHold (.cpgo p.kind p.src p.dst))
  else
    let r := startXfer s ch p
    .ok (r.1.setS d (BitVec.ofNat 64 r.2))

/-- CPGO on a channel, and an LDD of its LAUNCH (R204, R16): the id goes to sD. The checks are made once, before it can wait. -/
def cpgoOp (s : State) (d : BitVec 6) (ch : Nat) : Issue State :=
  match s.hold with
  | .cpgo k a b => cpgoGo s d ch ⟨k, a, b⟩
  | _ =>
    match cpgoCheck s (s.me.chan ch) with
    | .error (t, e) => .ok (t.setS d (BitVec.ofNat 64 (2 ^ 31 + e)))
    | .ok (s1, p) => sampleRmode s (cpgoGo s1 d ch p)

/-! ### Instructions -/

/-- CPSET (R202). -/
def execCpset (a r : BitVec 6) (c : BitVec 2) (s : State) : Out := .next ((s.setShadow c.toNat r.toNat (s.getS a)).advance)
/-- CPGET (R202). -/
def execCpget (d r : BitVec 6) (c : BitVec 2) (s : State) : Out := .next ((s.setS d ((s.me.chan c.toNat).sh r.toNat)).advance)
/-- CPGO (R204). -/
def execCpgo (d : BitVec 6) (c : BitVec 2) (s : State) : Out := finish s ((cpgoOp s d c.toNat).bind (fun t => .ok t.advance))

/-- W of the oldest incomplete transfer of a channel into the window, 0 without one (R209). -/
def watermark (c : Chan) : Word :=
  match c.xfers.find? (fun x => x.active && decide (x.dst.lo / 2 ^ 56 = 0xE0)) with
  | some x => BitVec.ofNat 64 (xferWm x)
  | none => 0

/-- CPWM (R209). -/
def execCpwm (d : BitVec 6) (c : BitVec 2) (s : State) : Out := .next ((s.setS d (watermark (s.me.chan c.toNat))).advance)

/-- A transfer ends (R206). -/
def Xfer.stop (x : Xfer) (status : Nat) (a : Nat) : Xfer := { x with st := .ended, status := status, faddr := BitVec.ofNat 64 a }

/-- The transfers that CPABORT looks for (R209). -/
def abortable (c : Core) (id : Nat) (x : Xfer) : Bool := x.active && x.id == id && x.uid == c.uid

/-- CPABORT (R209). -/
def execCpabort (d a : BitVec 6) (s : State) : Out :=
  let id := (s.getS a).toNat % 2 ^ 32
  if s.me.xfers.any (abortable s.me id) then
    .next (((s.upd (fun c => { c with chans := c.chans.map (fun e =>
      (e.1, { e.2 with xfers := e.2.xfers.map (fun x => if abortable c id x then x.stop 3 0 else x) })) })).setS d 0).advance)
  else .next ((s.setS d 1).advance)

/-! ### Chunks (R205) -/

/-- The absolute bit address of the element at a position. -/
def sideAbs (d : Side) (p : Nat) : Nat := ((d.base : Int) * 8 + sideBit d (posIdx d.ext p)).toNat
/-- The index of the element in its wagon (R57). -/
def sideElem (d : Side) (p : Nat) : Nat := sideAbs d p % 2 ^ 21 / liveryBits d.livery
/-- The elements of a row. -/
def rowLen (d : Side) : Nat := d.ext[0]?.getD 1

/-- The transfer derives block scales (R73). -/
def Xfer.derives (x : Xfer) : Bool := x.kind == .conv && liveryMode x.dst.livery != 0

/-- The chunk of the element at a position; an element whose scale is derived goes with the first element of its block in its row (R205). -/
def chunkOf (x : Xfer) (p : Nat) : Nat :=
  let first := if x.derives then p - min (p % rowLen x.dst) (sideElem x.dst p % blockSize x.dst.livery) else p
  first * liveryBits x.dst.livery / 32768

/-- The positions of the chunk that the transfer is at. -/
def chunkPositions (x : Xfer) : List Nat :=
  ((List.range 8225).map (· + x.pos)).takeWhile (fun q => decide (q < xferTotal x) && chunkOf x q == chunkOf x x.pos)

/-- The draw of the element at a position: elements draw in ascending destination storage order (R68, R69). -/
def drawOf (x : Xfer) (p : Nat) : Nat :=
  let a := sideAbs x.dst p
  let rank := ((List.range (xferTotal x)).filter (fun q => decide (sideAbs x.dst q < a) || (sideAbs x.dst q == a && decide (q < p)))).length
  srDraw (srAdvance (rank + 1) x.seed)

/-- Where an engine's access to a byte lands: the location, the region (4 for a wagon of the core), the memory type, and whether a peer
serves it. -/
structure Landing where
  loc     : Nat
  region  : Nat
  mtype   : Nat
  answers : Bool
  deriving DecidableEq, Repr

/-- Finds the byte of an engine's access: the TCAUSE of its failure, or the state after the walk and the place (R24, R208). -/
def engineAt (s : State) (g part : Nat) (sup : Bool) (k : Access) (a : Nat) : Except Nat (State × Landing) :=
  if a / 2 ^ 56 = 0xE0 then .ok (s, ⟨locWagon (clusterOf g) ((s.core g).slot (a / 2 ^ 18 % 32)).wagon (a % 2 ^ 18), 4, 0, true⟩)
  else match translate s (clusterOf g) part sup k a with
    | .error c => .error c
    | .ok (s1, t) =>
      if t.region = 0 then (if s.owns part t.pa then .ok (s1, ⟨locHbm t.pa, 0, t.mtype, true⟩) else .error 15)
      else if t.region = 1 then (if k = .load then .ok (s1, ⟨locPool t.pa, 1, t.mtype, true⟩) else .error 2)
      else .ok (s1, ⟨t.far s part, t.region, t.mtype, t.answers s part 1⟩)

/-- A source byte waits for the core's accesses before the command: its stores to the byte, and in a page of MTYPE 2 its uncached
accesses (R90, R85 case 9). -/
def Landing.awaits (p : Landing) (c : Core) : Bool :=
  c.mem.wbuf.any (fun w => w.covers p.loc) || (p.mtype == 2 && (c.mem.wbuf.any (fun w => w.mtype == 2) || c.mem.late.any (fun w => w.mtype == 2)))

/-- Why an element of a chunk fails. -/
inductive ChunkEnd where
  /-- An earlier store of the core to a byte of the source is not performed yet (R90). -/
  | blocked
  /-- A pool source cannot be translated (R30). -/
  | pool (a : Nat)
  /-- The transfer ends with a status at an address, after the walks of this state; `record` when the router discarded the packet (R206,
  R278). -/
  | fail (s : State) (status a : Nat) (record : Bool)
  deriving DecidableEq, Repr

/-- A chunk in progress: the state, the transfer and the bytes it writes. -/
structure Chunk where
  s   : State
  x   : Xfer
  out : Sparse (Option Byte)
  deriving DecidableEq, Repr

/-- The walk of a side's lowest address failed at CPGO: the transfer fails at that element, and with FLAG at its first destination
element (R204). -/
def Xfer.noWalk (x : Xfer) (dst : Bool) (a : Nat) : Bool :=
  let side := if dst then x.dst else x.src
  side.noLow && (a == side.lo || (dst && x.flag.isSome))

/-- Finds a byte of one side and holds the side to the region of its first page (R206). -/
def chunkAt (g : Nat) (dst : Bool) (c : Chunk) (a : Nat) : Except ChunkEnd (Chunk × Landing) :=
  let side := if dst then c.x.dst else c.x.src
  if c.x.noWalk dst a then .error (.fail c.s 1 a false)
  else match engineAt c.s g c.x.part c.x.sup (if dst then .store else .load) a with
    | .error e => if !dst ∧ side.region = some 1 then .error (.pool a) else .error (.fail c.s 1 a (e == 15))
    | .ok (s1, p) =>
      if p.region = 4 then .ok ({ c with s := s1 }, p)
      else if side.region.isSome ∧ side.region ≠ some p.region then .error (.fail s1 6 a false)
      else if !p.answers then .error (.fail s1 5 a false)
      else
        let x := if dst then { c.x with dst := { side with region := some p.region } } else { c.x with src := { side with region := some p.region } }
        .ok ({ c with s := s1, x := x }, p)

/-- Reads bytes of the source from an address on, little-endian. -/
def chunkRead (g : Nat) (c : Chunk) : List Nat → Except ChunkEnd (Chunk × Nat)
  | [] => .ok (c, 0)
  | a :: l =>
    match chunkAt g false c a with
    | .error e => .error e
    | .ok (c1, p) =>
      if p.awaits (c.s.core g) then .error .blocked
      else if c1.s.hasBad p.loc 1 then .error (.fail c1.s 2 a false)
      else match chunkRead g c1 l with
        | .error e => .error e
        | .ok (c2, v) => .ok (c2, (c.s.byte p.loc).toNat + 256 * v)

/-- Writes bytes of the destination. -/
def chunkWrite (g : Nat) (c : Chunk) : List (Nat × Nat) → Except ChunkEnd Chunk
  | [] => .ok c
  | (a, v) :: l =>
    match chunkAt g true c a with
    | .error e => .error e
    | .ok (c1, p) =>
      match chunkWrite g c1 l with
      | .error e => .error e
      | .ok c2 => .ok { c2 with out := Sparse.set none c2.out p.loc (some (BitVec.ofNat 8 v)) }

/-- The byte addresses of the n bits at a bit address. -/
def bitBytes (abit n : Nat) : List Nat := (List.range ((abit % 8 + n + 7) / 8)).map (· + abit / 8)

/-- An element read: its bits and its scale byte (0 when unscaled). -/
def readElem (g : Nat) (c : Chunk) (p : Nat) : Except ChunkEnd (Chunk × Nat × Nat) :=
  let d := c.x.src
  let b := liveryBits d.livery
  let a := sideAbs d p
  match chunkRead g c (bitBytes a b) with
  | .error e => .error e
  | .ok (c1, v) =>
    let bits := v / 2 ^ (a % 8) % 2 ^ b
    if liveryMode d.livery = 0 then .ok (c1, bits, 0)
    else match chunkRead g c1 [sideScale d (a / 8)] with
      | .error e => .error e
      | .ok (c2, sc) => .ok (c2, bits, sc)

/-- A chunk at its end, with what the walk of the access that fails leaves (R23). -/
def Chunk.after (c : Chunk) : ChunkEnd → Chunk
  | .fail t _ _ _ => { c with s := t }
  | _ => c

/-- Reads the elements of a chunk, up to the first that fails (R205, R206). -/
def readAll (g : Nat) (c : Chunk) : List Nat → Chunk × List (Nat × Nat × Nat) × Option ChunkEnd
  | [] => (c, [], none)
  | p :: l =>
    match readElem g c p with
    | .error e => (c.after e, [], some e)
    | .ok (c1, bits, sc) =>
      let r := readAll g c1 l
      (r.1, (p, bits, sc) :: r.2.1, r.2.2)

/-- The decoded source value of an element read (R62, R72). -/
def srcVal (x : Xfer) (e : Nat × Nat × Nat) : Val :=
  match fmtOfLivery (x.src.livery.toNat % 256) with
  | some f => scaledVal (liveryMode x.src.livery) (decodeVal f e.2.1) e.2.2
  | none => .nan false

/-- The bits and the scale byte that an element read gives its destination (R72, R73). -/
def dstElem (x : Xfer) (all : List (Nat × Nat × Nat)) (srOn : Bool) (e : Nat × Nat × Nat) : Nat × Nat :=
  match x.kind, fmtOfLivery (x.dst.livery.toNat % 256) with
  | .conv, some f =>
    let rm := modeOf srOn x.rmode
    let draw := if rm = .sr then drawOf x e.1 else 0
    let mode := liveryMode x.dst.livery
    if mode = 0 then ((roundVal f rm (satOf x.rmode) draw (srcVal x e)).1, 0)
    else
      let b := blockSize x.dst.livery
      let mine := all.filter (fun y => decide (y.1 / rowLen x.dst = e.1 / rowLen x.dst) && decide (sideElem x.dst y.1 / b = sideElem x.dst e.1 / b))
      let sc := deriveScale mode f (mine.map (srcVal x))
      (encodeScaled f mode rm (satOf x.rmode) draw (srcVal x e) sc, sc)
  | _, _ => (e.2.1, e.2.2)

/-- Writes one element, keeping the other bits of its bytes, and its scale byte. -/
def writeElem (g : Nat) (c : Chunk) (p : Nat) (v : Nat × Nat) : Except ChunkEnd Chunk :=
  let d := c.x.dst
  let b := liveryBits d.livery
  let a := sideAbs d p
  let as := bitBytes a b
  let old := fun (y : Nat) => match engineAt c.s g c.x.part c.x.sup .store y with | .ok (_, q) => ((Sparse.get none c.out q.loc).getD (c.s.byte q.loc)).toNat | .error _ => 0
  let kept := if b % 8 = 0 then 0 else as.zipIdx.foldl (fun n y => n + old y.1 * 256 ^ y.2) 0
  let w := kept - kept / 2 ^ (a % 8) % 2 ^ b * 2 ^ (a % 8) + v.1 % 2 ^ b * 2 ^ (a % 8)
  let data := as.zipIdx.map (fun y => (y.1, w / 256 ^ y.2 % 256))
  chunkWrite g c (data ++ (if liveryMode d.livery = 0 then [] else [(sideScale d (a / 8), v.2)]))

/-- Writes the elements of a chunk, up to the first that fails. -/
def writeAll (g : Nat) (c : Chunk) : List (Nat × Nat × Nat) → Chunk × Option ChunkEnd
  | [] => (c, none)
  | e :: l =>
    match writeElem g c e.1 e.2 with
    | .error x => (c.after x, some x)
    | .ok c1 => writeAll g c1 l

/-- Performs the writes of a chunk (R264, R282). -/
def commitChunk (g : Nat) (c : Chunk) : State := c.s.writeGroup c.x.part g (c.out.filterMap (fun e => e.2.map (fun b => (e.1, b))))

/-- The budget requests of the next n elements of a transfer (R128): bytes moved, those to and from HBM, those that the fabric carries to
and from HBM and peers, those that the host link carries from the pool. The source counts at its own width. -/
def chunkAsks (g ch : Nat) (x : Xfer) (n : Nat) : List Ask :=
  let bytes := fun (d : Side) => (n * liveryBits d.livery + 7) / 8
  let at_ := fun (r : Nat) => (if x.src.region = some r then bytes x.src else 0) + (if x.dst.region = some r then bytes x.dst else 0)
  [(1, bytes x.dst), (0, at_ 0), (2, at_ 0 + at_ 2 + at_ 3), (3, at_ 1)].map (fun k => askOf (.chunk g ch x.id) g x.part x.acct k.1 k.2)

/-- Replaces the transfer that a channel is at. -/
def State.setXfer (s : State) (g ch : Nat) (x : Xfer) : State :=
  s.updCore g (fun c => c.setChan ch { c.chan ch with xfers := (c.chan ch).xfers.map (fun y => if y.id == x.id && y.uid == x.uid && y.active then x else y) })

/-- How a chunk ends (R206, R30). -/
def endChunk (s : State) (g ch : Nat) (x : Xfer) (n : Nat) (e : Option ChunkEnd) : State :=
  match e with
  | none =>
    let x1 := { x with pos := x.pos + n, chunks := x.chunks + 1 }
    s.setXfer g ch (if x1.pos ≥ xferTotal x1 then x1.stop 0 0 else x1)
  | some (.fail _ st a r) =>
    (if r then s.fqPush (frecWord 8 x.part g 0 0) a else s).setXfer g ch (x.stop st a)
  | some _ => s

/-- A chunk of the oldest active transfer of a channel (R205): all its reads, then all its writes. -/
def runChunk (s : State) (g ch : Nat) (x : Xfer) : State :=
  let ps := chunkPositions x
  match s.chargeList (chunkAsks g ch x ps.length) with
  | none => s.enlist (chunkAsks g ch x ps.length)
  | some s1 =>
    let r := readAll g ⟨s1, x, []⟩ ps
    match r.2.2 with
    | some .blocked => s
    | some (.pool a) =>
      (s.fqPush (frecWord 1 x.part g ch x.id) a).setXfer g ch { x with st := .stopped }
    | e =>
      let w := writeAll g r.1 (r.2.1.map (fun y => (y.1, dstElem r.1.x r.2.1 (s.feature 5) y)))
      endChunk (commitChunk g w.1) g ch w.1.x ps.length (w.2 <|> e)

/-- COPY_CHUNK (R205). -/
def execCopyChunk (core ch : Nat) (s : State) : Out :=
  match ((s.core core).chan ch).xfers.find? Xfer.active with
  | none => .next s
  | some x => if x.st = .stopped then .next s else .next (runChunk s core ch x)

/-! ### Completions and remote signals (R206, R207) -/

/-- The completion message of a transfer (Table 11-5). -/
def copyMessage (x : Xfer) : Msg :=
  ⟨BitVec.ofNat 64 (x.chunks % 2 ^ 30 * 2 ^ 34 + x.id % 2 ^ 18 * 2 ^ 16 + x.status % 256 * 2 ^ 8 + 2), if x.status ∈ [1, 2, 5, 6] then x.faddr else 0⟩

/-- A transfer has ended, and its flag stands at its last chunk (R206, R207). -/
def Xfer.complete (x : Xfer) : Bool := !x.active && (x.flag.isNone || decide (x.signalled ≥ x.chunks))

/-- COPY_COMPLETION (R206, R208): the oldest transfer of the channel that is complete; a dead core's transfer posts nothing. -/
def execCopyCompletion (core ch : Nat) (s : State) : Out :=
  match ((s.core core).chan ch).xfers.find? Xfer.complete with
  | none => .next s
  | some x =>
    .next (s.updCore core (fun c =>
      let c1 := c.setChan ch { c.chan ch with xfers := (c.chan ch).xfers.erase x }
      if x.silent ∨ c.uid ≠ x.uid then c1 else c1.post (s.credits core) (copyMessage x)))

/-- Writes the chunk count at the flag of a transfer; a flag address that fails ends it with STATUS 5 (R207). -/
def signalFlag (s : State) (g : Nat) (x : Xfer) (a : Nat) : State × Xfer :=
  let bad := fun (t : State) => (t, { (if x.active then x.stop 5 a else { x with status := 5, faddr := BitVec.ofNat 64 a }) with signalled := x.chunks })
  match engineAt s g x.part x.sup .store a with
  | .error _ => bad s
  | .ok (s1, p) =>
    if (p.region = 2 ∨ p.region = 3) ∧ p.answers then
      (s1.writeGroup x.part g (State.maskedBytes p.loc 8 (BitVec.ofNat 64 x.chunks) 0xFF), { x with signalled := x.chunks })
    else bad s1

/-- REMOTE_SIGNAL (R207): the flag takes the number of chunks performed, once that has risen. -/
def execRemoteSignal (core ch : Nat) (s : State) : Out :=
  match ((s.core core).chan ch).xfers.find? (fun x => x.flag.isSome && decide (x.signalled < x.chunks)) with
  | none => .next s
  | some x =>
    match x.flag with
    | none => .next s
    | some a =>
      let r := signalFlag s core x a
      .next (r.1.updCore core (fun c => c.setChan ch { c.chan ch with xfers := (c.chan ch).xfers.map (fun y => if y = x then r.2 else y) }))

end Sys2Proof.Machine
end

