-- ==== Sys2Proof/Machine/LoadStore.lean ====
section
/-!
DEFINITION. Scalar loads and stores, majors 0x0C and 0x0D (spec 08 R159 to R161, 01 R13, R15, R16, R19, R20).
-/

namespace Sys2Proof.Machine

/-- The address of a load or store with an unsigned displacement in units of the width (R159, R160). -/
def dispAddr (s : State) (a : BitVec 6) (i : BitVec n) (w : Nat) : Word := s.base a + i.setWidth 64 * BitVec.ofNat 64 w

/-- A load: the access, the walker's step, the next instruction (R157, R161). -/
def loadOp (s : State) (d a : BitVec 6) (i : BitVec 11) (w : Nat) (sgn : Bool) : Issue State :=
  (loadScalar s d (dispAddr s a i w) w sgn).bind (fun t => .ok ((t.stepBase a).advance))

/-- LDB (R159). -/
def execLdb (d a : BitVec 6) (i : BitVec 11) (s : State) : Out := finish s (loadOp s d a i 1 true)
/-- LDBU (R159). -/
def execLdbu (d a : BitVec 6) (i : BitVec 11) (s : State) : Out := finish s (loadOp s d a i 1 false)
/-- LDH (R159). -/
def execLdh (d a : BitVec 6) (i : BitVec 11) (s : State) : Out := finish s (loadOp s d a i 2 true)
/-- LDHU (R159). -/
def execLdhu (d a : BitVec 6) (i : BitVec 11) (s : State) : Out := finish s (loadOp s d a i 2 false)
/-- LDW (R159). -/
def execLdw (d a : BitVec 6) (i : BitVec 11) (s : State) : Out := finish s (loadOp s d a i 4 true)
/-- LDWU (R159). -/
def execLdwu (d a : BitVec 6) (i : BitVec 11) (s : State) : Out := finish s (loadOp s d a i 4 false)

/-- The event line of an address in space 0xE8, none when it names none (R7, R13). -/
def lineOf (x : Word) : Option Nat :=
  let o := x.toNat % 2 ^ 56
  let l := o / 64
  if o % 64 = 0 ∧ (l < 48 ∨ (64 ≤ l ∧ l < 128)) then some l else none

/-- The channel and register of an address in space 0xEC, none beyond the registers (R15, Table 01-2); register 19 is LAUNCH. -/
def shadowOf (x : Word) : Option (Nat × Nat) :=
  let o := x.toNat % 2 ^ 56
  if o < 1024 ∧ o % 8 = 0 ∧ o % 256 ≤ 0x98 then some (o / 256, o % 256 / 8) else none

/-- LDD at an address: memory, an event line, or a register of a copy channel (R161, R13, R15). -/
def lddAt (s : State) (d : BitVec 6) (x : Word) : Issue State :=
  if spaceOf x = 0xE8 then
    Issue.check (x.toNat % 8 == 0) 4 x (match lineOf x with
      | some l => lineLoad s d l
      | none => .trap 2 x)
  else if spaceOf x = 0xEC then
    Issue.check (x.toNat % 8 == 0) 4 x (match shadowOf x with
      | some (ch, r) => if r = 19 then cpgoOp s d ch else .ok (s.setS d ((s.me.chan ch).sh r))
      | none => .trap 2 x)
  else loadScalar s d x 8 false

/-- LDD (R159). -/
def execLdd (d a : BitVec 6) (i : BitVec 11) (s : State) : Out :=
  finish s ((lddAt s d (dispAddr s a i 8)).bind (fun t => .ok ((t.stepBase a).advance)))

/-- Records a read beyond the bound of a window (R20). -/
def State.oob (s : State) (i : Nat) : State :=
  s.upd (fun c => c.updCsr (fun x => { x with pwstat := x.pwstat ||| BitVec.ofNat 64 (1 + 2 ^ (8 + i)) }))

/-- A parameter window of the issuing core (R18). -/
def State.window (s : State) (i : Nat) : Window := Sparse.get {} s.me.wins i

/-- LDP (R19, R159): the bytes in bounds are one aligned global load, those beyond read zero. -/
def ldpAt (s : State) (d : BitVec 6) (i : Nat) (o : Word) (w : Nat) (sgn : Bool) : Issue State :=
  let win := s.window i
  let n := min w (win.size.toNat - o.toNat)
  let mark := fun (t : State) => if o.toNat + w > win.size.toNat then t.oob i else t
  Issue.check (o.toNat % w == 0) 4 o (
    Issue.check win.bound 7 (BitVec.ofNat 64 i) (
      if n = 0 then .ok (mark (s.setS d 0))
      else match locate s s.cur s.me.sup .load (win.base + o) with
        | .error c => .trap c (win.base + o)
        | .ok (s1, p) => (loadAt s1 d (win.base + o) p n (sgn && n == w) s.late).bind (fun t => .ok (mark t))))

/-- LDP (R159). -/
def execLdp (d a : BitVec 6) (w : BitVec 3) (sz : BitVec 2) (u : BitVec 1) (i : BitVec 5) (s : State) : Out :=
  finish s ((ldpAt s d w.toNat (dispAddr s a i (2 ^ sz.toNat)) (2 ^ sz.toNat) (u == 0)).bind (fun t => .ok ((t.stepBase a).advance)))

/-- A store: the access, the walker's step, the next instruction (R157, R161). -/
def storeOp (s : State) (d a : BitVec 6) (i : BitVec 12) (w : Nat) : Issue State :=
  (storeScalar s (s.getS d) (dispAddr s a i w) w false).bind (fun t => .ok ((t.stepBase a).advance))

/-- STB (R160). -/
def execStb (d a : BitVec 6) (i : BitVec 12) (s : State) : Out := finish s (storeOp s d a i 1)
/-- STH (R160). -/
def execSth (d a : BitVec 6) (i : BitVec 12) (s : State) : Out := finish s (storeOp s d a i 2)
/-- STW (R160). -/
def execStw (d a : BitVec 6) (i : BitVec 12) (s : State) : Out := finish s (storeOp s d a i 4)

/-- STD at an address: memory or a shadow register of a copy channel (R161, R15). -/
def stdAt (s : State) (v x : Word) : Issue State :=
  if spaceOf x = 0xEC then
    Issue.check (x.toNat % 8 == 0) 4 x (match shadowOf x with
      | some (ch, r) => if r = 19 then .trap 2 x else .ok (s.setShadow ch r v)
      | none => .trap 2 x)
  else storeScalar s v x 8 false

/-- STD (R160). -/
def execStd (d a : BitVec 6) (i : BitVec 12) (s : State) : Out :=
  finish s ((stdAt s (s.getS d) (dispAddr s a i 8)).bind (fun t => .ok ((t.stepBase a).advance)))

end Sys2Proof.Machine
end

