-- ==== Sys2Proof/Machine/Atomics.lean ====
section
/-!
DEFINITION. Atomics, fences and ordered accesses, majors 0x0E and 0x0F (spec 08 R162, R163, 04 R82 to R87, 05 R96 to R98, R104).
-/

namespace Sys2Proof.Machine

/-- Every earlier store of a core has been performed or reported (R265). -/
def Core.storesDone (c : Core) : Bool := c.mem.wbuf.isEmpty && c.sched.pfWay.isEmpty

/-- An order field asks for an acquire (Table 04-3). -/
def ordAcq (o : BitVec 2) : Bool := o.getLsbD 0
/-- An order field asks for a release (Table 04-3). -/
def ordRel (o : BitVec 2) : Bool := o.getLsbD 1

/-- The release half of an atomic waits for the core's earlier stores (R85 case 6, R265). -/
def releaseHalf (o : BitVec 2) (s : State) (k : Issue State) : Issue State :=
  if ordRel o ∧ !s.me.storesDone then .wait else k

/-- An acquire of a scope drops the read cache from cluster scope on (R96). -/
def acquireDrop (acq : Bool) (sc : BitVec 3) (s : State) : State := if acq ∧ sc.toNat ≥ 1 then s.acquired else s

/-- An atomic after its checks (R161, R162, R104): it stalls as a store does, waits for the core's earlier reads, for its stores to these
bytes, and for its uncached accesses when it is one; `k` gets the old value. Where an error is met, an atomic that writes the whole granule
(`rmw`) is performed and repairs it, the old value a free value (R264; log 11). -/
def atomicAt (s : State) (a : Word) (o : BitVec 2) (w : Nat) (rmw : Bool) (k : State → Place → Word → Issue State) : Issue State :=
  (scalarPlace s .atomic a w).bind (fun x =>
    storeLocks x.1 a x.2 w (
      if ordAcq o ∧ (s.me.mem.wbuf.any (fun e => e.rel) || s.me.giving) then .stay x.1
      else if !s.me.mem.late.isEmpty || s.me.mem.wbuf.any (fun e => overlap e.loc e.n x.2.loc w || (x.2.mtype == 2 && e.mtype == 2)) then .stay x.1
      else if x.1.hasBad x.2.loc w then
        (if rmw && decide (granuleSize x.2.loc = w) then k { x.1 with free := x.1.free + 1 } x.2 (Config.freeValue x.1.free) else .trapAt x.1 11 a)
      else served x.1 (hbmAsks x.1 x.1.atIssue s.cur x.2.loc w) (fun s1 => k s1 x.2 (BitVec.ofNat 64 (s1.bytes x.2.loc w)))))

/-- A read that is performed at memory: the core's own lines of its bytes are dropped, and what it gives carries the present stamp
(R79, R83, R84). -/
def atomicRead (s : State) (p : Place) (w : Nat) : State :=
  s.upd (fun c => { c with mem := { c.mem with rcache := dropLines c.mem.rcache p.loc w, now := c.mem.tick } })

/-- Performs the write of an atomic, after its read (R83, R104). -/
def atomicWrite (s : State) (p : Place) (w : Nat) (v : Word) : State :=
  atomicRead (s.writeUnit s.myPart s.cur p.loc w v 0xFF (decide (w = granuleSize p.loc))) p w

/-- Ends an atomic: the acquire's cache effect, sD, the walker, the next instruction. -/
def atomicEnd (s : State) (d a : BitVec 6) (o : BitVec 2) (sc : BitVec 3) (old : Word) : State :=
  (((acquireDrop (ordAcq o) sc s).setS d old).stepBase a).advance

/-- An atomic of 8 bytes other than ACAS (R162). -/
def atomicOp (f : Word → Word → Word) (d a : BitVec 6) (b : BitVec 5) (o : BitVec 2) (sc : BitVec 3) (s : State) : Issue State :=
  atomicAt s (s.base a) o 8 true (fun s1 p m =>
    releaseHalf o s (.ok (atomicEnd (atomicWrite s1 p 8 (f m (s.getS b))) d a o sc m)))

/-- AADD (R162). -/
def execAadd (d a : BitVec 6) (b : BitVec 5) (o : BitVec 2) (sc : BitVec 3) (s : State) : Out := finish s (atomicOp (fun m x => m + x) d a b o sc s)
/-- AAND (R162). -/
def execAand (d a : BitVec 6) (b : BitVec 5) (o : BitVec 2) (sc : BitVec 3) (s : State) : Out := finish s (atomicOp (fun m x => m &&& x) d a b o sc s)
/-- AOR (R162). -/
def execAor (d a : BitVec 6) (b : BitVec 5) (o : BitVec 2) (sc : BitVec 3) (s : State) : Out := finish s (atomicOp (fun m x => m ||| x) d a b o sc s)
/-- AXOR (R162). -/
def execAxor (d a : BitVec 6) (b : BitVec 5) (o : BitVec 2) (sc : BitVec 3) (s : State) : Out := finish s (atomicOp (fun m x => m ^^^ x) d a b o sc s)
/-- AMIN (R162). -/
def execAmin (d a : BitVec 6) (b : BitVec 5) (o : BitVec 2) (sc : BitVec 3) (s : State) : Out :=
  finish s (atomicOp (fun m x => if x.slt m then x else m) d a b o sc s)
/-- AMAX (R162). -/
def execAmax (d a : BitVec 6) (b : BitVec 5) (o : BitVec 2) (sc : BitVec 3) (s : State) : Out :=
  finish s (atomicOp (fun m x => if m.slt x then x else m) d a b o sc s)
/-- AMINU (R162). -/
def execAminu (d a : BitVec 6) (b : BitVec 5) (o : BitVec 2) (sc : BitVec 3) (s : State) : Out :=
  finish s (atomicOp (fun m x => if x.ult m then x else m) d a b o sc s)
/-- AMAXU (R162). -/
def execAmaxu (d a : BitVec 6) (b : BitVec 5) (o : BitVec 2) (sc : BitVec 3) (s : State) : Out :=
  finish s (atomicOp (fun m x => if m.ult x then x else m) d a b o sc s)
/-- ASWP (R162). -/
def execAswp (d a : BitVec 6) (b : BitVec 5) (o : BitVec 2) (sc : BitVec 3) (s : State) : Out := finish s (atomicOp (fun _ x => x) d a b o sc s)

/-- ACAS (R162, R82): one that fails is a load with the acquire half alone. -/
def acasOp (d a : BitVec 6) (b : BitVec 5) (o : BitVec 2) (sc : BitVec 3) (s : State) : Issue State :=
  atomicAt s (s.base a) o 8 false (fun s1 p m =>
    if m = s.getS d then releaseHalf o s (.ok (atomicEnd (atomicWrite s1 p 8 (s.getS b)) d a o sc m))
    else .ok (atomicEnd (atomicRead s1 p 8) d a o sc m))

/-- ACAS (R162). -/
def execAcas (d a : BitVec 6) (b : BitVec 5) (o : BitVec 2) (sc : BitVec 3) (s : State) : Out := finish s (acasOp d a b o sc s)

/-- The sum of AFADD with its flags: one draw under SR (R162, R68). -/
def faddF32 (s : State) (m x : Word) : Nat × Nat :=
  let v := addVal s.mode (decodeVal .f32 (m.toNat % 2 ^ 32)) (decodeVal .f32 (x.toNat % 2 ^ 32))
  let r := roundVal .f32 s.mode s.sat (srDraw (srNext s.me.csr.srseed)) v.1
  (r.1, v.2 ||| r.2)

/-- AFADD (R162): an enabled flag traps with no write. -/
def afaddOp (d a : BitVec 6) (b : BitVec 5) (o : BitVec 2) (sc : BitVec 3) (s : State) : Issue State :=
  sampleRmode s (atomicAt s (s.base a) o 4 false (fun s1 p m =>
    releaseHalf o s (
      let r := faddF32 s m (s.getS b)
      raising s1 r.2 (fun s2 =>
        let s3 := if s.drawing then s2.setSeed (srNext s.me.csr.srseed) else s2
        .ok (atomicEnd (atomicWrite s3 p 4 (BitVec.ofNat 64 r.1)) d a o sc m)))))

/-- AFADD (R162). -/
def execAfadd (d a : BitVec 6) (b : BitVec 5) (o : BitVec 2) (sc : BitVec 3) (s : State) : Out := finish s (afaddOp d a b o sc s)

/-! ### Fences and ordered accesses (R163) -/

/-- An engine command of core g has source reads to make (R85, R90). -/
def State.sourcing (s : State) (g : Nat) : Bool :=
  (s.core g).xfers.any Xfer.active || (s.drayCmds g).any (fun c => !c.op.sources.isEmpty) || !(s.coachCmds g).isEmpty

/-- FENCE (R85 case 8, R96, R97, R265): stores in P wait to be performed or reported, hand-overs and drops among them; loads in P wait
before accesses in Q, and so do the source reads of earlier engine commands. -/
def execFence (p q : BitVec 2) (sc : BitVec 3) (s : State) : Out :=
  finish s (
    if p.getLsbD 1 ∧ (!s.me.storesDone || s.me.giving) then .wait
    else if p.getLsbD 0 ∧ q.getLsbD 0 ∧ !s.me.mem.late.isEmpty then .wait
    else if p.getLsbD 0 ∧ q ≠ 0 ∧ s.sourcing s.cur then .wait
    else .ok ((acquireDrop (q.getLsbD 0) sc s).advance))

/-- Memory as a load of the core would read it now (R87): memory with the core's own buffered stores over it. -/
def State.ownView (s : State) (c : Core) : List Host.Cell :=
  c.mem.wbuf.foldl (fun m w => Sparse.setMany 0 m (State.maskedBytes w.loc w.n w.val w.mask)) s.mem

/-- IFENCE (R87): later fetches see what a load here would see. -/
def execIfence (s : State) : Out := .next ((s.upd (fun c => { c with mem := { c.mem with imem := s.ownView c } })).advance)

/-- What an acquire load of a scope may read from (R96, R102): at core scope a line of the read cache that was filled after the last read of
TIME or CYCLE, at a wider scope memory alone. -/
def acquireView (s : State) (p : Place) (w : Nat) (sc : BitVec 3) : State :=
  if sc = 0 then s.upd (fun c => { c with mem := { c.mem with now := max c.mem.now c.mem.timed } })
  else s.upd (fun c => { c with mem := { c.mem with rcache := dropLines c.mem.rcache p.loc w } })

/-- An acquire load (R163, R85 cases 5 and 7, R96): never performed later. -/
def loadAcquire (s : State) (d a : BitVec 6) (w : Nat) (sgn : Bool) (sc : BitVec 3) : Issue State :=
  (scalarPlace s .load (s.base a) w).bind (fun x =>
    acquireWait s (
      (loadAt (acquireView x.1 x.2 w sc) d (s.base a) x.2 w sgn false).bind (fun t => .ok (((acquireDrop true sc t).stepBase a).advance))))

/-- LD.ACQ (R163). -/
def execLdAcq (d a : BitVec 6) (u : BitVec 1) (w : BitVec 2) (sc : BitVec 3) (s : State) : Out :=
  finish s (loadAcquire s d a (2 ^ w.toNat) (u == 0) sc)

/-- A release store (R163, R85 case 6): after the core's earlier stores. -/
def storeRelease (s : State) (d a : BitVec 6) (w : Nat) : Issue State :=
  if !s.me.storesDone then .wait
  else (storeScalar s (s.getS d) (s.base a) w true).bind (fun t => .ok ((t.stepBase a).advance))

/-- ST.REL (R163). -/
def execStRel (d a : BitVec 6) (w : BitVec 2) (_sc : BitVec 3) (s : State) : Out := finish s (storeRelease s d a (2 ^ w.toNat))

end Sys2Proof.Machine
end

