-- ==== Sys2Proof/Machine/Csr.lean ====
section
/-!
DEFINITION. Control and status registers, major 0x30 (spec 07 R139 to R142, 08 R164, 12 R231, 10 R197, 14 R246).
-/

namespace Sys2Proof.Machine

/-- CONFIG (Table 07-5). The field W has four bits, and an exponent of 16 reads as 0 in it (DESIGN CHOICE, log 62: R102 has w up to 16
reported there). -/
def State.config (s : State) : Word :=
  BitVec.ofNat 64 (Config.hbmUnits * 2 ^ 32 + s.w % 16 * 2 ^ 28 + Config.wagons * 2 ^ 20 + Config.clusters * 2 ^ 12 + Config.coresPerCluster * 16 + 4)

/-- CARAVAN (Table 06-2): without a caravan its reset value, SIZE 1. -/
def State.caravanWord (s : State) : Word :=
  match s.myCar with
  | some c => BitVec.ofNat 64 (c.num % 2 ^ 24 * 2 ^ 16 + s.myRank % 256 * 2 ^ 8 + c.size % 32)
  | none => 1

/-- SCSTAT (Table 12-9). -/
def State.scstat (s : State) : Word :=
  let c := s.me.sc
  BitVec.ofNat 64 (c.lseq % 2 ^ 16 * 2 ^ 32 + c.lfunc % 32 * 2 ^ 16 + c.lstat % 256 * 2 ^ 8 + (s.coachCmds s.cur).length % 16)

/-- The CSRs that a core stores (Table 07-4), by index. -/
def csrStored (c : Csrs) (i : Nat) : Option Word :=
  match i with
  | 0x000 => some c.rmode
  | 0x001 => some c.fflags
  | 0x002 => some c.srseed
  | 0x003 => some c.dzt
  | 0x010 => some c.tvec
  | 0x011 => some c.tcause
  | 0x012 => some c.tepc
  | 0x013 => some c.tval
  | 0x014 => some c.tword
  | 0x015 => some c.tstat
  | 0x016 => some c.tscr
  | 0x030 => some c.pwstat
  | 0x031 => some c.xstat
  | 0x033 => some c.bwstat
  | _ => none

/-- The CSRs that show another part of the device (Table 07-4), by index. -/
def csrMade (s : State) (i : Nat) : Option Word :=
  match i with
  | 0x020 => some s.vcc
  | 0x021 => some s.caravanWord
  | 0x032 => some s.scstat
  | 0x040 => some (BitVec.ofNat 64 (s.cur % 1024 + s.myLogical % 1024 * 2 ^ 16))
  | 0x041 => some (BitVec.ofNat 64 (s.myPart % 64))
  | 0x042 => some s.config
  | 0x043 => some (s.host.bar0.featAcc0 &&& Config.featOff0)
  | 0x044 => some 0
  | 0x050 => some (BitVec.ofNat 64 s.me.mail.inbox.length)
  | 0x060 => some s.cycle
  | 0x061 => some s.time
  | 0x080 => some (BitVec.ofNat 64 (s.myPart % 64 * 2 ^ 8 + (if s.strict then 1 else 0)))
  | _ => none

/-- The value of a CSR, none when the index is not listed (R139, Table 07-4). -/
def csrRead (s : State) (i : Nat) : Option Word :=
  match csrStored s.me.csr i with
  | some v => some v
  | none => csrMade s i

/-- The CSRs that are read-only at the issuing privilege (Table 07-4). -/
def csrReadOnly (sup : Bool) (i : Nat) : Bool :=
  [0x020, 0x021, 0x032, 0x040, 0x041, 0x042, 0x043, 0x044, 0x050, 0x060, 0x061].contains i || (i == 0x080 && !sup)

/-- A supervisor write of MODE: it sets the mode of the writer's own partition, and strict mode only with feature 4 (R142, R275). -/
def writeMode (s : State) (v : Word) : State :=
  if v.toNat / 2 ^ 8 % 64 = s.myPart ∧ s.feature 4 then s.updPart s.myPart (fun p => { p with strict := v.getLsbD 0 }) else s

/-- Writes a CSR; reserved bits stay zero, and BWSTAT clears the bits named (R140, R164). -/
def csrWrite (s : State) (i : Nat) (v : Word) : State :=
  let put := fun (f : Csrs → Csrs) => s.upd (fun c => c.updCsr f)
  match i with
  | 0x000 => put (fun c => { c with rmode := v &&& 0xF })
  | 0x001 => put (fun c => { c with fflags := v &&& 0x1F1F })
  | 0x002 => put (fun c => { c with srseed := v })
  | 0x003 => put (fun c => { c with dzt := v &&& 1 })
  | 0x010 => put (fun c => { c with tvec := v &&& 0xFFFFFFFFFFFFF000 })
  | 0x011 => put (fun c => { c with tcause := v &&& 0x1F })
  | 0x012 => put (fun c => { c with tepc := v })
  | 0x013 => put (fun c => { c with tval := v })
  | 0x014 => put (fun c => { c with tword := v &&& 0xFFFFFFFF })
  | 0x015 => put (fun c => { c with tstat := v &&& 3 })
  | 0x016 => put (fun c => { c with tscr := v })
  | 0x030 => put (fun c => { c with pwstat := v &&& 0xFF01 })
  | 0x031 => put (fun c => { c with xstat := v &&& 0x803F00FF })
  | 0x033 => put (fun c => { c with bwstat := c.bwstat &&& ~~~v })
  | 0x080 => writeMode s v
  | _ => s

/-- The checks of a CSR instruction in order (R140); `k` gets the old value. -/
def csrChecked (s : State) (write : Bool) (i : Nat) (k : Word → Issue State) : Issue State :=
  match csrRead s i with
  | none => .trap 1 (BitVec.ofNat 64 i)
  | some old =>
    if i = 0x041 ∧ !s.me.sup then .trap 3 0
    else if write ∧ csrReadOnly s.me.sup i then .trap 1 (BitVec.ofNat 64 i)
    else k old

/-- A CSR instruction that writes: the new value from the old one and sA; `w1c` is the value applied to BWSTAT (R164). -/
def csrOp (f : Word → Word → Word) (w1c : Word → Word) (d a : BitVec 6) (c : BitVec 12) (s : State) : Issue State :=
  csrChecked s true c.toNat (fun old =>
    let x := s.getS a
    .ok (((csrWrite s c.toNat (if c.toNat = 0x033 then w1c x else f old x)).setS d old).advance))

/-- A read of CYCLE or TIME is placed now: no later acquire load or MTYPE 2 load is served from before it (R102). -/
def State.noteTime (s : State) (i : Nat) : State :=
  if i = 0x060 ∨ i = 0x061 then s.upd (fun c => { c with mem := { c.mem with timed := c.mem.tick } }) else s

/-- CSRR (R164). -/
def execCsrr (d : BitVec 6) (c : BitVec 12) (s : State) : Out :=
  finish s (csrChecked s false c.toNat (fun old => .ok (((s.noteTime c.toNat).setS d old).advance)))
/-- CSRW (R164). -/
def execCsrw (d a : BitVec 6) (c : BitVec 12) (s : State) : Out := finish s (csrOp (fun _ x => x) (fun x => x) d a c s)
/-- CSRS (R164). -/
def execCsrs (d a : BitVec 6) (c : BitVec 12) (s : State) : Out := finish s (csrOp (fun o x => o ||| x) (fun x => x) d a c s)
/-- CSRC (R164): on BWSTAT it changes nothing. -/
def execCsrc (d a : BitVec 6) (c : BitVec 12) (s : State) : Out := finish s (csrOp (fun o x => o &&& ~~~x) (fun _ => 0) d a c s)

end Sys2Proof.Machine
end

