-- ==== Sys2Proof/Machine/System.lean ====
section
/-!
DEFINITION. System, inbox and hint instructions, majors 0x31, 0x32 and 0x3E (spec 08 R165 to R169, 07 R146, 05 R100, 01 R92).
-/

namespace Sys2Proof.Machine

/-- SYSCALL (R165). -/
def execSyscall (c : BitVec 12) (s : State) : Out := finish s (.trap 13 (c.setWidth 64))
/-- BREAK (R165). -/
def execBrk (c : BitVec 12) (s : State) : Out := finish s (.trap 12 (c.setWidth 64))
/-- TRET (R166). -/
def execTret (s : State) : Out := finish s (trapReturn s)

/-- Closes the open batch of each dray that the issuing core holds (R211, R215). -/
def closeBatches (s : State) : State :=
  [0, 1].foldl (fun t i => t.updDray (clusterOf s.cur) i (fun d => if d.holder = some s.cur then d.commit false else d)) s

/-- DONE (R167, R265): once every earlier store is performed or reported the core issues nothing further; TASK_RETIRE ends the task. -/
def execDoneT (s : State) : Out :=
  finish s (releaseWait s (.ok ((closeBatches s).upd (fun c => c.sch (fun x => { x with run := .done })))))

/-- WAITI (R165, R167). -/
def execWaiti (s : State) : Out :=
  finish s (if s.me.mail.inbox = [] ∧ s.me.mail.rq = [] then .wait else .ok s.advance)

/-- Writes a message to sD and s(D+1). -/
def putMsg (s : State) (d : BitVec 6) (m : Msg) : State := (s.setS d m.w0).upd (fun c => c.setS (d.toNat + 1) m.w1)

/-- The dequeue of a message is an acquire: a completion of a command or of a launch (R168, R92). -/
def Msg.acquires (m : Msg) : Bool := let k := m.w0.toNat % 256; decide (2 ≤ k) && decide (k ≤ 5)

/-- INBOX (R168). -/
def inboxOp (d : BitVec 6) (s : State) : Issue State :=
  match s.me.mail.inbox with
  | [] => .ok ((putMsg s d ⟨0, 0⟩).advance)
  | m :: l =>
    let s1 := s.upd (fun c => { c with mail := { c.mail with inbox := l } })
    if m.acquires then acquireWait s (.ok ((putMsg s1.acquired d m).advance)) else .ok ((putMsg s1 d m).advance)

/-- INBOX (R168). -/
def execInbox (d : BitVec 6) (s : State) : Out := finish s (inboxOp d s)
/-- INPEEK (R168). -/
def execInpeek (d : BitVec 6) (s : State) : Out := .next ((putMsg s d (s.me.mail.inbox.headD ⟨0, 0⟩)).advance)

/-- NOP (R169). -/
def execNop (s : State) : Out := .next s.advance
/-- HINT (R146, R169): a code above 255 has no effect in service mode and traps in strict mode. -/
def execHint (n : BitVec 26) (s : State) : Out := finish s (if s.strict ∧ n.toNat ≥ 256 then .trap 1 0 else .ok s.advance)
/-- HINT.PF (R169): the fill that it may cause is READ_CACHE_FILL, which needs no hint (R79). -/
def execHintPf (_i : BitVec 6) (s : State) : Out := .next s.advance
/-- HINT.PFM (R169): the memory-side cache holds nothing that memory does not. -/
def execHintPfm (_i : BitVec 6) (s : State) : Out := .next s.advance
/-- HINT.SPIN (R169). -/
def execHintSpin (s : State) : Out := .next s.advance

end Sys2Proof.Machine
end

