-- ==== Sys2Proof/Machine/VecFp.lean ====
section
/-!
DEFINITION. Floating-point vector instructions, major 0x18 (spec 09 R170 to R174).
-/

namespace Sys2Proof.Machine

/-- Ends an element-wise instruction: the flags, the generator, the destination (R172, R174). -/
def vecEnd (s : State) (d : BitVec 5) (w : Nat) (r : List Nat × Nat × Word) : Issue State :=
  raising s r.2.1 (fun s1 => .ok (((s1.setSeed r.2.2).setV d (ofElems w r.1)).advance))

/-- The element-wise results of an instruction over vD: `f i draw` gives the bits and flags of element i. -/
def vecLanes (draws : Bool) (s : State) (d : BitVec 5) (k : KReg) (w : Nat) (f : Nat → Nat → Nat × Nat) : List Nat × Nat × Word :=
  lanes draws (active k w) (elem (s.getV d) w) f (List.range (elemCount w)) s.me.csr.srseed

/-- Rounds an exact result with its flags under the sampled mode (R171). -/
def roundIn (s : State) (t : BitVec 4) (draw : Nat) (v : Val × Nat) : Nat × Nat :=
  let r := roundVal (fmtOfType t) s.mode s.sat draw v.1
  (r.1, v.2 ||| r.2)

/-- A rounding instruction of major 0x18: `op` gives the exact result of an element from its index (R174). -/
def vfpOp (s : State) (d : BitVec 5) (k : BitVec 3) (t : BitVec 4) (op : Nat → Val × Nat) : Issue State :=
  sampleRmode s (vecEnd s d (typeWidth t) (vecLanes s.drawing s d (s.getK k) (typeWidth t) (fun i draw => roundIn s t draw (op i))))

/-- An instruction of major 0x18 that neither rounds nor draws: `f` gives the bits and flags of an element (R174). -/
def vfpRaw (s : State) (d : BitVec 5) (k : BitVec 3) (t : BitVec 4) (f : Nat → Nat × Nat) : Issue State :=
  vecEnd s d (typeWidth t) (vecLanes false s d (s.getK k) (typeWidth t) (fun i _ => f i))

/-- Element i of a register operand. -/
def State.val (s : State) (t : BitVec 4) (r : BitVec 5) (i : Nat) : Val := elemVal t (s.getV r) i

/-- The smaller or the larger of two elements, not rounded (Table 09-3). -/
def fpPick (larger : Bool) (t : BitVec 4) (x y : Nat) : Nat × Nat :=
  let f := fmtOfType t
  let a := decodeVal f x
  let b := decodeVal f y
  let nv := if isSig a || isSig b then 1 else 0
  if isNan a && isNan b then (fmtNan f, nv)
  else if isNan a then (y, nv)
  else if isNan b then (x, nv)
  else if eqVal a b then (if negOf a == larger then y else x, 0)
  else (if ltVal a b == larger then y else x, 0)

/-- VADD (R174). -/
def execVadd (d a b : BitVec 5) (k : BitVec 3) (t : BitVec 4) (s : State) : Out :=
  finish s (vfpOp s d k t (fun i => addVal s.mode (s.val t a i) (s.val t b i)))

/-- VSUB (R174). -/
def execVsub (d a b : BitVec 5) (k : BitVec 3) (t : BitVec 4) (s : State) : Out :=
  finish s (vfpOp s d k t (fun i => addVal s.mode (s.val t a i) (negVal (s.val t b i))))

/-- VMUL (R174). -/
def execVmul (d a b : BitVec 5) (k : BitVec 3) (t : BitVec 4) (s : State) : Out :=
  finish s (vfpOp s d k t (fun i => mulVal (s.val t a i) (s.val t b i)))

/-- VFMA (R174). -/
def execVfma (d a b : BitVec 5) (k : BitVec 3) (t : BitVec 4) (s : State) : Out :=
  finish s (vfpOp s d k t (fun i => fmaVal s.mode (s.val t a i) (s.val t b i) (s.val t d i)))

/-- VFMS (R174). -/
def execVfms (d a b : BitVec 5) (k : BitVec 3) (t : BitVec 4) (s : State) : Out :=
  finish s (vfpOp s d k t (fun i => fmaVal s.mode (s.val t a i) (s.val t b i) (negVal (s.val t d i))))

/-- VFNMA (R174). -/
def execVfnma (d a b : BitVec 5) (k : BitVec 3) (t : BitVec 4) (s : State) : Out :=
  finish s (vfpOp s d k t (fun i => fmaVal s.mode (negVal (s.val t a i)) (s.val t b i) (s.val t d i)))

/-- VDIV (R174). -/
def execVdiv (d a b : BitVec 5) (k : BitVec 3) (t : BitVec 4) (s : State) : Out :=
  finish s (vfpOp s d k t (fun i => divVal (s.val t a i) (s.val t b i)))

/-- VSQRT (R174). -/
def execVsqrt (d a : BitVec 5) (k : BitVec 3) (t : BitVec 4) (s : State) : Out :=
  finish s (vfpOp s d k t (fun i => sqrtVal (s.val t a i)))

/-- VRCP (R174). -/
def execVrcp (d a : BitVec 5) (k : BitVec 3) (t : BitVec 4) (s : State) : Out :=
  finish s (vfpOp s d k t (fun i => divVal (.fin false 1 1 0) (s.val t a i)))

/-- VMIN (R174). -/
def execVmin (d a b : BitVec 5) (k : BitVec 3) (t : BitVec 4) (s : State) : Out :=
  finish s (vfpRaw s d k t (fun i => fpPick false t (elem (s.getV a) (typeWidth t) i) (elem (s.getV b) (typeWidth t) i)))

/-- VMAX (R174). -/
def execVmax (d a b : BitVec 5) (k : BitVec 3) (t : BitVec 4) (s : State) : Out :=
  finish s (vfpRaw s d k t (fun i => fpPick true t (elem (s.getV a) (typeWidth t) i) (elem (s.getV b) (typeWidth t) i)))

/-- The sign bit of an element of a width. -/
def signBit (w : Nat) : Nat := 2 ^ (w - 1)

/-- VABS (R174). -/
def execVabs (d a : BitVec 5) (k : BitVec 3) (t : BitVec 4) (s : State) : Out :=
  finish s (vfpRaw s d k t (fun i => (elem (s.getV a) (typeWidth t) i % signBit (typeWidth t), 0)))

/-- VNEG (R174). -/
def execVneg (d a : BitVec 5) (k : BitVec 3) (t : BitVec 4) (s : State) : Out :=
  finish s (vfpRaw s d k t (fun i => (Nat.xor (elem (s.getV a) (typeWidth t) i) (signBit (typeWidth t)), 0)))

/-- VEXP2 (R174). -/
def execVexp2 (d a : BitVec 5) (k : BitVec 3) (t : BitVec 4) (s : State) : Out :=
  finish s (vfpOp s d k t (fun i => exp2Val (s.val t a i)))

/-- VLOG2 (R174). -/
def execVlog2 (d a : BitVec 5) (k : BitVec 3) (t : BitVec 4) (s : State) : Out :=
  finish s (vfpOp s d k t (fun i => log2Val (s.val t a i)))

end Sys2Proof.Machine
end

