-- ==== Sys2Proof/Machine/VecInt.lean ====
section
/-!
DEFINITION. Integer and logic vector instructions, permutes, selection and compares, majors 0x19 and 0x1A (spec 09 R175 to R180).
-/

namespace Sys2Proof.Machine

/-- An integer instruction that raises nothing: `f` gives element i of the destination (R175). -/
def vintOp (s : State) (d : BitVec 5) (k : BitVec 3) (t : BitVec 4) (f : Nat → Nat) : Out :=
  .next ((s.setV d (mapElems (typeWidth t) (s.getK k) (s.getV d) f)).advance)

/-- Element i of a register operand as its bits. -/
def State.el (s : State) (t : BitVec 4) (r : BitVec 5) (i : Nat) : Nat := elem (s.getV r) (typeWidth t) i
/-- Element i of a register operand as a signed integer. -/
def State.sel (s : State) (t : BitVec 4) (r : BitVec 5) (i : Nat) : Int := intOf (typeWidth t) (s.el t r i)
/-- The shift amount of element i: its low log2(w) bits (R175). -/
def State.shiftAmt (s : State) (t : BitVec 4) (r : BitVec 5) (i : Nat) : Nat := s.el t r i % typeWidth t

/-- VIADD (R175). -/
def execViadd (d a b : BitVec 5) (k : BitVec 3) (t : BitVec 4) (s : State) : Out :=
  vintOp s d k t (fun i => (s.el t a i + s.el t b i) % 2 ^ typeWidth t)

/-- VISUB (R175). -/
def execVisub (d a b : BitVec 5) (k : BitVec 3) (t : BitVec 4) (s : State) : Out :=
  vintOp s d k t (fun i => (s.el t a i + 2 ^ typeWidth t - s.el t b i) % 2 ^ typeWidth t)

/-- VIMUL (R175). -/
def execVimul (d a b : BitVec 5) (k : BitVec 3) (t : BitVec 4) (s : State) : Out :=
  vintOp s d k t (fun i => s.el t a i * s.el t b i % 2 ^ typeWidth t)

/-- VIMAD (R175). -/
def execVimad (d a b : BitVec 5) (k : BitVec 3) (t : BitVec 4) (s : State) : Out :=
  vintOp s d k t (fun i => (s.el t a i * s.el t b i + s.el t d i) % 2 ^ typeWidth t)

/-- VIMIN (R175). -/
def execVimin (d a b : BitVec 5) (k : BitVec 3) (t : BitVec 4) (s : State) : Out :=
  vintOp s d k t (fun i => if s.sel t b i < s.sel t a i then s.el t b i else s.el t a i)

/-- VIMAX (R175). -/
def execVimax (d a b : BitVec 5) (k : BitVec 3) (t : BitVec 4) (s : State) : Out :=
  vintOp s d k t (fun i => if s.sel t a i < s.sel t b i then s.el t b i else s.el t a i)

/-- VIMINU (R175). -/
def execViminu (d a b : BitVec 5) (k : BitVec 3) (t : BitVec 4) (s : State) : Out :=
  vintOp s d k t (fun i => min (s.el t a i) (s.el t b i))

/-- VIMAXU (R175). -/
def execVimaxu (d a b : BitVec 5) (k : BitVec 3) (t : BitVec 4) (s : State) : Out :=
  vintOp s d k t (fun i => max (s.el t a i) (s.el t b i))

/-- VISHL (R175). -/
def execVishl (d a b : BitVec 5) (k : BitVec 3) (t : BitVec 4) (s : State) : Out :=
  vintOp s d k t (fun i => s.el t a i * 2 ^ s.shiftAmt t b i % 2 ^ typeWidth t)

/-- VISHR (R175). -/
def execVishr (d a b : BitVec 5) (k : BitVec 3) (t : BitVec 4) (s : State) : Out :=
  vintOp s d k t (fun i => s.el t a i / 2 ^ s.shiftAmt t b i)

/-- VISHRA (R175). -/
def execVishra (d a b : BitVec 5) (k : BitVec 3) (t : BitVec 4) (s : State) : Out :=
  vintOp s d k t (fun i => intBits (typeWidth t) (s.sel t a i / (2 ^ s.shiftAmt t b i : Nat)))

/-- A sum saturated to the range of a width, with NV when it saturates (R175). -/
def satAdd (w : Nat) (x y : Int) : Nat × Nat :=
  let r := x + y
  if r < -(2 ^ (w - 1) : Nat) then (2 ^ (w - 1), 1)
  else if r ≥ (2 ^ (w - 1) : Nat) then (2 ^ (w - 1) - 1, 1) else (intBits w r, 0)

/-- VIADDS (R175): NV on saturation, which may trap (R172). -/
def execViadds (d a b : BitVec 5) (k : BitVec 3) (t : BitVec 4) (s : State) : Out :=
  finish s (vfpRaw s d k t (fun i => satAdd (typeWidth t) (s.sel t a i) (s.sel t b i)))

/-! ### Logic, permutes and selection -/

/-- VAND (R176). -/
def execVand (d a b : BitVec 5) (k : BitVec 3) (t : BitVec 4) (s : State) : Out :=
  vintOp s d k t (fun i => Nat.land (s.el t a i) (s.el t b i))

/-- VOR (R176). -/
def execVor (d a b : BitVec 5) (k : BitVec 3) (t : BitVec 4) (s : State) : Out :=
  vintOp s d k t (fun i => Nat.lor (s.el t a i) (s.el t b i))

/-- VXOR (R176). -/
def execVxor (d a b : BitVec 5) (k : BitVec 3) (t : BitVec 4) (s : State) : Out :=
  vintOp s d k t (fun i => Nat.xor (s.el t a i) (s.el t b i))

/-- VNOT (R176). -/
def execVnot (d a : BitVec 5) (k : BitVec 3) (t : BitVec 4) (s : State) : Out :=
  vintOp s d k t (fun i => 2 ^ typeWidth t - 1 - s.el t a i)

/-- The index that an element names for VPERM: within its 256-byte half for I8 (R177). -/
def permIdx (t : BitVec 4) (n i : Nat) : Nat := if t = 7 then n % 256 + 256 * (i / 256) else n % elemCount (typeWidth t)

/-- VPERM (R177). -/
def execVperm (d a b : BitVec 5) (k : BitVec 3) (t : BitVec 4) (s : State) : Out :=
  vintOp s d k t (fun i => s.el t a (permIdx t (s.el t b i) i))

/-- VSLIDE (R178). -/
def execVslide (d a n : BitVec 5) (k : BitVec 3) (t : BitVec 4) (s : State) : Out :=
  vintOp s d k t (fun i => if i + n.toNat < elemCount (typeWidth t) then s.el t a (i + n.toNat) else 0)

/-- VBCAST (R178). -/
def execVbcast (d a n : BitVec 5) (k : BitVec 3) (t : BitVec 4) (s : State) : Out := vintOp s d k t (fun _ => s.el t a n.toNat)

/-- VSEL (R179): every element is written, active or not. -/
def execVsel (d a b : BitVec 5) (k : BitVec 3) (t : BitVec 4) (s : State) : Out :=
  .next ((s.setV d (mapElems (typeWidth t) (s.getK k) (s.getV b) (fun i => s.el t a i))).advance)

/-! ### Compares (R180) -/

/-- A condition of two elements with its result and flags (Table 09-5): `fp` on values that are not NaN, `nan` with a NaN operand, `any` when
every NaN raises NV and not a signalling one only, `int` on signed values and `bits` on bits for integers. -/
def condEval (fp : Val → Val → Bool) (nan any : Bool) (int : Int → Int → Bool) (bits : Nat → Nat → Bool) (t : BitVec 4) (x y : Nat) : Bool × Nat :=
  match fmtOfType t with
  | .int w => (int (intOf w x) (intOf w y) && bits x y, 0)
  | f =>
    let a := decodeVal f x
    let b := decodeVal f y
    if isNan a || isNan b then (nan, if any || isSig a || isSig b then 1 else 0) else (fp a b, 0)

/-- The mask that VCMP writes: every byte of an active element takes its result, and a byte of two I4 elements the AND of theirs; the
bytes of inactive elements are 0 (R136, R180). -/
def cmpMask (w : Nat) (k : KReg) (r : Nat → Bool) : KReg :=
  BitVec.ofNat 512 (packElems 1 ((List.range 512).map (fun j =>
    if (if w = 4 then k.getLsbD j else active k w (j / (w / 8))) && (if w = 4 then r (2 * j) && r (2 * j + 1) else r (j / (w / 8))) then 1 else 0)))

/-- VCMP (R180): an enabled NV traps with kD unwritten. -/
def vcmpOp (cond : BitVec 4 → Nat → Nat → Bool × Nat) (d : BitVec 3) (a b : BitVec 5) (k : BitVec 3) (t : BitVec 4) (s : State) : Issue State :=
  let w := typeWidth t
  let r := fun i => cond t (s.el t a i) (s.el t b i)
  let flags := (actives (s.getK k) w).foldl (fun f i => f ||| (r i).2) 0
  raising s flags (fun s1 => .ok ((s1.setK d (cmpMask w (s.getK k) (fun i => (r i).1))).advance))

/-- VCMP.EQ (R180). -/
def execVcmpEq (d : BitVec 3) (a b : BitVec 5) (k : BitVec 3) (t : BitVec 4) (s : State) : Out :=
  finish s (vcmpOp (condEval eqVal false false (fun x y => x == y) (fun _ _ => true)) d a b k t s)

/-- VCMP.NE (R180). -/
def execVcmpNe (d : BitVec 3) (a b : BitVec 5) (k : BitVec 3) (t : BitVec 4) (s : State) : Out :=
  finish s (vcmpOp (condEval (fun x y => !eqVal x y) true false (fun x y => x != y) (fun _ _ => true)) d a b k t s)

/-- VCMP.LT (R180). -/
def execVcmpLt (d : BitVec 3) (a b : BitVec 5) (k : BitVec 3) (t : BitVec 4) (s : State) : Out :=
  finish s (vcmpOp (condEval ltVal false true (fun x y => decide (x < y)) (fun _ _ => true)) d a b k t s)

/-- VCMP.LE (R180). -/
def execVcmpLe (d : BitVec 3) (a b : BitVec 5) (k : BitVec 3) (t : BitVec 4) (s : State) : Out :=
  finish s (vcmpOp (condEval (fun x y => !ltVal y x) false true (fun x y => decide (x ≤ y)) (fun _ _ => true)) d a b k t s)

/-- VCMP.LTU (R180). -/
def execVcmpLtu (d : BitVec 3) (a b : BitVec 5) (k : BitVec 3) (t : BitVec 4) (s : State) : Out :=
  finish s (vcmpOp (condEval (fun _ _ => false) false false (fun _ _ => true) (fun x y => decide (x < y))) d a b k t s)

/-- VCMP.LEU (R180). -/
def execVcmpLeu (d : BitVec 3) (a b : BitVec 5) (k : BitVec 3) (t : BitVec 4) (s : State) : Out :=
  finish s (vcmpOp (condEval (fun _ _ => false) false false (fun _ _ => true) (fun x y => decide (x ≤ y))) d a b k t s)

/-- VCMP.UN (R180). -/
def execVcmpUn (d : BitVec 3) (a b : BitVec 5) (k : BitVec 3) (t : BitVec 4) (s : State) : Out :=
  finish s (vcmpOp (condEval (fun _ _ => false) true false (fun _ _ => false) (fun _ _ => true)) d a b k t s)

end Sys2Proof.Machine
end

