-- ==== Sys2Proof/Machine/VecConv.lean ====
section
/-!
DEFINITION. Conversions, reductions, masks and vector-scalar moves, majors 0x1B, 0x1D, 0x1E, 0x1F (spec 09 R181 to R183, R187 to R191).
-/

namespace Sys2Proof.Machine

/-! ### Conversions -/

/-- A conversion rounds unless both types are integers (R182). -/
def convRounds (td ts : BitVec 4) : Bool :=
  match fmtOfType td, fmtOfType ts with
  | .int _, .int _ => false
  | _, _ => true

/-- One element converted: its bits and flags (R182, R314). -/
def convElem (s : State) (td ts : BitVec 4) (draw x : Nat) : Nat × Nat :=
  match fmtOfType td, fmtOfType ts with
  | .int w, .int v => satAdd w (intOf v x) 0
  | f, g => roundVal f s.mode s.sat draw (decodeVal g x)

/-- A conversion that rounds samples RMODE; one between integers does not (R171, R182). -/
def convSample (s : State) (td ts : BitVec 4) (k : Issue State) : Issue State := if convRounds td ts then sampleRmode s k else k

/-- VCVT (R181, R182). -/
def execVcvt (d a : BitVec 5) (ts : BitVec 4) (k : BitVec 3) (t : BitVec 4) (s : State) : Out :=
  finish s (convSample s t ts (vecEnd s d (typeWidth t)
    (vecLanes (convRounds t ts && s.drawing) s d (s.getK k) (typeWidth t) (fun i draw => convElem s t ts draw (s.el ts a i)))))

/-- Writes registers from D on, q elements of a width each. -/
def setVs (s : State) (w q : Nat) : Nat → List Nat → Nat → State
  | 0, _, _ => s
  | n + 1, l, d => setVs (s.upd (fun c => c.setV d (ofElems w (l.take q)))) w q n (l.drop q) (d + 1)

/-- VWIDEN (R181, R182): source element i goes to element i mod q of register D + i / q, under the mask at source granularity. -/
def vwidenOp (d a : BitVec 5) (ts : BitVec 4) (k : BitVec 3) (t : BitVec 4) (s : State) : Issue State :=
  let wd := typeWidth t
  let ws := typeWidth ts
  let q := elemCount wd
  let n := elemCount ws
  convSample s t ts (
    let r := lanes (convRounds t ts && s.drawing) (active (s.getK k) ws) (fun i => elem (s.me.getV (d.toNat + i / q)) wd (i % q))
      (fun i draw => convElem s t ts draw (s.el ts a i)) (List.range n) s.me.csr.srseed
    raising s r.2.1 (fun s1 => .ok ((setVs (s1.setSeed r.2.2) wd q (n / q) r.1 d.toNat).advance)))

/-- VWIDEN (R182). -/
def execVwiden (d a : BitVec 5) (ts : BitVec 4) (k : BitVec 3) (t : BitVec 4) (s : State) : Out := finish s (vwidenOp d a ts k t s)

/-- VNARROW (R181, R182): destination element i comes from element i mod q of register A + i / q, under the mask at destination granularity. -/
def execVnarrow (d a : BitVec 5) (ts : BitVec 4) (k : BitVec 3) (t : BitVec 4) (s : State) : Out :=
  finish s (convSample s t ts (
    let q := elemCount (typeWidth ts)
    vecEnd s d (typeWidth t) (vecLanes (convRounds t ts && s.drawing) s d (s.getK k) (typeWidth t)
      (fun i draw => convElem s t ts draw (elem (s.me.getV (a.toNat + i / q)) (typeWidth ts) (i % q))))))

/-! ### Reductions and scan (R187, R188) -/

/-- One level of the pairwise tree (R75): entry i with entry i + h. -/
def treeLevel (op : Nat → Nat → Nat × Nat) (h : Nat) (x : List Nat) : List Nat × Nat :=
  let r := ((x.take h).zip (x.drop h)).map (fun p => op p.1 p.2)
  (r.map (fun p => p.1), r.foldl (fun f p => f ||| p.2) 0)

/-- pairwise_tree over 2^n entries, with the flags of its operations (R75). -/
def pairwiseTree (op : Nat → Nat → Nat × Nat) : Nat → List Nat → Nat × Nat
  | 0, x => (x.headD 0, 0)
  | n + 1, x =>
    let l := treeLevel op (2 ^ n) x
    let r := pairwiseTree op n l.1
    (r.1, l.2 ||| r.2)

/-- The sum of two elements: rounded RNE for floats, wrapped for integers (R187). -/
def sumElem (t : BitVec 4) (x y : Nat) : Nat × Nat :=
  match fmtOfType t with
  | .int w => ((x + y) % 2 ^ w, 0)
  | f =>
    let v := addVal .rne (decodeVal f x) (decodeVal f y)
    let r := roundVal f .rne false 0 v.1
    (r.1, v.2 ||| r.2)

/-- The larger or smaller of two elements (R187). -/
def pickElem (larger : Bool) (t : BitVec 4) (x y : Nat) : Nat × Nat :=
  match fmtOfType t with
  | .int w => (if decide (intOf w x < intOf w y) == larger then y else x, 0)
  | _ => fpPick larger t x y

/-- The identity of a sum: -0 for floats, 0 for integers (Table 09-7). -/
def sumIdent (t : BitVec 4) : Nat :=
  match fmtOfType t with
  | .int _ => 0
  | f => signed f true 0

/-- The identity of a maximum or minimum (Table 09-7). -/
def pickIdent (larger : Bool) (t : BitVec 4) : Nat :=
  match fmtOfType t with
  | .int w => if larger then 2 ^ (w - 1) else 2 ^ (w - 1) - 1
  | f => signed f larger (fmtMax f + 1)

/-- The entries of a reduction: active elements, the identity elsewhere (R187). -/
def entries (s : State) (a : BitVec 5) (k : BitVec 3) (t : BitVec 4) (ident : Nat) : List Nat :=
  (List.range (elemCount (typeWidth t))).map (fun i => if active (s.getK k) (typeWidth t) i then s.el t a i else ident)

/-- A reduction: element 0 of vD takes the tree's result whatever the mask (R187). -/
def reduceOp (s : State) (d a : BitVec 5) (k : BitVec 3) (t : BitVec 4) (ident : Nat) (op : Nat → Nat → Nat × Nat) : Issue State :=
  let w := typeWidth t
  let r := pairwiseTree op (elemCount w).log2 (entries s a k t ident)
  raising s r.2 (fun s1 => .ok ((s1.setV d (setElem w (s1.getV d) 0 r.1)).advance))

/-- VRSUM (R187). -/
def execVrsum (d a : BitVec 5) (k : BitVec 3) (t : BitVec 4) (s : State) : Out := finish s (reduceOp s d a k t (sumIdent t) (sumElem t))
/-- VRMAX (R187). -/
def execVrmax (d a : BitVec 5) (k : BitVec 3) (t : BitVec 4) (s : State) : Out := finish s (reduceOp s d a k t (pickIdent true t) (pickElem true t))
/-- VRMIN (R187). -/
def execVrmin (d a : BitVec 5) (k : BitVec 3) (t : BitVec 4) (s : State) : Out := finish s (reduceOp s d a k t (pickIdent false t) (pickElem false t))

/-- One pass of the scan: x[i] := x[i - d] + x[i] for every i from d on, at once; an inactive element raises nothing (R172, R188). -/
def scanLevel (op : Nat → Nat → Nat × Nat) (act : Nat → Bool) (d : Nat) (x : List Nat) : List Nat × Nat :=
  let r := (x.zip (x.drop d)).map (fun p => op p.1 p.2)
  (x.take d ++ r.map (fun p => p.1), r.zipIdx.foldl (fun f p => if act (d + p.2) then f ||| p.1.2 else f) 0)

/-- The passes of the scan from distance d on, `n` of them. -/
def scanGo (op : Nat → Nat → Nat × Nat) (act : Nat → Bool) : Nat → Nat → List Nat → List Nat × Nat
  | 0, _, x => (x, 0)
  | n + 1, d, x =>
    let l := scanLevel op act d x
    let r := scanGo op act n (2 * d) l.1
    (r.1, l.2 ||| r.2)

/-- VSCAN (R188). -/
def execVscan (d a : BitVec 5) (k : BitVec 3) (t : BitVec 4) (s : State) : Out :=
  let w := typeWidth t
  let r := scanGo (sumElem t) (active (s.getK k) w) (elemCount w).log2 1 (entries s a k t (sumIdent t))
  finish s (raising s r.2 (fun s1 => .ok ((s1.setV d (mapElems w (s.getK k) (s1.getV d) (fun i => r.1[i]?.getD 0))).advance)))

/-! ### Masks (R190) -/

/-- KAND (R190). -/
def execKand (d a b : BitVec 3) (s : State) : Out := .next ((s.setK d (s.getK a &&& s.getK b)).advance)
/-- KOR (R190). -/
def execKor (d a b : BitVec 3) (s : State) : Out := .next ((s.setK d (s.getK a ||| s.getK b)).advance)
/-- KXOR (R190). -/
def execKxor (d a b : BitVec 3) (s : State) : Out := .next ((s.setK d (s.getK a ^^^ s.getK b)).advance)
/-- KNOT (R190). -/
def execKnot (d a : BitVec 3) (s : State) : Out := .next ((s.setK d (~~~(s.getK a))).advance)
/-- KPOPC (R190). -/
def execKpopc (d : BitVec 5) (a : BitVec 3) (t : BitVec 4) (s : State) : Out :=
  .next ((s.setS d (BitVec.ofNat 64 (actives (s.getK a) (typeWidth t)).length)).advance)
/-- KFIRST (R190). -/
def execKfirst (d : BitVec 5) (a : BitVec 3) (t : BitVec 4) (s : State) : Out :=
  .next ((s.setS d (BitVec.ofNat 64 ((actives (s.getK a) (typeWidth t)).headD (elemCount (typeWidth t))))).advance)
/-- KFROM (R190). -/
def execKfrom (d : BitVec 3) (a : BitVec 5) (t : BitVec 4) (s : State) : Out :=
  let w := typeWidth t
  let c := min (s.getS a).toNat (elemCount w)
  .next ((s.setK d (BitVec.ofNat 512 (2 ^ ((c * w + 7) / 8) - 1))).advance)

/-! ### Vector-scalar moves (R191) -/

/-- What VGET reads: sign-extended for integer types, raw bits for floats, 0 beyond the register (R191). -/
def vgetVal (t : BitVec 4) (x : VReg) (i : Nat) : Word :=
  let w := typeWidth t
  if i ≥ elemCount w then 0
  else match fmtOfType t with
    | .int _ => BitVec.ofInt 64 (elemInt w x i)
    | _ => BitVec.ofNat 64 (elem x w i)

/-- VGET (R191). -/
def execVget (i a : BitVec 5) (d : BitVec 6) (t : BitVec 4) (s : State) : Out := .next ((s.setS d (vgetVal t (s.getV a) (s.getS i).toNat)).advance)
/-- VPUT (R191). -/
def execVput (d i : BitVec 5) (b : BitVec 6) (t : BitVec 4) (s : State) : Out :=
  let w := typeWidth t
  let n := (s.getS i).toNat
  .next ((if n < elemCount w then s.setV d (setElem w (s.getV d) n ((s.getS b).toNat % 2 ^ w)) else s).advance)
/-- VMOV (R191). -/
def execVmov (d a : BitVec 5) (k : BitVec 2) (t : BitVec 4) (s : State) : Out :=
  .next ((s.setV d (mapElems (typeWidth t) (s.getK k) (s.getV d) (fun i => s.el t a i))).advance)
/-- VMOV.S (R191). -/
def execVmovS (d : BitVec 5) (b : BitVec 6) (k : BitVec 2) (t : BitVec 4) (s : State) : Out :=
  .next ((s.setV d (mapElems (typeWidth t) (s.getK k) (s.getV d) (fun _ => (s.getS b).toNat % 2 ^ typeWidth t))).advance)

end Sys2Proof.Machine
end

