-- ==== Sys2Proof/Machine/VecMem.lean ====
section
/-!
DEFINITION. Vector loads and stores, major 0x1C (spec 09 R184 to R186, 03 R57, R61, R62).
-/

namespace Sys2Proof.Machine

/-- The active elements of a width with their addresses. -/
def vecElems (s : State) (k : BitVec 3) (w : Nat) (f : Nat → Word) : List (Nat × Word) := (actives (s.getK k) w).map (fun i => (i, f i))

/-- Ends a vector access: the walker, the next instruction (R157). -/
def vecDone (a : BitVec 6) (x : Issue State) : Issue State := x.bind (fun t => .ok ((t.stepBase a).advance))

/-- Element addresses of a contiguous access from a base (R185). -/
def runAddr (base : Word) (nb i : Nat) : Word := base + BitVec.ofNat 64 (i * nb)

/-- VLD (R185). -/
def execVld (d : BitVec 5) (a b : BitVec 6) (k w : BitVec 3) (s : State) : Out :=
  let nb := 2 ^ w.toNat
  let base := s.base a + s.getS b
  finish s (vecDone a (loadVector s d.toNat true base nb (vecElems s k (8 * nb) (runAddr base nb))))

/-- VST (R185). -/
def execVst (d : BitVec 5) (a b : BitVec 6) (k w : BitVec 3) (s : State) : Out :=
  let nb := 2 ^ w.toNat
  let base := s.base a + s.getS b
  finish s (vecDone a (storeVector s (s.getV d) true base nb (vecElems s k (8 * nb) (runAddr base nb))))

/-- Element addresses of a strided access (R185). -/
def strideAddr (base stride : Word) (i : Nat) : Word := base + BitVec.ofNat 64 i * stride

/-- VLDS (R185). -/
def execVlds (d : BitVec 5) (a b : BitVec 6) (k w : BitVec 3) (s : State) : Out :=
  let nb := 2 ^ w.toNat
  finish s (vecDone a (loadVector s d.toNat false (s.base a) nb (vecElems s k (8 * nb) (strideAddr (s.base a) (s.getS b)))))

/-- VSTS (R185). -/
def execVsts (d : BitVec 5) (a b : BitVec 6) (k w : BitVec 3) (s : State) : Out :=
  let nb := 2 ^ w.toNat
  finish s (vecDone a (storeVector s (s.getV d) false (s.base a) nb (vecElems s k (8 * nb) (strideAddr (s.base a) (s.getS b)))))

/-- Element addresses of a gather or scatter by the indices of a register (R185). -/
def gatherAddr (base : Word) (x : VReg) (nb i : Nat) : Word := base + BitVec.ofInt 64 (elemInt (8 * nb) x i)

/-- VLDG (R185); W 0 is E32 and 1 is E64. -/
def execVldg (d : BitVec 5) (a : BitVec 6) (b : BitVec 5) (k : BitVec 3) (w : BitVec 1) (s : State) : Out :=
  let nb := 4 * 2 ^ w.toNat
  finish s (vecDone a (loadVector s d.toNat false (s.base a) nb (vecElems s k (8 * nb) (gatherAddr (s.base a) (s.getV b) nb))))

/-- VSTG (R185). -/
def execVstg (d : BitVec 5) (a : BitVec 6) (b : BitVec 5) (k : BitVec 3) (w : BitVec 1) (s : State) : Out :=
  let nb := 4 * 2 ^ w.toNat
  finish s (vecDone a (storeVector s (s.getV d) false (s.base a) nb (vecElems s k (8 * nb) (gatherAddr (s.base a) (s.getV b) nb))))

/-! ### VLDX (R186) -/

/-- Where element j of a livery lies in its wagon: the byte of its start, the bit within that byte, the end of its storage group, its
scale byte (R57, R61). -/
structure Spot where
  byte  : Nat
  bit   : Nat
  stop  : Nat
  scale : Nat
  deriving DecidableEq, Repr

/-- The spot of element j (R57, R61). -/
def spotOf (l : BitVec 32) (j : Nat) : Spot :=
  let b := liveryBits l
  { byte := j * b / 8, bit := j * b % 8, stop := if b = 6 then (j / 4 + 1) * 3 else (j * b + b + 7) / 8,
    scale := liveryOff l + j / (if liveryMode l = 1 then 32 else 16) }

/-- An element lies beyond its region, or its scale byte beyond the wagon (R57). -/
def spotBeyond (l : BitVec 32) (p : Spot) : Bool :=
  if liveryMode l = 0 then decide (p.stop > 2 ^ 18) else decide (p.stop > liveryOff l) || decide (p.scale ≥ 2 ^ 18)

/-- The window offsets that decoding an element reads. -/
def spotRanges (l : BitVec 32) (p : Spot) : List (Nat × Nat) :=
  (p.byte, p.byte + (p.bit + liveryBits l + 7) / 8 - 1) :: (if liveryMode l = 0 then [] else [(p.scale, p.scale)])

/-- The decoded value of an element as a load of the core reads it (R60 to R62). -/
def spotVal (s : State) (l : BitVec 32) (loc : Nat) (p : Spot) : Val :=
  let rd := fun (o n : Nat) => s.coreRead s.cur 0 s.me.mem.seq s.me.mem.now (loc + o) n
  match fmtOfLivery (l.toNat % 256) with
  | some f =>
    let raw := rd p.byte ((p.bit + liveryBits l + 7) / 8) / 2 ^ p.bit % 2 ^ liveryBits l
    scaledVal (liveryMode l) (decodeVal f raw) (if liveryMode l = 0 then 0 else rd p.scale 1)
  | none => .nan false

/-- VLDX by a livery with a format: all reads at issue (log 9). -/
def vldxDecode (s : State) (d : BitVec 5) (x : Word) (n : Nat) (l : BitVec 32) (j0 : Nat) (k : KReg) (t : BitVec 4) : Issue State :=
  let w := typeWidth t
  let loc := locWagon (clusterOf s.cur) (s.me.slot n).wagon 0
  let spots := (actives k w).map (fun i => spotOf l (j0 + i))
  let place : Place := { loc := loc, mtype := 0, slot := some n }
  let ranges := spots.flatMap (spotRanges l)
  match spots.find? (spotBeyond l) with
    | some p => .trap 2 (x + BitVec.ofNat 64 p.byte)
    | none =>
      if (!spots.isEmpty && s.pendFull place) || ranges.any (fun r => s.wmStall s.cur (x.toNat + r.1) (x.toNat + r.2)) then .wait
      else match spots.find? (fun p => (spotRanges l p).any (fun r => s.readBad s.cur 0 s.me.mem.seq s.me.mem.now (loc + r.1) (r.2 - r.1 + 1))) with
        | some p => .trap 11 (x + BitVec.ofNat 64 p.byte)
        | none =>
          if ranges.any (fun r => !s.me.readable { place with loc := loc + r.1 } (r.2 - r.1 + 1)) then .wait
          else
            let s1 := ranges.foldl (fun u r => u.noteRead { place with loc := loc + r.1 } (r.2 - r.1 + 1)) s |>.upd (fun c => c.holdV d.toNat)
            vecEnd s1 d w (vecLanes s.drawing s d k w (fun i draw => roundIn s t draw (spotVal s l loc (spotOf l (j0 + i)), 0)))

/-- VLDX after RMODE is sampled (R186). -/
def vldxOp (s : State) (d : BitVec 5) (a b : BitVec 6) (k : BitVec 3) (t : BitVec 4) : Issue State :=
  let x := s.base a
  let n := x.toNat / 2 ^ 18 % 32
  let nb := typeWidth t / 8
  Issue.check (spaceOf x == 0xE0 && decide (x.toNat % 2 ^ 56 / 2 ^ 23 = 0) && decide (x.toNat % 2 ^ 18 = 0)) 2 x (
    Issue.check ((s.me.slot n).st == .attached) 5 x (
      let l := (s.myCluster.wagon (s.me.slot n).wagon).livery
      if l.toNat % 256 = 0 ∨ l.toNat % 256 = 12 then
        let base := x + s.getS b * BitVec.ofNat 64 nb
        loadVector s d.toNat true base nb (vecElems s k (8 * nb) (runAddr base nb)) |>.bind (fun u => .ok u.advance)
      else vldxDecode s d x n l (s.getS b).toNat (s.getK k) t))

/-- VLDX (R186): RMODE is sampled before its own checks (R66, R147). -/
def execVldx (d : BitVec 5) (a b : BitVec 6) (k t : BitVec 3) (s : State) : Out :=
  finish s (sampleRmode s ((vldxOp s d a b k (t.setWidth 4)).bind (fun u => .ok (u.stepBase a))))

end Sys2Proof.Machine
end

