-- ==== Sys2Proof/Machine/Dray.lean ====
section
/-!
DEFINITION. The drays of a cluster, major 0x24: leases, matrix and accumulator commands, batches (spec 11 R210 to R215, 03 R63, R64, R69,
R73, R74, 04 R90 to R93).
-/

namespace Sys2Proof.Machine

/-! ### Leases (R211) -/

/-- The global index of a dray. -/
def drayIndex (cl d : Nat) : Nat := 2 * cl + d

/-- TVAL of a lease trap: the global dray index and the reason (R211). -/
def leaseTval (cl d reason : Nat) : Word := BitVec.ofNat 64 (reason * 2 ^ 8 + drayIndex cl d)

/-- The dray of the issuing core's cluster. -/
def State.myDray (s : State) (d : Nat) : Dray := s.dray (clusterOf s.cur) d
/-- Changes a dray of the issuing core's cluster. -/
def State.updMyDray (s : State) (d : Nat) (f : Dray → Dray) : State := s.updDray (clusterOf s.cur) d f

/-- The lease checks of a command: no lease is reason 1, a 65th command reason 2 (R211). -/
def needLease (s : State) (d : Nat) (command : Bool) (k : Issue State) : Issue State :=
  let x := s.myDray d
  if x.holder ≠ some s.cur then .trap 6 (leaseTval (clusterOf s.cur) d 1)
  else if command ∧ x.issued ≥ Config.leaseCommands then .trap 6 (leaseTval (clusterOf s.cur) d 2)
  else k

/-- DLEASE (R211): the grant is an acquire at cluster scope. -/
def dleaseOp (u : BitVec 1) (s : State) : Issue State :=
  let d := u.toNat
  let x := s.myDray d
  let got := fun (t : State) => (t.acquired).advance
  acquireWait s (
    if s.hold = .queued then (if x.holder = some s.cur then .ok (got s) else .wait)
    else if x.holder = some s.cur then .trap 6 (leaseTval (clusterOf s.cur) d 3)
    else if x.holder = none ∧ x.waiters = [] then .ok (got (s.updMyDray d (fun y => y.grantTo s.cur (s.cur % 16) s.myPart)))
    else .stay ((s.updMyDray d (fun y => { y with waiters := y.waiters ++ [s.cur] })).setHold .queued))

/-- DLEASE (R210). -/
def execDlease (u : BitVec 1) (s : State) : Out := finish s (dleaseOp u s)

/-- DFREE (R211): it closes the open batch and waits until every batch of the lease has completed. -/
def dfreeOp (u : BitVec 1) (s : State) : Issue State :=
  needLease s u.toNat false (releaseWait s (
    let s1 := s.updMyDray u.toNat (fun x => x.commit false)
    if (s1.myDray u.toNat).quiet then .ok ((s1.updMyDray u.toNat Dray.release).advance) else .stay s1))

/-- DFREE (R210). -/
def execDfree (u : BitVec 1) (s : State) : Out := finish s (dfreeOp u s)

/-- DCOMMIT (R215). -/
def execDcommit (d : BitVec 6) (u : BitVec 1) (s : State) : Out :=
  finish s (needLease s u.toNat false (
    .ok (((s.updMyDray u.toNat (fun x => x.commit true)).setS d (BitVec.ofNat 64 (s.myDray u.toNat).next)).advance)))

/-- Batch n lies ahead of the last number committed, within 2^31 (R215); 0 is no batch number. -/
def batchAhead (x : Dray) (n : Nat) : Bool :=
  let ahead := (n + 2 ^ 32 - (x.next - 1)) % 2 ^ 32
  n != 0 && decide (0 < ahead) && decide (ahead ≤ 2 ^ 31)

/-- The completion message of a batch (Table 11-9). -/
def batchMsg (cl d : Nat) (x : Dray) (n : Nat) : Msg :=
  let f := x.fails.find? (fun e => e.1 == n)
  ⟨BitVec.ofNat 64 (n * 2 ^ 32 + drayIndex cl d % 128 * 2 ^ 16 + (if f.isSome then 256 else 0) + 3),
    BitVec.ofNat 64 (match f with | some e => e.2 % 256 | none => 0)⟩

/-- DWAIT (R215): an acquire of the batch's writes (R92, R105). -/
def dwaitOp (d a : BitVec 6) (u : BitVec 1) (s : State) : Issue State :=
  let n := (s.getS a).toNat % 2 ^ 32
  let x := s.myDray u.toNat
  if batchAhead x n then .trap 6 (leaseTval (clusterOf s.cur) u.toNat 4)
  else if x.closed.contains n then .wait
  else acquireWait s (
    let m := batchMsg (clusterOf s.cur) u.toNat x n
    .ok ((((s.acquired).upd (fun c => c.post (s.credits s.cur) m)).setS d (BitVec.ofNat 64 (m.w0.toNat / 256 % 256))).advance))

/-- DWAIT (R210). -/
def execDwait (d a : BitVec 6) (u : BitVec 1) (s : State) : Out := finish s (dwaitOp d a u s)

/-! ### Operands (R212, R213) -/

/-- Operand formats of a matrix command: neither Raw, FP32 nor INT32 (Table 11-8). -/
def mmaFormat (f : Nat) : Bool := f != 0 && f != 1 && f != 11

/-- An operand descriptor with `rows` rows of `cols` elements, none when it is refused with status 3 (R212, R213, R57). -/
def drayOper (s : State) (desc : Word) (rows cols : Nat) (dest : Bool) : Option DOper :=
  let a := desc.toNat
  let ldf := a / 2 ^ 24 % 2 ^ 16
  let n := a / 2 ^ 18 % 32
  let h := s.me.slot n
  if a / 2 ^ 56 ≠ 0xE0 ∨ a / 2 ^ 40 % 2 ^ 16 ≠ 0 ∨ a / 2 ^ 23 % 2 ≠ 0 ∨ h.st ≠ .attached then none
  else
    let l := (s.myCluster.wagon h.wagon).livery
    let fmt := l.toNat % 256
    let lv : BitVec 32 := if dest ∧ fmt = 0 then 1 else l
    let g := groupBits lv / 8
    let lcb := fmt = 12
    if (if dest then fmt = 12 else !mmaFormat fmt) ∨ a % 2 ^ 18 % (max g (liveryBits lv / 8)) ≠ 0 then none
    else
      let first := a % 2 ^ 18 * 8 / liveryBits lv * (if lcb then 8 else 1)
      let o : DOper := { wagon := locWagon (clusterOf s.cur) h.wagon 0, slot := n, first := first, ld := if ldf = 0 then cols else ldf, livery := lv }
      let last := first + (rows - 1) * o.ld + cols - 1
      let spot := spotOf lv (if lcb then last / 8 else last)
      let scale := liveryOff lv + last / (if liveryMode lv = 1 then 32 else 16)
      if spotBeyond lv { spot with scale := if liveryMode lv = 0 then 0 else scale } then none else some o

/-- A slot of an operand has 255 accesses pending (R36). -/
def operFull (s : State) (os : List DOper) : Bool := os.any (fun o => decide (s.pend s.cur o.slot ≥ 255))

/-- A field of the shape or coordinate register. -/
def regField (x : Word) (lo n : Nat) : Nat := x.toNat / 2 ^ lo % 2 ^ n
/-- One bit of the shape or coordinate register. -/
def regBit (x : Word) (i : Nat) : Bool := x.getLsbD i

/-- A matrix command's shape from its registers (Table 11-7); the operands are set by `mmaIssue`. -/
def mmaShape (s : State) (sh : Word) (b : Nat) (both : Bool) : MmaOp :=
  let z : DOper := { wagon := 0, slot := 0, first := 0, ld := 0, livery := 0 }
  { m := regField sh 0 16, n := regField sh 16 16, k := regField sh 32 16, row0 := regField sh 48 8, bank := regBit sh 56, ovw := regBit sh 57,
    bt := regBit sh 58, aacc := if regBit sh 59 then some (regBit sh 61, (s.me.getS b).toNat % 256) else none, atype := regBit sh 60,
    a := z, b := z, both := both, rmode := s.me.csr.rmode, seed := s.me.csr.srseed }

/-- A bad shape (Table 11-8, status 4). -/
def mmaBad (sh : Word) (o : MmaOp) : Bool :=
  let top := if o.both then 512 else 256
  regField sh 62 2 != 0 || o.m == 0 || o.n == 0 || o.k == 0 || decide (o.m > top) || decide (o.n > 256) || decide (o.row0 + o.m > top) ||
    (match o.aacc with | some (_, r) => decide (o.k > 256) || decide (r + o.m > 256) | none => false)

/-- The rows and columns of one bank that a command writes on dray d: bank, first and last row, first and last column. -/
def DOp.region (d : Nat) : DOp → Option (Bool × Nat × Nat × Nat × Nat)
  | .mma o =>
    if !o.both then some (o.bank, o.row0, o.row0 + o.m - 1, 0, o.n - 1)
    else
      let lo := max o.row0 (256 * d)
      let hi := min (o.row0 + o.m) (256 * d + 256)
      if lo < hi then some (o.bank, lo - 256 * d, hi - 1 - 256 * d, 0, o.n - 1) else none
  | .accwr b r c _ => some (b, r, r, c, c + 127)
  | .acczero b r n => some (b, r, r + n - 1, 0, 255)
  | _ => none

/-- Two regions of accumulators meet. -/
def regionsMeet (x y : Bool × Nat × Nat × Nat × Nat) : Bool :=
  x.1 == y.1 && meets x.2.1 x.2.2.1 y.2.1 y.2.2.1 && meets x.2.2.2.1 x.2.2.2.2 y.2.2.2.1 y.2.2.2.2

/-- A command writes a region of dray d. -/
def DCmd.writes (c : DCmd) (d : Nat) (r : Bool × Nat × Nat × Nat × Nat) : Bool :=
  match c.op.region d with
  | some w => regionsMeet w r
  | none => false

/-- A batch holds a command that has not completed (R215). -/
def Dray.running (x : Dray) (n : Nat) : Bool := x.cmds.any (fun c => c.bat == n && !c.done)

/-- An access to a region that a committed, uncompleted batch writes stalls, in strict mode it traps with the oldest such batch (Table 04-7,
Table 15-3); a closed batch completes with its last command (R215). -/
def accHazard (s : State) (d : Nat) (r : Bool × Nat × Nat × Nat × Nat) (k : Issue State) : Issue State :=
  let x := s.myDray d
  match x.cmds.find? (fun c => x.closed.contains c.bat && x.running c.bat && c.writes d r) with
  | none => k
  | some c => if s.strict then .trap 14 (BitVec.ofNat 64 (drayIndex (clusterOf s.cur) d * 2 ^ 32 + c.bat)) else .wait

/-- Queues a command on dray d (R211, R215). -/
def State.queueDray (s : State) (d : Nat) (op : DOp) : State :=
  s.updMyDray d (fun x => { x with
    cmds := x.cmds ++ [⟨s.cur, s.me.uid, s.myPart, x.next, x.inOpen, false, op⟩], issued := x.issued + 1 })

/-! ### Matrix commands -/

/-- Draws of a matrix command: one for each element of A that the down-converter rounds (R69, R212). -/
def mmaDraws (s : State) (o : MmaOp) : Nat := if o.aacc.isSome ∧ s.drawing then o.m * o.k else 0

/-- MMA and MMAC after the lease checks: shape, operands, the hazard of an accumulator source, then the queue (R213). An accumulator source
lies on the first of the drays (log 22). -/
def mmaIssue (s : State) (d a b : BitVec 6) (ds : List Nat) : Issue State :=
  let sh := s.getS a
  let o := mmaShape s sh b.toNat (decide (ds.length = 2))
  let status := fun (n : Nat) => Issue.ok ((s.setS d (BitVec.ofNat 64 n)).advance)
  if mmaBad sh o then status 4
  else
    let oa := if o.aacc.isSome then some o.a else drayOper s (s.me.getS b.toNat) o.m o.k false
    let ob := if o.bt then drayOper s (s.me.getS (b.toNat + 1)) o.n o.k false else drayOper s (s.me.getS (b.toNat + 1)) o.k o.n false
    match oa, ob with
    | some x, some y =>
      let cmd := DOp.mma { o with a := x, b := y }
      let go := if operFull s ((if o.aacc.isSome then [] else [x]) ++ [y]) then Issue.wait
        else
          let s1 := ds.foldl (fun t i => t.queueDray i cmd) s
          .ok (((s1.setSeed (srAdvance (mmaDraws s o) s.me.csr.srseed)).setS d 0).advance)
      match o.aacc with
      | some (bk, r) => accHazard s (ds.headD 0) (bk, r, r + o.m - 1, 0, o.k - 1) go
      | none => go
    | _, _ => status 3

/-- A matrix command with AACC = 1 names RMODE and samples it before its own checks (R66, R147, R212). -/
def mmaSampled (s : State) (a : BitVec 6) (k : Issue State) : Issue State := if regBit (s.getS a) 59 then sampleRmode s k else k

/-- MMA (R212). -/
def execMma (d a b : BitVec 6) (u : BitVec 1) (s : State) : Out :=
  finish s (mmaSampled s a (needLease s u.toNat true (mmaIssue s d a b [u.toNat])))
/-- MMAC (R212). -/
def execMmac (d a b : BitVec 6) (s : State) : Out :=
  finish s (mmaSampled s a (needLease s 0 false (needLease s 1 false (needLease s 0 true (needLease s 1 true (mmaIssue s d a b [0, 1]))))))

/-! ### Accumulator commands (R214) -/

/-- The key of an accumulator. -/
def accKey (bank : Bool) (r c : Nat) : Nat := (if bank then 65536 else 0) + r * 256 + c
/-- An accumulator of a dray. -/
def Dray.accAt (x : Dray) (bank : Bool) (r c : Nat) : BitVec 32 := Sparse.get 0 x.acc (accKey bank r c)

/-- ACCRD and ACCRD.V wait for the earlier commands of the lease that write their region (R214). -/
def accRead (s : State) (d : Nat) (r : Bool × Nat × Nat × Nat × Nat) (k : State → Issue State) : Issue State :=
  needLease s d true (accHazard s d r (
    if (s.myDray d).cmds.any (fun c => !c.done && c.writes d r) then .wait
    else k (s.updMyDray d (fun x => { x with issued := x.issued + 1 }))))

/-- ACCRD (R214). -/
def execAccrd (d a : BitVec 6) (u : BitVec 1) (s : State) : Out :=
  let x := s.getS a
  let b := regBit x 8
  let r := regField x 0 8
  let c := regField x 16 8
  finish s (accRead s u.toNat (b, r, r, c, c) (fun t => .ok ((t.setS d (((s.myDray u.toNat).accAt b r c).setWidth 64)).advance)))

/-- ACCRD.V (R214): the 128 columns from COL, its low 7 bits ignored. -/
def execAccrdV (d : BitVec 5) (a : BitVec 6) (u : BitVec 1) (s : State) : Out :=
  let x := s.getS a
  let b := regBit x 8
  let r := regField x 0 8
  let c := regField x 23 1 * 128
  finish s (accRead s u.toNat (b, r, r, c, c + 127) (fun t =>
    .ok ((t.setV d (ofElems 32 ((List.range 128).map (fun j => ((s.myDray u.toNat).accAt b r (c + j)).toNat)))).advance)))

/-- ACCWR (R214). -/
def execAccwr (a : BitVec 6) (b : BitVec 5) (u : BitVec 1) (s : State) : Out :=
  let x := s.getS a
  let bk := regBit x 8
  let r := regField x 0 8
  let c := regField x 23 1 * 128
  finish s (needLease s u.toNat true (accHazard s u.toNat (bk, r, r, c, c + 127) (
    .ok ((s.queueDray u.toNat (.accwr bk r c (s.getV b))).advance))))

/-- ACCZERO (R214). -/
def execAcczero (d a : BitVec 6) (u : BitVec 1) (s : State) : Out :=
  let x := s.getS a
  let r := regField x 0 8
  let nr := regField x 32 16
  finish s (needLease s u.toNat true (
    if nr = 0 ∨ r + nr > 256 then .ok ((s.setS d 4).advance)
    else accHazard s u.toNat (regBit x 8, r, r + nr - 1, 0, 255) (
      .ok (((s.queueDray u.toNat (.acczero (regBit x 8) r nr)).setS d 0).advance))))

/-- ACCST after RMODE is sampled (R214). -/
def accstOp (d a b : BitVec 6) (u : BitVec 1) (s : State) : Issue State :=
  let x := s.getS a
  let r := regField x 0 8
  let c := regField x 16 8
  let nr := regField x 32 16
  let nc := regField x 48 16
  let bank := regBit x 8
  needLease s u.toNat true (
    if nr = 0 ∨ nc = 0 ∨ r + nr > 256 ∨ c + nc > 256 then .ok ((s.setS d 4).advance)
    else match drayOper s (s.getS b) nr nc true with
      | none => .ok ((s.setS d 3).advance)
      | some o =>
        accHazard s u.toNat (bank, r, r + nr - 1, c, c + nc - 1) (
          if operFull s [o] then .wait
          else
            let raw := (s.myCluster.wagon (s.me.slot o.slot).wagon).livery.toNat % 256 == 0
            let draws := if s.drawing ∧ !raw then nr * nc else 0
            let s1 := s.queueDray u.toNat (.accst bank r c nr nc o raw s.me.csr.rmode s.me.csr.srseed)
            .ok (((s1.setSeed (srAdvance draws s.me.csr.srseed)).setS d 0).advance)))

/-- ACCST (R214): RMODE is sampled before its own checks (R66, R147). -/
def execAccst (d a b : BitVec 6) (u : BitVec 1) (s : State) : Out := finish s (sampleRmode s (accstOp d a b u s))

/-- ACCWR.CB (R214): 768 bytes within one ATTACHED slot. -/
def accwrCbOp (d a : BitVec 6) (u : BitVec 1) (s : State) : Issue State :=
  let x := s.base a
  let n := x.toNat / 2 ^ 18 % 32
  needLease s u.toNat true (
    if spaceOf x ≠ 0xE0 ∨ x.toNat % 2 ^ 56 / 2 ^ 23 ≠ 0 ∨ (s.me.slot n).st ≠ .attached ∨ x.toNat % 2 ^ 18 + 768 > 2 ^ 18 then .ok ((s.setS d 3).advance)
    else if s.pend s.cur n ≥ 255 then .wait
    else .ok (((s.queueDray u.toNat (.acccb (locWagon (clusterOf s.cur) (s.me.slot n).wagon (x.toNat % 2 ^ 18)) n)).setS d 0).advance))

/-- ACCWR.CB (R214). -/
def execAccwrCb (d a : BitVec 6) (u : BitVec 1) (s : State) : Out :=
  finish s ((accwrCbOp d a u s).bind (fun t => .ok (t.stepBase a)))

/-! ### Arithmetic (R63, R74) -/

/-- Magnitude j of entry e of the table (R64). -/
def magAt (mag : BitVec 6144) (e j : Nat) : Nat := mag.toNat / 2 ^ (24 * e + 3 * j) % 8

/-- Weight j of an LCB2 index (R63). -/
def lcb2Weight (mag : BitVec 6144) (idx j : Nat) : Val :=
  let m := magAt mag (idx / 256 % 256) j
  let bit := fun (i : Nat) => idx / 2 ^ i % 2
  let neg := if j ≤ 6 then bit (1 + j) = 1 else (((List.range 7).map (fun i => bit (i + 1))).sum) % 2 = 1
  let q : Int := (if neg then -(2 * (2 * m + 1) : Int) else 2 * (2 * m + 1)) + (if bit 0 = 1 then 1 else -1)
  .fin (decide (q < 0)) q.natAbs 1 (-2)

/-- Element e of a dray operand: decoded with its scale, LCB2 with the table (R62, R63). -/
def operVal (s : State) (mag : BitVec 6144) (o : DOper) (e : Nat) : Val :=
  let mode := liveryMode o.livery
  let lcb := o.livery.toNat % 256 = 12
  let p := spotOf o.livery (if lcb then e / 8 else e)
  let raw := s.bytes (o.wagon + p.byte) ((p.bit + liveryBits o.livery + 7) / 8) / 2 ^ p.bit % 2 ^ liveryBits o.livery
  let sc := if mode = 0 then 0 else (s.byte (o.wagon + liveryOff o.livery + e / (if mode = 1 then 32 else 16))).toNat
  match fmtOfLivery (o.livery.toNat % 256) with
  | some f => scaledVal mode (decodeVal f raw) sc
  | none => scaledVal mode (lcb2Weight mag raw (e % 8)) sc

/-- The exact sum of a group with its special cases (R74). -/
def sumVals (vs : List Val) : Val :=
  if vs.any isNan || (vs.any (fun v => isInf v && negOf v) && vs.any (fun v => isInf v && !negOf v)) then .nan false
  else if vs.any isInf then .inf (vs.any (fun v => isInf v && negOf v))
  else
    let nz := vs.filter (fun v => !isZero v)
    let k := (nz.map expOf).foldl min ((nz.map expOf).headD 0)
    let n := (nz.map (numerAt k)).foldl (· + ·) 0
    if n = 0 then .fin (nz.isEmpty && vs.all negOf) 0 1 0 else .fin (decide (n < 0)) n.natAbs 1 k

/-- A product of two decoded operands; a product of integers is an integer and has no sign when zero (R74). -/
def prodVal (ints : Bool) (a b : Val) : Val :=
  let p := (mulVal a b).1
  if ints && isZero p then .fin false 0 1 0 else p

/-- dray_element over groups of 8 products, `n` groups to come (R74). -/
def drayElement (ovw : Bool) : Nat → Bool → Nat → List Val → Nat
  | 0, _, acc, _ => acc
  | n + 1, first, acc, ps =>
    let g := ps.take 8
    drayElement ovw n false (fp32 (sumVals (if ovw && first then g else g ++ [decodeVal .f32 acc]))) (ps.drop 8)

/-! ### Running a command (R212 to R215) -/

/-- The bytes that one row of an operand reads, as locations and lengths: its elements and their scale bytes (R57, R61); an LCB2 index
holds eight weights (R63). -/
def DOper.row (o : DOper) (i cols : Nat) : List (Nat × Nat) :=
  let e := o.first + i * o.ld
  let n := if o.livery.toNat % 256 = 12 then 8 else 1
  let p := spotOf o.livery (e / n)
  let q := spotOf o.livery ((e + cols - 1) / n)
  let bs := if liveryMode o.livery = 1 then 32 else 16
  let sc := liveryOff o.livery + e / bs
  (o.wagon + p.byte, q.byte + (q.bit + liveryBits o.livery + 7) / 8 - p.byte) ::
    (if liveryMode o.livery = 0 then [] else [(o.wagon + sc, liveryOff o.livery + (e + cols - 1) / bs - sc + 1)])

/-- The bytes that an operand of `rows` rows of `cols` elements reads. -/
def DOper.reads (o : DOper) (rows cols : Nat) : List (Nat × Nat) := (List.range rows).flatMap (fun i => o.row i cols)

/-- The operand bytes that a command reads, as locations and lengths (R212, R214). -/
def DOp.reads : DOp → List (Nat × Nat)
  | .mma o => (if o.aacc.isNone then o.a.reads o.m o.k else []) ++ (if o.bt then o.b.reads o.n o.k else o.b.reads o.k o.n)
  | .acccb loc _ => [(loc, 768)]
  | _ => []

/-- An element of a command's A operand, from its wagon or from the accumulators through the down-converter (R212). -/
def mmaA (s : State) (cl d : Nat) (o : MmaOp) (i k : Nat) : Val :=
  match o.aacc with
  | none => operVal s (s.dray cl d).mag o.a (o.a.first + i * o.a.ld + k)
  | some (b, r) =>
    let f := if o.atype then Fmt.e4m3 else .bf16
    let rm := modeOf (s.feature 5) o.rmode
    let draw := if rm = .sr then srDraw (srAdvance (i * o.k + k + 1) o.seed) else 0
    decodeVal f (roundVal f rm (satOf o.rmode) draw (decodeVal .f32 ((s.dray cl (if o.both then 0 else d)).accAt b (r + i) k).toNat)).1

/-- An element of a command's B operand. -/
def mmaB (s : State) (cl d : Nat) (o : MmaOp) (k j : Nat) : Val :=
  operVal s (s.dray cl d).mag o.b (o.b.first + (if o.bt then j * o.b.ld + k else k * o.b.ld + j))

/-- Both operands are unscaled integers. -/
def mmaInts (o : MmaOp) : Bool :=
  let int := fun (l : BitVec 32) => (l.toNat % 256 == 9 || l.toNat % 256 == 10) && liveryMode l == 0
  o.aacc.isNone && int o.a.livery && int o.b.livery

/-- The accumulators that a matrix command writes on dray d: key and new value. -/
def mmaResults (s : State) (cl d : Nat) (o : MmaOp) : List (Nat × BitVec 32) :=
  (List.range o.m).flatMap (fun i =>
    let row := o.row0 + i
    if o.both && decide (row / 256 ≠ d) then []
    else
      let r := row % 256
      let av := (List.range o.k).map (mmaA s cl d o i)
      (List.range o.n).map (fun j =>
        let ps := av.zipIdx.map (fun x => prodVal (mmaInts o) x.1 (mmaB s cl d o x.2 j))
        (accKey o.bank r j, BitVec.ofNat 32 (drayElement o.ovw ((o.k + 7) / 8) true ((s.dray cl d).accAt o.bank r j).toNat ps))))

/-- Writes accumulators. -/
def Dray.setAcc (x : Dray) (es : List (Nat × BitVec 32)) : Dray := { x with acc := Sparse.setMany 0 x.acc es }

/-- The bits and the scale byte of each element of an ACCST in row order: element index, bits, scale (R214). Each row derives the scale of
a block from the values that it writes there (R73). -/
def accstElems (s : State) (x : Dray) (bank : Bool) (row col nr nc : Nat) (dst : DOper) (raw : Bool) (rmode seed : Word) : List (Nat × Nat × Nat) :=
  let line := fun (i : Nat) => (List.range nc).map (fun j => (dst.first + i * dst.ld + j, (x.accAt bank (row + i) (col + j)).toNat))
  let cells := (List.range nr).flatMap line
  let mode := liveryMode dst.livery
  let b := if mode = 1 then 32 else 16
  let rm := modeOf (s.feature 5) rmode
  cells.zipIdx.map (fun y =>
    let e := y.1.1
    let v := decodeVal .f32 y.1.2
    match fmtOfLivery (dst.livery.toNat % 256) with
    | none => (e, y.1.2, 0)
    | some f =>
      let rank := (cells.zipIdx.filter (fun z => decide (z.1.1 < e) || (z.1.1 == e && decide (z.2 < y.2)))).length
      let draw := if rm = .sr then srDraw (srAdvance (rank + 1) seed) else 0
      if raw then (e, y.1.2, 0)
      else if mode = 0 then (e, (roundVal f rm (satOf rmode) draw v).1, 0)
      else
        let sc := deriveScale mode f (((line (y.2 / nc)).filter (fun z => decide (z.1 / b = e / b))).map (fun z => decodeVal .f32 z.2))
        (e, encodeScaled f mode rm (satOf rmode) draw v sc, sc))

/-- Puts an element's bits and its scale byte over bytes already to be written; other bits of its bytes stay. -/
def putElement (s : State) (o : DOper) (out : Sparse (Option Byte)) (y : Nat × Nat × Nat) : Sparse (Option Byte) :=
  let p := spotOf o.livery y.1
  let b := liveryBits o.livery
  let n := (p.bit + b + 7) / 8
  let old := ((List.range n).map (fun i => ((Sparse.get none out (o.wagon + p.byte + i)).getD (s.byte (o.wagon + p.byte + i))).toNat * 256 ^ i)).sum
  let w := old - old / 2 ^ p.bit % 2 ^ b * 2 ^ p.bit + y.2.1 % 2 ^ b * 2 ^ p.bit
  let out1 := (List.range n).foldl (fun m i => Sparse.set none m (o.wagon + p.byte + i) (some (byteOf w i))) out
  if liveryMode o.livery = 0 then out1 else Sparse.set none out1 (o.wagon + p.scale) (some (BitVec.ofNat 8 y.2.2))

/-- The effect of a command that does not fail, on the state and its dray. -/
def drayEffect (s : State) (cl d : Nat) (c : DCmd) : State :=
  match c.op with
  | .mma o =>
    if o.both then (s.updDray cl 0 (fun x => x.setAcc (mmaResults s cl 0 o))).updDray cl 1 (fun x => x.setAcc (mmaResults s cl 1 o))
    else s.updDray cl d (fun x => x.setAcc (mmaResults s cl d o))
  | .accwr b r col v => s.updDray cl d (fun x => x.setAcc ((List.range 128).map (fun j => (accKey b r (col + j), BitVec.ofNat 32 (elem v 32 j)))))
  | .acczero b r n => s.updDray cl d (fun x => x.setAcc ((List.range (256 * n)).map (fun j => (accKey b r 0 + j, 0))))
  | .accst b r col nr nc dst raw rm sd =>
    let out := (accstElems s (s.dray cl d) b r col nr nc dst raw rm sd).foldl (putElement s dst) []
    s.writeGroup c.part c.core (out.filterMap (fun e => e.2.map (fun v => (e.1, v))))
  | .acccb loc _ => s.updDray cl d (fun x => { x with mag := BitVec.ofNat 6144 (s.bytes loc 768) })

/-- Marks a command of a dray done, and its batch as failed when it is its first that fails (R215). -/
def Dray.finish (x : Dray) (bat pos : Nat) (bad : Bool) : Dray :=
  { x with
    cmds := x.cmds.map (fun y => if y.bat == bat && y.pos == pos then { y with done := true } else y),
    fails := if bad && !x.fails.any (fun e => e.1 == bat) then x.fails ++ [(bat, pos)] else x.fails }

/-- The first command of a dray that is not done (R93). -/
def Dray.head (x : Dray) : Option DCmd := x.cmds.find? (fun c => !c.done)

/-- Runs a command and marks it done on the drays it stands in: an operand that meets an error makes it write nothing (R215). -/
def runDray (s : State) (cl : Nat) (c : DCmd) (at_ : List (Nat × DCmd)) : State :=
  let bad := c.op.reads.any (fun r => s.hasBad r.1 r.2)
  let s1 := if bad then s else drayEffect s cl ((at_.map (fun e => e.1)).headD 0) c
  at_.foldl (fun t e => t.updDray cl e.1 (fun x => x.finish e.2.bat e.2.pos bad)) s1

/-- An earlier store of the issuer to a byte that the command reads is not performed yet (R90). -/
def drayBlocked (s : State) (c : DCmd) : Bool :=
  (s.core c.core).mem.wbuf.any (fun w => c.op.reads.any (fun r => overlap w.loc w.n r.1 r.2))

/-- DRAY_COMMAND_RUN (R212): the first command of the queue that is not done; an MMAC stands first in both queues. -/
def execDrayCommandRun (cl d : Nat) (s : State) : Out :=
  match (s.dray cl d).head with
  | none => .next s
  | some c =>
    if drayBlocked s c then .next s
    else match c.op with
      | .mma o =>
        if o.both then
          match (s.dray cl 0).head, (s.dray cl 1).head with
          | some x, some y => if x.op = y.op ∧ x.core = y.core then .next (runDray s cl c [(0, x), (1, y)]) else .next s
          | _, _ => .next s
        else .next (runDray s cl c [(d, c)])
      | _ => .next (runDray s cl c [(d, c)])

/-- BATCH_COMPLETE (R215): the oldest closed batch completes once all its commands have. -/
def execBatchComplete (cl d : Nat) (s : State) : Out :=
  match (s.dray cl d).closed with
  | [] => .next s
  | n :: l =>
    if (s.dray cl d).running n then .next s
    else .next (s.updDray cl d (fun x => { x with closed := l, cmds := x.cmds.filter (fun c => c.bat != n) }))

/-- LEASE_GRANT (R211): a lease whose holder is dead ends once its batches have completed; a dray that no core holds goes to the next
waiter. -/
def execLeaseGrant (cl d : Nat) (s : State) : Out :=
  let x := s.dray cl d
  let x1 := if x.giveUp ∧ x.quiet then x.release else x
  match x1.holder, x1.nextWaiter with
  | none, some g =>
    .next ((s.updDray cl d (fun _ => x1.grantTo g (g % 16) (s.core g).part)).updCore g (fun c =>
      c.sch (fun y => { y with wantLease := y.wantLease.filter (· != d) })))
  | _, _ => .next (s.updDray cl d (fun _ => x1))

end Sys2Proof.Machine
end

