-- ==== Sys2Proof/Machine/Coach.lean ====
section
/-!
DEFINITION. The stagecoach engine of a cluster, major 0x28: configuration, commands at issue and as they run (spec 12 R216 to R232,
01 R12, 04 R90, R93).
-/

namespace Sys2Proof.Machine

/-! ### Configuration (R219, R220) -/

/-- An address field of the block: absent, or in an allowed space, aligned, with its must-be-zero bits zero (R219, R8). -/
def cfgAddrOk (cfg : BitVec 512) (lo align : Nat) (window : Bool) : Bool :=
  let a := cfgField cfg lo 64
  a == 0 || (decide (a % align = 0) &&
    ((!window && decide (a / 2 ^ 56 = 0)) || (decide (a / 2 ^ 56 = 0xE0) && decide (a % 2 ^ 56 / 2 ^ 23 = 0))))

/-- The checks of a configuration block (Table 12-3); claimed mode needs feature 1 (R275). -/
def cfgOk (s : State) (cfg : BitVec 512) : Bool :=
  let f := cfgField cfg
  let ne := f 0 9
  let k := f 9 4
  let nt := f 16 14
  let cap := f 32 14
  let rowb := f 64 16
  [(13, 3), (30, 2), (46, 2), (52, 12), (80, 48)].all (fun r => f r.1 r.2 == 0) &&
  decide (1 ≤ ne) && decide (ne ≤ 256) && decide (1 ≤ k) && decide (k ≤ 8) && decide (k ≤ ne) &&
  decide (1 ≤ nt) && decide (nt ≤ 8192) && decide (1 ≤ cap) && decide (cap ≤ 8192) &&
  decide (f 50 2 ≠ 3) && decide (16 ≤ rowb) && decide (rowb ≤ 32768) && decide (rowb % 16 = 0) &&
  (f 48 1 == 0 || s.feature 1) &&
  cfgAddrOk cfg 128 4 false && cfgAddrOk cfg 192 16 false && cfgAddrOk cfg 256 4 false && cfgAddrOk cfg 320 8 false &&
  cfgAddrOk cfg 384 4 true && cfgAddrOk cfg 448 4 false &&
  (f 384 64 == 0 || decide (f 384 64 % 2 ^ 18 + nt * k * 4 ≤ 2 ^ 18))

/-- The refused id of a code (R218). -/
def coachRefused (code : Nat) : Word := BitVec.ofNat 64 (2 ^ 31 + code)

/-- SCCFG (R220). -/
def sccfgOp (d a : BitVec 6) (s : State) : Issue State :=
  (readBlock s true (s.base a) 8).bind (fun x =>
    let cfg : BitVec 512 := BitVec.ofNat 512 x.2
    let s1 := if cfgOk s cfg then (x.1.upd (fun c => { c with sc := { c.sc with cfg := some cfg } })).setS d 0
      else x.1.setS d (coachRefused 2)
    .ok ((s1.stepBase a).advance))

/-- SCCFG (R220). -/
def execSccfg (d a : BitVec 6) (s : State) : Out := finish s (sccfgOp d a s)

/-! ### Checks at issue (R218, R221) -/

/-- The slots that a range of n bytes lies in: none beyond the window or over a slot that is not ATTACHED; no slots in another space (R12). -/
def areaSlots (s : State) (a n : Nat) : Option (List Nat) :=
  if a / 2 ^ 56 ≠ 0xE0 then some []
  else if a % 2 ^ 56 / 2 ^ 23 ≠ 0 ∨ (a + n - 1) / 2 ^ 23 ≠ a / 2 ^ 23 then none
  else
    let l := spanned a (a + n - 1)
    if l.all (fun i => (s.me.slot i).st == .attached) then some l else none

/-- The fields that a command needs, by their place in the block (Table 12-13). -/
def coachNeeds (cfg : BitVec 512) (func : Nat) : List Nat :=
  match func with
  | 1 | 2 => [128, 384]
  | 3 | 4 => [384, 448]
  | 5 => [384, 192, 320]
  | 6 => [384, 256, 320] ++ (if cfgField cfg 49 1 = 1 then [192] else [])
  | _ => []

/-- The areas that a command checks: address and bytes (Table 12-13); those of the DTAB entries apart. -/
def coachAreas (cfg : BitVec 512) (func : Nat) (a : Nat) : List (Nat × Nat) :=
  let f := cfgField cfg
  let ne := f 0 9
  let nt := f 16 14
  let pairs := nt * f 9 4 * 4
  let rows := nt * f 64 16
  let man := (f 384 64, pairs)
  match func with
  | 1 | 2 => [(f 128 64, nt * ne * 4), man]
  | 3 => [man, (f 448 64, 1024 + pairs)] ++ (if a = 0 then [] else [(a, ne * (if f 48 1 = 1 then 8 else 4))])
  | 4 => [man, (f 448 64, ne * 4)]
  | 5 => [man, (f 192 64, rows), (f 320 64, ne * 8)]
  | 6 => [man, (f 256 64, pairs), (f 320 64, ne * 8), (a, rows)] ++ (if f 49 1 = 1 then [(f 192 64, rows)] else [])
  | _ => []

/-- The table that a command reads at issue: address, entries, bytes of an entry (R221, R226). -/
def coachTable (cfg : BitVec 512) (func : Nat) (a : Nat) : Nat × Nat × Nat :=
  let ne := cfgField cfg 0 9
  match func with
  | 3 => if a = 0 then (0, 0, 0) else (a, ne, if cfgField cfg 48 1 = 1 then 8 else 4)
  | 5 | 6 => (cfgField cfg 320 64, ne, 8)
  | _ => (0, 0, 0)

/-- The checks of an entry of a table, which is read as a load of the core (R221). -/
def tableEntry (acc : State × List VElem) (i : Nat) (a : Word) (w : Nat) : Issue (State × List VElem) :=
  (scalarPlace acc.1 .load a w).bind (fun x =>
    let s := x.1
    if s.pendFull x.2 || s.wmStall s.cur a.toNat (a.toNat + w - 1) || !s.me.readable x.2 w then .stay s
    else if s.badNow x.2 w then .trapAt s 11 a
    else .ok (s, acc.2 ++ [⟨i, a, x.2⟩]))

/-- The places of a command's table (address, entries, bytes of an entry). -/
def tablePlaces (s : State) (t : Nat × Nat × Nat) : Issue (State × List VElem) :=
  Issue.fold (fun acc i => tableEntry acc i (BitVec.ofNat 64 (t.1 + i * t.2.2)) t.2.2) (List.range t.2.1) (s, [])

/-- The entries of a table as the core reads them now. -/
def tableWords (s : State) (w : Nat) (els : List VElem) : List Word := (readElems s w els).map (fun v => BitVec.ofNat 64 v.2)

/-- An address has space byte 0x00, or 0xE0 with its must-be-zero bits zero (R221). -/
def coachAddr (a : Word) : Bool := spaceOf a == 0 || (spaceOf a == 0xE0 && a.toNat % 2 ^ 56 / 2 ^ 23 == 0)

/-- The slots of the DTAB entries: none when an entry is refused (R221). -/
def dtabSlots (s : State) (bytes : Nat) (t : List Word) : Option (List Nat) :=
  if !t.all coachAddr then none
  else (t.mapM (fun (b : Word) =>
    if spaceOf b = 0xE0 ∧ b.toNat % 2 ^ 18 + bytes > 2 ^ 18 then none else areaSlots s b.toNat bytes)).map List.flatten

/-- Takes a command that has passed its checks, once fewer than 8 are outstanding, its slots have room, the budget allows it and the
loads of its table, and it arrives in its place among those of the cycle (R216, R36, R128). -/
def coachAccept (s : State) (d : BitVec 6) (func : Nat) (cfg : BitVec 512) (a b : Word) (w : Nat) (els : List VElem) (slots : List Nat) (draws : Nat) : Issue State :=
  if (s.coachCmds s.cur).length ≥ Config.coachOutstanding ∨ slots.any (fun n => decide (s.pend s.cur n ≥ 255)) then .stay s
  else served s (elemAsks s w els ++ [askOf s.atIssue s.cur s.myPart s.me.acct 4 1]) (fun s0 =>
    inOrder (noteElems s0 w els) (clusterOf s.cur) coachKey (s.cur % Config.coresPerCluster) (fun s1 =>
      let seq := s.me.sc.seq % 65535 + 1
      let cmd : CCmd := { core := s.cur, uid := s.me.uid, part := s.myPart, acct := s.me.acct, sup := s.me.sup, seq := seq, func := func, cfg := cfg,
                          a := a, b := b, table := tableWords s w els, rmode := s.me.csr.rmode, seed := s.me.csr.srseed, slots := slots }
      let s2 := (s1.updMyCluster (fun c => { c with coach := c.coach ++ [cmd] })).upd (fun c => { c with sc := { c.sc with seq := seq } })
      .ok ((s2.setSeed (srAdvance draws s.me.csr.srseed)).setS d (BitVec.ofNat 64 seq))))

/-- Bytes of a row element (Table 12-3, RFMT). -/
def rowElem (cfg : BitVec 512) : Nat := if cfgField cfg 50 2 = 0 then 4 else 2

/-- Draws of SCGATHER: one for each output element (R229). -/
def gatherDraws (s : State) (cfg : BitVec 512) : Nat :=
  if s.drawing then cfgField cfg 16 14 * (cfgField cfg 64 16 / rowElem cfg) else 0

/-- A command other than SCCLAIM at issue (R218, R220, R221). -/
def coachIssue (s : State) (d : BitVec 6) (func : Nat) (a : Word) : Issue State :=
  let refuse := fun (t : State) (code : Nat) => Issue.ok (t.setS d (coachRefused code))
  match s.me.sc.cfg with
  | none => refuse s 1
  | some cfg =>
    if (coachNeeds cfg func).any (fun lo => cfgField cfg lo 64 == 0) then refuse s 3
    else if func = 3 ∧ cfgField cfg 48 1 = 1 ∧ a = 0 then refuse s 3
    else if func = 6 ∧ !coachAddr a then refuse s 3
    else match (coachAreas cfg func a.toNat).mapM (fun r => areaSlots s r.1 r.2) with
      | none => refuse s 3
      | some sl =>
        let t := coachTable cfg func a.toNat
        let w := t.2.2
        (tablePlaces s t).bind (fun x =>
          match (if func = 5 ∨ func = 6 then dtabSlots s (cfgField cfg 32 14 * cfgField cfg 64 16) (tableWords x.1 w x.2) else some []) with
          | none => (readPlaced x.1 w x.2).bind (fun y => refuse y.1 3)
          | some dl => coachAccept x.1 d func cfg a 0 w x.2 (sl.flatten ++ dl).eraseDups (if func = 6 then gatherDraws s cfg else 0))

/-- A command without operands. -/
def coachPlain (d : BitVec 6) (func : Nat) (s : State) : Issue State := (coachIssue s d func 0).bind (fun t => .ok t.advance)
/-- A command with an address operand. -/
def coachBased (d a : BitVec 6) (func : Nat) (s : State) : Issue State :=
  (coachIssue s d func (s.base a)).bind (fun t => .ok ((t.stepBase a).advance))

/-- SCTOPK (R223). -/
def execSctopk (d : BitVec 6) (s : State) : Out := finish s (coachPlain d 1 s)
/-- SCCOLK (R224). -/
def execSccolk (d : BitVec 6) (s : State) : Out := finish s (coachPlain d 2 s)
/-- SCROUTE (R225). -/
def execScroute (d a : BitVec 6) (s : State) : Out := finish s (coachBased d a 3 s)
/-- SCROUTE.CNT (R225). -/
def execScrouteCnt (d : BitVec 6) (s : State) : Out := finish s (coachPlain d 4 s)
/-- SCSEND (R228). -/
def execScsend (d : BitVec 6) (s : State) : Out := finish s (coachPlain d 5 s)
/-- SCGATHER (R229): RMODE is sampled before its own checks (R66, R147). -/
def execScgather (d a : BitVec 6) (s : State) : Out := finish s (sampleRmode s (coachBased d a 6 s))

/-- SCCLAIM at issue (R227). -/
def scclaimOp (s : State) (d : BitVec 6) (x y : Word) : Issue State :=
  let n := regField y 0 14
  let cap := regField y 16 14
  if n = 0 ∨ n > 8192 ∨ cap = 0 ∨ cap > 8192 then .ok (s.setS d (coachRefused 2))
  else if x.toNat % 8 ≠ 0 ∨ spaceOf x ≠ 0 then .ok (s.setS d (coachRefused 3))
  else coachAccept s d 8 0 x y 0 [] [] 0

/-- SCCLAIM (R227). -/
def execScclaim (d a b : BitVec 6) (s : State) : Out :=
  finish s ((scclaimOp s d (s.base a) (s.getS b)).bind (fun t => .ok ((t.stepBase a).advance)))

/-! ### Synchronous reads (R231) -/

/-- SCMREAD (R231). With a configuration whose MAN is absent the value is open (log 23). -/
def scmreadOp (d a : BitVec 6) (s : State) : Issue State :=
  match s.me.sc.cfg with
  | none => .ok (s.setS d 0)
  | some cfg =>
    let i := (s.getS a).toNat
    let man := cfgField cfg 384 64
    if (s.coachCmds s.cur).any (fun c => decide (1 ≤ c.func) && decide (c.func ≤ 3)) then .wait
    else if i ≥ cfgField cfg 16 14 * cfgField cfg 9 4 then .ok (s.setS d 0)
    else if man = 0 then .ok ({ s with free := s.free + 1 }.setS d (Config.freeValue s.free))
    else
      let x := BitVec.ofNat 64 (man + 4 * i)
      (scalarPlace s .load x 4).bind (fun y => loadAt y.1 d x y.2 4 false false)

/-- SCMREAD (R231). -/
def execScmread (d a : BitVec 6) (s : State) : Out := finish s ((scmreadOp d a s).bind (fun t => .ok t.advance))

/-- The value of an SCSTAT selector (Table 12-8). -/
def scSelect (s : State) (x : Nat) : Word :=
  let c := s.me.sc
  match x with
  | 0 => s.scstat
  | 1 => c.result
  | 2 => (match c.cfg with | some g => g.setWidth 64 | none => 0)
  | 3 => BitVec.ofNat 64 c.routed
  | 4 => BitVec.ofNat 64 c.drops
  | 5 => BitVec.ofNat 64 c.resid
  | 6 => BitVec.ofNat 64 c.discarded
  | _ =>
    match c.cfg with
    | some g => if 256 ≤ x ∧ x < 256 + cfgField g 0 9 then BitVec.ofNat 64 (Sparse.get 0 c.counts (x - 256)) else 0
    | none => 0

/-- SCSTAT (R231). -/
def execScstat (d a : BitVec 6) (s : State) : Out := .next ((s.setS d (scSelect s (s.getS a).toNat)).advance)

/-! ### Accesses of a running command (R90, R228, R230) -/

/-- Why a running command stops. -/
inductive CoachStop where
  /-- An earlier store of the core to a byte that it reads is not performed yet (R90). -/
  | blocked
  /-- It ends with a status at an address, after the writes of this state; `record` when the router discarded the packet (R278). -/
  | fail (s : State) (status addr : Nat) (record : Bool)
  deriving DecidableEq, Repr

/-- Counts an access of a command to n bytes at a place: HBM over the fabric, a peer over the fabric alone (R128, Table 06-11). -/
def coachCount (s : State) (c : CCmd) (p : Landing) (n : Nat) : State :=
  if p.region = 4 then s
  else (if p.region = 0 then s.count c.part c.acct 0 n else s).count c.part c.acct 2 n

/-- Where a byte of a command lands. Only destination rows and claims reach a peer (Table 01-7), which serves them or not (R25). -/
def coachAt (s : State) (c : CCmd) (peers : Bool) (k : Access) (a : Nat) : Except CoachStop (State × Landing) :=
  let n := a / 2 ^ 18 % 32
  if (a / 2 ^ 56 = 0xE0 ∧ (a % 2 ^ 56 / 2 ^ 23 ≠ 0 ∨ !(c.slots.contains n || ((s.core c.core).slot n).st == .attached)))
    ∨ (a / 2 ^ 56 ≠ 0xE0 ∧ a / 2 ^ 56 ≠ 0) then .error (.fail s 1 a false)
  else match engineAt s c.core c.part c.sup k a with
    | .error e => .error (.fail s 1 a (e == 15))
    | .ok (s1, p) =>
      if p.region = 0 ∨ p.region = 4 then .ok (s1, p)
      else if !peers ∨ p.region = 1 ∨ (k = .atomic ∧ p.region = 3) then .error (.fail s1 1 a false)
      else if p.answers then .ok (s1, p) else .error (.fail s1 3 a false)

/-- Reads n bytes from an address on, little-endian. -/
def coachRead (c : CCmd) (peers : Bool) : Nat → State → Nat → Except CoachStop (State × Nat)
  | 0, s, _ => .ok (s, 0)
  | n + 1, s, a =>
    match coachAt s c peers .load (a % 2 ^ 64) with
    | .error e => .error e
    | .ok (s1, p) =>
      if p.awaits (s.core c.core) then .error .blocked
      else if s1.hasBad p.loc 1 then .error (.fail s1 2 (a % 2 ^ 64) false)
      else match coachRead c peers n (coachCount s1 c p 1) (a + 1) with
        | .error e => .error e
        | .ok (s2, v) => .ok (s2, (s.byte p.loc).toNat + 256 * v)

/-- The locations of n bytes from an address on, up to the first that fails. -/
def coachPlaces (c : CCmd) (peers : Bool) : Nat → State → Nat → State × List Nat × Option CoachStop
  | 0, s, _ => (s, [], none)
  | n + 1, s, a =>
    match coachAt s c peers .store (a % 2 ^ 64) with
    | .error e => ((match e with | .fail t _ _ _ => t | .blocked => s), [], some e)
    | .ok (s1, p) =>
      let r := coachPlaces c peers n (coachCount s1 c p 1) (a + 1)
      (r.1, p.loc :: r.2.1, r.2.2)

/-- Writes n bytes of a value from an address on; on a failure those before it stay (R230). -/
def coachWrite (c : CCmd) (peers : Bool) (s : State) (a n v : Nat) : Except CoachStop State :=
  let p := coachPlaces c peers n s a
  let s1 := p.1.writeGroup c.part c.core (p.2.1.zipIdx.map (fun x => (x.1, byteOf v x.2)))
  match p.2.2 with
  | none => .ok s1
  | some (.fail _ st x r) => .error (.fail s1 st x r)
  | some .blocked => .error .blocked

/-- Walks over a list, ending at the first stop. -/
def coachFold {α β : Type} (f : β → α → Except CoachStop β) : List α → β → Except CoachStop β
  | [], b => .ok b
  | x :: l, b =>
    match f b x with
    | .error e => .error e
    | .ok b1 => coachFold f l b1

/-! ### The manifest (R222) -/

/-- Fields of a command's configuration. -/
def CCmd.ne (c : CCmd) : Nat := cfgField c.cfg 0 9
/-- Choices per token. -/
def CCmd.k (c : CCmd) : Nat := cfgField c.cfg 9 4
/-- Tokens. -/
def CCmd.nt (c : CCmd) : Nat := cfgField c.cfg 16 14
/-- Capacity per expert. -/
def CCmd.cap (c : CCmd) : Nat := cfgField c.cfg 32 14
/-- Row length in bytes. -/
def CCmd.rowb (c : CCmd) : Nat := cfgField c.cfg 64 16
/-- An address field. -/
def CCmd.addr (c : CCmd) (lo : Nat) : Nat := cfgField c.cfg lo 64

/-- Every pair (t, c) in token-major order. -/
def CCmd.pairs (c : CCmd) : List (Nat × Nat) := (List.range c.nt).flatMap (fun t => (List.range c.k).map (fun j => (t, j)))

/-- Reads entry (t, c) of the manifest. -/
def entryRead (c : CCmd) (s : State) (t j : Nat) : Except CoachStop (State × Nat) := coachRead c false 4 s (c.addr 384 + (t * c.k + j) * 4)
/-- Writes entry (t, c) of the manifest. -/
def entryWrite (c : CCmd) (s : State) (t j v : Nat) : Except CoachStop State := coachWrite c false s (c.addr 384 + (t * c.k + j) * 4) 4 v

/-- A field of a manifest entry (Table 12-4). -/
def entField (x lo n : Nat) : Nat := x / 2 ^ lo % 2 ^ n
/-- A manifest entry. -/
def entryOf (resid drop rout val : Bool) (row exp : Nat) : Nat :=
  (if resid then 2 ^ 27 else 0) + (if drop then 2 ^ 26 else 0) + (if rout then 2 ^ 25 else 0) + (if val then 2 ^ 24 else 0)
    + row % 2 ^ 16 * 256 + exp % 256

/-! ### Selection (R223, R224) -/

/-- A score ranks above another: zeros equal, every NaN below minus infinity (R223). -/
def outranks (x y : Val) : Bool := if isNan x then false else if isNan y then true else ltVal y x

/-- Puts a score behind those that it does not outrank. -/
def insertRank (x : Val × Nat) : List (Val × Nat) → List (Val × Nat)
  | [] => [x]
  | y :: l => if outranks x.1 y.1 then x :: y :: l else y :: insertRank x l

/-- The indices of scores in descending order, ties by ascending index. -/
def rankOrder (xs : List Val) : List Nat := ((xs.zipIdx.foldl (fun l x => insertRank x l) []).map (fun e => e.2))

/-- Score (t, e). -/
def scoreRead (c : CCmd) (acc : State × List Val) (te : Nat × Nat) : Except CoachStop (State × List Val) :=
  (coachRead c false 4 acc.1 (c.addr 128 + (te.1 * c.ne + te.2) * 4)).map (fun r => (r.1, acc.2 ++ [decodeVal .f32 r.2]))

/-- What a command leaves beside its state: RESULT, the counts, the figures of SCROUTE, the choices discarded. -/
structure CoachDone where
  s : State
  result : Nat
  counts : Option (Sparse Nat) := none
  route : Option (Nat × Nat × Nat) := none
  disc : Option Nat := none
  deriving DecidableEq, Repr

/-- SCTOPK (R223). -/
def runTopk (c : CCmd) (s : State) : Except CoachStop CoachDone :=
  (coachFold (fun (st : State) t =>
    match coachFold (scoreRead c) ((List.range c.ne).map (fun e => (t, e))) (st, []) with
    | .error e => .error e
    | .ok r =>
      let order := rankOrder r.2
      coachFold (fun (u : State) j => entryWrite c u t j (entryOf false false false true 0 (order[j]?.getD 0))) (List.range c.k) r.1)
    (List.range c.nt) s).map (fun s1 => { s := s1, result := c.nt * c.k })

/-- The tokens that each expert chooses (R224). -/
def colChoose (c : CCmd) (s : State) : Except CoachStop (State × List (List Nat)) :=
  coachFold (fun (acc : State × List (List Nat)) e =>
    (coachFold (scoreRead c) ((List.range c.nt).map (fun t => (t, e))) (acc.1, [])).map
      (fun r => (r.1, acc.2 ++ [(rankOrder r.2).take (min c.cap c.nt)]))) (List.range c.ne) (s, [])

/-- SCCOLK (R224). -/
def runColk (c : CCmd) (s : State) : Except CoachStop CoachDone :=
  match colChoose c s with
  | .error e => .error e
  | .ok ch =>
    (coachFold (fun (acc : State × Nat × Nat) t =>
      let l := (List.range c.ne).filter (fun e => (ch.2[e]?.getD []).contains t)
      (coachFold (fun (u : State) j => entryWrite c u t j (match l[j]? with
        | some e => entryOf false false false true 0 e
        | none => entryOf l.isEmpty false false false 0 0)) (List.range c.k) acc.1).map
        (fun u => (u, acc.2.1 + min l.length c.k, acc.2.2 + (l.length - c.k)))) (List.range c.nt) (ch.1, 0, 0)).map
      (fun r => { s := r.1, result := r.2.1 + r.2.2 * 2 ^ 32, disc := some r.2.2 })

/-! ### Routing (R225 to R227) -/

/-- The counting loop: the state, the counts and the entries with VAL (R225). -/
def countLoop (c : CCmd) (s : State) : Except CoachStop (State × Sparse Nat × Nat) :=
  coachFold (fun (acc : State × Sparse Nat × Nat) p =>
    (entryRead c acc.1 p.1 p.2).map (fun r =>
      let e := entField r.2 0 8
      if entField r.2 24 1 = 0 then (r.1, acc.2.1, acc.2.2)
      else (r.1, if e < c.ne then Sparse.modify 0 acc.2.1 e (· + 1) else acc.2.1, acc.2.2 + 1))) c.pairs (s, [], 0)

/-- Writes the counts (R222). -/
def writeCounts (c : CCmd) (s : State) (n : Sparse Nat) : Except CoachStop State :=
  coachFold (fun (u : State) e => coachWrite c false u (c.addr 448 + 4 * e) 4 (Sparse.get 0 n e)) (List.range c.ne) s

/-- SCROUTE.CNT (R225). -/
def runCount (c : CCmd) (s : State) : Except CoachStop CoachDone :=
  match countLoop c s with
  | .error e => .error e
  | .ok r => (writeCounts c r.1 r.2.1).map (fun s1 => { s := s1, result := r.2.2, counts := some r.2.1 })

/-- The claim of R227: an atomic add at the counter's home; the state and the old value. -/
def claimAt (c : CCmd) (s : State) (a n : Nat) : Except CoachStop (State × Nat) :=
  if a % 8 ≠ 0 ∨ a / 2 ^ 56 ≠ 0 then .error (.fail s 1 a false)
  else match coachAt s c true .atomic a with
    | .error e => .error e
    | .ok (s1, p) =>
      if p.awaits (s.core c.core) || (s.core c.core).mem.wbuf.any (fun w => overlap w.loc w.n p.loc 8) then .error .blocked
      else if s1.refused p.loc 8 then .error (.fail s1 3 a false)
      else if s1.hasBad p.loc 8 then .error (.fail s1 2 a false)
      else
        let old := s1.bytes p.loc 8
        .ok ((coachCount s1 c p 8).writeUnit c.part c.core p.loc 8 (BitVec.ofNat 64 (old + n)) 0xFF false, old)

/-- The bases of the experts (R226). -/
def routeBases (c : CCmd) (s : State) : Except CoachStop (State × List Nat) :=
  if cfgField c.cfg 48 1 = 0 then .ok (s, (List.range c.ne).map (fun e => ((c.table[e]?).getD 0).toNat))
  else match countLoop c s with
    | .error e => .error e
    | .ok r => coachFold (fun (acc : State × List Nat) e =>
        let n := Sparse.get 0 r.2.1 e
        if n = 0 then .ok (acc.1, acc.2 ++ [0])
        else (claimAt c acc.1 ((c.table[e]?).getD 0).toNat n).map (fun x => (x.1, acc.2 ++ [x.2]))) (List.range c.ne) (r.1, [])

/-- How far SCROUTE has got: counts, drop records, entries routed, residual tokens. -/
structure RouteAcc where
  s : State
  n : Sparse Nat
  d : Nat
  routed : Nat
  resid : Nat
  deriving DecidableEq, Repr

/-- A drop record (Table 12-5). -/
def dropRecord (c : CCmd) (x : RouteAcc) (t j e : Nat) : Except CoachStop RouteAcc :=
  (coachWrite c false x.s (c.addr 448 + 1024 + 4 * x.d) 4 (e * 2 ^ 16 + j * 2 ^ 13 + t)).map (fun u => { x with s := u, d := x.d + 1 })

/-- One entry of SCROUTE (R225). -/
def routeEntry (c : CCmd) (bases : List Nat) (x : RouteAcc) (p : Nat × Nat) : Except CoachStop RouteAcc :=
  let put := fun (y : RouteAcc) (v : Nat) => (entryWrite c y.s p.1 p.2 v).map (fun u => { y with s := u })
  match entryRead c x.s p.1 p.2 with
  | .error e => .error e
  | .ok (s1, v) =>
    let e := entField v 0 8
    let y := { x with s := s1 }
    let high := entField v 28 4 * 2 ^ 28
    if entField v 24 1 = 0 then put y (high + entryOf false false false false (entField v 8 16) e)
    else if e ≥ c.ne then
      match dropRecord c y p.1 p.2 e with
      | .error z => .error z
      | .ok y1 => put y1 (high + entryOf false true false true 0 e)
    else
      let r := (bases[e]?).getD 0 + Sparse.get 0 x.n e
      let y1 := { y with n := Sparse.modify 0 x.n e (· + 1) }
      if r < c.cap then put { y1 with routed := x.routed + 1 } (high + entryOf false false true true r e)
      else match dropRecord c y1 p.1 p.2 e with
        | .error z => .error z
        | .ok y2 => put y2 (high + entryOf false true false true r e)

/-- RESID of one token (R225). -/
def routeResid (c : CCmd) (x : RouteAcc) (t : Nat) : Except CoachStop RouteAcc :=
  match coachFold (fun (acc : State × List Nat) j => (entryRead c acc.1 t j).map (fun r => (r.1, acc.2 ++ [r.2]))) (List.range c.k) (x.s, []) with
  | .error e => .error e
  | .ok r =>
    if r.2.any (fun v => entField v 25 1 = 1) then .ok { x with s := r.1 }
    else (coachFold (fun (u : State) (y : Nat × Nat) =>
      entryWrite c u t y.2 (if entField y.1 27 1 = 1 then y.1 else y.1 + 2 ^ 27)) r.2.zipIdx r.1).map
      (fun u => { x with s := u, resid := x.resid + 1 })

/-- SCROUTE (R225). -/
def runRoute (c : CCmd) (s : State) : Except CoachStop CoachDone :=
  match routeBases c s with
  | .error e => .error e
  | .ok b =>
    match coachFold (routeEntry c b.2) c.pairs { s := b.1, n := [], d := 0, routed := 0, resid := 0 } with
    | .error e => .error e
    | .ok x =>
      match coachFold (routeResid c) (List.range c.nt) x with
      | .error e => .error e
      | .ok y => (writeCounts c y.s y.n).map (fun u =>
          { s := u, result := y.routed + y.d * 2 ^ 32, counts := some y.n, route := some (y.routed, y.d, y.resid) })

/-! ### Rows (R228, R229) -/

/-- An entry names a row of an expert (R228). -/
def entRouted (c : CCmd) (x : Nat) : Bool := decide (entField x 25 1 = 1) && decide (entField x 0 8 < c.ne)
/-- The address of the row that an entry names. -/
def rowAddr (c : CCmd) (x : Nat) : Nat := ((c.table[entField x 0 8]?).getD 0).toNat + entField x 8 16 * c.rowb

/-- SCSEND (R228). -/
def runSend (c : CCmd) (s : State) : Except CoachStop CoachDone :=
  (coachFold (fun (acc : State × Nat) p =>
    match entryRead c acc.1 p.1 p.2 with
    | .error e => .error e
    | .ok (s1, x) =>
      if !entRouted c x then .ok (s1, acc.2)
      else match coachRead c false c.rowb s1 (c.addr 192 + p.1 * c.rowb) with
        | .error e => .error e
        | .ok (s2, v) => (coachWrite c true s2 (rowAddr c x) c.rowb v).map (fun u => (u, acc.2 + 1))) c.pairs (s, 0)).map
    (fun r => { s := r.1, result := r.2 })

/-- The format of row elements (Table 12-3, RFMT). -/
def rowFmt (c : CCmd) : Fmt := match cfgField c.cfg 50 2 with | 0 => .f32 | 1 => .bf16 | _ => .f16

/-- The FP32 sum of element j of a token's routed choices (R229). -/
def gatherSum (c : CCmd) (s : State) (t j : Nat) : Except CoachStop (State × Nat) :=
  coachFold (fun (acc : State × Nat) i =>
    match entryRead c acc.1 t i with
    | .error e => .error e
    | .ok (s1, x) =>
      if !entRouted c x then .ok (s1, acc.2)
      else match coachRead c false 4 s1 (c.addr 256 + (t * c.k + i) * 4) with
        | .error e => .error e
        | .ok (s2, w) => (coachRead c true (rowElem c.cfg) s2 (rowAddr c x + j * rowElem c.cfg)).map (fun r =>
            (r.1, fp32 (fmaVal .rne (decodeVal .f32 w) (decodeVal (rowFmt c) r.2) (decodeVal .f32 acc.2)).1))) (List.range c.k) (s, 0)

/-- One output element of SCGATHER: the state and the generator after it (R229). -/
def gatherElem (c : CCmd) (acc : State × Word) (p : Nat × Nat) : Except CoachStop (State × Word) :=
  let eb := rowElem c.cfg
  let rm := modeOf (acc.1.feature 5) c.rmode
  let g := if rm = .sr then srNext acc.2 else acc.2
  let put := fun (r : State × Nat) => (coachWrite c false r.1 (c.a.toNat + p.1 * c.rowb + p.2 * eb) eb r.2).map (fun u => (u, g))
  match entryRead c acc.1 p.1 0 with
  | .error e => .error e
  | .ok (s1, x) =>
    if entField x 27 1 = 1 then
      if cfgField c.cfg 49 1 = 0 then put (s1, 0)
      else match coachRead c false eb s1 (c.addr 192 + p.1 * c.rowb + p.2 * eb) with
        | .error e => .error e
        | .ok r => put r
    else match gatherSum c s1 p.1 p.2 with
      | .error e => .error e
      | .ok r => put (r.1, (roundVal (rowFmt c) rm (satOf c.rmode) (srDraw g) (decodeVal .f32 r.2)).1)

/-- SCGATHER (R229). -/
def runGather (c : CCmd) (s : State) : Except CoachStop CoachDone :=
  (coachFold (gatherElem c) ((List.range c.nt).flatMap (fun t => (List.range (c.rowb / rowElem c.cfg)).map (fun j => (t, j)))) (s, c.seed)).map
    (fun r => { s := r.1, result := c.nt })

/-- SCCLAIM (R227). -/
def runClaim (c : CCmd) (s : State) : Except CoachStop CoachDone :=
  (claimAt c s c.a.toNat (regField c.b 0 14)).map (fun r => { s := r.1, result := r.2 })

/-! ### Completion (R230) -/

/-- A command as it runs. -/
def coachRun (c : CCmd) (s : State) : Except CoachStop CoachDone :=
  match c.func with
  | 1 => runTopk c s
  | 2 => runColk c s
  | 3 => runRoute c s
  | 4 => runCount c s
  | 5 => runSend c s
  | 6 => runGather c s
  | _ => runClaim c s

/-- The status of a command that has not failed: 4 for a claim beyond cap (R227). -/
def doneStatus (c : CCmd) (result : Nat) : Nat :=
  if c.func = 8 ∧ result + regField c.b 0 14 > regField c.b 16 14 then 4 else 0

/-- The completion message (Table 12-7). -/
def coachMsg (c : CCmd) (status result : Nat) : Msg :=
  ⟨BitVec.ofNat 64 (c.seq % 2 ^ 16 * 2 ^ 32 + c.func % 32 * 2 ^ 16 + status % 256 * 2 ^ 8 + 4), BitVec.ofNat 64 result⟩

/-- Records the completion in the status of the issuing core and posts its message, unless its task is gone (R230, Tables 12-8, 12-9). -/
def coachEnd (s : State) (c : CCmd) (status result : Nat) (x : Option CoachDone) : State :=
  let s1 := s.updCluster (clusterOf c.core) (fun y => { y with coach := y.coach.drop 1 })
  let k := s1.core c.core
  if k.uid ≠ c.uid ∨ !k.live then s1
  else
    let f := fun (z : SCore) =>
      let z1 := { z with lseq := c.seq, lfunc := c.func, lstat := status, result := BitVec.ofNat 64 result }
      match x with
      | none => z1
      | some d =>
        { z1 with
          counts := d.counts.getD z1.counts,
          routed := (d.route.getD (z1.routed, z1.drops, z1.resid)).1,
          drops := (d.route.getD (z1.routed, z1.drops, z1.resid)).2.1,
          resid := (d.route.getD (z1.routed, z1.drops, z1.resid)).2.2,
          discarded := d.disc.getD z1.discarded }
    s1.setCore c.core ({ k with sc := f k.sc }.post (s1.credits c.core) (coachMsg c status result))

/-- The budget requests of a command that has run: what the run has counted of HBM and the fabric (R128). -/
def coachAsks (s t : State) (c : CCmd) : List Ask :=
  [0, 2].map (fun act =>
    let a := askOf (.command c.core c.seq) c.core c.part c.acct act 0
    { a with amount := a.used t - a.used s })

/-- A command's bytes are served: within the ceiling, or from the start of a period when they are more than a period holds (log 14). -/
def coachServed (s : State) (a : Ask) : Bool :=
  a.amount == 0 || ((a.fits s || (a.used s == 0 && (match a.limits s with | some (_, m) => decide (0 < m) | none => true))) && s.mayServe a)

/-- A command ends in a state once its bytes are served; until then it has not run (R128). -/
def coachPaid (s t u : State) (c : CCmd) : State :=
  let l := coachAsks s t c
  if l.all (coachServed s) then u else s.enlist l

/-- STAGECOACH_COMPLETION (R230): the engine's oldest command runs and completes (R93, R216). -/
def execStagecoachCompletion (cl : Nat) (s : State) : Out :=
  match (s.cluster cl).coach with
  | [] => .next s
  | c :: _ =>
    match coachRun c s with
    | .error .blocked => .next s
    | .error (.fail s1 status a r) =>
      .next (coachPaid s s1 (coachEnd (if r then s1.fqPush (frecWord 8 c.part c.core 0 0) a else s1) c status a none) c)
    | .ok d => .next (coachPaid s d.s (coachEnd d.s c (doneStatus c d.result) d.result (some d)) c)

end Sys2Proof.Machine
end

