-- ==== Sys2Proof/Machine/Mean.lean ====
section
/-!
DEFINITION. The mean engine of a core, major 0x2C: shapes, the default table pair, loaded pairs, lanes, domain conditions (spec 13 R233 to
R244, 03 R75 to R77).
-/

namespace Sys2Proof.Machine

/-! ### Shapes (R234) -/

/-- The shape that a configuration word selects (R234): `pair0` with the FP32 shape p, `table` with a loaded pair. -/
inductive MShape where
  | arith | quad | harm | maxm | minm
  | pair0 (p : Nat)
  | table (q : Nat)
  deriving DecidableEq, Repr

/-- The canonical NaN, plus and minus infinity of FP32. -/
def nanF32 : Nat := 0x7FC00000
/-- Plus infinity. -/
def infF32 : Nat := 0x7F800000
/-- Minus infinity. -/
def ninfF32 : Nat := 0xFF800000

/-- The shape of a configuration word (R234); a P of -0 counts as +0. -/
def shapeOf (cfg : Word) : MShape :=
  let q := cfg.toNat / 2 ^ 32 % 4
  let p := cfg.toNat % 2 ^ 32
  if q ≠ 0 then .table q
  else if p = 0x3F800000 then .arith
  else if p = 0x40000000 then .quad
  else if p = 0xBF800000 then .harm
  else if p = infF32 then .maxm
  else if p = ninfF32 then .minm
  else .pair0 (if p = 0x80000000 then 0 else p)

/-- The shape takes the maximum or the minimum. -/
def MShape.picks (x : MShape) : Bool := x == .maxm || x == .minm

/-- The identity S of a shape (R234). -/
def MShape.ident (x : MShape) : Nat :=
  match x with
  | .maxm => ninfF32
  | .minm => infF32
  | _ => 0

/-- FMODE of an accumulator (Table 13-1). -/
def MAcc.fmode (m : MAcc) : Bool := m.cfg.getLsbD 40
/-- Lane i of an accumulator. -/
def MAcc.lane (m : MAcc) (i : Nat) : Lane := Sparse.get {} m.lanes i
/-- Replaces lanes of an accumulator. -/
def MAcc.setLanes (m : MAcc) (l : List (Nat × Lane)) : MAcc := { m with lanes := Sparse.setMany {} m.lanes l }
/-- An accumulator with every lane at the identity of its route (R234). -/
def freshAcc (cfg : Word) : MAcc :=
  { cfg := cfg, lanes := Sparse.setMany {} [] ((List.range 128).map (fun i => (i, { s := BitVec.ofNat 32 (shapeOf cfg).ident }))) }

/-! ### Pair 0 (R76, R77) -/

/-- An FP32 value. -/
def f32 (x : Nat) : Val := decodeVal .f32 x

/-- The rounded coefficients of the quadratic through three values over 2^k (R76). -/
def quadCoef (k : Nat) (a m b : Int) : Val × Val × Val :=
  (f32 (fp32 (valOfFix a k)), f32 (fp32 (valOfFix (-3 * a + 4 * m - b) k)), f32 (fp32 (valOfFix (2 * a - 4 * m + 2 * b) k)))

/-- log2(1 + i/1024) over 2^161. -/
def logPoint (i : Nat) : Int := log2Fix (1024 + i) (-10)
/-- 2^(i/1024) over 2^160. -/
def expPoint (i : Nat) : Int := (exp2Go 10 i (2 * 2 ^ 320) (2 ^ 320) / 2 ^ 160 : Nat)
/-- The coefficients of segment s of TL (R76). -/
def logCoef (s : Nat) : Val × Val × Val := quadCoef 161 (logPoint (2 * s)) (logPoint (2 * s + 1)) (logPoint (2 * s + 2))
/-- The coefficients of segment s of TE (R76). -/
def expCoef (s : Nat) : Val × Val × Val :=
  quadCoef 160 (expPoint (2 * s)) (expPoint (2 * s + 1)) (if s = 511 then 2 * 2 ^ 160 else expPoint (2 * s + 2))

/-- The two fused steps of a segment (R77). -/
def evalSeg (c : Val × Val × Val) (t : Val) : Nat :=
  fp32 (fmaVal .rne t (f32 (fp32 (fmaVal .rne t c.2.2 c.2.1).1)) c.1).1

/-- log2_0 of a positive finite value (R77). -/
def log20 (v : Val) : Nat :=
  match v with
  | .fin _ m _ e =>
    let l := m.log2
    let x := (m - 2 ^ l) * 512
    fp32 (addVal .rne (valOfInt (e + l)) (f32 (evalSeg (logCoef (x / 2 ^ l)) (.fin false (x % 2 ^ l) 1 (-(l : Int)))))).1
  | _ => nanF32

/-- exp2_0 of a finite value over 2^k; exponents past every FP32 value are held at 1000 (R77). -/
def exp20Fix (i : Int) (k : Nat) : Nat :=
  let n := i / (2 ^ k : Nat)
  let x := (i % (2 ^ k : Nat)).toNat * 512
  fp32 (scaleVal (max (-1000) (min 1000 n)) (f32 (evalSeg (expCoef (x / 2 ^ k)) (.fin false (x % 2 ^ k) 1 (-(k : Int))))))

/-- exp2_0 of an FP32 value; minus infinity gives +0, plus infinity itself (R77, Table 13-2). -/
def exp20 (y : Nat) : Nat :=
  match f32 y with
  | .nan _ => nanF32
  | .inf n => if n then 0 else infF32
  | .fin neg m _ e =>
    let i : Int := if neg then -(m : Int) else m
    if e ≥ 0 then exp20Fix (i * (2 ^ e.toNat : Nat)) 0 else exp20Fix i (-e).toNat

/-! ### Loaded pairs (R235, R236) -/

/-- n bytes of a pair image at an offset. -/
def imgField (img : BitVec 132096) (off n : Nat) : Nat := img.toNat / 2 ^ (8 * off) % 2 ^ (8 * n)

/-- The header of a table at an offset is valid (R235). -/
def headerOk (img : BitVec 132096) (off : Nat) : Bool :=
  let eb := intOf 16 (imgField img off 2)
  decide (-149 ≤ eb) && decide (eb ≤ 64) && decide (imgField img (off + 2) 1 ≤ 2) && imgField img (off + 3) 1 == 0 && imgField img (off + 8) 56 == 0

/-- table_eval of the table at an offset: the bits and the condition code (R236). -/
def tableEval (img : BitVec 132096) (off : Nat) (x : Nat) : Nat × Nat :=
  let sgn := imgField img (off + 2) 1
  let v := f32 x
  match v with
  | .nan _ => (nanF32, 3)
  | .inf n => if n && sgn == 0 then (nanF32, 1) else (nanF32, 4)
  | .fin neg m _ e =>
    if m = 0 then (imgField img (off + 4) 4, 0)
    else if neg && sgn == 0 then (nanF32, 1)
    else
      let l := m.log2
      let b := e + l - intOf 16 (imgField img off 2)
      if b < 0 ∨ b > 63 then (nanF32, 4)
      else
        let y := (m - 2 ^ l) * 8
        let g := off + 64 + 16 * (8 * b.toNat + y / 2 ^ l)
        let c := fun (i : Nat) => f32 (imgField img (g + 4 * i) 4)
        let r := evalSeg (c 0, c 1, c 2) (.fin false (y % 2 ^ l) 1 (-(l : Int)))
        (if neg && sgn == 1 then fp32 (negVal (f32 r)) else r, 0)

/-- The image of a loaded pair; all zeros when none is loaded, which MSET excludes. -/
def Core.pair (c : Core) (q : Nat) : BitVec 132096 := (Sparse.get none c.regs.pairs q).getD 0

/-! ### Entry and exit transforms (R234, R239, Table 13-3) -/

/-- A value that is below zero. -/
def belowZero (v : Val) : Bool := negOf v && !isZero v && !isNan v

/-- The entry transform of an FP32 value into a lane whose S is given: the bits of y and the condition code (R234, Table 13-3). -/
def entryVal (c : Core) (sh : MShape) (lane : Nat) (x : Nat) : Nat × Nat :=
  let v := f32 x
  if isNan v then (nanF32, 3)
  else match sh with
    | .arith | .maxm | .minm => (x, 0)
    | .quad => (fp32 (mulVal v v).1, 0)
    | .harm =>
      let s := f32 lane
      if isZero v then (infF32, 2)
      else if !isNan s && !isZero s && negOf s != negOf v then (nanF32, 1)
      else (fp32 (divVal (valOfInt 1) v).1, 0)
    | .pair0 p =>
      let pv := f32 p
      if isZero v && negOf pv && !isZero pv then (infF32, 2)
      else if belowZero v then (nanF32, 1)
      else
        let l := if isZero v then ninfF32 else if isInf v then infF32 else log20 v
        if isZero pv then (l, 0) else (exp20 (fp32 (mulVal pv (f32 l)).1), 0)
    | .table q => tableEval (c.pair q) 0 x

/-- The exit transform of a quotient: the bits and the condition code (Table 13-2). -/
def exitVal (c : Core) (sh : MShape) (q : Nat) : Nat × Nat :=
  let v := f32 q
  if isNan v then (nanF32, 3)
  else match sh with
    | .arith | .maxm | .minm => (q, 0)
    | .quad => (fp32 (sqrtVal v).1, 0)
    | .harm => (fp32 (divVal (valOfInt 1) v).1, 0)
    | .pair0 p =>
      let pv := f32 p
      if isZero pv then (exp20 q, 0)
      else if belowZero v then (nanF32, 1)
      else if isZero v then (if negOf pv then infF32 else 0, 0)
      else if isInf v then (if negOf pv then 0 else infF32, 0)
      else (exp20 (fp32 (divVal (f32 (log20 v)) pv).1), 0)
    | .table t => tableEval (c.pair t) 8256 q

/-! ### Lanes (R237, R238) -/

/-- A lane with the condition code that its last step met, 0 for none. -/
abbrev LaneStep := Lane × Nat

/-- rescale, two steps at most: |S| is below 2^128 (R237). -/
def rescaleGo : Nat → Lane → Lane
  | 0, l => l
  | n + 1, l =>
    let ex := l.s.toNat / 2 ^ 23 % 256
    if ex = 255 ∨ ex < 191 then l
    else if l.e ≥ 32704 then { l with s := BitVec.ofNat 32 (l.s.toNat / 2 ^ 31 * 2 ^ 31 + infF32) }
    else rescaleGo n { l with s := l.s - BitVec.ofNat 32 (64 * 2 ^ 23), e := l.e + 64 }

/-- rescale (R237). -/
def rescale (l : Lane) : Lane := rescaleGo 2 l

/-- lane_count (R237): a count past 2^32 - 1 is condition 5. -/
def laneCount (l : Lane) (c code : Nat) : LaneStep :=
  if l.n + c > 2 ^ 32 - 1 then ({ l with n := 2 ^ 32 - 1, s := BitVec.ofNat 32 nanF32 }, if code = 0 then 5 else code)
  else ({ l with n := l.n + c }, code)

/-- The larger or the smaller S; a NaN stays (R237). -/
def pickS (sh : MShape) (a b : Nat) : Nat := if isNan (f32 a) || isNan (f32 b) then nanF32 else (fpPick (sh == .maxm) 0 a b).1

/-- The exact sum of two scaled values, rounded once. -/
def scaledSum (a : Nat) (ka : Int) (b : Nat) (kb : Int) : BitVec 32 :=
  BitVec.ofNat 32 (fp32 (addVal .rne (scaleVal ka (f32 a)) (scaleVal kb (f32 b))).1)

/-- A lane takes a value with a count of 1 (R237, R240). -/
def laneTake (c : Core) (sh : MShape) (l : Lane) (x : Nat) : LaneStep :=
  let y := entryVal c sh l.s.toNat x
  let l1 :=
    if y.2 = 1 ∨ y.2 = 3 ∨ y.2 = 4 then { l with s := BitVec.ofNat 32 nanF32 }
    else if sh.picks then { l with s := BitVec.ofNat 32 (pickS sh l.s.toNat y.1) }
    else rescale { l with s := scaledSum l.s.toNat 0 y.1 (-(l.e : Int)) }
  laneCount l1 1 y.2

/-- merge (R238). -/
def laneMerge (sh : MShape) (a b : Lane) : LaneStep :=
  if sh.picks then laneCount { a with s := BitVec.ofNat 32 (pickS sh a.s.toNat b.s.toNat), e := 0 } b.n 0
  else
    let e := max a.e b.e
    let r := laneCount { a with s := scaledSum a.s.toNat ((a.e : Int) - e) b.s.toNat ((b.e : Int) - e), e := e } b.n 0
    (rescale r.1, r.2)

/-- The packed state of a lane; none when it does not pack (Table 13-4, code 7). -/
def packLane (l : Lane) : Option Nat := if l.n ≥ 2 ^ 24 ∨ l.e > 16320 then none else some (l.s.toNat * 2 ^ 32 + l.e / 64 * 2 ^ 24 + l.n)
/-- The lane of a packed state (Table 13-4). -/
def unpackLane (x : Nat) : Lane := { s := BitVec.ofNat 32 (x / 2 ^ 32), e := x / 2 ^ 24 % 256 * 64, n := x % 2 ^ 24 }

/-! ### Conditions (R240) -/

/-- TVAL of a domain condition (R240). -/
def meanTval (code lane : Nat) (u : BitVec 3) : Word := BitVec.ofNat 64 (u.toNat * 2 ^ 16 + lane % 128 * 2 ^ 8 + code)

/-- Ends a step on lanes of an accumulator (R240): with FMODE a condition traps and nothing is written, else the lanes are replaced. -/
def meanCommit (s : State) (u : BitVec 3) (acc : MAcc) (rows : List (Nat × LaneStep)) (k : State → Issue State) : Issue State :=
  let good := k (s.upd (fun c => c.setM u.toNat (acc.setLanes (rows.map (fun r => (r.1, r.2.1))))))
  match rows.find? (fun r => r.2.2 != 0) with
  | some r => if acc.fmode then .trap 10 (meanTval r.2.2 r.1 u) else good
  | none => good

/-- The active lanes of a mask (R244). -/
def State.lanesOn (s : State) (k : BitVec 3) : List Nat := actives (s.getK k) 32

/-! ### Instructions -/

/-- MSET (R234). -/
def msetOp (a : BitVec 6) (u : BitVec 3) (s : State) : Issue State :=
  let x := s.getS a
  let q := x.toNat / 2 ^ 32 % 4
  let p := x.toNat % 2 ^ 32
  if x.toNat / 2 ^ 41 ≠ 0 ∨ x.toNat / 2 ^ 34 % 64 ≠ 0 ∨ isNan (f32 p) ∨ (q ≠ 0 ∧ (p ≠ 0 ∨ (Sparse.get none s.me.regs.pairs q).isNone)) then .trap 1 x
  else .ok ((s.upd (fun c => c.setM u.toNat (freshAcc x))).advance)

/-- MSET (R234). -/
def execMset (a : BitVec 6) (u : BitVec 3) (s : State) : Out := finish s (msetOp a u s)

/-- MTBL (R235). -/
def mtblOp (a : BitVec 6) (q : BitVec 3) (s : State) : Issue State :=
  (readBlock s false (s.base a) 2064).bind (fun x =>
    let img : BitVec 132096 := BitVec.ofNat 132096 x.2
    if headerOk img 0 && headerOk img 8256 then
      .ok (((x.1.upd (fun c => { c with regs := { c.regs with pairs := Sparse.set none c.regs.pairs q.toNat (some img) } })).stepBase a).advance)
    else .trapAt x.1 1 (s.base a))

/-- MTBL (R235). -/
def execMtbl (a : BitVec 6) (q : BitVec 3) (s : State) : Out := finish s (mtblOp a q s)

/-- The lanes of an accumulator after they take FP32 values (R237, R244). -/
def takeRows (c : Core) (acc : MAcc) (xs : List (Nat × Nat)) : List (Nat × LaneStep) :=
  xs.map (fun x => (x.1, laneTake c (shapeOf acc.cfg) (acc.lane x.1) x.2))

/-- MACC (R244). -/
def execMacc (v : BitVec 5) (k u : BitVec 3) (s : State) : Out :=
  let acc := s.me.getM u.toNat
  finish s (meanCommit s u acc (takeRows s.me acc ((s.lanesOn k).map (fun i => (i, elem (s.getV v) 32 i)))) (fun t => .ok t.advance))

/-- The lanes of an accumulator after they merge with others (R238). -/
def mergeRows (acc : MAcc) (xs : List (Nat × Lane)) : List (Nat × LaneStep) :=
  xs.map (fun x => (x.1, laneMerge (shapeOf acc.cfg) (acc.lane x.1) x.2))

/-- The lanes that a receive-queue entry makes (R241). -/
def entryRows (c : Core) (packed : Bool) (acc : MAcc) (d : BitVec 512) : List (Nat × LaneStep) :=
  if packed then mergeRows acc ((List.range 8).map (fun j => (j, unpackLane (d.extractLsb' (64 * j) 64).toNat)))
  else takeRows c acc ((List.range 16).map (fun j => (j, (d.extractLsb' (32 * j) 32).toNat)))

/-- Consuming an entry of the receive queue is an acquire at the narrowest scope that holds sender and receiver: one of the core's own
entries drops nothing (Table 05-1, R96). -/
def State.consumed (s : State) (q : QEntry) : State := if q.core = s.cur then s else s.acquired

/-- MACCQ.V and MACCQ.S, one entry at a time (R241): the instruction ends when the count is 0, or when a pre-emption request finds the queue
empty. -/
def maccqOp (packed : Bool) (d : BitVec 6) (u : BitVec 3) (s : State) : Issue State :=
  if s.getS d = 0 then .ok s.advance
  else match s.me.mail.rq with
    | [] => if s.me.sched.preempt then .ok s.advance else .wait
    | q :: l =>
      let acc := s.me.getM u.toNat
      acquireWait s (meanCommit s u acc (entryRows s.me packed acc q.data) (fun t =>
        let t1 := ((t.upd (fun c => { c with mail := { c.mail with rq := l } })).consumed q).setS d (s.getS d - 1)
        if s.getS d = 1 then .ok t1.advance else .stay t1))

/-- MACCQ.V (R241). -/
def execMaccqV (d : BitVec 6) (u : BitVec 3) (s : State) : Out := finish s (maccqOp false d u s)
/-- MACCQ.S (R241). -/
def execMaccqS (d : BitVec 6) (u : BitVec 3) (s : State) : Out := finish s (maccqOp true d u s)

/-- MMERGE (R238). -/
def mmergeOp (m u : BitVec 3) (s : State) : Issue State :=
  let acc := s.me.getM u.toNat
  let oth := s.me.getM m.toNat
  if (acc.cfg ^^^ oth.cfg) &&& ~~~(BitVec.ofNat 64 (2 ^ 40)) ≠ 0 then .trap 10 (meanTval 6 0 u)
  else meanCommit s u acc (mergeRows acc ((List.range 128).map (fun i => (i, oth.lane i)))) (fun t => .ok t.advance)

/-- MMERGE (R238). -/
def execMmerge (m u : BitVec 3) (s : State) : Out := finish s (mmergeOp m u s)

/-- The pairwise tree over 2^n lanes, with the lowest lane that met a condition (R75, R238). -/
def foldLanes (sh : MShape) : Nat → List Lane → Option Nat → Lane × Option Nat
  | 0, x, bad => (x.headD {}, bad)
  | n + 1, x, bad =>
    let r := ((x.take (2 ^ n)).zip (x.drop (2 ^ n))).map (fun p => laneMerge sh p.1 p.2)
    let b := (r.zipIdx.find? (fun y => y.1.2 != 0)).map (fun y => y.2)
    foldLanes sh n (r.map (fun y => y.1)) (match bad, b with | some i, some j => some (min i j) | some i, none => some i | none, j => j)

/-- MFOLD (R238). -/
def mfoldOp (u : BitVec 3) (s : State) : Issue State :=
  let acc := s.me.getM u.toNat
  let r := foldLanes (shapeOf acc.cfg) 7 ((List.range 128).map acc.lane) none
  let good := Issue.ok ((s.upd (fun c => c.setM u.toNat ((freshAcc acc.cfg).setLanes [(0, r.1)]))).advance)
  match r.2 with
  | some i => if acc.fmode then .trap 10 (meanTval 5 i u) else good
  | none => good

/-- MFOLD (R238). -/
def execMfold (u : BitVec 3) (s : State) : Out := finish s (mfoldOp u s)

/-- The mean result of a lane with its condition code (R239, R240). -/
def laneMean (c : Core) (sh : MShape) (l : Lane) : Nat × Nat :=
  if l.n = 0 then (nanF32, 0)
  else if sh.picks then (l.s.toNat, 0)
  else
    let r := exitVal c sh (fp32 (divVal (scaleVal l.e (f32 l.s.toNat)) (valOfInt l.n)).1)
    if r.2 = 0 then r else (nanF32, r.2)

/-- MFIN (R239). -/
def mfinOp (d : BitVec 5) (k u : BitVec 3) (s : State) : Issue State :=
  let acc := s.me.getM u.toNat
  let rows := (s.lanesOn k).map (fun i => (i, laneMean s.me (shapeOf acc.cfg) (acc.lane i)))
  let good := Issue.ok ((s.setV d (putElems 4 (s.getV d) (rows.map (fun r => (r.1, r.2.1))))).advance)
  match rows.find? (fun r => r.2.2 != 0) with
  | some r => if acc.fmode then .trap 10 (meanTval r.2.2 r.1 u) else good
  | none => good

/-- MFIN (R239). -/
def execMfin (d : BitVec 5) (k u : BitVec 3) (s : State) : Out := finish s (mfinOp d k u s)

/-- The lanes of MSAVE and MLOAD with their addresses (R242). -/
def meanElems (s : State) (a : BitVec 6) (k : BitVec 3) : List (Nat × Word) := (s.lanesOn k).map (fun i => (i, s.base a + BitVec.ofNat 64 (8 * i)))

/-- MSAVE (R242): an uncorrectable error in an active lane of its accumulator is met before code 7 is looked at (R264). -/
def msaveOp (a : BitVec 6) (k u : BitVec 3) (s : State) : Issue State :=
  let acc := s.me.getM u.toNat
  (vectorPlaces s .store true (s.base a) 8 (meanElems s a k)).bind (fun x =>
    match x.2.find? (fun e => s.me.laneUpset u.toNat e.idx), x.2.find? (fun e => (packLane (acc.lane e.idx)).isNone) with
    | some e, _ => .trapAt x.1 11 e.addr
    | none, some e => .trapAt x.1 10 (meanTval 7 e.idx u)
    | none, none =>
      (storeWrites x.1 true 8 x.2 (x.2.map (fun e =>
        writeAt e.place e.addr 8 (BitVec.ofNat 64 ((packLane (acc.lane e.idx)).getD 0)) 0xFF))).bind
        (fun t => .ok ((t.stepBase a).advance)))

/-- MSAVE (R242). -/
def execMsave (a : BitVec 6) (k u : BitVec 3) (s : State) : Out := finish s (msaveOp a k u s)

/-- A loaded lane, rescaled unless the shape takes a maximum or minimum (R242, R237). -/
def loadLane (sh : MShape) (x : Nat) : Lane := if sh.picks then unpackLane x else rescale (unpackLane x)

/-- MLOAD (R242): its lanes are read at issue. -/
def mloadOp (a : BitVec 6) (k u : BitVec 3) (s : State) : Issue State :=
  let acc := s.me.getM u.toNat
  (vectorPlaces s .load true (s.base a) 8 (meanElems s a k)).bind (fun x =>
    if vectorStall x.1 true 8 x.2 then .stay x.1
    else match x.2.find? (fun e => x.1.badNow e.place 8) with
      | some e => .trapAt x.1 11 e.addr
      | none => (readPlaced x.1 8 x.2).bind (fun y =>
          let on := x.2.map (fun e => e.idx)
          let lanes := on.zip (y.2.map (loadLane (shapeOf acc.cfg)))
          .ok (((y.1.upd (fun c => c.setM u.toNat (acc.setLanes lanes) on)).stepBase a).advance)))

/-- MLOAD (R242). -/
def execMload (a : BitVec 6) (k u : BitVec 3) (s : State) : Out := finish s (mloadOp a k u s)

end Sys2Proof.Machine
end

