-- ==== Sys2Proof/Machine/Exchange.lean ====
section
/-!
DEFINITION. Exchange and collective instructions, major 0x2E: timed exchange, receive queues, address groups, the chunk flag (spec 14 R245
to R257, 06 R112, R113, 05 R107, 15 R263).
-/

namespace Sys2Proof.Machine

/-- Writes CODE and RANK of XSTAT; a non-zero code sets ERR (R246). -/
def State.setXstat (s : State) (code rank : Nat) : State :=
  s.upd (fun c => c.updCsr (fun x => { x with xstat :=
    (if code = 0 then x.xstat &&& BitVec.ofNat 64 (2 ^ 31) else BitVec.ofNat 64 (2 ^ 31)) ||| BitVec.ofNat 64 (rank % 64 * 2 ^ 16 + code % 256) }))

/-! ### Timed exchange (R247 to R250) -/

/-- The core is held at a timed instruction or VCCWAIT whose slot is above t, whether or not VCC has reached it (R248, R249). -/
def Core.heldAbove (c : Core) (t : Word) : Bool :=
  match c.sched.hold with
  | .timed u _ _ => t.ult u
  | .due u _ _ => t.ult u
  | .stale u _ => t.ult u
  | _ => false

/-- A member has retired or ended (R248). -/
def Core.gone (c : Core) : Bool := c.sched.run == .finished

/-- The core holds an XSEND of slot t to rank r (R112). -/
def Core.sends (c : Core) (t : Word) (r : Nat) : Bool :=
  match c.sched.hold with
  | .timed u _ to_ => u == t && to_ == some r
  | .due u _ to_ => u == t && to_ == some r
  | _ => false

/-- The members of the issuing core's caravan with their ranks. -/
def State.members (s : State) : List (Nat × Nat) := match s.myCar with | some c => c.cores.zipIdx | none => [(s.cur, 0)]

/-- A vector register waits for a late read (R84). -/
def Core.vbusy (c : Core) (v : Nat) : Bool := c.mem.late.any (fun l => match l.dest with | .vector d _ => d == v | .scalar _ _ => false)

/-- In service mode a timed instruction completes with a code, in strict mode it traps with TCAUSE 14 (R248, R249, R263). -/
def timedEnd (s : State) (code rank : Nat) (tval : Word) : Issue State :=
  if s.strict then .trap 14 tval else .ok ((s.setXstat code rank).advance)

/-- Another XSEND of the same slot to the same receiver comes first: a lower rank that holds one, or whose message is in the port
(R112). -/
def sendConflict (s : State) (t : Word) (r : Nat) (port : Option PortMsg) : Bool :=
  s.members.any (fun m => decide (m.2 < s.myRank) && (s.core m.1).sends t r) ||
    (match port with | some p => p.slot == t && decide (p.sender < s.myRank) | none => false)

/-- XSEND whose slot has come (R247, R248, R112). -/
def xsendDue (s : State) (v : BitVec 5) (t : Word) (r : Nat) : Issue State :=
  match s.members[r]? with
  | none => timedEnd s 4 r (BitVec.ofNat 64 r)
  | some (g, _) =>
    let p := (s.core g).mail.port
    let hold := Issue.stay (s.setHold (.due t false (some r)))
    if (s.core g).gone || (p.isSome && g != s.cur && (s.core g).heldAbove t) then timedEnd s 5 r (BitVec.ofNat 64 r)
    else if sendConflict s t r p then (if s.strict then .trap 14 t else hold)
    else if p.isSome || (s.core g).mail.emptied || s.me.vbusy v.toNat then hold
    else
      let m : PortMsg := { data := s.getV v, slot := t, sender := s.myRank, fresh := true }
      .ok (((s.updCore g (fun c => { c with mail := { c.mail with port := some m } })).setXstat 0 0).advance)

/-- XSEND (R247). -/
def execXsend (v : BitVec 5) (a : BitVec 6) (r : BitVec 4) (s : State) : Out :=
  let t := s.getS a
  finish s (if t.ule s.vcc then xsendDue s v t r.toNat else .stay (s.setHold (.timed t false (some r.toNat))))

/-- The rank whose message this XRECV has discarded, if it has (R249). -/
def State.staleRank (s : State) : Option Nat := match s.hold with | .stale _ r => some r | _ => none

/-- XRECV completes with a code, or with code 1 when it has discarded a message before (R246). -/
def recvEnd (s : State) (code rank : Nat) : Issue State :=
  match s.staleRank with
  | some r => .ok ((s.setXstat 1 r).advance)
  | none => .ok ((s.setXstat code rank).advance)

/-- The TVAL of a message of another slot or sender (Table 15-3). -/
def msgTval (m : PortMsg) : Word := BitVec.ofNat 64 (m.slot.toNat % 2 ^ 32 + m.sender % 16 * 2 ^ 32)

/-- Empties the issuing core's port for the rest of the cycle (R249). -/
def State.takePort (s : State) : State := s.upd (fun c => { c with mail := { c.mail with port := none, emptied := true } })

/-- XRECV goes on waiting at its slot. -/
def recvWait (s : State) (t : Word) : Issue State :=
  .stay (s.setHold (match s.staleRank with | some x => .stale t x | none => .due t false none))

/-- XRECV whose slot has come (R249): it looks at the port once in a cycle, and a message of this cycle is not in it yet (R247). -/
def xrecvDue (s : State) (d : BitVec 5) (t : Word) (r : Nat) : Issue State :=
  if s.me.mail.emptied then recvWait s t
  else match s.me.mail.port with
    | some m =>
      if m.fresh then recvWait s t
      else if r ≥ s.members.length then (if s.strict then .trap 14 (BitVec.ofNat 64 r) else recvEnd s 4 r)
      else if m.slot.ult t then
        (if s.strict then .trap 14 (msgTval m) else .stay ((s.takePort).setHold (.stale t (s.staleRank.getD m.sender))))
      else if m.slot = t then
        (if m.sender = r then recvEnd ((s.setV d m.data).takePort) 0 0
         else if s.strict then .trap 14 (msgTval m)
         else recvEnd ((s.setV d m.data).takePort) 2 m.sender)
      else if s.strict then .trap 14 (msgTval m) else recvEnd s 3 r
    | none =>
      if s.members.all (fun m => m.1 == s.cur || (s.core m.1).gone || (s.core m.1).heldAbove t) then
        (if s.strict then .trap 14 t else recvEnd s 3 r)
      else recvWait s t

/-- XRECV (R249). -/
def execXrecv (d : BitVec 5) (a : BitVec 6) (r : BitVec 4) (s : State) : Out :=
  let t := s.getS a
  finish s (if t.ule s.vcc then xrecvDue s d t r.toNat else .stay (s.setHold (.timed t false none)))

/-! ### Receive queues (R251, R252) -/

/-- The target core of QPUT or the status of its refusal (R251). -/
def qputCheck (s : State) (b : Word) : Except Nat Nat :=
  match s.physOf s.myPart (b.toNat % 1024) with
  | none => .error 2
  | some g =>
    if !((s.core g).live && (s.core g).part == s.myPart) then .error 3
    else if (s.core g).mail.rq.length ≥ Config.rqSize then .error 1 else .ok g

/-- QPUT (R251). -/
def qputOp (d : BitVec 6) (v : BitVec 5) (b : BitVec 6) (s : State) : Issue State :=
  match qputCheck s (s.getS b) with
  | .error e => .ok ((s.setS d (BitVec.ofNat 64 e)).advance)
  | .ok g => releaseWait s (
      served s (if clusterOf g = clusterOf s.cur then [] else [askOf s.atIssue s.cur s.myPart s.me.acct 2 64]) (fun s1 =>
        let e : QEntry := { data := (s.getV v).setWidth 512, sender := s.myLogical, core := s.cur, uid := s.me.uid }
        .ok (((s1.updCore g (fun c => { c with mail := { c.mail with rq := c.mail.rq ++ [e] } })).setS d 0).advance)))

/-- QPUT (R251). -/
def execQput (d : BitVec 6) (v : BitVec 5) (b : BitVec 6) (s : State) : Out := finish s (qputOp d v b s)

/-- QGET (R252). -/
def qgetOp (d : BitVec 6) (v : BitVec 5) (s : State) : Issue State :=
  match s.me.mail.rq with
  | [] => .ok ((s.setS d 0).advance)
  | e :: l => acquireWait s (
      let s1 := (s.upd (fun c => { c with mail := { c.mail with rq := l } })).consumed e
      .ok (((s1.setV v (setBytes (s.getV v) 0 64 e.data.toNat)).setS d (BitVec.ofNat 64 (2 ^ 16 + e.sender))).advance))

/-- QGET (R252). -/
def execQget (d : BitVec 6) (v : BitVec 5) (s : State) : Out := finish s (qgetOp d v s)

/-! ### Address groups (R253 to R256) -/

/-- The group whose range holds 512 bytes at an address, after the checks of the address (R255): its number and the group. -/
def groupAt (s : State) (a : Word) (k : Nat → Group → Issue State) : Issue State :=
  if a.toNat % 64 ≠ 0 then .trap 4 a
  else if spaceOf a ≠ 0 then .trap 2 a
  else
    let gs := match s.part s.myPart with | some p => p.groups | none => []
    match gs.findSome? (fun e => match e.2 with
      | some g => if g.base ≤ a.toNat ∧ a.toNat + 512 ≤ g.base + g.size then some (e.1, g) else none
      | none => none) with
    | some (gid, g) => k gid g
    | none => .trap 2 a

/-- The owner of a member: the core of the owning task, and the launch that governs the group while it is live (R253, Table 14-4). -/
def ownerOf (s : State) (g : Group) (m : Member) : Option (Nat × Nat) :=
  match m.owner.bind (s.physOf s.myPart), s.byLid s.myPart g.dlid with
  | some c, some (did, _) => some (c, did)
  | _, _ => none

/-- The owner of the member of rank r was withdrawn from barrier 47 by BWDR or by revocation, in a launch that is live or has ended
(R254). -/
def ownerLeft (s : State) (g : Group) (m : Member) (r : Nat) : Bool :=
  g.gone.contains r || (match ownerOf s g m with
    | some (c, did) => (match s.disp did with | some d => d.gone.contains c | none => false)
    | none => false)

/-- An owner has taken the fatal path (R254); what became of it in a launch that has ended stands in the group. -/
def ownerDead (s : State) (o : Option (Nat × Nat)) : Bool :=
  match o with
  | some (c, did) => (match s.disp did with | some d => d.dead.contains c | none => false)
  | none => false

/-- A member of a group is lost: its owner is dead, or its peer has reported a kill (R254). -/
def memberLost (s : State) (gid r : Nat) (o : Option (Nat × Nat)) : Bool :=
  ownerDead s o || (match s.part s.myPart with
    | some p => (match Sparse.get none p.groups gid with | some g => g.lost.contains r | none => false)
    | none => false)

/-- The lowest lost rank. -/
def firstLost (s : State) (gid : Nat) (owners : List (Option (Nat × Nat))) : Option Nat :=
  (owners.zipIdx.find? (fun x => memberLost s gid x.2 x.1)).map (fun x => x.2)

/-- The place of n bytes of a member that lie in one page: none when its translation fails, it selects another region than 0 or 2, its
route has failed or its peer does not serve it (R254, R25, R266); a TCAUSE when the router discards the access; with the state that the walk
leaves (R23). -/
def pieceAt (s : State) (k : Access) (va n : Nat) : Except (State × Option Nat) (State × Piece) :=
  if va / 2 ^ 56 ≠ 0 then .error (s, none)
  else match translate s (clusterOf s.cur) s.myPart s.me.sup k va with
    | .error c => .error (s, if c = 15 then some 15 else none)
    | .ok (s1, x) =>
      if x.region = 0 then
        (if s.cut (dieOf (clusterOf s.cur)) x.pa || s.cut (dieOf (clusterOf s.cur)) (x.pa + n - 1) then .error (s1, none)
         else if k = .load ∧ !s.owns s.myPart x.pa then .error (s1, some 15) else .ok (s1, ⟨locHbm x.pa, n, x.mtype⟩))
      else if x.region = 2 ∧ x.answers s s.myPart n then .ok (s1, ⟨x.far s s.myPart, n, 2⟩)
      else .error (s1, none)

/-- The places of the 512 bytes of a member (R254). -/
def memberPieces (s : State) (k : Access) (va : Nat) : Except (State × Option Nat) (State × List Piece) :=
  let n := min 512 (65536 - va % 65536)
  match pieceAt s k va n with
  | .error e => .error e
  | .ok (s1, p) =>
    if n = 512 then .ok (s1, [p])
    else match pieceAt s1 k (va + n) (512 - n) with
      | .error e => .error e
      | .ok (s2, q) => .ok (s2, [p, q])

/-- Judges the members of a group in rank order (R254, R255): the lowest absent rank, a TCAUSE, or the places of all; the state keeps
what the walks have set (R23). -/
inductive Membership where
  | absent (s : State) (rank : Nat)
  | trap (s : State) (cause : Nat)
  | all (s : State) (pieces : List (List Piece))
  deriving DecidableEq, Repr

/-- The membership of a group for an access at an offset. -/
def membersAt (g : Group) (k : Access) (off : Nat) : List (Member × Nat) → State → List (List Piece) → Membership
  | [], s, acc => .all s acc
  | (m, r) :: l, s, acc =>
    if m.absent || ownerLeft s g m r then .absent s r
    else match memberPieces s k (m.base + off) with
      | .error (s1, none) => .absent s1 r
      | .error (s1, some c) => .trap s1 c
      | .ok (s1, p) => membersAt g k off l s1 (acc ++ [p])

/-- The issue of LDRED or STMC on a group (R254): absence first, then loss. -/
def groupIssue (s : State) (k : Access) (a : Word) (go : State → Nat → List (List Piece) → List (Option (Nat × Nat)) → Issue State) : Issue State :=
  groupAt s a (fun gid g =>
    match membersAt g k (a.toNat - g.base) g.members.zipIdx s [] with
    | .absent s1 r => .ok (s1.setXstat 7 r)
    | .trap s1 c => .trapAt s1 c a
    | .all s1 ps =>
      let owners := g.members.map (ownerOf s g)
      match firstLost s gid owners with
      | some r => .ok (s1.setXstat 8 r)
      | none => go s1 gid ps owners)

/-- The place of a piece as a load of the core reads it. -/
def Piece.place (p : Piece) : Place := { loc := p.loc, mtype := p.mtype, slot := none }

/-- What an LDRED with the acquire order may read its pieces from (R96, R107). -/
def pieceView (s : State) (acq : Bool) (sc : BitVec 3) (ps : List Piece) : State :=
  if acq then ps.foldl (fun t p => acquireView t p.place p.n sc) s else s

/-- Reads the pieces of a member as a load of the core would (R107): little-endian. -/
def readPieces (s : State) (ps : List Piece) : Nat :=
  (ps.foldl (fun (acc : Nat × Nat) p => (acc.1 + s.readNow p.place p.n * 256 ^ acc.2, acc.2 + p.n)) (0, 0)).1

/-- The byte of a member at which a read meets an uncorrectable error (R264). -/
def badPiece (s : State) (ps : List Piece) : Option Nat :=
  (List.range 64).find? (fun u => ps.zipIdx.any (fun x =>
    let start := if x.2 = 0 then 0 else (ps.headD ⟨0, 0, 0⟩).n
    decide (start ≤ 8 * u) && decide (8 * u < start + x.1.n) &&
      s.badNow { x.1.place with loc := x.1.loc + (8 * u - start) } 8))

/-- The budget requests of reading a member: HBM bytes over the fabric, or fabric bytes for a peer (R128). -/
def pieceAsks (s : State) (ps : List Piece) : List Ask :=
  let hbm := ((ps.filter (fun p => decide (p.loc < 2 ^ 64))).map (fun p => p.n)).sum
  [(0, hbm), (2, (ps.map (fun p => p.n)).sum)].map (fun k => askOf s.atIssue s.cur s.myPart s.me.acct k.1 k.2)

/-- Element i of a reduction in rank order (R255). -/
def redElem (f : Fmt) (xs : List Nat) (i : Nat) : Nat :=
  let w := fmtWidth f
  let vs := xs.map (fun x => x / 2 ^ (w * i) % 2 ^ w)
  fp32 ((vs.drop 1).foldl (fun a v => f32 (fp32 (addVal .rne a (decodeVal f v)).1)) (decodeVal f (vs.headD 0)))

/-- Lane i of a reduction of packed states (R255, R238). -/
def redLane (xs : List Nat) (i : Nat) : Option Nat :=
  let vs := xs.map (fun x => unpackLane (x / 2 ^ (64 * i) % 2 ^ 64))
  packLane ((vs.drop 1).foldl (fun a v => (laneMerge .arith a v).1) (vs.headD {}))

/-- LDRED with every member read (R255). -/
def ldredEnd (s : State) (d : BitVec 5) (t : Nat) (gid : Nat) (owners : List (Option (Nat × Nat))) (xs : List Nat) : State :=
  match firstLost s gid owners with
  | some r => s.setXstat 8 r
  | none =>
    if t = 2 then
      match (List.range 64).find? (fun i => (redLane xs i).isNone) with
      | some i => s.setXstat 9 i
      | none => (s.setV d (ofElems 64 ((List.range 64).map (fun i => (redLane xs i).getD 0)))).setXstat 0 0
    else
      let f := if t = 0 then Fmt.f32 else .bf16
      let r := fun (o : Nat) => ofElems 32 ((List.range 128).map (fun i => redElem f xs (o + i)))
      let s1 := s.setV d (r 0)
      (if t = 1 then s1.upd (fun c => c.setV (d.toNat + 1) (r 128)) else s1).setXstat 0 0

/-- LDRED (R255): it issues, reads a member at each turn, then reduces. -/
def ldredOp (d : BitVec 5) (a : BitVec 6) (o : BitVec 2) (sc : BitVec 3) (t : BitVec 3) (s : State) : Issue State :=
  let x := s.base a
  let acq := ordAcq o
  let fin := fun (u : State) => Issue.ok (((acquireDrop acq sc u).stepBase a).advance)
  match s.hold with
  | .ldred gid ms owners data stamp =>
    match ms[data.length]? with
    | none => fin (ldredEnd (s.upd (fun c => { c with mem := { c.mem with now := max c.mem.now stamp } })) d t.toNat gid owners data)
    | some ps =>
      let s1 := pieceView s acq sc ps
      if ps.any (fun p => !s.me.readable p.place p.n) then .wait
      else match badPiece s1 ps with
        | some u => .trap 11 (x + BitVec.ofNat 64 (8 * u))
        | none => served s1 (pieceAsks s ps) (fun s2 =>
            let s3 := ps.foldl (fun u p => u.noteRead p.place p.n) s2
            .stay (s3.setHold (.ldred gid ms owners (data ++ [readPieces s1 ps]) (max stamp s3.me.mem.now))))
  | _ =>
    let go := (groupIssue s .load x (fun u gid ps owners => .stay (u.setHold (.ldred gid ps owners [] 0)))).bind fin
    if acq then acquireWait s go else go

/-- LDRED (R255). -/
def execLdred (d : BitVec 5) (a : BitVec 6) (o : BitVec 2) (sc : BitVec 3) (t : BitVec 3) (s : State) : Out := finish s (ldredOp d a o sc t s)

/-- The writes of STMC to one member, by 8-byte units (R107). -/
def stmcWrites (x : VReg) (a : Word) (r : Nat) (ps : List Piece) : List Write :=
  (ps.foldl (fun (acc : List Write × Nat) p =>
    (acc.1 ++ (List.range (p.n / 8)).map (fun i =>
      { writeAt ⟨p.loc + 8 * i, p.mtype, none⟩ (a + BitVec.ofNat 64 (acc.2 + 8 * i)) 8 (BitVec.ofNat 64 (elem x 64 (acc.2 / 8 + i))) 0xFF with
        member := some r }), acc.2 + p.n)) ([], 0)).1

/-- The ranks of a group that are lost now. -/
def lostRanks (s : State) (gid : Nat) (owners : List (Option (Nat × Nat))) : List Nat :=
  (owners.zipIdx.filter (fun x => memberLost s gid x.2 x.1)).map (fun x => x.2)

/-- The interlocks of a store to the bytes of a group's members (R91): the sources and destinations of the core's engine commands are
addresses, so each member is checked at its own. -/
def groupLock (s : State) (g : Option Group) (off : Nat) : Lock :=
  let locks : List Lock := match g with
    | some y => y.members.map (fun (m : Member) => s.interlock s.cur (m.base + off) (m.base + off + 511))
    | none => []
  if locks.any (· == .strictTrap) then .strictTrap else if locks.any (· == .stall) then .stall else .go

/-- STMC (R256): its writes enter the store buffer, and it completes once each is performed or has failed; a member lost by then counts as
one that has failed. -/
def stmcOp (v : BitVec 5) (a : BitVec 6) (o : BitVec 2) (s : State) : Issue State :=
  let x := s.base a
  let fin := fun (u : State) => Issue.ok ((u.stepBase a).advance)
  match s.hold with
  | .stmc gid owners failed =>
    if s.me.mem.wbuf.any (fun w => w.member.isSome) then .wait
    else fin (match (failed.toList ++ lostRanks s gid owners).min? with | some r => s.setXstat 8 r | none => s.setXstat 0 0)
  | _ =>
    if ordRel o ∧ !s.me.storesDone then .wait
    else (groupIssue s .store x (fun u gid ps owners =>
      let g := (s.part s.myPart).bind (fun p => Sparse.get none p.groups gid)
      match groupLock s g (x.toNat - (g.map (fun y => y.base)).getD 0) with
      | .strictTrap => .trapAt u 14 x
      | .stall => .wait
      | .go => .stay ((u.pushWrites (ordRel o) (ps.zipIdx.flatMap (fun p => stmcWrites (s.getV v) x p.2 p.1))).setHold (.stmc gid owners none)))).bind fin

/-- STMC (R256). -/
def execStmc (v : BitVec 5) (a : BitVec 6) (o : BitVec 2) (_sc : BitVec 3) (s : State) : Out := finish s (stmcOp v a o s)

/-! ### The chunk flag (R257) -/

/-- XCHK (R257): an acquire load at device scope. -/
def xchkOp (d a b : BitVec 6) (s : State) : Issue State :=
  let x := s.base a
  (scalarPlace s .load x 8).bind (fun y =>
    acquireWait s (
      (loadAt (acquireView y.1 y.2 8 3) d x y.2 8 false false).bind (fun t =>
        .ok ((((acquireDrop true 3 t).setS d (Word.ofBool ((s.getS b).ule (t.getS d)))).stepBase a).advance))))

/-- XCHK (R257). -/
def execXchk (d a b : BitVec 6) (s : State) : Out := finish s (xchkOp d a b s)

end Sys2Proof.Machine
end

