-- ==== Sys2Proof/Machine/Frames.lean ====
section
/-!
DEFINITION. The frames of HBM: owned, in the scrub queue, clean, retired (spec 16 R279, 15 R264). The scrub queue and the clean pool are
runs (first frame, count).
-/

namespace Sys2Proof.Machine

/-- Frames of a list of runs. -/
def runFrames (l : List (Nat × Nat)) : Nat := (l.map (fun r => r.2)).sum

/-- A frame lies in a list of runs. -/
def inRuns (l : List (Nat × Nat)) (f : Nat) : Bool := l.any (fun r => decide (r.1 ≤ f) && decide (f < r.1 + r.2))

/-- Takes a frame out of a list of runs. -/
def dropFrame (l : List (Nat × Nat)) (f : Nat) : List (Nat × Nat) :=
  l.flatMap (fun r =>
    if r.1 ≤ f ∧ f < r.1 + r.2 then [(r.1, f - r.1), (f + 1, r.1 + r.2 - (f + 1))].filter (fun x => decide (x.2 ≠ 0)) else [r])

/-- Puts a frame at the end of a queue of runs. -/
def queueFrame : List (Nat × Nat) → Nat → List (Nat × Nat)
  | [], f => [(f, 1)]
  | [r], f => if r.1 + r.2 = f then [(r.1, r.2 + 1)] else [r, (f, 1)]
  | r :: l, f => r :: queueFrame l f

/-- Puts a frame into a pool of rising runs. -/
def poolFrame : List (Nat × Nat) → Nat → List (Nat × Nat)
  | [], f => [(f, 1)]
  | r :: l, f =>
    if f + 1 < r.1 then (f, 1) :: r :: l
    else if f + 1 = r.1 then (f, r.2 + 1) :: l
    else if f < r.1 + r.2 then r :: l
    else if f = r.1 + r.2 then
      match l with
      | q :: m => if f + 1 = q.1 then (r.1, r.2 + 1 + q.2) :: m else (r.1, r.2 + 1) :: q :: m
      | [] => [(r.1, r.2 + 1)]
    else r :: poolFrame l f

/-- The first frame of a list of runs. -/
def firstFrame (l : List (Nat × Nat)) : Option Nat := (l.find? (fun r => decide (r.2 ≠ 0))).map (fun r => r.1)

/-- The first n frames of a list of runs, in order. -/
def takeFrames : Nat → List (Nat × Nat) → List Nat
  | _, [] => []
  | n, r :: l => (List.range (min n r.2)).map (· + r.1) ++ (if n ≤ r.2 then [] else takeFrames (n - r.2) l)

/-- Entries outside n keys from one on. -/
def outside {α : Type} (m : Sparse α) (lo n : Nat) : Sparse α := m.filter (fun e => !(decide (lo ≤ e.1) && decide (e.1 < lo + n)))

/-- The states of a frame (R279). -/
inductive FrameState where
  | owned (part : Nat) | queued | clean | retired
  deriving DecidableEq, Repr

/-- The one state that a frame is in (R279): a retired frame is that and nothing else, though its owner's tag stays with it until FREE, so
that the driver can migrate its live pages (R264). -/
def Frames.stateOf (x : Frames) (f : Nat) : FrameState :=
  if x.retired.contains f then .retired
  else match Sparse.get none x.owner f with
    | some p => .owned p
    | none => if inRuns x.clean f then .clean else .queued

namespace State

/-- Sets n bytes from a location on to zero; whole granules of them are repaired (R264). -/
def zeroRange (s : State) (loc n : Nat) : State := { s with mem := outside s.mem loc n, bad := outside s.bad loc n }

/-- The owner of a frame; none when it is not owned. -/
def ownerOfFrame (s : State) (f : Nat) : Option Nat := Sparse.get none s.frames.owner f

/-- Changes the frames. -/
def updFrames (s : State) (k : Frames → Frames) : State := { s with frames := k s.frames }

/-- A frame is retired: it leaves the scrub queue and the pool for good; a live page of it keeps its owner until FREE (R264, R279). -/
def retireFrame (s : State) (f : Nat) : State :=
  s.updFrames (fun x => { x with scrub := dropFrame x.scrub f, clean := dropFrame x.clean f, retired := x.retired ++ [f] })

/-- RETFR: the frames retired, counted across device reset (Table 16-1, R279). -/
def retfr (s : State) : Word := BitVec.ofNat 64 s.frames.retired.length

/-- An uncorrectable error at a location retires its frame of HBM with a record, or marks its wagon (R264, R274). -/
def retireAt (s : State) (loc : Nat) : State :=
  if loc < 2 ^ 64 then
    let f := loc / 65536
    if f ≥ Config.frames ∨ s.frames.retired.contains f then s
    else (s.retireFrame f).fqPush (frecWord 2 ((s.ownerOfFrame f).getD 0) 0 0 0) (f * 65536)
  else if loc < 2 * 2 ^ 64 then
    let w := (loc - 2 ^ 64) / 2 ^ 18 % 128
    let cl := (loc - 2 ^ 64) / 2 ^ 25
    if ((s.cluster cl).wagon w).retired then s
    else (s.updCluster cl (fun c => c.updWagon w (fun x => { x with retired := true }))).fqPush
      (frecWord 4 ((((s.cluster cl).wagon w).prec).getD 0) 0 0 0) (loc - 2 ^ 64)
  else s

/-- An owned frame of a partition is given back: it loses its owner and joins the scrub queue unless it is retired (R279). -/
def freeFrame (s : State) (part f : Nat) : State :=
  if s.ownerOfFrame f = some part then
    s.updFrames (fun x => { x with owner := Sparse.set none x.owner f none, scrub := if x.retired.contains f then x.scrub else queueFrame x.scrub f })
  else s

/-- Every frame of a partition joins the scrub queue (R271 step 5). -/
def freeFramesOf (s : State) (part : Nat) : State :=
  (s.frames.owner.filterMap (fun e => if e.2 = some part then some e.1 else none)).foldl (fun t f => t.freeFrame part f) s

/-- A clean frame is given to a partition (R279). -/
def giveFrame (s : State) (part f : Nat) : State :=
  s.updFrames (fun x => { x with owner := Sparse.set none x.owner f (some part), clean := dropFrame x.clean f })

end State

/-- FRAME_SCRUB (R279, R282): the next queued frame is written with zero, its dirty bit set, and it joins the clean pool. -/
def execFrameScrub (s : State) : Host.Outcome State Fault Refusal :=
  match firstFrame s.frames.scrub with
  | none => .next s
  | some f => .next (((s.zeroRange (locHbm (f * 65536)) 65536).markDirty (f * 65536)).updFrames (fun x =>
      { x with scrub := dropFrame x.scrub f, clean := poolFrame x.clean f }))

end Sys2Proof.Machine
end

