-- ==== Sys2Proof/Machine/YardEv.lean ====
section
/-!
DEFINITION. The steps of the yard controller: clearing, the start of a caravan whose wagons are clear, owner change, drop, impounding,
release, held messages (spec 02 R33, R37, R40, R44, R46 to R48, 06 R109, R127).
-/

namespace Sys2Proof.Machine

/-! ### Clearing and the start of a caravan (R33, R109, R127) -/

/-- The current generations of the lines of core g that have one (R13). -/
def State.lineGens (s : State) (g : Nat) : Sparse Word :=
  ((List.range 128).filter (fun l => decide (l < 48) || decide (64 ≤ l))).foldl (fun m l => Sparse.set 0 m l (s.lineGen g l)) []

/-- Every wagon that a core of a caravan holds is clear. -/
def wagonsClear (s : State) (c : Caravan) : Bool :=
  c.cores.all (fun g => (s.core g).hitch.all (fun e => !(e.2.st == .attached || e.2.st == .arriving) || ((s.cluster (clusterOf g)).wagon e.2.wagon).yard == .hitched))

/-- A core starts its task: the lines' current generations are observed, BWSTAT is zero, and its fetches see memory as it is (R13, R87,
R109, R198). -/
def startCore (s : State) (g : Nat) : State :=
  let obs := s.lineGens g
  s.updCore g (fun c => { c with obs := obs, csr := { c.csr with bwstat := 0 }, mem := { c.mem with imem := s.mem }, sched := { c.sched with run := .running } })

/-- A caravan that waits for the clearing of its wagons starts every member at once when all are clear (R109, R127). -/
def startCaravan (s : State) (car : Nat) : State :=
  match s.caravan car with
  | none => s
  | some c =>
    if c.st = .starting ∧ wagonsClear s c then (c.cores.foldl startCore s).setCaravan car (some { c with st := .running }) else s

/-- The bound caravans. -/
def State.carNums (s : State) : List Nat := s.caravans.map (fun e => e.1)

/-- WAGON_ZEROING_DONE (R33, Table 02-1): a wagon being cleared for 512 cycles is all zero and is hitched, its record that of the new
holder's partition; the next waiting wagon begins. -/
def execWagonZeroingDone (cluster wagon : Nat) (s : State) : Out :=
  match (s.cluster cluster).zeroing.find? (fun e => e.1 == wagon) with
  | some (_, some t) =>
    if s.cycle.toNat < t + Config.zeroCycles then .next s
    else
      let s1 := (s.zeroRange (locWagon cluster wagon 0) Config.wagonBytes).updCluster cluster (fun c =>
        let c1 := c.updWagon wagon (fun x =>
          { x with livery := 0, tag := 0, prec := x.next, next := none, yard := if x.yard = .zeroing then .hitched else x.yard })
        { c1 with zeroing := startZeroing s.cycle.toNat (c.zeroing.filter (fun e => e.1 != wagon)) })
      .next (s1.carNums.foldl startCaravan s1)
  | _ => .next s

/-! ### Hand-over and drop (R40, R44, R47, R37) -/

/-- The entry of a slot is LEAVING with nothing outstanding, and its core has not taken a fatal trap. -/
def leavingDrained (s : State) (g n : Nat) : Bool :=
  ((s.core g).slot n).st == .leaving && !(s.core g).sched.dead && decide (s.pend g n = 0)

/-- The launch of core g's task may now be final (R262). -/
def finalOf (s : State) (g : Nat) : State := match (s.core g).sched.task with | some t => tryFinal s t.disp | none => s

/-- The yard controller may reach a slot of core g now: after the core's own events, before other givers (R38). -/
def yardMay (s : State) (g n : Nat) : Bool := s.mayReach (clusterOf g) (slotKey g n) 1
/-- The yard controller reaches a slot of core g. -/
def yardReached (s : State) (g n : Nat) : State := s.reached (clusterOf g) (slotKey g n) 1

/-- OWNER_CHANGE (R40 step 3, R44, R47), in a later cycle than the commit: the drained wagon goes to its target, or is impounded there when
the target has taken a fatal trap. The giver's other accesses are not waited for (DESIGN CHOICE, log 58: R42 has HAND order the accesses to
the wagon and nothing else, R97 has a release side order every earlier access). -/
def execOwnerChange (core slot : Nat) (s0 : State) : Out :=
  let h := (s0.core core).slot slot
  match h.dest with
  | none => .next s0
  | some (t, ts) =>
    if !leavingDrained s0 core slot || !((s0.core t).slot ts).inb || !s0.untouched (clusterOf core) (slotKey core slot) || !yardMay s0 t ts then .next s0
    else
      let s := yardReached s0 t ts
      let tag := ((s.cluster (clusterOf core)).wagon h.wagon).tag
      let giver := s.logicalOf (s.core core).part core
      let s1 := s.updCore core (fun c => c.setSlot slot { c.slot slot with st := .detached, wagon := 0, dest := none })
      if (s1.core t).sched.dead then .next (finalOf (impoundSlot s1 t ts h.wagon) t)
      else .next (s1.updCore t (fun c =>
        (c.setSlot ts { c.slot ts with st := .arriving, wagon := h.wagon, inb := false }).post (s.credits t) ⟨handWord tag h.wagon ts slot giver 0, 0⟩))

/-- DROP_DRAIN_END (R37, R97): a dropped wagon with nothing outstanding goes to the yard once every access of its core before the DROP has
been performed. -/
def execDropDrainEnd (core slot : Nat) (s : State) : Out :=
  let h := (s.core core).slot slot
  if leavingDrained s core slot && h.dest.isNone && (s.core core).drainedTo h.since && yardMay s core slot then
    .next (freeWagonBack ((yardReached s core slot).updCore core (fun c => c.setSlot slot { c.slot slot with st := .detached, wagon := 0 })) (clusterOf core) h.wagon)
  else .next s

/-- HELD_MESSAGE_POST (R44): the oldest message held for a core enters its inbox when a credit has returned. -/
def execHeldMessagePost (core : Nat) (s : State) : Out :=
  match (s.core core).mail.held with
  | [] => .next s
  | m :: l =>
    if (s.core core).mail.inbox.length < s.credits core then
      .next (s.updCore core (fun c => { c with mail := { c.mail with inbox := c.mail.inbox ++ [m], held := l } }))
    else .next s

/-! ### Impounding (R46, R48) -/

/-- The yard may impound a slot of core g now: the slot itself and the target slot that it revokes (R38). -/
def impoundMay (s : State) (g n : Nat) : Bool :=
  yardMay s g n && (match ((s.core g).slot n).dest with | some (t, ts) => yardMay s t ts | none => true)

/-- IMPOUND (R46 steps 3 to 6): a slot of a dead core that names a wagon with nothing outstanding goes to IMPOUNDED, and the target of a
LEAVING one is revoked; with its last wagon the core is withdrawn from every barrier. The records of both launches may then be final. -/
def execImpound (core slot : Nat) (s : State) : Out :=
  let c := s.core core
  let h := c.slot slot
  let named := h.st = .attached ∨ h.st = .arriving ∨ h.st = .leaving
  if c.sched.dead ∧ named ∧ s.pend core slot = 0 ∧ impoundMay s core slot then
    let s1 := impoundSlot (revokeTarget (yardReached s core slot) core slot) core slot h.wagon
    let s2 := finalOf (unwind s1 core) core
    .next (match h.dest with | some (t, _) => finalOf s2 t | none => s2)
  else if c.sched.dead ∧ !named then .next (unwind s core)
  else .next s

/-- IMPOUND_RELEASE (R48, R97): the issuing supervisor task releases an impounded wagon of its partition to the yard, its record kept; as
the release side of the wagon's return it waits for the task's earlier accesses. -/
def execImpoundRelease (wagon : Nat) (s : State) : Out :=
  match s.myCluster.record wagon s.myPart with
  | none => .next s
  | some r =>
    if s.me.sup ∧ s.me.sched.run = .running ∧ s.me.drained ∧ yardMay s r.core r.slot then
      .next (freeWagonBack (endImpound (yardReached s r.core r.slot) r) (clusterOf s.cur) wagon)
    else .next s

end Sys2Proof.Machine
end

