-- ==== Sys2Proof/Machine/Sched.lean ====
section
/-!
DEFINITION. The distributor: selection, binding, retirement, submissions of the host, budget periods, barrier-47 arrivals of other
clusters, timed instructions that become due (spec 06 R108 to R129, 01 R18, 02 R53, 05 R98 to R100, 14 R247 to R249).
-/

namespace Sys2Proof.Machine

/-! ### Selection (R123 to R126) -/

/-- A launch has an unselected caravan (R123). -/
def Dispatch.unselected (d : Dispatch) : Bool := !d.malformed && !d.killed && !d.predBad && decide (d.nextC * d.pkt.size < d.pkt.total)

/-- The head of a queue: its oldest packet with an unselected caravan (R123). -/
def State.head (s : State) (q : Nat) : Option (Nat × Dispatch) :=
  (s.queue q).pkts.findSome? (fun did => match s.disp did with | some d => if d.unselected then some (did, d) else none | none => none)

/-- The caravans of a launch that an account of a partition has selected and that wait to bind (R125). -/
def Dispatch.waits (d : Dispatch) (p a : Nat) : List Pick := d.picks.filter (fun x => x.own == p && x.acct == a)

/-- Cores that an account of a partition occupies: those of its bound caravans and of its selected one (R124). -/
def State.occ (s : State) (p a : Nat) : Nat :=
  (s.caravans.map (fun e => match e.2 with | some c => if c.own = p ∧ c.acct = a then c.size else 0 | none => 0)).sum +
  (s.disps.map (fun e => match e.2 with | some d => (d.waits p a).length * d.pkt.size | none => 0)).sum

/-- An account has a selected caravan waiting to bind (R125). -/
def State.waiting (s : State) (p a : Nat) : Bool := s.disps.any (fun e => match e.2 with | some d => !(d.waits p a).isEmpty | none => false)

/-- A launch is ready: every task of each predecessor has executed TRIG or retired (R121). -/
def launchReady (s : State) (d : Dispatch) : Bool := predDone s d.pkt.part d.pkt.pred0 && predDone s d.pkt.part d.pkt.pred1

/-- A queue that a selection may choose. -/
structure Choice where
  q     : Nat
  did   : Nat
  prio  : Nat
  floor : Bool
  deriving DecidableEq, Repr

/-- The queues of C in a selection step, with their priority and whether their account is below its floor (R125). The packets that a queue
holds when its owner changes stay in it, and count for the account of the new owner (DESIGN CHOICE, log 63: R123 and R126 say nothing of
them). -/
def choices (s : State) : List Choice :=
  s.queues.filterMap (fun e =>
    match e.2.owner, s.head e.1 with
    | some p, some (did, d) =>
      match s.part p with
      | none => none
      | some x =>
        let lim := (x.accts[e.2.cls]?).getD (0, 0)
        let occ := s.occ p e.2.cls
        if x.out || x.killing || !launchReady s d || s.waiting p e.2.cls || decide (occ + d.pkt.size > lim.2) then none
        else some { q := e.1, did := did, prio := min e.2.prio d.pkt.prio, floor := decide (occ < lim.1) }
    | _, _ => none)

/-- select() (R125): the queue chosen and its launch. -/
def selectQueue (s : State) : Option Choice :=
  let c := choices s
  let f := c.filter (fun x => x.floor)
  let c1 := if f.isEmpty then c else f
  let p := c1.foldl (fun m x => max m x.prio) 0
  let top := c1.filter (fun x => x.prio == p)
  let start := Sparse.get 255 s.rr p + 1
  match (List.range 256).findSome? (fun i => top.find? (fun x => x.q == (start + i) % 256)) with
  | some x => some x
  | none => none

/-- DISTRIBUTOR_SELECT (R125, R126): selects the next caravan of the chosen launch for the account that the queue has now; a packet whose
last caravan is selected leaves its queue (log 57). -/
def execDistributorSelect (s : State) : Out :=
  match selectQueue s with
  | none => .next s
  | some x =>
    match s.disp x.did with
    | none => .next s
    | some d =>
      let pick : Pick := { num := d.nextC, own := (s.queue x.q).owner.getD d.pkt.part, acct := (s.queue x.q).cls }
      let d1 := { d with nextC := d.nextC + 1, picks := d.picks ++ [pick] }
      let s1 := (s.setDisp x.did (some d1))
      let s2 := { s1 with rr := Sparse.set 255 s1.rr x.prio x.q }
      .next (if d1.unselected then s2 else s2.setQueue x.q { s2.queue x.q with pkts := (s2.queue x.q).pkts.filter (· != x.did) })

/-! ### Binding (R127, R109, R18, R53) -/

/-- The drays of a cluster that a core holds. -/
def leasesOf (s : State) (g : Nat) : List Nat := [0, 1].filter (fun i => (s.dray (clusterOf g) i).holder == some g)

/-- A core may take a task: idle, its hitch table free, its accesses performed, its leases given up, and with no caravan but saved ones
(R48, R111, R211, R268). -/
def coreFree (s : State) (g : Nat) : Bool :=
  (s.core g).free && (s.core g).mem.wbuf.isEmpty && (s.core g).mem.late.isEmpty && (leasesOf s g).isEmpty &&
    s.caravans.all (fun e => match e.2 with | some c => c.st == .saved || !c.cores.contains g | none => true)

/-- The physical cores that a partition's core table maps in a cluster, ascending. -/
def partCores (x : Partition) (cl : Nat) : List Nat :=
  ((List.range Config.coresPerCluster).map (· + cl * Config.coresPerCluster)).filter (fun g => x.table.contains (some g))

/-- The cores and the cluster of a bind: the lowest cluster with `size` free cores and the wagons (R127). -/
def findCluster (s : State) (p : Nat) (x : Partition) (size wagons : Nat) : Option (Nat × List Nat) :=
  (List.range Config.clusters).findSome? (fun cl =>
    let free := (partCores x cl).filter (coreFree s)
    let y := s.cluster cl
    if free.length ≥ size ∧ y.freeCount ≥ size * wagons ∧ poolRoom s 1 (fun q => y.held q) p (size * wagons) then some (cl, free.take size) else none)

/-- A window of an entry of the window table; none when it is malformed (R18). -/
def windowEntry (e : Nat) : Option Window :=
  let bound := e / 2 ^ 96 % 2 = 1
  if e / 2 ^ 97 ≠ 0 ∨ (bound ∧ (e / 2 ^ 56 % 256 ≠ 0 ∨ e % 8 ≠ 0)) then none
  else some { base := BitVec.ofNat 64 (e % 2 ^ 64), size := BitVec.ofNat 32 (e / 2 ^ 64 % 2 ^ 32), bound := bound }

/-- The windows that a launch binds; none for a malformed launch (R18). -/
def readWindows (s : State) (p : Nat) (a : Word) : Option (Sparse Window) :=
  if a = 0 then some []
  else
    let ws := (List.range 8).map (fun i => (distRead s p (a + BitVec.ofNat 64 (16 * i)) 16).bind windowEntry)
    if ws.all Option.isSome then some (Sparse.setMany {} [] ((ws.filterMap id).zipIdx.map (fun w => (w.2, w.1)))) else none

/-- The addresses that the binder reads the window table at (R18). -/
def windowReads (a : Word) : List Nat := if a = 0 then [] else (List.range 8).map (fun i => (a + BitVec.ofNat 64 (16 * i)).toNat)

/-- A bind that finds the window table malformed stops the binding of its launch (R18); what its reads have set stays set, and one that the
router discarded has left its record (R23, R278). -/
def malformedBind (s0 : State) (did : Nat) (d : Dispatch) : State :=
  let as := windowReads d.pkt.pwtab
  let s := distRecord (distWalk s0 d.pkt.part as) d.pkt.part as
  let s1 := s.setDisp did (some { d with malformed := true, picks := [] })
  let q := s1.queue d.queue
  settle47 (tryFinal (s1.setQueue d.queue { q with pkts := q.pkts.filter (· != did) }) did) did

/-- A tick is in progress for the gang of a partition: its cores have a pre-emption request (R131). -/
def ticking (s : State) (p : Nat) : Bool :=
  s.rots.any (fun e => match e.2 with
    | some r => r.deadline.isSome && (match r.gangs[r.running]? with | some g => g.parts.contains p | none => false)
    | none => false)

/-- The core state of Table 06-1 for the task of rank r and linear index lin of a launch. -/
def startState (d : Dispatch) (task : Task) (size : Nat) (wins : Sparse Window) (preempt : Bool) (c : Core) : Core :=
  let k := d.pkt
  let x := task.lin % k.x
  let y := task.lin / k.x % k.y
  let z := task.lin / k.x / k.y
  { pc := k.entry, sup := d.sup,
    regs := { s := Sparse.setMany 0 [] [(1, BitVec.ofNat 64 x), (2, BitVec.ofNat 64 y), (3, BitVec.ofNat 64 z),
                                        (4, BitVec.ofNat 64 task.rank), (5, BitVec.ofNat 64 size)] },
    wins := wins, chans := (c.chans.filter (fun e => !e.2.xfers.isEmpty)).map (fun e => (e.1, { e.2 with shadow := [], seq := 0 })),
    sched := { run := .binding, task := some task, preempt := preempt } }

/-- Hitches n wagons to the slots 0 to n - 1 of a core (R53). -/
def hitchFirst (s : State) (cl g p : Nat) (clear : Bool) (slots : List Nat) : State :=
  slots.foldl (fun t n => match (t.cluster cl).freeWagon with
    | some w => (takeWagon t cl w p clear).updCore g (fun c => c.setSlot n { c.slot n with st := .attached, wagon := w })
    | none => t) s

/-- The slots that a bind fills. -/
def bindSlots (wagons : Nat) (cores : List Nat) : List (Nat × Nat) := cores.flatMap (fun g => (List.range wagons).map (fun n => (g, n)))

/-- Binds a selected caravan of a launch to cores of a cluster (R111, R127). -/
def bindCaravan (s : State) (did : Nat) (d : Dispatch) (x : Pick) (cl : Nat) (cores : List Nat) (wins : Sparse Window) : State :=
  let k := d.pkt
  let car := s.nextId
  let s1 := { s with nextId := car + 1 + k.size }
  let s2 := s1.setDisp did (some { d with picks := d.picks.erase x, boundC := d.boundC + 1, home := some (d.home.getD cl) })
  let c : Caravan := { disp := did, num := x.num, size := k.size, part := k.part, own := x.own, acct := x.acct, cores := cores, st := .starting }
  let s3 := s2.setCaravan car (some c)
  let s4 := cores.zipIdx.foldl (fun t e =>
    let task : Task := { uid := car + 1 + e.2, disp := did, lin := x.num * k.size + e.2, rank := e.2, car := car, part := k.part, acct := x.acct }
    hitchFirst (t.updCore e.1 (startState d task k.size wins (ticking s k.part))) cl e.1 k.part false (List.range k.wagons)) s3
  startCaravan s4 car

/-- CARAVAN_BIND (R127, R126): the oldest selected caravan of a launch binds once a cluster qualifies, whatever has changed since its
selection. -/
def execCaravanBind (disp : Nat) (s : State) : Out :=
  match s.disp disp with
  | none => .next s
  | some d =>
    match d.picks.head?, s.part d.pkt.part with
    | some pick, some x =>
      if x.killing then .next s
      else match findCluster s d.pkt.part x d.pkt.size d.pkt.wagons with
        | none => .next s
        | some (cl, cores) =>
          let slots := bindSlots d.pkt.wagons cores
          if !slots.all (fun e => yardMay s e.1 e.2) then .next s
          else match readWindows s d.pkt.part d.pkt.pwtab with
            | none => .next (malformedBind s disp d)
            | some w =>
              let s1 := slots.foldl (fun t e => yardReached t e.1 e.2) (distWalk s d.pkt.part (windowReads d.pkt.pwtab))
              .next (bindCaravan s1 disp d pick cl cores w)
    | _, _ => .next s

/-! ### Retirement (R53, R100, R167) -/

/-- Everything that the task of a core has issued has completed (R100): its stores, its engine commands, the batches of its leases. -/
def issuedDone (s : State) (g : Nat) : Bool :=
  (s.core g).drained && (s.core g).xfers.all (fun x => x.uid != (s.core g).uid) && (s.coachCmds g).isEmpty && (s.drayCmds g).isEmpty &&
    (leasesOf s g).all (fun i => (s.dray (clusterOf g) i).quiet)

/-- No slot of a core is LEAVING or waits for a wagon (R53, R54). -/
def handsResolved (s : State) (g : Nat) : Bool := (s.core g).hitch.all (fun e => e.2.st != .leaving && !e.2.inb)

/-- Returns the ATTACHED and ARRIVING wagons of a core to the yard in slot order and frees its table (R53, R54). -/
def returnWagons (s : State) (g : Nat) : State :=
  let ws := (s.core g).hitch.filterMap (fun e => if e.2.st = .attached ∨ e.2.st = .arriving then some e.2.wagon else none)
  (ws.foldl (fun t w => freeWagonBack t (clusterOf g) w) s).updCore g Core.clearHitch

/-- Gives up the leases of a core (R211). -/
def giveLeases (s : State) (g : Nat) : State := (leasesOf s g).foldl (fun t i => t.updDray (clusterOf g) i Dray.release) s

/-- TASK_RETIRE (R100, R167): after DONE, once its stores, commands and hand-overs have resolved, the task retires, in its place among the
events of its barriers (R199). -/
def execTaskRetire (core : Nat) (s : State) : Out :=
  if (s.core core).sched.run ≠ .done || !issuedDone s core || !handsResolved s core || !mayWithdraw s core (placeArrive core) then .next s
  else
    let s1 := freeMutexes (giveLeases (returnWagons s core) core) core
    let s2 := withdrawAll s1 core .retired
    .next (taskOver (s2.updCore core (fun c => { c with mail := {} })) core true)

/-! ### The other steps -/

/-- BARRIER47_REMOTE_ARRIVAL (R98, R199): an arrival from another cluster reaches the event unit, in the place of its core among the
arrivals of the cycle. -/
def execBarrier47RemoteArrival (disp lin : Nat) (s : State) : Out :=
  match s.disp disp with
  | none => .next s
  | some d =>
    let cl := d.home.getD 0
    let place := placeArrive ((s.coreOfLin disp lin).getD 0)
    if d.b47.flight.contains lin && s.mayReach cl (barKey disp 47) place then
      .next (settle47 ((s.reached cl (barKey disp 47) place).setDisp disp
        (some { d with b47 := { d.b47 with flight := d.b47.flight.filter (· != lin), arrived := lin :: d.b47.arrived } })) disp)
    else .next s

/-- The virtual cycle counter of core g's caravan. -/
def State.vccOf (s : State) (g : Nat) : Word :=
  match (s.core g).sched.task with | some t => (match s.caravan t.car with | some c => c.vcc | none => 0) | none => 0

/-- TIMED_INSTRUCTION_DUE (R113): VCC has reached the slot of the timed instruction or VCCWAIT that a core holds. -/
def execTimedInstructionDue (core : Nat) (s : State) : Out :=
  match (s.core core).sched.hold with
  | .timed t vw peer =>
    if t.ule (s.vccOf core) then .next (s.updCore core (fun c => c.sch (fun x => { x with hold := .due t vw peer }))) else .next s
  | _ => .next s

/-- The answer to an outside requester. -/
def State.setReply (s : State) (r : Reply) : State := { s with host := { s.host with reply := r } }

/-- HOST_SUBMISSION (R120, R276): the host's packet is checked; a refused one gets the retry answer and its status goes to QSTAT. -/
def execHostSubmission (queue : Nat) (pkt : BitVec 512) (s : State) : Out :=
  if queue ≥ 256 then .next (s.setReply .unsupported)
  else
    let r := if s.host.tdisp = .locked ∨ s.host.tdisp = .error then (s, 3) else submit s queue none true pkt
    if r.2 = 0 then .next (r.1.setReply .accepted)
    else .next ((r.1.setQueue queue { r.1.queue queue with qstat := r.2 }).setReply .retry)

/-- BUDGET_PERIOD (R128): the counts of every account start again. -/
def execBudgetPeriod (s : State) : Out :=
  .next { s with parts := s.parts.map (fun e => (e.1, e.2.map (fun p => { p with usage := [] }))) }

end Sys2Proof.Machine
end

