-- ==== Sys2Proof/Machine/Kill.lean ====
section
/-!
DEFINITION. Killing a context (spec 15 R271, 02 R49, 11 R208, 12 R230, 10 R196, 14 R252, 06 R122, 16 R279).
-/

namespace Sys2Proof.Machine

/-- The cores whose task belongs, or last belonged, to a partition, and those that its caravans hold. -/
def coresOf (s : State) (p : Nat) : List Nat :=
  (s.cores.filterMap (fun e => match e.2.sched.task with | some t => if t.part = p then some e.1 else none | none => none) ++
    s.caravans.flatMap (fun e => match e.2 with | some c => if c.part = p ∧ c.st ≠ .saved then c.cores else [] | none => [])).eraseDups

/-- The cores whose task of a launch has not retired or ended, saved ones included (R254). -/
def runsOf (s : State) (did : Nat) : List Nat :=
  s.cores.filterMap (fun e => match e.2.sched.task with
    | some t => if t.disp = did ∧ e.2.sched.run ≠ .idle ∧ e.2.sched.run ≠ .finished then some e.1 else none
    | none => none) ++
  s.caravans.flatMap (fun e => match e.2 with | some c => if c.disp = did then c.saved.filterMap (fun m => c.cores[m.rank]?) else [] | none => [])

/-- A core has no transfer of a partition any more: they are aborted without a message (R208), also those that a dead task left there. -/
def Core.abort (p : Nat) (c : Core) : Core :=
  { c with chans := c.chans.map (fun e => (e.1, { e.2 with xfers := e.2.xfers.filter (fun x => x.part != p) })) }

/-- Step 1 for a core: it stops issuing, its wait and its late loads are discarded (R271). -/
def stopCore (c : Core) : Core :=
  { c with mem := { c.mem with late := [] },
           sched := { c.sched with run := .finished, hold := .free, preempt := false, wantLease := [] } }

/-- The commands of a partition in a dray end; a lease of one of its cores is given up (R271, R211). -/
def Dray.killPart (d : Dray) (cores : List Nat) (p : Nat) : Dray :=
  let held := match d.holder with | some g => cores.contains g | none => false
  let d1 := { d with cmds := d.cmds.filter (fun c => c.part != p), waiters := d.waiters.filter (fun g => !cores.contains g) }
  if held then { (d1.commit false).release with cmds := d1.cmds, closed := [] } else d1

/-- The engine commands of a partition in a cluster end (R271, R230). -/
def Cluster.killPart (c : Cluster) (gs : List Nat) (p : Nat) : Cluster :=
  { c with dray0 := c.dray0.killPart gs p, dray1 := c.dray1.killPart gs p, coach := c.coach.filter (fun x => x.part != p) }

/-- Steps 1 and 2 of a kill (R271): the cores stop, transfers and commands end, the launches are marked, and the owners of group members
among their tasks are dead (R254). -/
def startKill (s : State) (p : Nat) : State :=
  let gs := coresOf s p
  let s0 : State := { s with cores := s.cores.map (fun e => (e.1, e.2.abort p)) }
  let s1 := gs.foldl (fun t g => t.updCore g stopCore) s0
  let s2 : State := { s1 with clusters := s1.clusters.map (fun e => (e.1, e.2.killPart gs p)) }
  let s3 := (s2.launches p).foldl (fun t e => t.updDisp e.1 (fun d => { d with killed := true, picks := [], dead := d.dead ++ runsOf s e.1 })) s2
  s3.updPart p (fun x => { x with killing := true })

/-- Step 3 for a core: every wagon it holds in any state is FREE with its record kept, its table, inbox, queue and port are cleared, and it
has no task (R271, R49). -/
def clearCore (s : State) (g : Nat) : State :=
  let ws := (s.core g).hitch.filterMap (fun e => if e.2.st = .detached then none else some e.2.wagon)
  let s1 := ws.foldl (fun t w => freeWagonBack t (clusterOf g) w) s
  s1.updCore g (fun c => { c with hitch := [], mail := {}, sched := {} })

/-- The impound records of a partition end, their wagons FREE (R48, R49). -/
def clearImpounds (s : State) (p : Nat) : State :=
  s.clusters.foldl (fun t e => (e.2.impounds.filter (fun r => r.part == p)).foldl (fun u r => freeWagonBack (endImpound u r) e.1 r.wagon) t) s

/-- The mutexes of a partition are free, and the next grant of one that was held returns 1 (R271, R196). -/
def clearMutexes (s : State) (p : Nat) : State :=
  { s with clusters := s.clusters.map (fun e => (e.1, e.2.mapMutexes p (fun m =>
      { m with holder := none, waiters := [], dead := m.dead || m.holder.isSome }))) }

/-- Steps 3 to 5 of a kill (R271): hitch tables, queues and impounds are cleared, the caravans are gone, the records become final with
STATUS 4, the pages join the scrub queue. -/
def endKill (s : State) (p : Nat) : State :=
  let s1 := (coresOf s p).foldl clearCore (clearMutexes (clearImpounds s p) p)
  let s2 := { s1 with caravans := s1.caravans.filter (fun e => match e.2 with | some c => c.part != p | none => false) }
  let s3 := (s2.launches p).foldl (fun t e => tryFinal t e.1) s2
  (s3.updPart p (fun x => { x with killing := false })).freeFramesOf p

/-- A killed partition is quiescent: it has no transfer, and every write that its tasks have issued has been performed or discarded (R208,
R271). -/
def quiescent (s : State) (p : Nat) : Bool :=
  s.cores.all (fun e => e.2.mem.wbuf.all (fun w => w.part != p) && e.2.xfers.all (fun x => x.part != p))

/-- KILL_QUIESCENCE (R208, R49): the copies of a killed context are confirmed quiescent, and the kill goes on to its end. -/
def execKillQuiescence (part : Nat) (s : State) : Out :=
  match s.part part with
  | some x => if x.killing ∧ quiescent s part then .next (endKill s part) else .next s
  | none => .next s

end Sys2Proof.Machine
end

