-- ==== Sys2Proof/Machine/Context.lean ====
section
/-!
DEFINITION. Pre-emption: live-range tables, context records, saves, restores, rotations with their ticks and deadlines (spec 06 R115 to
R118, R130, R131, 15 R267 to R270, 02 R54).
-/

namespace Sys2Proof.Machine

/-! ### The live-range table (R116, R117) -/

/-- Everything is live: the save of a task that has executed no HALTPT (R116). The ranges are the whole of each held wagon. -/
def allLive (c : Core) : Live :=
  { s := BitVec.allOnes 64, v := BitVec.allOnes 32, k := BitVec.allOnes 8, m := BitVec.allOnes 8,
    ranges := c.hitch.filterMap (fun e => if e.2.st = .attached ∨ e.2.st = .arriving then some (e.1, 0, Config.wagonBytes) else none) }

/-- Reads n doublewords of a live-range table as loads of core g: the state after the walks and the words, or the state, TCAUSE and TVAL. -/
def readTable (s : State) (g : Nat) (a : Word) : Nat → Except (State × Nat × Word) (State × List Nat)
  | 0 => .ok (s, [])
  | n + 1 =>
    match readTable s g a n with
    | .error e => .error e
    | .ok (t, ws) =>
      let x := a + BitVec.ofNat 64 (8 * n)
      match locate t g (t.core g).sup .load x with
      | .error c => .error (t, c, x)
      | .ok (u, p) => if u.hasBad p.loc 8 then .error (u, 11, x) else .ok (u, ws ++ [u.bytes p.loc 8])

/-- The bytes of a wagon range entry at byte b that hold a bit of a bad field, lowest first of each (R117, Table 06-6). -/
def badRange (c : Core) (b e : Nat) : List Nat :=
  let len := e / 2 ^ 32 % 2 ^ 19
  let off := e / 2 ^ 8 % 2 ^ 18
  let st := (c.slot (e % 32)).st
  (if e / 2 ^ 51 ≠ 0 then [b + 6] else []) ++ (if e / 2 ^ 26 % 64 ≠ 0 then [b + 3] else []) ++ (if e / 32 % 8 ≠ 0 then [b] else []) ++
  (if len = 0 ∨ len > Config.wagonBytes ∨ len % 64 ≠ 0 then [b + 4] else []) ++
  (if off % 64 ≠ 0 ∨ off + len > Config.wagonBytes then [b + 1] else []) ++
  (if st = .attached ∨ st = .arriving then [] else [b])

/-- The live ranges of a core at its point: the state after the reads and what is live, or the state, TCAUSE and TVAL of the fault (R117). -/
def liveOf (s : State) (g : Nat) : Except (State × Nat × Word) (State × Live) :=
  let c := s.core g
  match c.sched.lrt with
  | none => .ok (s, allLive c)
  | some a =>
    match readTable s g a 10 with
    | .error e => .error e
    | .ok (t, ws) =>
      let w1 := (ws[1]?).getD 0
      let n := w1 / 2 ^ 48 % 256
      let es := ((List.range (min n 8)).map (fun i => (16 + 8 * i, (ws[2 + i]?).getD 0)))
      let bad := (if (ws[0]?).getD 0 % 2 ≠ 0 then [0] else []) ++ (if w1 / 2 ^ 32 % 2 ≠ 0 then [12] else []) ++
        (if n > 8 then [14] else []) ++ (if w1 / 2 ^ 56 ≠ 0 then [15] else []) ++ es.flatMap (fun e => badRange c e.1 e.2)
      match bad.min? with
      | some b => .error (t, 2, a + BitVec.ofNat 64 b)
      | none => .ok (t, { s := BitVec.ofNat 64 ((ws[0]?).getD 0), v := BitVec.ofNat 32 w1, k := BitVec.ofNat 8 (w1 / 2 ^ 32), m := BitVec.ofNat 8 (w1 / 2 ^ 40),
                          ranges := es.map (fun e => (e.2 % 32, e.2 / 2 ^ 8 % 2 ^ 18, e.2 / 2 ^ 32 % 2 ^ 19)) })

/-! ### The context record (R269, Tables 15-5 and 15-6) -/

/-- A field of a context record: its offset, its bytes, its value. Bytes that hold no saved state belong to no field (R269). -/
structure RecField where
  off : Nat
  n   : Nat
  val : Nat
  deriving DecidableEq, Repr

/-- The fields of a value of n doublewords at an offset. -/
def recWords (off n x : Nat) : List RecField := (List.range n).map (fun i => ⟨off + 8 * i, 8, x / 2 ^ (64 * i) % 2 ^ 64⟩)

/-- The table pair that an accumulator routes through, 0 for none (R234). -/
def MAcc.route (m : MAcc) : Nat := m.cfg.toNat / 2 ^ 32 % 4

/-- The loaded pairs that a live accumulator routes through (R269). -/
def livePairs (c : Core) (l : Live) : List Nat :=
  [1, 2, 3].filter (fun q => (Sparse.get none c.regs.pairs q).isSome && (List.range 8).any (fun u => l.m.getLsbD u && (c.getM u).route == q))

/-- The mutexes of its partition that a core holds, a bit each (Table 15-6). -/
def heldMutexes (s : State) (g : Nat) : Nat :=
  ((List.range 16).filter (fun n => (Sparse.get {} (s.cluster (clusterOf g)).mutexes ((s.core g).part * 16 + n)).holder == some g)).foldl (fun a n => a + 2 ^ n) 0

/-- The header (Table 15-6). -/
def headerWords (s : State) (g : Nat) (l : Live) (size : Nat) : List RecField :=
  let c := s.core g
  let bit := fun (b : Bool) (n : Nat) => if b then 2 ^ n else 0
  let flags := bit c.sup 0 + 2 + bit (c.sched.wantLease.contains 0) 2 + bit (c.sched.wantLease.contains 1) 3 +
    ((livePairs c l).map (fun q => 2 ^ (3 + q))).sum + bit c.sched.triggered 7
  let rank := match c.sched.task with | some t => t.rank | none => 0
  [⟨0, 8, c.pc.toNat⟩, ⟨8, 8, (c.sched.lrt.getD 0).toNat⟩, ⟨0x10, 8, flags + rank % 256 * 2 ^ 8 + size % 256 * 2 ^ 16 + heldMutexes s g * 2 ^ 32⟩] ++
    recWords 0x18 5 0

/-- The CSRs in the order of Table 15-5. -/
def csrWords (c : Csrs) (scstat : Word) : List RecField :=
  [c.rmode, c.fflags, c.srseed, c.dzt, c.tvec, c.tcause, c.tepc, c.tval, c.tword, c.tstat, c.tscr, c.pwstat, c.xstat, scstat, c.bwstat].zipIdx.map
    (fun x => ⟨0x40 + 8 * x.2, 8, x.1.toNat⟩)

/-- A walker in 64 bytes, of which 56 to 62 hold nothing (Table 15-5). -/
def walkerWords (off : Nat) (w : Walker) : List RecField :=
  let dim := fun (d : Dim) => d.cnt.toNat + d.str.toNat * 2 ^ 32
  let b := fun (x : Bool) (n : Nat) => if x then 2 ^ n else 0
  [⟨off, 8, w.base.toNat⟩, ⟨off + 8, 8, dim w.d0⟩, ⟨off + 16, 8, dim w.d1⟩, ⟨off + 24, 8, dim w.d2⟩, ⟨off + 32, 8, dim w.d3⟩,
   ⟨off + 40, 8, w.d0.idx.toNat + w.d1.idx.toNat * 2 ^ 32⟩, ⟨off + 48, 8, w.d2.idx.toNat + w.d3.idx.toNat * 2 ^ 32⟩,
   ⟨off + 63, 1, b w.d0.fin 0 + b w.d1.fin 1 + b w.d2.fin 2 + b w.d3.fin 3 + b w.bound 4⟩]

/-- A hitch slot (Table 15-5): STATE and RVK, ETAG, and of a slot with a wagon its livery and tag. -/
def slotWords (s : State) (g n : Nat) : List RecField :=
  let h := (s.core g).slot n
  let w := (s.cluster (clusterOf g)).wagon h.wagon
  let off := 0x740 + 16 * n
  [⟨off, 1, h.st.code + (if h.rvk then 16 else 0)⟩, ⟨off + 2, 2, h.etag.toNat⟩] ++
    (if h.st = .attached ∨ h.st = .arriving then [⟨off + 4, 4, w.livery.toNat⟩, ⟨off + 8, 2, w.tag.toNat⟩] else [])

/-- A copy channel in 192 bytes (Table 15-5): 19 shadows and the sequence. -/
def chanWords (n : Nat) (c : Chan) : List RecField :=
  (List.range 19).map (fun i => ⟨0x940 + 192 * n + 8 * i, 8, (c.sh i).toNat⟩) ++ [⟨0x940 + 192 * n + 152, 2, c.seq.toNat⟩]

/-- The stagecoach state (Table 15-5): the configuration when there is one, the sequence, the status. -/
def coachWords (c : SCore) (scstat : Word) : List RecField :=
  (match c.cfg with | some x => recWords 0xC40 8 x.toNat | none => []) ++ [⟨0xC80, 2, c.seq % 2 ^ 16⟩, ⟨0xC88, 8, scstat.toNat⟩]

/-- The lines with a generation. -/
def genLines : List Nat := (List.range 48) ++ (List.range 64).map (· + 64)

/-- The caravan block (Table 15-5; the place of the bits in each barrier's second doubleword: log 25). -/
def caravanWords (c : Caravan) : List RecField :=
  ⟨0x1040, 8, c.vcc.toNat⟩ :: (List.range 47).flatMap (fun n =>
    let b := c.bar n
    [⟨0x1048 + 16 * n, 8, b.gen.toNat⟩, ⟨0x1050 + 16 * n, 2, b.members.toNat⟩, ⟨0x1054 + 16 * n, 2, b.arrived.toNat⟩])

/-- The inbox, the receive queue and the receive port (Table 15-5); entries that hold nothing are not written. -/
def mailWords (m : Mail) : List RecField :=
  m.inbox.zipIdx.flatMap (fun x => [⟨0x1440 + 16 * x.2, 8, x.1.w0.toNat⟩, ⟨0x1448 + 16 * x.2, 8, x.1.w1.toNat⟩]) ++
  m.rq.zipIdx.flatMap (fun x => recWords (0x1840 + 64 * x.2) 8 x.1.data.toNat) ++
  (match m.port with
    | some p => recWords 0x1C40 64 p.data.toNat ++ [⟨0x1E40, 8, p.slot.toNat⟩, ⟨0x1E48, 1, p.sender⟩]
    | none => [])

/-- A mean accumulator in 2,112 bytes (Table 15-5; the places of E and n in a lane: log 25). -/
def maccWords (u : Nat) (m : MAcc) : List RecField :=
  ⟨0x1E80 + 2112 * u, 8, m.cfg.toNat⟩ :: (List.range 128).flatMap (fun i =>
    let l := Sparse.get {} m.lanes i
    [⟨0x1EC0 + 2112 * u + 16 * i, 8, l.s.toNat + l.e % 2 ^ 32 * 2 ^ 32⟩, ⟨0x1EC8 + 2112 * u + 16 * i, 8, l.n % 2 ^ 64⟩])

/-- The live wagon ranges in table order (Table 15-5). -/
def rangeWords (s : State) (g : Nat) : Nat → List (Nat × Nat × Nat) → List RecField
  | _, [] => []
  | off, (slot, o, n) :: l =>
    let at_ := locWagon (clusterOf g) ((s.core g).slot slot).wagon o
    (List.range (n / 8)).map (fun i => ⟨off + 8 * i, 8, s.bytes (at_ + 8 * i) 8⟩) ++ rangeWords s g (off + n) l

/-- The whole context record of a core, the caravan block apart. -/
def contextWords (s : State) (g : Nat) (l : Live) (car : Caravan) : List RecField :=
  let c := s.core g
  let scstat := { s with cur := g }.scstat
  let live := fun (n : Nat) (on : Nat → Bool) (f : Nat → List RecField) => ((List.range n).filter on).flatMap f
  headerWords s g l car.size ++ csrWords c.csr scstat ++
  (List.range 8).flatMap (fun i => let w := Sparse.get {} c.wins i
    [⟨0xC0 + 16 * i, 8, w.base.toNat⟩, ⟨0xC8 + 16 * i, 8, w.size.toNat + (if w.bound then 2 ^ 32 else 0)⟩]) ++
  live 64 l.s.getLsbD (fun i => [⟨0x140 + 8 * i, 8, (c.getS i).toNat⟩]) ++
  live 8 l.k.getLsbD (fun i => recWords (0x340 + 64 * i) 8 (if i = 0 then 0 else (c.getK i).toNat)) ++
  (List.range 8).flatMap (fun i => walkerWords (0x540 + 64 * i) (c.getW i)) ++
  (List.range 32).flatMap (slotWords s g) ++ (List.range 4).flatMap (fun n => chanWords n (c.chan n)) ++
  coachWords c.sc scstat ++ genLines.zipIdx.map (fun x => ⟨0xCC0 + 8 * x.2, 8, (Sparse.get 0 c.obs x.1).toNat⟩) ++
  mailWords c.mail ++ live 8 l.m.getLsbD (fun u => maccWords u (c.getM u)) ++
  (livePairs c l).flatMap (fun q => recWords (0x6080 + 16512 * (q - 1)) 2064 (((Sparse.get none c.regs.pairs q).getD 0).toNat)) ++
  live 32 l.v.getLsbD (fun i => recWords (0x12200 + 512 * i) 64 (c.getV i).toNat) ++ rangeWords s g 0x16200 l.ranges

/-- The address of the context record of a core (R269). -/
def recordBase (s : State) (p g : Nat) : Nat := ((match s.part p with | some x => x.csave.toNat | none => 0) + s.logicalOf p g * 0x817000) % 2 ^ 64

/-- Writes fields of a record with a partition's translation (R268 step 4). It ends in error at the first that cannot be performed; one
that the router discards leaves a TYPE 8 record (R278). -/
def writeRecord (p g base : Nat) : List RecField → State → Except State State
  | [], s => .ok s
  | f :: l, s =>
    let a := base + f.off
    let discard := fun (t : State) => t.fqPush (frecWord 8 p g 0 0) a
    if a / 2 ^ 56 ≠ 0 then .error s
    else match translate s (clusterOf g) p true .store a with
      | .error c => .error (if c = 15 then discard s else s)
      | .ok (t, x) =>
        if x.region ≠ 0 then .error t
        else if !t.owns p x.pa then .error (discard t)
        else writeRecord p g base l (t.writeGroup p g (State.maskedBytes (locHbm x.pa) f.n (BitVec.ofNat 64 f.val) 0xFF))

/-! ### Saving (R115, R118, R267, R268) -/

/-- A member at its point closes its open batches, and gives up each lease whose batches have completed (R115, R211). -/
def settlePoint (s : State) (g : Nat) : State :=
  if (s.core g).sched.run ≠ .point then s
  else (leasesOf s g).foldl (fun t i =>
    let t1 := t.updDray (clusterOf g) i (fun d => d.commit false)
    if (t1.dray (clusterOf g) i).quiet then
      (t1.updDray (clusterOf g) i Dray.release).updCore g (fun c => c.sch (fun x => { x with wantLease := x.wantLease ++ [i] }))
    else t1) s

/-- A member at its point goes on without being saved: it issues again once it has its leases back (R117, R131). -/
def resumePoint (s : State) (g : Nat) : State :=
  if (s.core g).sched.run ≠ .point then s
  else requestLeases (s.updCore g (fun c => c.sch (fun x => { x with run := .running }))) g

/-- A member is ready to be saved: at its point with everything it issued complete, its hand-overs resolved and no report pending; one
that has executed DONE or has ended counts as retired (R115, R118, R54). -/
def memberReady (s : State) (g : Nat) : Bool :=
  match (s.core g).sched.run with
  | .done => true
  | .finished => true
  | .point => issuedDone s g && handsResolved s g && (leasesOf s g).isEmpty && (s.core g).sched.pfHere.isEmpty
  | _ => false

/-- The members of a caravan that a save writes. -/
def toSave (s : State) (c : Caravan) : List Nat := c.cores.filter (fun g => (s.core g).sched.run == .point)

/-- A malformed or unreadable table: the member takes the trap in place of the save (R117). -/
def saveTrap (s : State) (g cause : Nat) (tval : Word) : State :=
  let t := { resumePoint s g with cur := g, word := (s.core g).sched.ptWord }
  { trapEntry (discardRecord t cause tval) cause tval with cur := s.cur, word := s.word }

/-- The tables of all members: those that fail trap; with none, the state after the reads and what is live of each. -/
def readLives (s : State) : List Nat → State × List (Nat × Live) × Bool
  | [] => (s, [], true)
  | g :: l =>
    match liveOf s g with
    | .error (t, c, v) => let r := readLives (saveTrap t g c v) l; (r.1, r.2.1, false)
    | .ok (t, x) => let r := readLives t l; (r.1, (g, x) :: r.2.1, r.2.2)

/-- Writes the records of the members, and the caravan block into the record of rank 0 (R268, R269). -/
def writeRecords (c : Caravan) : List (Nat × Live) → State → Except State State
  | [], s => writeRecord c.part (c.cores.headD 0) (recordBase s c.part (c.cores.headD 0)) (caravanWords c) s
  | (g, l) :: r, s => (writeRecord c.part g (recordBase s c.part g) (contextWords s g l c) s).bind (writeRecords c r)

/-- The mutexes of core g's task go with it into the save, or come back with it (R196). -/
def moveMutexes (s : State) (g part to_ from_ : Nat) : State :=
  s.updCluster (clusterOf g) (fun y => y.mapMutexes part (fun m => if m.holder = some from_ then { m with holder := some to_ } else m))

/-- What the device keeps of a member that is saved. -/
def keptOf (s : State) (e : Nat × Live) : Option Saved :=
  (s.core e.1).sched.task.map (fun t => { rank := t.rank, task := t, live := e.2, mail := (s.core e.1).mail, sc := (s.core e.1).sc })

/-- A saved member: its wagons are in the yard, its core is free (R54, R268); a member saved too late keeps its core for the restore. -/
def savedCore (late : Bool) (s : State) (g : Nat) : State :=
  let c := s.core g
  (moveMutexes (returnWagons s g) g c.part (parked c.uid) g).updCore g (fun x =>
    { x with mail := {}, sched := if late then { run := .binding, task := c.sched.task } else {} })

/-- The caravans of the partitions of a gang. -/
def gangCaravans (s : State) (g : Gang) : List (Nat × Caravan) :=
  s.caravans.filterMap (fun e => match e.2 with | some c => if g.parts.contains c.part then some (e.1, c) else none | none => none)

/-- Marks the partitions of a gang as switched out or in. -/
def setOut (s : State) (g : Gang) (out : Bool) : State := g.parts.foldl (fun t p => t.updPart p (fun x => { x with out := out })) s

/-- A gang of a rotation. -/
def Rotation.gang (r : Rotation) (i : Nat) : Gang := (r.gangs[i]?).getD { parts := [] }
/-- Changes a gang of a rotation. -/
def Rotation.updGang (r : Rotation) (i : Nat) (f : Gang → Gang) : Rotation :=
  { r with gangs := r.gangs.zipIdx.map (fun x => if x.2 = i then f x.1 else x.1) }

/-- A rotation of a number. -/
def State.rot (s : State) (i : Nat) : Option Rotation := Sparse.get none s.rots i
/-- Replaces a rotation. -/
def State.setRot (s : State) (i : Nat) (r : Option Rotation) : State := { s with rots := Sparse.set none s.rots i r }

/-- No partition of a gang is being killed. -/
def gangAlive (s : State) (g : Gang) : Bool := g.parts.all (fun p => match s.part p with | some x => !x.killing | none => true)

/-- Ends the wait of a tick whose running gang has saved every caravan before the deadline, or has been killed: the next gang runs (R131). -/
def tickDone (s : State) (i : Nat) : State :=
  match s.rot i with
  | none => s
  | some r =>
    let g := r.gang r.running
    let into := fun (r1 : Rotation) => setOut (s.setRot i (some { r1 with running := r1.into, deadline := none, ending := false })) (r.gang r.into) false
    match r.deadline with
    | none => s
    | some t =>
      if r.ending then (if gangAlive s g then into r else s)
      else if s.time.ult t && gangAlive s g && (gangCaravans s g).all (fun c => c.2.st == .saved) then
        into (r.updGang r.running (fun x => { x with misses := 0 }))
      else s

/-- Every tick in progress. -/
def ticksDone (s : State) : State := (s.rots.map (fun e => e.1)).foldl tickDone s

/-- The save deadline of a tick of the running gang of a partition has passed (R268). -/
def lateNow (s : State) (p : Nat) : Bool :=
  s.rots.any (fun e => match e.2 with
    | some r => (r.gang r.running).parts.contains p && (match r.deadline with | some t => !s.time.ult t | none => false)
    | none => false)

/-- CONTEXT_SAVE (R268): members at their points give up their leases; when every member is ready the caravan is saved whole. One that
writes at the deadline or later finishes its writes and does not count as saved. -/
def execContextSave (car : Nat) (s : State) : Out :=
  match s.caravan car with
  | none => .next s
  | some c =>
    if c.st ≠ .running then .next s
    else
      let s1 := c.cores.foldl settlePoint s
      let gs := toSave s1 c
      if gs.isEmpty || !c.cores.all (memberReady s1) then .next s1
      else
        let r := readLives s1 gs
        if !r.2.2 then .next r.1
        else match writeRecords c r.2.1 r.1 with
          | .error s2 => .next s2
          | .ok s2 =>
            let late := lateNow s c.part
            let s3 := gs.foldl (savedCore late) s2
            let s4 := if late then s3 else c.cores.foldl (fun t g => t.updCore g Core.rest) s3
            .next (ticksDone (s4.setCaravan car (some { c with st := if late then .late else .saved, saved := r.2.1.filterMap (keptOf s2) })))

/-! ### Restoring (R270, R54, R118) -/

/-- A doubleword of a context record, none when it cannot be read. -/
def recordWord (s : State) (p g base off : Nat) : Option Nat :=
  let a := base + off
  if a / 2 ^ 56 ≠ 0 then none
  else match translate s (clusterOf g) p true .load a with
    | .error _ => none
    | .ok (_, x) => if x.region = 0 ∧ s.owns p x.pa ∧ !s.hasBad (locHbm x.pa) 8 then some (s.bytes (locHbm x.pa) 8) else none

/-- A doubleword of a record that can be read. -/
def recordGet (s : State) (p g off : Nat) : Nat := (recordWord s p g (recordBase s p g) off).getD 0
/-- n doublewords of a record, little-endian. -/
def recordWide (s : State) (p g off : Nat) : Nat → Nat
  | 0 => 0
  | n + 1 => recordGet s p g off + 2 ^ 64 * recordWide s p g (off + 8) n

/-- The 4 KiB of a record at an offset can be read without an error. -/
def blockReadable (s : State) (p g base off : Nat) : Bool :=
  let a := base + off
  decide (a / 2 ^ 56 = 0) && (match translate s (clusterOf g) p true .load a with
    | .error _ => false
    | .ok (_, x) => x.region == 0 && s.owns p x.pa && !s.hasBad (locHbm x.pa) 4096)

/-- The saved members of a caravan, each on the core of its rank (R118). -/
def Caravan.kept (c : Caravan) : List (Nat × Saved) := c.saved.filterMap (fun m => (c.cores[m.rank]?).map (fun g => (g, m)))

/-- The 4 KiB blocks that a restore of a caravan reads: those of its members' records, and those of the caravan block, by core and offset. -/
def recordBlocks (c : Caravan) : List (Nat × Nat) :=
  c.kept.flatMap (fun e => (List.range ((0x16200 + (e.2.live.ranges.map (fun r => r.2.2)).sum + 4095) / 4096)).map (fun i => (e.1, 4096 * i))) ++
    [(c.cores.headD 0, 0), (c.cores.headD 0, 4096)]

/-- The walks of a restore set the A bits of their leaves; the first read that the router discards leaves a record (R23, R278). -/
def recordWalk (s : State) (c : Caravan) : State :=
  let at_ := fun (e : Nat × Nat) => recordBase s c.part e.1 + e.2
  let s1 := walkAll s (clusterOf (c.cores.headD 0)) c.part true .load ((recordBlocks c).map at_)
  match (recordBlocks c).find? (fun e => distDiscarded s1 c.part (at_ e)) with
  | some e => s1.fqPush (frecWord 8 c.part e.1 0 0) (at_ e)
  | none => s1

/-- The records that a restore reads can be read whole. -/
def recordsReadable (s : State) (c : Caravan) : Bool :=
  (recordBlocks c).all (fun e => blockReadable s c.part e.1 (recordBase s c.part e.1) e.2)

/-- A dimension of a walker from its record. -/
def dimFrom (d i : Nat) (fin : Bool) : Dim := { cnt := BitVec.ofNat 32 d, str := BitVec.ofNat 32 (d / 2 ^ 32), idx := BitVec.ofNat 32 i, fin := fin }

/-- A walker from its record (Table 15-5). -/
def walkerFrom (get : Nat → Nat) (off : Nat) : Walker :=
  let e := get (off + 56) / 2 ^ 56
  { base := BitVec.ofNat 64 (get off),
    d0 := dimFrom (get (off + 8)) (get (off + 40)) (e.testBit 0), d1 := dimFrom (get (off + 16)) (get (off + 40) / 2 ^ 32) (e.testBit 1),
    d2 := dimFrom (get (off + 24)) (get (off + 48)) (e.testBit 2), d3 := dimFrom (get (off + 32)) (get (off + 48) / 2 ^ 32) (e.testBit 3),
    bound := e.testBit 4 }

/-- The CSRs from their record, reserved bits zero. -/
def csrsFrom (get : Nat → Nat) : Csrs :=
  let w := fun (i : Nat) => BitVec.ofNat 64 (get (0x40 + 8 * i))
  { rmode := w 0 &&& 0xF, fflags := w 1 &&& 0x1F1F, srseed := w 2, dzt := w 3 &&& 1, tvec := w 4 &&& 0xFFFFFFFFFFFFF000, tcause := w 5 &&& 0x1F,
    tepc := w 6, tval := w 7, tword := w 8 &&& 0xFFFFFFFF, tstat := w 9 &&& 3, tscr := w 10, pwstat := w 11 &&& 0xFF01,
    xstat := w 12 &&& 0x803F00FF, bwstat := w 14 &&& 0x1FFFFFFFFFFFF }

/-- The register files from the record; what is not live reads zero (R270, R117). -/
def regsFrom (get : Nat → Nat) (wide : Nat → Nat → Nat) (l : Live) : Regs :=
  let flags := get 0x10
  let pick := fun (n : Nat) (on : Nat → Bool) => (List.range n).filter on
  { s := Sparse.setMany 0 [] ((pick 64 (fun i => i != 0 && l.s.getLsbD i)).map (fun i => (i, BitVec.ofNat 64 (get (0x140 + 8 * i))))),
    v := Sparse.setMany 0 [] ((pick 32 l.v.getLsbD).map (fun i => (i, BitVec.ofNat 4096 (wide (0x12200 + 512 * i) 64)))),
    k := Sparse.setMany 0 [] ((pick 8 (fun i => i != 0 && l.k.getLsbD i)).map (fun i => (i, BitVec.ofNat 512 (wide (0x340 + 64 * i) 8)))),
    w := Sparse.setMany {} [] ((List.range 8).map (fun i => (i, walkerFrom get (0x540 + 64 * i)))),
    m := Sparse.setMany {} [] ((pick 8 l.m.getLsbD).map (fun u => (u,
      { cfg := BitVec.ofNat 64 (get (0x1E80 + 2112 * u)),
        lanes := Sparse.setMany {} [] ((List.range 128).map (fun i =>
          let a := get (0x1EC0 + 2112 * u + 16 * i)
          (i, { s := BitVec.ofNat 32 a, e := a / 2 ^ 32, n := get (0x1EC8 + 2112 * u + 16 * i) }))) }))),
    pairs := Sparse.setMany none [] (([1, 2, 3].filter (fun q => flags.testBit (3 + q))).map (fun q =>
      (q, some (BitVec.ofNat 132096 (wide (0x6080 + 16512 * (q - 1)) 2064))))) }

/-- The queues from the record: as many entries as were saved (Table 15-5). -/
def mailFrom (get : Nat → Nat) (wide : Nat → Nat → Nat) (m : Mail) : Mail :=
  { m with
    inbox := m.inbox.zipIdx.map (fun x => ⟨BitVec.ofNat 64 (get (0x1440 + 16 * x.2)), BitVec.ofNat 64 (get (0x1448 + 16 * x.2))⟩),
    rq := m.rq.zipIdx.map (fun x => { x.1 with data := BitVec.ofNat 512 (wide (0x1840 + 64 * x.2) 8) }),
    port := m.port.map (fun p =>
      { p with data := BitVec.ofNat 4096 (wide 0x1C40 64), slot := BitVec.ofNat 64 (get 0x1E40), sender := get 0x1E48, fresh := false }) }

/-- The stagecoach state from the record; the results of its last command stay with the engine (R216, log 25). -/
def coachFrom (get : Nat → Nat) (wide : Nat → Nat → Nat) (c : SCore) : SCore :=
  let st := get 0xC88
  { c with cfg := c.cfg.map (fun _ => BitVec.ofNat 512 (wide 0xC40 8)), seq := get 0xC80 % 2 ^ 16, lseq := st / 2 ^ 32 % 2 ^ 16, lfunc := st / 2 ^ 16 % 32,
           lstat := st / 2 ^ 8 % 256 }

/-- A core restored from its record, its hitch table and wagons apart (R270). -/
def coreFrom (get : Nat → Nat) (wide : Nat → Nat → Nat) (l : Live) (preempt : Bool) (mem : List Host.Cell) (c : Core) : Core :=
  let flags := get 0x10
  let leases := (if flags.testBit 2 then [0] else []) ++ (if flags.testBit 3 then [1] else [])
  { c with
    pc := BitVec.ofNat 64 (get 0), sup := flags.testBit 0, regs := regsFrom get wide l, csr := csrsFrom get,
    wins := Sparse.setMany {} [] ((List.range 8).map (fun i =>
      (i, { base := BitVec.ofNat 64 (get (0xC0 + 16 * i)), size := BitVec.ofNat 32 (get (0xC8 + 16 * i)), bound := (get (0xC8 + 16 * i)).testBit 32 }))),
    mail := mailFrom get wide c.mail, sc := coachFrom get wide c.sc,
    chans := Sparse.setMany {} [] ((List.range 4).map (fun n =>
      (n, { shadow := Sparse.setMany 0 [] ((List.range 19).map (fun i => (i, BitVec.ofNat 64 (get (0x940 + 192 * n + 8 * i))))),
            seq := BitVec.ofNat 16 (get (0x940 + 192 * n + 152)), xfers := (c.chan n).xfers }))),
    obs := Sparse.setMany 0 [] (genLines.zipIdx.map (fun x => (x.1, BitVec.ofNat 64 (get (0xCC0 + 8 * x.2))))),
    mem := { c.mem with rcache := [], imem := mem },
    sched := { c.sched with
      run := .running, hold := .free, preempt := preempt, wantLease := leases, triggered := flags.testBit 7,
      lrt := if get 8 = 0 then none else some (BitVec.ofNat 64 (get 8)) } }

/-- The state of a slot by its code (Table 02-4). -/
def slotState (n : Nat) : HState := match n % 8 with | 1 => .attached | 2 => .arriving | _ => .detached

/-- The recorded slots of a core that receive a wagon (R54). -/
def slotsToFill (s : State) (p g : Nat) : List Nat :=
  (List.range 32).filter (fun n => slotState (recordGet s p g (0x740 + 16 * n)) != .detached)

/-- The first half of a restore: the cores stay with the caravan again, and the recorded slots of every member receive wagons under R33,
each to be cleared (R54, R111). -/
def allocateSaved (s : State) (c : Caravan) (preempt : Bool) : State :=
  let past := c.ended.filterMap (fun r => c.cores[r]?)
  let s1 := past.foldl (fun t g => t.updCore g (fun x => if x.sched.run = .idle then x.sch (fun y => { y with run := .finished }) else x)) s
  c.kept.foldl (fun t e =>
    let slots := slotsToFill t c.part e.1
    hitchFirst (t.updCore e.1 (fun x => { x with hitch := [], mail := e.2.mail, sc := e.2.sc, sched := { run := .binding, task := some e.2.task, preempt := preempt } }))
      (clusterOf e.1) e.1 c.part true slots) s1

/-- The cores of a caravan can take it back: those of its saved members are free, no other caravan holds those of the members that are
over (R111, R268). A caravan saved too late has kept its cores. -/
def coresBack (s : State) (c : Caravan) : Bool :=
  c.st == .late || (c.kept.all (fun e => coreFree s e.1) &&
    (c.ended.filterMap (fun r => c.cores[r]?)).all (fun g =>
      s.caravans.all (fun e => match e.2 with | some x => x.st == .saved || !x.cores.contains g | none => true)))

/-- Writes back the live ranges of the wagons of a member (R54). -/
def restoreRanges (s : State) (p g : Nat) : Nat → List (Nat × Nat × Nat) → State
  | _, [] => s
  | off, (slot, o, n) :: l =>
    let at_ := locWagon (clusterOf g) ((s.core g).slot slot).wagon o
    restoreRanges (s.putBytes ((List.range (n / 8)).flatMap (fun i =>
      State.maskedBytes (at_ + 8 * i) 8 (BitVec.ofNat 64 (recordGet s p g (off + 8 * i))) 0xFF))) p g (off + n) l

/-- The recorded entry of a slot: STATE, RVK, ETAG, with the livery and tag of its wagon (R54). -/
def restoreSlot (p g : Nat) (s : State) (n : Nat) : State :=
  let a := recordGet s p g (0x740 + 16 * n)
  let st := slotState a
  let h := (s.core g).slot n
  let s1 := s.updCore g (fun c => c.setSlot n { st := st, wagon := h.wagon, inb := false, rvk := a.testBit 4, etag := BitVec.ofNat 16 (a / 2 ^ 16), dest := none })
  if st = .detached then s1
  else s1.updCluster (clusterOf g) (fun c => c.updWagon h.wagon (fun x =>
    { x with livery := BitVec.ofNat 32 (a / 2 ^ 32), tag := BitVec.ofNat 16 (recordGet s p g (0x748 + 16 * n)) }))

/-- The BWSTAT bits that withdrawals from barrier 47 have set in a task while it was saved (R197). -/
def owedBits (s : State) (t : Task) : Word := match s.disp t.disp with | some d => Sparse.get 0 d.b47.owed t.lin | none => 0

/-- A member's second half of a restore: slots, wagon bytes, registers, mutexes, and what barrier 47 owes it (R270, R196, R197). -/
def restoreCore (p : Nat) (s : State) (e : Nat × Saved) : State :=
  let g := e.1
  let t := e.2.task
  let s1 := (List.range 32).foldl (restoreSlot p g) (restoreRanges s p g 0x16200 e.2.live.ranges)
  let s2 := s1.updCore g (fun c => (coreFrom (recordGet s p g) (recordWide s p g) e.2.live c.sched.preempt s.mem c).orBw (owedBits s t))
  let s3 := s2.updDisp t.disp (fun d => { d with b47 := { d.b47 with owed := Sparse.set 0 d.b47.owed t.lin 0 } })
  requestLeases (moveMutexes s3 g p g (parked t.uid)) g

/-- VCC and the barriers from the caravan block (R118, Table 15-5); a member that has retired since the save stays withdrawn (R114). -/
def caravanFrom (get : Nat → Nat) (c : Caravan) : Caravan :=
  let here := ~~~(c.ended.foldl (fun m r => m ||| rankBit r) 0)
  { c with
    vcc := BitVec.ofNat 64 (get 0x1040), st := .running, saved := [],
    bars := Sparse.setMany {} [] ((List.range 47).map (fun n =>
      (n, Bar.settle { gen := BitVec.ofNat 64 (get (0x1048 + 16 * n)), members := BitVec.ofNat 16 (get (0x1050 + 16 * n)) &&& here,
                       arrived := BitVec.ofNat 16 (get (0x1050 + 16 * n) / 2 ^ 32) &&& here }))) }

/-- CARAVAN_RESTORE (R270): a saved caravan of a partition that is not switched out, or one saved too late, receives its cores and its
wagons; once the wagons are clear, the records are read back and every member restarts at once. -/
def execCaravanRestore (car : Nat) (s0 : State) : Out :=
  match s0.caravan car with
  | none => .next s0
  | some c =>
    match s0.part c.part with
    | none => .next s0
    | some x =>
      if x.killing || c.st == .starting || c.st == .running || (c.st == .saved && x.out) then .next s0
      else
        let s := recordWalk s0 c
        if !recordsReadable s c then .next s
        else if c.st = .restoring then
          if wagonsClear s c then
            .next ((c.kept.foldl (restoreCore c.part) s).setCaravan car (some (caravanFrom (recordGet s c.part (c.cores.headD 0)) c)))
          else .next s
        else
          let cl := clusterOf (c.cores.headD 0)
          let n := (c.kept.map (fun e => (slotsToFill s c.part e.1).length)).sum
          if !coresBack s c || (s.cluster cl).freeCount < n || !poolRoom s 1 (fun q => (s.cluster cl).held q) c.part n then .next s
          else .next ((allocateSaved s c (ticking s c.part)).setCaravan car (some { c with st := .restoring }))

/-! ### Rotations (R130, R131) -/

/-- The next gang after i that is not marked to skip, and the rotation with the marks of those passed cleared (R131). -/
def nextGang : Nat → Nat → Rotation → Nat × Rotation
  | 0, i, r => (i, r)
  | fuel + 1, i, r =>
    let j := (i + 1) % r.gangs.length
    if (r.gang j).skip then nextGang fuel j (r.updGang j (fun g => { g with skip := false })) else (j, r)

/-- Sends a pre-emption request to every core of a gang, or withdraws it (R131, R267). -/
def setPreempt (s : State) (g : Gang) (on : Bool) : State :=
  (gangCaravans s g).foldl (fun t c => c.2.cores.foldl (fun u k =>
    if (u.core k).sched.run = .finished ∨ (u.core k).sched.run = .idle then u else u.updCore k (fun x => x.sch (fun y => { y with preempt := on }))) t) s

/-- SWITCH_TICK (R131): at the tick selection for the running gang stops and its cores receive a pre-emption request. -/
def execSwitchTick (rot : Nat) (s : State) : Out :=
  match s.rot rot with
  | none => .next s
  | some r =>
    if r.deadline.isSome || r.gangs.isEmpty || s.time.ult r.next then .next s
    else
      let n := nextGang (r.gangs.length + 1) r.running r
      let s1 := s.setRot rot (some { n.2 with into := n.1, next := s.time + BitVec.ofNat 64 r.tick, deadline := some (s.time + 200000), ending := false })
      let out := r.gang r.running
      .next (tickDone (setPreempt (setOut s1 out true) out true) rot)

/-- A gang that missed: its members at a point go on, the other requests are withdrawn, its saved caravans may be restored, and it is
selected again (R131). -/
def gangMissed (s : State) (g : Gang) : State :=
  setOut (setPreempt ((gangCaravans s g).foldl (fun t c => c.2.cores.foldl resumePoint t) s) g false) g false

/-- SAVE_DEADLINE (R131): the wait of a tick ends, with every caravan saved or at the deadline; the third miss kills the gang, and the
next gang runs after the kill. -/
def execSaveDeadline (rot : Nat) (s : State) : Out :=
  let s0 := tickDone s rot
  match s0.rot rot with
  | none => .next s0
  | some r =>
    match r.deadline with
    | none => .next s0
    | some t =>
      let out := r.gang r.running
      if s.time.ult t || r.ending || !gangAlive s0 out then .next s0
      else
        let r1 := r.updGang r.running (fun g => { g with skip := true, misses := g.misses + 1 })
        if out.misses + 1 = 3 then .next (setOut (out.parts.foldl startKill (s0.setRot rot (some { r1 with ending := true }))) out true)
        else .next ((gangMissed s0 out).setRot rot (some { r1 with deadline := none }))

end Sys2Proof.Machine
end

