-- ==== Sys2Proof/Machine/Control.lean ====
section
/-!
DEFINITION. Control transfer and walkers: branches, jumps, calls, WBIND, WUNBIND, WLOOP, WSTAT (spec 08 R154 to R158).
-/

namespace Sys2Proof.Machine

/-- pc_rel(off, n): a word offset from the instruction's own address (Table 07-20). -/
def pcRel (s : State) (i : BitVec n) : Word := s.pc + i.signExtend 64 <<< 2

/-- A branch (R154): to its target when the condition holds, else to PC + 4. -/
def branch (c : Word → Word → Bool) (a b : BitVec 6) (i : BitVec 11) (s : State) : Out :=
  if c (s.getS a) (s.getS b) then .next (s.goto (pcRel s i)) else .next s.advance

/-- BR.EQ (R154). -/
def execBrEq (a b : BitVec 6) (i : BitVec 11) (s : State) : Out := branch (fun x y => x == y) a b i s
/-- BR.NE (R154). -/
def execBrNe (a b : BitVec 6) (i : BitVec 11) (s : State) : Out := branch (fun x y => x != y) a b i s
/-- BR.LT (R154). -/
def execBrLt (a b : BitVec 6) (i : BitVec 11) (s : State) : Out := branch BitVec.slt a b i s
/-- BR.GE (R154). -/
def execBrGe (a b : BitVec 6) (i : BitVec 11) (s : State) : Out := branch (fun x y => !x.slt y) a b i s
/-- BR.LTU (R154). -/
def execBrLtu (a b : BitVec 6) (i : BitVec 11) (s : State) : Out := branch BitVec.ult a b i s
/-- BR.GEU (R154). -/
def execBrGeu (a b : BitVec 6) (i : BitVec 11) (s : State) : Out := branch (fun x y => !x.ult y) a b i s

/-- JMP (R155). -/
def execJmp (i : BitVec 25) (s : State) : Out := .next (s.goto (pcRel s i))
/-- CALL (R155): PC + 4 goes to s63 first. -/
def execCall (i : BitVec 25) (s : State) : Out := .next ((s.setS 63#6 (s.pc + 4)).goto (pcRel s i))

/-- A jump to a register's value; a target that is no multiple of 4 traps with TCAUSE 4 and writes no link (R155). -/
def jumpReg (link : Bool) (a : BitVec 6) (s : State) : Issue State :=
  let t := s.getS a
  if t.toNat % 4 ≠ 0 then .trap 4 t
  else .ok ((if link then s.setS 63#6 (s.pc + 4) else s).goto t)

/-- JR (R155). -/
def execJr (a : BitVec 6) (s : State) : Out := finish s (jumpReg false a s)
/-- CALLR (R155). -/
def execCallr (a : BitVec 6) (s : State) : Out := finish s (jumpReg true a s)

/-! ### Walkers -/

/-- A dimension bound from a register: count in [31:0], stride in [63:32] (R156). -/
def dimOf (x : Word) : Dim := { cnt := x.setWidth 32, str := (x >>> 32).setWidth 32, idx := 0, fin := false }

/-- A walker bound at a base with the dimensions of s(B) to s(B+3) (R156). -/
def bindWalker (s : State) (base : Word) (b : Nat) : Walker :=
  { base := base, d0 := dimOf (s.me.getS b), d1 := dimOf (s.me.getS (b + 1)), d2 := dimOf (s.me.getS (b + 2)), d3 := dimOf (s.me.getS (b + 3)),
    bound := true }

/-- WBIND (R156); B above 60 is refused at decode. -/
def execWbind (w : BitVec 3) (a b : BitVec 6) (s : State) : Out :=
  .next ((s.upd (fun c => c.bindW w.toNat (bindWalker s (s.getS a) b.toNat))).advance)

/-- WUNBIND (R156): the walker is unbound, its addresses, indices and flags kept; an unbound walker is left unchanged. -/
def execWunbind (w : BitVec 3) (s : State) : Out :=
  .next ((s.upd (fun c => c.setW w.toNat { c.getW w.toNat with bound := false })).advance)

/-- END_d of a walker. -/
def Walker.ends (w : Walker) (d : Nat) : Bool := match d with | 0 => w.d0.fin | 1 => w.d1.fin | 2 => w.d2.fin | _ => w.d3.fin
/-- Clears END_0 to END_d (R158). -/
def Walker.clearEnds (w : Walker) (d : Nat) : Walker :=
  { w with d0 := { w.d0 with fin := false }, d1 := { w.d1 with fin := w.d1.fin && decide (d < 1) },
           d2 := { w.d2 with fin := w.d2.fin && decide (d < 2) }, d3 := { w.d3 with fin := w.d3.fin && decide (d < 3) } }

/-- WLOOP (R158): an unbound walker falls through. -/
def execWloop (w : BitVec 3) (n : BitVec 2) (i : BitVec 11) (s : State) : Out :=
  let x := s.me.getW w.toNat
  if !x.bound then .next s.advance
  else if x.ends n.toNat then .next ((s.upd (fun c => c.setW w.toNat (x.clearEnds n.toNat))).advance)
  else .next (s.goto (pcRel s i))

/-- What WSTAT reads (R158). -/
def Walker.stat (w : Walker) (q : Nat) : Word :=
  match q with
  | 0 => if w.bound then w.addr else 0
  | 1 => BitVec.ofNat 64 ((if w.d0.fin then 1 else 0) + (if w.d1.fin then 2 else 0) + (if w.d2.fin then 4 else 0) + (if w.d3.fin then 8 else 0)
          + (if w.bound then 16 else 0))
  | 2 => if w.bound then w.d0.idx.setWidth 64 else 0
  | 3 => if w.bound then w.d1.idx.setWidth 64 else 0
  | 4 => if w.bound then w.d2.idx.setWidth 64 else 0
  | _ => if w.bound then w.d3.idx.setWidth 64 else 0

/-- WSTAT (R158); q above 5 is refused at decode. -/
def execWstat (d : BitVec 6) (w : BitVec 3) (q : BitVec 6) (s : State) : Out :=
  .next ((s.setS d ((s.me.getW w.toNat).stat q.toNat)).advance)

end Sys2Proof.Machine
end

