-- ==== Sys2Proof/Machine/Driver.lean ====
section
/-!
DEFINITION. Driver commands and their completion, partitions, the fault queue, queue and rotation configuration (spec 16 R273 to R279,
R282, 06 R123, R130, 01 R28, R30, 05 R102).
-/

namespace Sys2Proof.Machine

/-! ### Packets of the command port (R273) -/

/-- The partition of a driver command. -/
def cmdPart (k : BitVec 512) : Nat := pktField k 8 8
/-- OP of a driver command. -/
def cmdOp (k : BitVec 512) : Nat := pktField k 0 8
/-- CADDR of a driver command. -/
def cmdAddr (k : BitVec 512) : Nat := pktField k 448 64

/-- A driver command is the oldest of its partition (R273). -/
def oldest (s : State) (i : Nat) : Bool :=
  match s.host.cmds[i]? with
  | none => false
  | some c => (s.host.cmds.take i).all (fun x => cmdPart x.pkt != cmdPart c.pkt)

/-! ### PSET (R277) -/

/-- The tag of the partition with a number in driver commands. Before its PSET a partition goes by its number, or by none of the tags when
another one has that tag (DESIGN CHOICE, log 66: R273 names partitions by number, R277 gives each a TAG). -/
def State.tagOf (s : State) (n : Nat) : Nat :=
  match s.parts.find? (fun e => match e.2 with | some x => x.num == n | none => false) with
  | some e => e.1
  | none => if (s.part n).isNone then n else 256 + n

/-- n bytes of HBM at a device physical address. -/
def State.hbm (s : State) (a n : Nat) : Nat := s.bytes (locHbm a) n

/-- The entries of a core table (R277): none when one is malformed. -/
def coreTable (s : State) (ctab n : Nat) : Option (List (Option Nat)) :=
  let es := (List.range n).map (fun i => s.hbm (ctab + 2 * i) 2)
  if es.any (fun e => decide (e / 2 ^ 10 % 32 ≠ 0) || (decide (e / 2 ^ 15 = 1) && decide (e % 1024 ≥ Config.cores))) then none
  else some (es.map (fun e => if e / 2 ^ 15 = 1 then some (e % 1024) else none))

/-- The partition that a descriptor describes (Table 16-5), with strict mode when the feature is accepted (R2, R275); none when PSET
completes with status 1. `own` is the partition number of the command. -/
def describe (s : State) (a own : Nat) : Option (Nat × Partition) :=
  let f := fun (o n : Nat) => s.hbm (a + o) n
  let tag := f 0x32 1
  let accts := (List.range 4).map (fun i => (f (0x60 + 8 * i) 2, f (0x62 + 8 * i) 2))
  let btab := f 0x18 8
  let zero := f 0x34 12 = 0 ∧ f 0x58 8 = 0 ∧ (List.range 4).all (fun i => f (0x64 + 8 * i) 4 == 0)
  if a % 64 ≠ 0 ∨ a + 128 > Config.hbmBytes ∨ ¬zero ∨ tag > 63 ∨ (s.part tag).any (fun x => x.num != own) ∨ f 0x30 2 = 0 ∨ f 0x30 2 > Config.cores
    ∨ accts.any (fun x => decide (x.1 > x.2)) then none
  else match coreTable s (f 0x10 8) (f 0x30 2) with
    | none => none
    | some t =>
      let taken := fun (g : Nat) => s.parts.any (fun e => match e.2 with | some x => x.num != own && x.table.contains (some g) | none => false)
      if t.any (fun e => match e with | some g => taken g | none => false) then none
      else some (tag,
        { num := own, root := f 0 8, csave := BitVec.ofNat 64 (f 8 8), table := t, strict := (f 0x33 1).testBit 0 && s.feature 4, supOk := (f 0x33 1).testBit 1,
          peer := (List.range 24).map (fun i => f (0x40 + i) 1), accts := accts,
          budget := (List.range 20).map (fun i => (s.hbm (btab + 8 * i) 4, s.hbm (btab + 8 * i + 4) 4)),
          resv := (List.range 5).map (fun i => s.hbm (btab + 160 + 4 * i) 4), poolB := f 0x20 8, poolS := f 0x28 8 })

/-- Installs a partition under its tag; one that went by another tag before leaves it, and its frames go with it (R277). -/
def installPart (s : State) (own tag : Nat) (x : Partition) : State :=
  let old := s.tagOf own
  if old = tag then s.setPart tag (some x)
  else ((if old < 64 then s.setPart old none else s).updFrames (fun f =>
    { f with owner := f.owner.map (fun e => (e.1, if e.2 = some old then some tag else e.2)) })).setPart tag (some x)

/-- PSET (R277, R273, R284): the state and the status. -/
def runPset (s : State) (k : BitVec 512) : State × Nat :=
  let p := cmdPart k
  if s.host.featSet ≠ 3 ∨ !(s.launches (s.tagOf p)).isEmpty then (s, 2)
  else
    let s1 := { s with host := { s.host with firstPset := true } }
    match describe s (pktField k 64 64) p with
    | none => (s1, 1)
    | some (tag, x) => (installPart s1 p tag x, 0)

/-! ### The other commands -/

/-- What is outstanding of a partition's accesses: the instructions of its cores so far (R28). -/
def outstanding (s : State) (p : Nat) : List (Nat × Nat) :=
  s.cores.filterMap (fun e => if e.2.part = p ∧ !(e.2.mem.wbuf.isEmpty && e.2.mem.late.isEmpty) then some (e.1, e.2.mem.seq) else none)

/-- The cores of a partition with an LDRED under way: it reads at places that it translated when it issued (R28). -/
def reading (s : State) (p : Nat) : List Nat :=
  s.cores.filterMap (fun e => match e.2.sched.hold with | .ldred _ _ _ _ _ => if e.2.part = p then some e.1 else none | _ => none)

/-- The first address that an entry of the walk caches serves, and how many (R27). -/
def WalkEntry.range (w : WalkEntry) : Nat × Nat := (w.upper * 2 ^ (16 + 10 * w.level), 2 ^ (16 + 10 * w.level))

/-- INVAL (R28): the cached translations of a range, in the TLBs and in the walk caches, are dropped; size 0 drops all. -/
def runInval (s : State) (k : BitVec 512) : State :=
  let p := s.tagOf (cmdPart k)
  let b := pktField k 64 64
  let n := pktField k 128 64
  let meets := fun (lo len : Nat) => n == 0 || (decide (lo < b + n) && decide (b < lo + len))
  { s with
    clusters := s.clusters.map (fun e => (e.1, { e.2 with tlb := e.2.tlb.filter (fun t => !(t.part == p && meets t.base t.size)) })),
    walks := s.walks.map (fun e => (e.1, e.2.filter (fun w => !(w.part == p && meets w.range.1 w.range.2)))) }

/-- A stopped pool transfer of a partition with an id (R30). -/
def stoppedAs (p id : Nat) (x : Xfer) : Bool := x.st == .stopped && x.part == p && x.id == id

/-- PFANS (R30): the answer to a stopped pool transfer: retry at the start of its chunk, or an error completion. -/
def runPfans (s : State) (k : BitVec 512) : State :=
  let ch := pktField k 26 2
  let p := s.tagOf (cmdPart k)
  s.updCore (pktField k 16 10) (fun c => c.setChan ch { c.chan ch with xfers := (c.chan ch).xfers.map (fun x =>
    if stoppedAs p (pktField k 32 32) x then (if pktField k 64 1 = 0 then { x with st := .running } else x.stop 4 0) else x) })

/-- DBSWAP (R282, R275): the state and the status. -/
def runDbswap (s : State) : State × Nat :=
  if s.feature 7 then ({ s with host := { s.host with bar0 := { s.host.bar0 with dbSel := !s.host.bar0.dbSel } } }, 0) else (s, 2)

/-- A dispatch runs: some launch has a caravan bound (R102). -/
def State.dispatching (s : State) : Bool := s.disps.any (fun e => match e.2 with | some d => decide (d.boundC > 0) | none => false)

/-- SETW (R273, R102): the state and the status. -/
def runSetw (s : State) (k : BitVec 512) : State × Nat :=
  if pktField k 16 4 > 6 then (s, 1) else if s.dispatching then (s, 2) else ({ s with w := 10 + pktField k 16 4 }, 0)

/-- FREE (R279): frames from an address on are given back; the status. -/
def runFree (s : State) (k : BitVec 512) : State × Nat :=
  let f := pktField k 64 64 / 65536
  let n := pktField k 128 32
  if pktField k 64 64 % 65536 ≠ 0 ∨ f + n > Config.frames then (s, 1)
  else ((List.range n).foldl (fun t i => t.freeFrame (s.tagOf (cmdPart k)) (f + i)) s, 0)

/-- The scrub-pool pages that a partition holds: the frames it owns (R129). -/
def framesUsed (s : State) (p : Nat) : Nat := (s.frames.owner.filter (fun e => e.2 == some p)).length

/-- Starts a driver command: its effect, its status, and what it waits for (R273). -/
def startCmd (s : State) (c : DrvCmd) : State × DrvCmd :=
  let k := c.pkt
  let p := s.tagOf (cmdPart k)
  let done := fun (r : State × Nat) => (r.1, { c with started := true, status := r.2 })
  if s.host.tdisp = .locked ∨ s.host.tdisp = .error then done (s, 3)
  else if cmdPart k > 63 then done (s, 1)
  else match cmdOp k with
    | 1 => done (runPset s k)
    | 2 => done (startKill s p, 0)
    | 3 => (runInval s k, { c with started := true, status := 0, wait := outstanding s p, readers := reading s p })
    | 4 => done (startKill s p, 0)
    | 5 => done (runPfans s k, 0)
    | 6 => done (runDbswap s)
    | 7 => done (runSetw s k)
    | 8 => done (runFree s k)
    | _ => done (s, 0)

/-- A started command may finish (Table 16-2). -/
def cmdReady (s : State) (c : DrvCmd) : Bool :=
  let p := s.tagOf (cmdPart c.pkt)
  c.status != 0 || (match cmdOp c.pkt with
    | 2 => (match s.part p with | some x => !x.killing | none => true)
    | 4 => (match s.part p with | some x => !x.killing | none => true)
    | 3 => c.wait.all (fun w => !(s.core w.1).mem.wbuf.any (fun x => decide (x.seq < w.2)) && !(s.core w.1).mem.late.any (fun x => decide (x.seq < w.2))) &&
        c.readers.all (fun g => !(reading s p).contains g)
    | 9 => decide (runFrames s.frames.clean ≥ pktField c.pkt 128 32) && poolRoom s 4 (framesUsed s) p (pktField c.pkt 128 32)
    | _ => true)

/-- The last effect of a command that finishes: PCLR removes the partition, ALLOC gives the lowest clean frames and lists them (R273, R279). -/
def endCmd (s : State) (c : DrvCmd) : State :=
  let p := s.tagOf (cmdPart c.pkt)
  if c.status ≠ 0 then s
  else match cmdOp c.pkt with
    | 2 => s.setPart p none
    | 9 =>
      let fs := takeFrames (pktField c.pkt 128 32) s.frames.clean
      (fs.foldl (fun t f => t.giveFrame p f) s).putBytes (fs.zipIdx.flatMap (fun x =>
        State.maskedBytes (locHost (pktField c.pkt 64 64 + 8 * x.2)) 8 (BitVec.ofNat 64 (x.1 * 65536)) 0xFF))
    | _ => s

/-- Replaces the driver command of an index. -/
def State.setCmd (s : State) (i : Nat) (c : DrvCmd) : State :=
  { s with host := { s.host with cmds := s.host.cmds.zipIdx.map (fun x => if x.2 = i then c else x.1) } }

/-- A driver command runs to its start when it is the oldest of its partition. -/
def tryStart (s : State) (i : Nat) : State :=
  match s.host.cmds[i]? with
  | none => s
  | some c => if c.started || !oldest s i then s else let r := startCmd s c; r.1.setCmd i r.2

/-- A packet arrives at the command port: one whose CADDR is not 16-byte aligned is refused with the retry status, any other is accepted
(R273). -/
def command (op : Nat) (k : BitVec 512) (s : State) : Out :=
  if cmdOp k ≠ op then .next s
  else if cmdAddr k % 16 ≠ 0 then .next (s.setReply .retry)
  else
    let s1 := { s with host := { s.host with cmds := s.host.cmds ++ [{ pkt := k }], reply := .accepted } }
    .next (tryStart s1 s.host.cmds.length)

/-- PSET (R277). -/
def execPset (pkt : BitVec 512) (s : State) : Out := command 1 pkt s
/-- PCLR (R273). -/
def execPclr (pkt : BitVec 512) (s : State) : Out := command 2 pkt s
/-- INVAL (R28, R273). -/
def execInval (pkt : BitVec 512) (s : State) : Out := command 3 pkt s
/-- KILL (R271, R273). -/
def execKill (pkt : BitVec 512) (s : State) : Out := command 4 pkt s
/-- PFANS (R30, R273). -/
def execPfans (pkt : BitVec 512) (s : State) : Out := command 5 pkt s
/-- DBSWAP (R282). -/
def execDbswap (pkt : BitVec 512) (s : State) : Out := command 6 pkt s
/-- SETW (R102, R273). -/
def execSetw (pkt : BitVec 512) (s : State) : Out := command 7 pkt s
/-- FREE (R279). -/
def execFree (pkt : BitVec 512) (s : State) : Out := command 8 pkt s
/-- ALLOC (R279). -/
def execAlloc (pkt : BitVec 512) (s : State) : Out := command 9 pkt s

/-- DRIVER_COMMAND_COMPLETE (R273): a command that has not started does; one that may finish writes its completion word at CADDR. -/
def execDriverCommandComplete (idx : Nat) (s : State) : Out :=
  match s.host.cmds[idx]? with
  | none => .next s
  | some c =>
    if !oldest s idx then .next s
    else if !c.started then .next (tryStart s idx)
    else if !cmdReady s c then .next s
    else
      let s1 := (endCmd s c).putBytes (State.maskedBytes (locHost (cmdAddr c.pkt)) 8 (BitVec.ofNat 64 c.status) 0xFF)
      .next { s1 with host := { s1.host with cmds := s1.host.cmds.eraseIdx idx } }

/-! ### The fault queue (R274) -/

/-- FAULT_QUEUE_WRITE (R274): the oldest held record is written into the host ring when there is room, and FQTAIL advances. -/
def execFaultQueueWrite (s : State) : Out :=
  let b := s.host.bar0
  match s.host.held with
  | [] => .next s
  | r :: l =>
    if b.fqSize = 0 ∨ b.fqTail - b.fqHead = b.fqSize then .next s
    else
      let a := locHost (b.fqBase.toNat + b.fqTail.toNat % b.fqSize.toNat * 32)
      let w := fun (i : Nat) (v : Word) => State.maskedBytes (a + 8 * i) 8 v 0xFF
      let s1 := s.putBytes (w 0 r.w0 ++ w 1 r.w1 ++ w 2 0 ++ w 3 0)
      .next { s1 with host := { s1.host with held := l, bar0 := { b with fqTail := b.fqTail + 1 } } }

/-! ### Queues and rotations (R123, R130) -/

/-- QUEUE_CONFIGURATION (R123): the five settings of a queue; a supervisor queue needs a partition that may own one (Table 16-5). The packets
of the queue stay in it (log 63). -/
def execQueueConfiguration (queue : Nat) (c : QueueConf) (s : State) : Out :=
  let may := match c.owner with
    | some p => (match s.part p with | some x => x.supOk | none => false)
    | none => false
  if queue ≥ 256 ∨ c.prio > 7 ∨ c.depth = 0 ∨ c.depth > 256 ∨ c.cls > 3 ∨ (c.sup ∧ !may) then .next (s.setReply .refused)
  else .next ((s.setQueue queue { s.queue queue with owner := c.owner, prio := c.prio, depth := c.depth, cls := c.cls, sup := c.sup }).setReply .accepted)

/-- ROTATION_CONFIGURATION (R130): a rotation over clusters, while no dispatch of its partitions runs; its first gang runs. A launch counts as
a dispatch that runs from its acceptance, with or without a bound caravan (DESIGN CHOICE, log 64: R130 does not say). A tick of 0 stands for
the 2 ms of reset. -/
def execRotationConfiguration (rot : Nat) (c : RotConf) (s : State) : Out :=
  let parts := c.gangs.flatten
  let old := match s.rot rot with | some r => r.gangs.flatMap (fun g => g.parts) | none => []
  if (parts ++ old).any (fun p => !(s.launches p).isEmpty) then .next (s.setReply .refused)
  else
    let tick := if c.tick = 0 then 2000000 else c.tick
    let r : Rotation := { clusters := c.clusters, gangs := c.gangs.map (fun g => { parts := g }), tick := tick, next := s.time + BitVec.ofNat 64 tick }
    let s1 := old.foldl (fun t p => t.updPart p (fun x => { x with out := false })) s
    let s2 := parts.foldl (fun t p => t.updPart p (fun x => { x with out := !(c.gangs.headD []).contains p })) s1
    .next ((s2.setRot rot (if c.gangs.isEmpty then none else some r)).setReply .accepted)

end Sys2Proof.Machine
end

