-- ==== Sys2Proof/Machine/Perform.lean ====
section
/-!
DEFINITION. The steps of a core's accesses after their issue: writes and late reads performed, packets discarded at ejection and their
reports, read-cache fills, asynchronous traps, the background scrubber (spec 04 R78 to R85, 14 R256, 15 R264, R265, 16 R278).
-/

namespace Sys2Proof.Machine

/-! ### Writes (R78, R80, R85) -/

/-- The buffered writes that are performed with one of them: those of its instruction in its aligned 8 bytes (R80), and of its member. -/
def writeUnitOf (b : List Write) (w : Write) : List Write := b.filter (fun x => x.seq == w.seq && x.loc / 8 == w.loc / 8 && x.member == w.member)

/-- A unit may be performed (R85): every earlier load, every earlier overlapping write, before a release every earlier write, and for MTYPE
2 every earlier uncached access has been performed. -/
def writeReady (m : CoreMem) (u : List Write) : Bool :=
  u.all (fun w =>
    !m.wbuf.any (fun x => decide (x.seq < w.seq) && (overlap x.loc x.n w.loc w.n || w.rel || (w.mtype == 2 && x.mtype == 2))) &&
    !m.late.any (fun r => decide (r.seq < w.seq)))

/-- A line with one of its bytes replaced. -/
def Line.put (l : Line) (i : Nat) (v : Byte) : Line :=
  { l with data := (l.data &&& ~~~(BitVec.ofNat 512 (255 * 2 ^ (8 * i)))) ||| BitVec.ofNat 512 (v.toNat * 2 ^ (8 * i)) }

/-- The core's own store updates a line that it holds; an uncached one drops it (R79, R26). -/
def ownStore (rc : Sparse (Option Line)) (w : Write) : Sparse (Option Line) :=
  if w.mtype = 2 then dropLines rc w.loc w.n
  else (State.maskedBytes w.loc w.n w.val w.mask).foldl (fun m e =>
    Sparse.modify none m (e.1 / Config.lineBytes) (fun x => x.map (fun l => l.put (e.1 % Config.lineBytes) e.2))) rc

/-- Takes writes out of the store buffer of a core. -/
def State.takeWrites (s : State) (g : Nat) (u : List Write) : State :=
  s.updCore g (fun c => { c with mem := { c.mem with wbuf := c.mem.wbuf.filter (fun x => !u.contains x) } })

/-- Notes that the write of a member has failed (R256). -/
def Core.failMember (c : Core) (r : Nat) : Core :=
  match c.sched.hold with
  | .stmc gid os f => c.sch (fun x => { x with hold := .stmc gid os (some (match f with | some q => min q r | none => r)) })
  | _ => c

/-- The member of an STMC in progress is lost (R254, R256). -/
def lostMember (s : State) (g r : Nat) : Bool :=
  match (s.core g).sched.hold with
  | .stmc gid os _ => memberLost { s with cur := g } gid r ((os[r]?).join)
  | _ => false

/-- Performs the writes of a unit: memory takes their bytes, the core's own read cache follows. -/
def performWrites (s : State) (g : Nat) (u : List Write) : State :=
  u.foldl (fun t w =>
    (t.writeUnit w.part g w.loc w.n w.val w.mask w.whole).updCore g (fun c => { c with mem := { c.mem with rcache := ownStore c.mem.rcache w } }))
    (s.takeWrites g u)

/-- The port of the peer that a location belongs to. -/
def portOfLoc (loc : Nat) : Option Nat := if loc ≥ locPeers then some ((loc / 2 ^ 64 - 4) / 64) else none

/-- A peer does not take a write: its route has failed, or it refuses the bytes (R25, R256, R266). -/
def State.turnedAway (s : State) (w : Write) : Bool :=
  match portOfLoc w.loc with
  | some p => s.routes.contains (p + 4) || s.refused w.loc w.n
  | none => false

/-- WRITE_PERFORMED of a unit of core g: a member that is lost, or whose peer does not take the write, fails it (R256). -/
def writeUnitStep (s : State) (g : Nat) (w : Write) (u : List Write) : State :=
  let fail := fun (t : State) (r : Nat) => (t.takeWrites g u).updCore g (fun c => c.failMember r)
  match w.member with
  | some r =>
    if lostMember s g r || u.any s.turnedAway then fail s r else performWrites s g u
  | none => performWrites s g u

/-- The budget requests of a unit of writes: HBM over the fabric, a peer over the fabric (R128). -/
def writeAsks (s : State) (g : Nat) (w : Write) (n : Nat) : List Ask :=
  if w.loc ≥ locPeers then [askOf (.access g w.seq) g w.part (s.core g).acct 2 n] else hbmAsks s (.access g w.seq) g w.loc n

/-- WRITE_PERFORMED (R78): the unit of a buffered write is performed, or discarded with its member. A write whose frame has another
owner is for PACKET_EJECTION. -/
def execWritePerformed (core idx : Nat) (s : State) : Out :=
  match (s.core core).mem.wbuf[idx]? with
  | none => .next s
  | some w =>
    let u := writeUnitOf (s.core core).mem.wbuf w
    if !writeReady (s.core core).mem u then .next s
    else if w.loc < 2 ^ 64 ∧ !s.owns w.part w.loc then .next s
    else
      let asks := writeAsks s core w ((u.map (fun x => x.n)).sum)
      match s.chargeList asks with
      | none => .next (s.enlist asks)
      | some s1 => .next (writeUnitStep s1 core w u)

/-- PACKET_EJECTION (R278, R265): a write whose frame has another owner is discarded with a TYPE 8 record; its report starts for the core. -/
def execPacketEjection (core idx : Nat) (s : State) : Out :=
  match (s.core core).mem.wbuf[idx]? with
  | none => .next s
  | some w =>
    let u := writeUnitOf (s.core core).mem.wbuf w
    if w.loc < 2 ^ 64 ∧ !s.owns w.part w.loc ∧ writeReady (s.core core).mem u then
      let s1 := (s.takeWrites core u).fqPush (frecWord 8 w.part core 0 0) w.va.toNat
      .next (s1.updCore core (fun c => match w.member with
        | some r => c.failMember r
        | none => if c.sched.dead then c else c.sch (fun x => { x with pfWay := x.pfWay ++ [w.va] })))
    else .next s

/-- PARTITION_FAULT_REPORT (R265): the oldest report of a discarded store reaches its core. -/
def execPartitionFaultReport (core : Nat) (s : State) : Out :=
  match (s.core core).sched.pfWay with
  | [] => .next s
  | a :: l => .next (s.updCore core (fun c => c.sch (fun x => { x with pfWay := l, pfHere := x.pfHere ++ [a] })))

/-! ### Reads (R78, R83) -/

/-- The late reads that are performed with one of them (R80). -/
def readUnitOf (l : List Late) (r : Late) : List Late := l.filter (fun x => x.seq == r.seq && x.loc / 8 == r.loc / 8)

/-- A unit of reads may be performed: no earlier read overlaps it, no earlier uncached access is before an uncached one (R83, R85). -/
def readReady (m : CoreMem) (u : List Late) : Bool :=
  u.all (fun r =>
    !m.late.any (fun x => decide (x.seq < r.seq) && (overlap x.loc x.n r.loc r.n || (r.mtype == 2 && x.mtype == 2))) &&
    !(r.mtype == 2 && m.wbuf.any (fun x => decide (x.seq < r.seq) && x.mtype == 2)))

/-- A late read takes its value, and its register with it (R78, R159); the register's stamp is that of the read, for a vector with what it
held before (R84). -/
def performRead (s : State) (g : Nat) (r : Late) : State :=
  let v := s.coreRead g r.mtype r.seq r.dep r.loc r.n
  s.updCore g (fun c =>
    let m := { c.mem with now := r.dep }.afterRead r.mtype r.seq r.dep r.loc r.n
    let c1 := match r.dest with
      | .scalar d sgn => { c with mem := m }.setS d (loaded r.n sgn v)
      | .vector d b => ({ c with mem := m }.holdV d).setV d (setBytes (c.getV d) b r.n v)
    { c1 with mem := { c1.mem with now := c.mem.now } })

/-- READ_PERFORMED (R78): a late read of a core has its value fixed. -/
def execReadPerformed (core idx : Nat) (s : State) : Out :=
  match (s.core core).mem.late[idx]? with
  | none => .next s
  | some r =>
    let u := readUnitOf (s.core core).mem.late r
    if !readReady (s.core core).mem u then .next s
    else
      let asks := hbmAsks s (.access core r.seq) core r.loc ((u.map (fun x => s.memBytes core x.mtype x.seq x.dep x.loc x.n)).sum)
      match s.chargeList asks with
      | none => .next (s.enlist asks)
      | some s1 => .next ((u.foldl (fun t x => performRead t core x) s1).updCore core (fun c =>
          { c with mem := { c.mem with late := c.mem.late.filter (fun x => !u.contains x) } }))

/-- READ_CACHE_FILL (R79): a line of HBM takes the values performed now; the frame belongs to the core's partition, and no byte of the
line meets an error (R264, R278). -/
def execReadCacheFill (core line : Nat) (s : State) : Out :=
  let lo := line * Config.lineBytes
  let c := s.core core
  if c.sched.task.isSome ∧ lo + Config.lineBytes ≤ Config.hbmBytes ∧ s.owns c.part lo ∧ !s.hasBad (locHbm lo) Config.lineBytes then
    .next (s.updCore core (fun x => { x with mem := x.mem.fill line (s.lineData line) }))
  else .next s

/-! ### Asynchronous traps (R264, R265) -/

/-- The core stands at an instruction boundary: nothing of the next instruction has taken effect (R265). -/
def Core.atBoundary (c : Core) : Bool :=
  (c.sched.run == .running || c.sched.run == .point) &&
  (match c.sched.hold with
    | .free => true
    | .timed _ _ _ => true
    | .due _ _ _ => true
    | .cpgo _ _ _ => true
    | _ => false)

/-- The asynchronous trap that is due at the core: TCAUSE and TVAL (R265). -/
def Core.asyncTrap (c : Core) : Option (Nat × Word) :=
  if !c.atBoundary then none
  else match c.sched.pfHere with
    | a :: _ => some (15, a)
    | [] => none

/-- Takes the asynchronous trap of the issuing core: TEPC names the first instruction not yet issued, and there is no word (log 24). -/
def takeAsync (s : State) (cause : Nat) (tval : Word) : State :=
  let s0 := if s.me.sched.run = .point then requestLeases s s.cur else s
  let s1 := s0.upd (fun c => c.sch (fun x => { x with pfHere := if cause = 15 then x.pfHere.drop 1 else x.pfHere, run := .running }))
  trapEntry { s1 with word := 0 } cause tval

/-- TRAP_ENTRY (R259): the asynchronous trap that is due at the issuing core; a precise trap is part of its instruction's step. -/
def execTrapEntry (cause : Nat) (tval : Word) (s : State) : Out :=
  if s.me.asyncTrap = some (cause, tval) then .next (takeAsync s cause tval) else .next s

/-! ### The background scrubber (R264) -/

/-- BACKGROUND_SCRUBBER (R264): at an uncorrectable error it retires the frame of HBM, or marks the wagon, with a record. -/
def execBackgroundScrubber (loc : Nat) (s : State) : Out :=
  if Sparse.get false s.bad (granuleOf loc) then .next (s.retireAt loc) else .next s

end Sys2Proof.Machine
end

