-- ==== Sys2Proof/Machine/Hostif.lean ====
section
/-!
DEFINITION. The steps of the device's outside: registers, features, the TDISP interface, device reset, CXL.mem, peers, the timebase, the
management controller, routes and limits (spec 16 R272 to R283, 15 R266, 02 R32, 01 R25, 14 R254, 07 R315), and LAUNCH (01 R16).
-/

namespace Sys2Proof.Machine

/-- LAUNCH (R16): an LDD from a channel's LAUNCH register starts a transfer as CPGO does. -/
def execLaunch (d : BitVec 6) (c : BitVec 2) (s : State) : Out := finish s ((cpgoOp s d c.toNat).bind (fun t => .ok t.advance))

/-! ### Registers, features, TDISP (R272, R275, R276) -/

/-- Changes the host side. -/
def State.updHost (s : State) (f : HostSide → HostSide) : State := { s with host := f s.host }
/-- Changes the registers of BAR 0. -/
def State.updBar (s : State) (f : Bar0 → Bar0) : State := s.updHost (fun h => { h with bar0 := f h.bar0 })

/-- The installed partitions. -/
def State.partNums (s : State) : List Nat := s.parts.map (fun e => e.1)

/-- Entry to ERROR: every partition is killed (R276, R271). -/
def enterError (s : State) : State := s.partNums.foldl startKill (s.updHost (fun h => { h with tdisp := .error }))

/-- A write of a frozen register by the state of the interface (Table 16-4). -/
def frozenWrite (s : State) (k : State) : State :=
  match s.host.tdisp with
  | .unlocked => k
  | .locked => enterError s
  | .run => enterError s
  | .error => s

/-- A write of FEATACC0 or FEATACC1, ignored after the first PSET; a bit that is not offered stays 0 (R275). -/
def featWrite (s : State) (idx : Nat) (v : Word) : State :=
  if s.host.firstPset then s
  else s.updHost (fun h =>
    { h with bar0 := if idx = 0 then { h.bar0 with featAcc0 := v &&& Config.featOff0 } else { h.bar0 with featAcc1 := v &&& Config.featOff1 }, featSet := h.featSet ||| 2 ^ (idx % 2) })

/-- FEATACC_WRITE (R275, R276). -/
def execFeataccWrite (idx : Nat) (val : Word) (s : State) : Out := .next (if idx ≤ 1 then frozenWrite s (featWrite s idx val) else s)

/-- The write of a register (Table 16-1), by offset. The frozen registers outside BAR 0 have the numbers from 0x10000 on (BAR 0, BAR 2, the
command register, the HDM decoder, IDE on CXL.io, IDE on CXL.mem), the DMA windows of the management controller from 0x20000 on, 4 KiB
each, and a write to BAR 2 that is no 64-byte deferrable memory write those from 0x30000 on: it is an unsupported request (R272, log 26).
Every other offset ignores the write. -/
def writeReg (s : State) (off : Nat) (v : Word) : State :=
  match off with
  | 0x0010 => frozenWrite s (featWrite s 0 v)
  | 0x0018 => frozenWrite s (featWrite s 1 v)
  | 0x0020 => frozenWrite s (s.updBar (fun b => { b with fqBase := v }))
  | 0x0028 => frozenWrite s (s.updBar (fun b => { b with fqSize := v }))
  | 0x0030 => s.updBar (fun b => { b with fqHead := v })
  | 0x0058 => frozenWrite s (s.updBar (fun b => { b with dbBase0 := v }))
  | 0x0060 => frozenWrite s (s.updBar (fun b => { b with dbBase1 := v }))
  | n =>
    if 0x10000 ≤ n ∧ n ≤ 0x10005 then
      frozenWrite s (s.updHost (fun h =>
        { h with frozen := Sparse.set 0 h.frozen (n - 0x10000) v, ide := if n = 0x10005 then v.getLsbD 0 else h.ide }))
    else if 0x20000 ≤ n ∧ n < 0x20010 then
      s.updHost (fun h => { h with dma := h.dma.filter (fun e => e.1 != n - 0x20000) ++ [(n - 0x20000, v.toNat / 4096 * 4096)] })
    else if 0x30000 ≤ n then s.setReply .unsupported
    else s

/-- The value that a read of BAR 0 gives (Table 16-1), by offset: every offset that names no register reads zero. -/
def readReg (s : State) (off : Nat) : Word :=
  let b := s.host.bar0
  match off with
  | 0x0000 => Config.featOff0
  | 0x0008 => Config.featOff1
  | 0x0010 => b.featAcc0
  | 0x0018 => b.featAcc1
  | 0x0020 => b.fqBase
  | 0x0028 => b.fqSize
  | 0x0030 => b.fqHead
  | 0x0038 => b.fqTail
  | 0x0040 => BitVec.ofNat 64 (runFrames s.frames.clean)
  | 0x0048 => BitVec.ofNat 64 ((if b.tsync then 1 else 0) + b.domain % 256 * 256)
  | 0x0050 => b.eoldays.setWidth 64
  | 0x0058 => b.dbBase0
  | 0x0060 => b.dbBase1
  | 0x0068 => if b.dbSel then 1 else 0
  | 0x0070 => s.retfr
  | n =>
    if n % 8 ≠ 0 then 0
    else if 0x0080 ≤ n ∧ n < 0x00A0 then Sparse.get 0 b.age ((n - 0x0080) / 8)
    else if 0x00A0 ≤ n ∧ n < 0x0100 then Sparse.get 0 b.cecnt ((n - 0x00A0) / 8)
    else if 0x0100 ≤ n ∧ n < 0x01E0 then Sparse.get 0 b.lretry ((n - 0x0100) / 8)
    else if 0x1000 ≤ n ∧ n < 0x1800 then BitVec.ofNat 64 ((s.queue ((n - 0x1000) / 8)).qstat % 256)
    else 0

/-- The host reads a register of BAR 0 (R272). -/
def hostRead (s : State) (off : Nat) : State := s.setReply (.data (readReg s off))

/-- The TDISP interface report (R276): the bytes of BAR 0, the submission ports of BAR 2 and the command port's offset there, the HDM range
from address 0 on, the offered features, IDE on CXL.io and CXL.mem, the fused limits in W and MHz. -/
structure Report where
  bar0     : Nat
  ports    : Nat
  command  : Nat
  hdm      : Nat
  featOff0 : Word
  featOff1 : Word
  ideIo    : Bool
  ideMem   : Bool
  power    : Nat
  clock    : Nat
  deriving DecidableEq, Repr

/-- What the interface report lists (R276); the HDM range has the size that CONFIG.HBMSZ gives in 4 KiB units. -/
def State.report (s : State) : Report :=
  { bar0 := 65536, ports := 256, command := 0x4000, hdm := s.config.toNat / 2 ^ 32 * 4096, featOff0 := Config.featOff0, featOff1 := Config.featOff1,
    ideIo := true, ideMem := true, power := Config.maxPower, clock := Config.maxClock }

/-- REGISTER_WRITE (R272, R276). -/
def execRegisterWrite (off : Nat) (val : Word) (s : State) : Out := .next (writeReg s off val)

/-- LOCK_INTERFACE (Table 16-4). -/
def execLockInterface (s : State) : Out :=
  .next (if s.host.tdisp = .unlocked then (s.updHost (fun h => { h with tdisp := .locked })).setReply .accepted else s.setReply .errorResponse)

/-- START_INTERFACE (Table 16-4). -/
def execStartInterface (s : State) : Out :=
  .next (if s.host.tdisp = .locked then (s.updHost (fun h => { h with tdisp := .run })).setReply .accepted else s.setReply .errorResponse)

/-- No partition is being killed. -/
def noKill (s : State) : Bool := s.parts.all (fun e => match e.2 with | some x => !x.killing | none => true)

/-- STOP_INTERFACE (Table 16-4): in RUN every partition is killed first; in ERROR the kills and their scrub are completed first. The
request stays until then, and its step is taken again. -/
def execStopInterface (s : State) : Out :=
  let off := fun (t : State) => (t.updHost (fun h => { h with tdisp := .unlocked, stopping := false })).setReply .accepted
  match s.host.tdisp with
  | .unlocked => .next (s.setReply .accepted)
  | .locked => .next (off s)
  | .run =>
    if !s.host.stopping then .next (s.partNums.foldl startKill (s.updHost (fun h => { h with stopping := true })))
    else if noKill s then .next (off s) else .next s
  | .error => if noKill s && s.frames.scrub.isEmpty then .next (off s) else .next (s.updHost (fun h => { h with stopping := true }))

/-- IDE_INTEGRITY_FAILURE (Table 16-4): a record alone while unlocked, its TYPE open (log 4); ERROR from LOCKED and RUN. -/
def execIdeIntegrityFailure (s : State) : Out :=
  .next (match s.host.tdisp with
    | .unlocked => { s with free := s.free + 1 }.fqPush (((Config.freeValue s.free).toNat) % 256) 0
    | .locked => enterError s
    | .run => enterError s
    | .error => s)

/-- DEVICE_RESET (R32, R264, R276, R279, R315): the state after reset, with memory outside the wagons and beyond the frames kept, the
retired frames kept, every other frame in the scrub queue. -/
def execDeviceReset (s : State) : Out :=
  let tail := Config.frames * 65536
  let keep := fun (k : Nat) => !(decide (2 ^ 64 ≤ k) && decide (k < 2 * 2 ^ 64)) && !(decide (tail ≤ k) && decide (k < Config.hbmBytes))
  let base : State := State.reset
  .next { base with
          mem := s.mem.filter (fun e => keep e.1),
          bad := s.bad.filter (fun e => keep e.1),
          frames := { scrub := s.frames.retired.foldl dropFrame [(0, Config.frames)], retired := s.frames.retired },
          host := { base.host with hours := s.host.hours },
          free := s.free,
          schedule := s.schedule }

/-! ### CXL.mem and peers (R278, R25, R254) -/

/-- HOST_CXL_MEM_ACCESS (R278, R276, R282): 8 bytes of HBM at system scope, of any frame. A read that meets an error gives an open value
(log 4). -/
def execHostCxlMemAccess (r : CxlReq) (s : State) : Out :=
  if s.host.tdisp = .error ∨ (s.host.ide ∧ !r.ide) ∨ r.pa % 8 ≠ 0 ∨ r.pa + 8 > Config.hbmBytes then .next (s.setReply .unsupported)
  else if r.write then .next ((s.writeGroup 0 0 (State.maskedBytes (locHbm r.pa) 8 r.val 0xFF)).setReply .accepted)
  else if s.hasBad (locHbm r.pa) 8 then .next ({ s with free := s.free + 1 }.setReply (.data (Config.freeValue s.free)))
  else .next (s.setReply (.data (BitVec.ofNat 64 (s.bytes (locHbm r.pa) 8))))

/-- A partition is paired with a remote partition on a port (R25, Table 16-5). -/
def paired (s : State) (p port remote : Nat) : Bool :=
  match s.part p with
  | some x => decide (remote < 255) && x.peer[port]? == some remote
  | none => false

/-- The partition whose core holds a wagon ATTACHED, while the yard state is HITCHED (R25); a slot that a bind or a restore fills is
ATTACHED when the task starts (R53, R54 step 4). -/
def attachedTo (s : State) (cl w : Nat) : Option Nat :=
  if ((s.cluster cl).wagon w).yard ≠ .hitched then none
  else s.cores.findSome? (fun e =>
    if clusterOf e.1 = cl ∧ e.2.sched.run ≠ .binding ∧ e.2.hitch.any (fun h => h.2.st == .attached && h.2.wagon == w) then some e.2.part else none)

/-- Where a peer's request lands, with the state after the walk and the partition (R25, R24, R2); in error when it is discarded, with a
TYPE 8 record when the frame has another owner (R278). A global address is translated by cluster 0 (DESIGN CHOICE, log 60: the spec names no
cluster for a peer's walk). -/
def peerPlace (s : State) (r : PeerReq) : Except State (State × Nat × Nat) :=
  if r.addr % 8 ≠ 0 ∨ !s.feature 2 then .error s
  else if r.wagon then
    let cl := r.addr / 2 ^ 25
    match attachedTo s cl (r.addr / 2 ^ 18 % 128) with
    | some p => if cl < Config.clusters ∧ paired s p r.port r.remote then .ok (s, 2 ^ 64 + r.addr, p) else .error s
    | none => .error s
  else if !paired s r.part r.port r.remote ∨ r.addr / 2 ^ 56 ≠ 0 then .error s
  else
    let discard := fun (t : State) => t.fqPush (frecWord 8 r.part 0 0 0) r.addr
    match translate s 0 r.part false (if r.write then .store else .load) r.addr with
    | .ok (t, x) => if x.region ≠ 0 then .error t else if t.owns r.part x.pa then .ok (t, locHbm x.pa, r.part) else .error (discard t)
    | .error c => .error (if c = 15 then discard s else s)

/-- The bytes of chunk c of a sender's transfer that a port has seen performed (R103). -/
def arrivedOf (s : State) (r : PeerReq) (x c : Nat) : Nat :=
  ((s.host.arrived.filter (fun a => a.port == r.port && a.remote == r.remote && a.xfer == x && a.chunk == c)).map (fun a => a.bytes)).sum

/-- A port counts 8 more bytes of a chunk (R103). -/
def countArrived (s : State) (r : PeerReq) : State :=
  match r.chunk with
  | none => s
  | some (x, c) => s.updHost (fun h =>
      { h with arrived := h.arrived.filter (fun a => !(a.port == r.port && a.remote == r.remote && a.xfer == x && a.chunk == c)) ++
          [{ port := r.port, remote := r.remote, xfer := x, chunk := c, bytes := arrivedOf s r x c + 8 }] })

/-- A flag may be written: every data byte of the chunks that it covers has been performed here (R103). -/
def flagReady (s : State) (r : PeerReq) : Bool :=
  match r.flag with
  | none => true
  | some (x, ns) => ns.zipIdx.all (fun e => decide (e.1 ≤ arrivedOf s r x e.2))

/-- A peer's write of 8 bytes is performed, or discarded with an error answer (R25). -/
def peerWrite (s : State) (r : PeerReq) : State :=
  match peerPlace s r with
  | .error t => t.setReply .refused
  | .ok (t, loc, p) => countArrived ((t.writeGroup p 0 (State.maskedBytes loc 8 r.val 0xFF)).setReply .accepted) r

/-- The flags that a port holds back and may write now are written (R103). -/
def releaseFlags (s : State) : State :=
  (s.host.flags.filter (flagReady s)).foldl (fun t r => { peerWrite t r with host := { (peerWrite t r).host with reply := t.host.reply } })
    (s.updHost (fun h => { h with flags := h.flags.filter (fun r => !flagReady s r) }))

/-- PEER_REQUEST (R25, R103): a peer's read or write of 8 bytes is performed, or discarded with an error answer; a flag waits at its port
for the chunks that it covers. -/
def execPeerRequest (r : PeerReq) (s : State) : Out :=
  if r.write then
    if flagReady s r then .next (releaseFlags (peerWrite s r))
    else .next ((s.updHost (fun h => { h with flags := h.flags ++ [r] })).setReply .accepted)
  else match peerPlace s r with
    | .error t => .next (t.setReply .refused)
    | .ok (t, loc, _) =>
      if t.hasBad loc 8 then .next (t.setReply .refused)
      else .next (t.setReply (.data (BitVec.ofNat 64 (t.bytes loc 8))))

/-- PEER_KILL_REPORT (R254): a peer reports that the owner of a member was killed: the member is lost. -/
def execPeerKillReport (part gid rank : Nat) (s : State) : Out :=
  .next (s.updPart part (fun x =>
    match Sparse.get none x.groups gid with
    | some g => { x with groups := Sparse.set none x.groups gid (some { g with lost := if g.lost.contains rank then g.lost else g.lost ++ [rank] }) }
    | none => x))

/-! ### Timebase, routes, limits, management controller (R315, R281, R266, R283, R280) -/

/-- TIMEBASE_LOCK (R315, R275): lock to a domain is reached, or the domain's time is seen again; at the first lock since reset TIME is set
to it when no dispatch runs, otherwise TIME is slewed towards it. -/
def execTimebaseLock (domain time : Nat) (s : State) : Out :=
  if !s.feature 6 then .next s
  else
    let set := !s.host.everLocked && !s.dispatching
    let s1 := s.updHost (fun h =>
      { h with bar0 := { h.bar0 with tsync := true, domain := domain % 256 }, everLocked := true,
               slew := if set then 0 else (time % 2 ^ 64 : Nat) - (s.time.toNat : Int), credit := 0 })
    .next (if set then { s1 with time := BitVec.ofNat 64 time } else s1)

/-- TIMEBASE_LOCK_LOST (R281, R315): a record, and TIME runs free. -/
def execTimebaseLockLost (s : State) : Out :=
  if s.host.bar0.tsync then
    .next ((s.updHost (fun h => { h with bar0 := { h.bar0 with tsync := false }, slew := 0, credit := 0 })).fqPush (frecWord 7 0 0 0 0) 0)
  else .next s

/-- ROUTE_FAILED (R266, R254, R274): routes are numbered as LRETRY (Table 16-1): Tlanil links 0 to 3, then UALink ports from 4. -/
def execRouteFailed (route : Nat) (s : State) : Out :=
  if s.routes.contains route ∨ route ≥ 28 then .next s
  else .next ({ s with routes := s.routes ++ [route] }.fqPush (frecWord 5 0 0 0 0) (if route < 4 then route else route - 4))

/-- THERMAL_LIMIT (R266, R274). -/
def execThermalLimit (s : State) : Out := .next ((s.updHost (fun h => { h with thermal := true })).fqPush (frecWord 6 0 0 0 0) 0)

/-- EOLDAYS_UPDATE (R283): the hourly figure of the management controller, all ones until 24 hours have passed. -/
def execEoldaysUpdate (days : BitVec 32) (s : State) : Out :=
  let n := s.host.hours + 1
  .next (s.updHost (fun h => { h with hours := n, bar0 := { h.bar0 with eoldays := if n < 24 then BitVec.allOnes 32 else days } }))

/-- MANAGEMENT_CONTROLLER_REQUEST (R280): a frame is read by aligned doublewords; the end of HBM that is no frame reads zero (log 41). -/
def execManagementControllerRequest (r : MgmtReq) (s : State) : Out :=
  .next (match r with
    | .setPower w => (s.updHost (fun h => { h with power := min w Config.maxPower })).setReply .accepted
    | .setClock m => (s.updHost (fun h => { h with clock := min m Config.maxClock })).setReply .accepted
    | .clearIde => if s.host.tdisp = .unlocked then (s.updHost (fun h => { h with ide := false })).setReply .accepted else s.setReply .refused
    | .rekeyIde => s.setReply (if s.host.tdisp = .unlocked then .accepted else .refused)
    | .writeHost a v =>
      if s.host.dma.any (fun e => decide (e.2 ≤ a) && decide (a < e.2 + 4096)) then (s.putBytes [(locHost a, v)]).setReply .accepted
      else s.setReply .refused
    | .readHost a =>
      if s.host.dma.any (fun e => decide (e.2 ≤ a) && decide (a < e.2 + 4096)) then s.setReply (.data ((s.byte (locHost a)).setWidth 64))
      else s.setReply .refused
    | .readFrame pa =>
      if pa % 8 ≠ 0 then s.setReply .refused
      else if pa / 65536 < Config.frames ∧ (s.ownerOfFrame (pa / 65536)).isNone then s.setReply (.data (BitVec.ofNat 64 (s.bytes (locHbm pa) 8)))
      else s.setReply (.data 0)
    | .readFaultQueue i => s.setReply (.data (match s.host.held[i]? with | some f => f.w0 | none => 0))
    | .writeFrameOwner _ => s.setReply .refused)

end Sys2Proof.Machine
end

