-- ==== Sys2Proof/Machine/Dispatch.lean ====
section
/-!
DEFINITION. One arm per constructor of Instr: the instruction's meaning, or its refusal by name.
-/

namespace Sys2Proof.Machine

/-- What one instruction does for the issuing core, or one event for the device. -/
def exec (i : Instr) (s : State) : Host.Outcome State Fault Refusal :=
  match i with
  | .add d a b => Sys2Proof.Machine.execAdd d a b s
  | .sub d a b => Sys2Proof.Machine.execSub d a b s
  | .andR d a b => Sys2Proof.Machine.execAndR d a b s
  | .orR d a b => Sys2Proof.Machine.execOrR d a b s
  | .xorR d a b => Sys2Proof.Machine.execXorR d a b s
  | .andn d a b => Sys2Proof.Machine.execAndn d a b s
  | .shl d a b => Sys2Proof.Machine.execShl d a b s
  | .shr d a b => Sys2Proof.Machine.execShr d a b s
  | .shra d a b => Sys2Proof.Machine.execShra d a b s
  | .ror d a b => Sys2Proof.Machine.execRor d a b s
  | .minS d a b => Sys2Proof.Machine.execMinS d a b s
  | .maxS d a b => Sys2Proof.Machine.execMaxS d a b s
  | .minu d a b => Sys2Proof.Machine.execMinu d a b s
  | .maxu d a b => Sys2Proof.Machine.execMaxu d a b s
  | .slt d a b => Sys2Proof.Machine.execSlt d a b s
  | .sltu d a b => Sys2Proof.Machine.execSltu d a b s
  | .seq d a b => Sys2Proof.Machine.execSeq d a b s
  | .addi d a imm => Sys2Proof.Machine.execAddi d a imm s
  | .andi d a imm => Sys2Proof.Machine.execAndi d a imm s
  | .ori d a imm => Sys2Proof.Machine.execOri d a imm s
  | .xori d a imm => Sys2Proof.Machine.execXori d a imm s
  | .slti d a imm => Sys2Proof.Machine.execSlti d a imm s
  | .sltui d a imm => Sys2Proof.Machine.execSltui d a imm s
  | .shli d a n => Sys2Proof.Machine.execShli d a n s
  | .shri d a n => Sys2Proof.Machine.execShri d a n s
  | .shrai d a n => Sys2Proof.Machine.execShrai d a n s
  | .rori d a n => Sys2Proof.Machine.execRori d a n s
  | .lui d imm => Sys2Proof.Machine.execLui d imm s
  | .addpc d imm => Sys2Proof.Machine.execAddpc d imm s
  | .mul d a b => Sys2Proof.Machine.execMul d a b s
  | .mulh d a b => Sys2Proof.Machine.execMulh d a b s
  | .mulhu d a b => Sys2Proof.Machine.execMulhu d a b s
  | .div d a b => Sys2Proof.Machine.execDiv d a b s
  | .divu d a b => Sys2Proof.Machine.execDivu d a b s
  | .rem d a b => Sys2Proof.Machine.execRem d a b s
  | .remu d a b => Sys2Proof.Machine.execRemu d a b s
  | .madd d a b => Sys2Proof.Machine.execMadd d a b s
  | .sel d a b => Sys2Proof.Machine.execSel d a b s
  | .clz d a => Sys2Proof.Machine.execClz d a s
  | .ctz d a => Sys2Proof.Machine.execCtz d a s
  | .popc d a => Sys2Proof.Machine.execPopc d a s
  | .brev d a => Sys2Proof.Machine.execBrev d a s
  | .sextb d a => Sys2Proof.Machine.execSextb d a s
  | .sexth d a => Sys2Proof.Machine.execSexth d a s
  | .sextw d a => Sys2Proof.Machine.execSextw d a s
  | .bfx d a p l => Sys2Proof.Machine.execBfx d a p l s
  | .bfxu d a p l => Sys2Proof.Machine.execBfxu d a p l s
  | .bfi d a p l => Sys2Proof.Machine.execBfi d a p l s
  | .brEq a b imm => Sys2Proof.Machine.execBrEq a b imm s
  | .brNe a b imm => Sys2Proof.Machine.execBrNe a b imm s
  | .brLt a b imm => Sys2Proof.Machine.execBrLt a b imm s
  | .brGe a b imm => Sys2Proof.Machine.execBrGe a b imm s
  | .brLtu a b imm => Sys2Proof.Machine.execBrLtu a b imm s
  | .brGeu a b imm => Sys2Proof.Machine.execBrGeu a b imm s
  | .jmp imm => Sys2Proof.Machine.execJmp imm s
  | .call imm => Sys2Proof.Machine.execCall imm s
  | .jr a => Sys2Proof.Machine.execJr a s
  | .callr a => Sys2Proof.Machine.execCallr a s
  | .wloop w n imm => Sys2Proof.Machine.execWloop w n imm s
  | .ldb d a imm => Sys2Proof.Machine.execLdb d a imm s
  | .ldbu d a imm => Sys2Proof.Machine.execLdbu d a imm s
  | .ldh d a imm => Sys2Proof.Machine.execLdh d a imm s
  | .ldhu d a imm => Sys2Proof.Machine.execLdhu d a imm s
  | .ldw d a imm => Sys2Proof.Machine.execLdw d a imm s
  | .ldwu d a imm => Sys2Proof.Machine.execLdwu d a imm s
  | .ldd d a imm => Sys2Proof.Machine.execLdd d a imm s
  | .ldp d a w x u imm => Sys2Proof.Machine.execLdp d a w x u imm s
  | .stb d a imm => Sys2Proof.Machine.execStb d a imm s
  | .sth d a imm => Sys2Proof.Machine.execSth d a imm s
  | .stw d a imm => Sys2Proof.Machine.execStw d a imm s
  | .std d a imm => Sys2Proof.Machine.execStd d a imm s
  | .aadd d a b o x => Sys2Proof.Machine.execAadd d a b o x s
  | .aand d a b o x => Sys2Proof.Machine.execAand d a b o x s
  | .aor d a b o x => Sys2Proof.Machine.execAor d a b o x s
  | .axor d a b o x => Sys2Proof.Machine.execAxor d a b o x s
  | .amin d a b o x => Sys2Proof.Machine.execAmin d a b o x s
  | .amax d a b o x => Sys2Proof.Machine.execAmax d a b o x s
  | .aminu d a b o x => Sys2Proof.Machine.execAminu d a b o x s
  | .amaxu d a b o x => Sys2Proof.Machine.execAmaxu d a b o x s
  | .aswp d a b o x => Sys2Proof.Machine.execAswp d a b o x s
  | .acas d a b o x => Sys2Proof.Machine.execAcas d a b o x s
  | .afadd d a b o x => Sys2Proof.Machine.execAfadd d a b o x s
  | .fence p q x => Sys2Proof.Machine.execFence p q x s
  | .ifence => Sys2Proof.Machine.execIfence s
  | .ldAcq d a u w x => Sys2Proof.Machine.execLdAcq d a u w x s
  | .stRel d a w x => Sys2Proof.Machine.execStRel d a w x s
  | .wbind w a b => Sys2Proof.Machine.execWbind w a b s
  | .wunbind w => Sys2Proof.Machine.execWunbind w s
  | .wstat d w q => Sys2Proof.Machine.execWstat d w q s
  | .csrr d c => Sys2Proof.Machine.execCsrr d c s
  | .csrw d a c => Sys2Proof.Machine.execCsrw d a c s
  | .csrs d a c => Sys2Proof.Machine.execCsrs d a c s
  | .csrc d a c => Sys2Proof.Machine.execCsrc d a c s
  | .syscall c => Sys2Proof.Machine.execSyscall c s
  | .brk c => Sys2Proof.Machine.execBrk c s
  | .tret => Sys2Proof.Machine.execTret s
  | .doneT => Sys2Proof.Machine.execDoneT s
  | .waiti => Sys2Proof.Machine.execWaiti s
  | .inbox d => Sys2Proof.Machine.execInbox d s
  | .inpeek d => Sys2Proof.Machine.execInpeek d s
  | .nop => Sys2Proof.Machine.execNop s
  | .hint n => Sys2Proof.Machine.execHint n s
  | .hintPf imm => Sys2Proof.Machine.execHintPf imm s
  | .hintPfm imm => Sys2Proof.Machine.execHintPfm imm s
  | .hintSpin => Sys2Proof.Machine.execHintSpin s
  | .vadd d a b k t => Sys2Proof.Machine.execVadd d a b k t s
  | .vsub d a b k t => Sys2Proof.Machine.execVsub d a b k t s
  | .vmul d a b k t => Sys2Proof.Machine.execVmul d a b k t s
  | .vfma d a b k t => Sys2Proof.Machine.execVfma d a b k t s
  | .vfms d a b k t => Sys2Proof.Machine.execVfms d a b k t s
  | .vfnma d a b k t => Sys2Proof.Machine.execVfnma d a b k t s
  | .vdiv d a b k t => Sys2Proof.Machine.execVdiv d a b k t s
  | .vsqrt d a k t => Sys2Proof.Machine.execVsqrt d a k t s
  | .vrcp d a k t => Sys2Proof.Machine.execVrcp d a k t s
  | .vmin d a b k t => Sys2Proof.Machine.execVmin d a b k t s
  | .vmax d a b k t => Sys2Proof.Machine.execVmax d a b k t s
  | .vabs d a k t => Sys2Proof.Machine.execVabs d a k t s
  | .vneg d a k t => Sys2Proof.Machine.execVneg d a k t s
  | .vexp2 d a k t => Sys2Proof.Machine.execVexp2 d a k t s
  | .vlog2 d a k t => Sys2Proof.Machine.execVlog2 d a k t s
  | .viadd d a b k t => Sys2Proof.Machine.execViadd d a b k t s
  | .visub d a b k t => Sys2Proof.Machine.execVisub d a b k t s
  | .vimul d a b k t => Sys2Proof.Machine.execVimul d a b k t s
  | .vimad d a b k t => Sys2Proof.Machine.execVimad d a b k t s
  | .vimin d a b k t => Sys2Proof.Machine.execVimin d a b k t s
  | .vimax d a b k t => Sys2Proof.Machine.execVimax d a b k t s
  | .viminu d a b k t => Sys2Proof.Machine.execViminu d a b k t s
  | .vimaxu d a b k t => Sys2Proof.Machine.execVimaxu d a b k t s
  | .vishl d a b k t => Sys2Proof.Machine.execVishl d a b k t s
  | .vishr d a b k t => Sys2Proof.Machine.execVishr d a b k t s
  | .vishra d a b k t => Sys2Proof.Machine.execVishra d a b k t s
  | .viadds d a b k t => Sys2Proof.Machine.execViadds d a b k t s
  | .vand d a b k t => Sys2Proof.Machine.execVand d a b k t s
  | .vor d a b k t => Sys2Proof.Machine.execVor d a b k t s
  | .vxor d a b k t => Sys2Proof.Machine.execVxor d a b k t s
  | .vnot d a k t => Sys2Proof.Machine.execVnot d a k t s
  | .vperm d a b k t => Sys2Proof.Machine.execVperm d a b k t s
  | .vslide d a n k t => Sys2Proof.Machine.execVslide d a n k t s
  | .vbcast d a n k t => Sys2Proof.Machine.execVbcast d a n k t s
  | .vsel d a b k t => Sys2Proof.Machine.execVsel d a b k t s
  | .vcmpEq d a b k t => Sys2Proof.Machine.execVcmpEq d a b k t s
  | .vcmpNe d a b k t => Sys2Proof.Machine.execVcmpNe d a b k t s
  | .vcmpLt d a b k t => Sys2Proof.Machine.execVcmpLt d a b k t s
  | .vcmpLe d a b k t => Sys2Proof.Machine.execVcmpLe d a b k t s
  | .vcmpLtu d a b k t => Sys2Proof.Machine.execVcmpLtu d a b k t s
  | .vcmpLeu d a b k t => Sys2Proof.Machine.execVcmpLeu d a b k t s
  | .vcmpUn d a b k t => Sys2Proof.Machine.execVcmpUn d a b k t s
  | .vcvt d a x k t => Sys2Proof.Machine.execVcvt d a x k t s
  | .vwiden d a x k t => Sys2Proof.Machine.execVwiden d a x k t s
  | .vnarrow d a x k t => Sys2Proof.Machine.execVnarrow d a x k t s
  | .vld d a b k w => Sys2Proof.Machine.execVld d a b k w s
  | .vst d a b k w => Sys2Proof.Machine.execVst d a b k w s
  | .vlds d a b k w => Sys2Proof.Machine.execVlds d a b k w s
  | .vsts d a b k w => Sys2Proof.Machine.execVsts d a b k w s
  | .vldg d a b k w => Sys2Proof.Machine.execVldg d a b k w s
  | .vstg d a b k w => Sys2Proof.Machine.execVstg d a b k w s
  | .vldx d a b k t => Sys2Proof.Machine.execVldx d a b k t s
  | .vrsum d a k t => Sys2Proof.Machine.execVrsum d a k t s
  | .vrmax d a k t => Sys2Proof.Machine.execVrmax d a k t s
  | .vrmin d a k t => Sys2Proof.Machine.execVrmin d a k t s
  | .vscan d a k t => Sys2Proof.Machine.execVscan d a k t s
  | .kand d a b => Sys2Proof.Machine.execKand d a b s
  | .kor d a b => Sys2Proof.Machine.execKor d a b s
  | .kxor d a b => Sys2Proof.Machine.execKxor d a b s
  | .knot d a => Sys2Proof.Machine.execKnot d a s
  | .kpopc d a t => Sys2Proof.Machine.execKpopc d a t s
  | .kfirst d a t => Sys2Proof.Machine.execKfirst d a t s
  | .kfrom d a t => Sys2Proof.Machine.execKfrom d a t s
  | .vget imm a d t => Sys2Proof.Machine.execVget imm a d t s
  | .vput d imm b t => Sys2Proof.Machine.execVput d imm b t s
  | .vmov d a k t => Sys2Proof.Machine.execVmov d a k t s
  | .vmovS d b k t => Sys2Proof.Machine.execVmovS d b k t s
  | .hitch d x => Sys2Proof.Machine.execHitch d x s
  | .hand d x b => Sys2Proof.Machine.execHand d x b s
  | .take d x => Sys2Proof.Machine.execTake d x s
  | .takeT d x => Sys2Proof.Machine.execTakeT d x s
  | .drop d x => Sys2Proof.Machine.execDrop d x s
  | .hstat d x => Sys2Proof.Machine.execHstat d x s
  | .lvset x b => Sys2Proof.Machine.execLvset x b s
  | .lvget d x => Sys2Proof.Machine.execLvget d x s
  | .wtag x b => Sys2Proof.Machine.execWtag x b s
  | .wtagE x b => Sys2Proof.Machine.execWtagE x b s
  | .hitchImp d x b => Sys2Proof.Machine.execHitchImp d x b s
  | .binit d n b => Sys2Proof.Machine.execBinit d n b s
  | .barr d n => Sys2Proof.Machine.execBarr d n s
  | .bwait d n => Sys2Proof.Machine.execBwait d n s
  | .barrw d n => Sys2Proof.Machine.execBarrw d n s
  | .bwdr d n b => Sys2Proof.Machine.execBwdr d n b s
  | .evwait d n => Sys2Proof.Machine.execEvwait d n s
  | .evsig d n => Sys2Proof.Machine.execEvsig d n s
  | .mlock d n => Sys2Proof.Machine.execMlock d n s
  | .munlock n => Sys2Proof.Machine.execMunlock n s
  | .trig => Sys2Proof.Machine.execTrig s
  | .haltpt a => Sys2Proof.Machine.execHaltpt a s
  | .vccwait a => Sys2Proof.Machine.execVccwait a s
  | .submit d a b => Sys2Proof.Machine.execSubmit d a b s
  | .cpset a r c => Sys2Proof.Machine.execCpset a r c s
  | .cpget d r c => Sys2Proof.Machine.execCpget d r c s
  | .cpgo d c => Sys2Proof.Machine.execCpgo d c s
  | .cpwm d c => Sys2Proof.Machine.execCpwm d c s
  | .cpabort d a => Sys2Proof.Machine.execCpabort d a s
  | .dlease u => Sys2Proof.Machine.execDlease u s
  | .dfree u => Sys2Proof.Machine.execDfree u s
  | .dcommit d u => Sys2Proof.Machine.execDcommit d u s
  | .dwait d a u => Sys2Proof.Machine.execDwait d a u s
  | .mma d a b u => Sys2Proof.Machine.execMma d a b u s
  | .mmac d a b => Sys2Proof.Machine.execMmac d a b s
  | .accrd d a u => Sys2Proof.Machine.execAccrd d a u s
  | .accrdV d a u => Sys2Proof.Machine.execAccrdV d a u s
  | .accwr a b u => Sys2Proof.Machine.execAccwr a b u s
  | .acczero d a u => Sys2Proof.Machine.execAcczero d a u s
  | .accst d a b u => Sys2Proof.Machine.execAccst d a b u s
  | .accwrCb d a u => Sys2Proof.Machine.execAccwrCb d a u s
  | .sccfg d a => Sys2Proof.Machine.execSccfg d a s
  | .sctopk d => Sys2Proof.Machine.execSctopk d s
  | .sccolk d => Sys2Proof.Machine.execSccolk d s
  | .scroute d a => Sys2Proof.Machine.execScroute d a s
  | .scrouteCnt d => Sys2Proof.Machine.execScrouteCnt d s
  | .scsend d => Sys2Proof.Machine.execScsend d s
  | .scgather d a => Sys2Proof.Machine.execScgather d a s
  | .scmread d a => Sys2Proof.Machine.execScmread d a s
  | .scclaim d a b => Sys2Proof.Machine.execScclaim d a b s
  | .scstat d a => Sys2Proof.Machine.execScstat d a s
  | .mset a u => Sys2Proof.Machine.execMset a u s
  | .mtbl a q => Sys2Proof.Machine.execMtbl a q s
  | .macc v k u => Sys2Proof.Machine.execMacc v k u s
  | .maccqV d u => Sys2Proof.Machine.execMaccqV d u s
  | .maccqS d u => Sys2Proof.Machine.execMaccqS d u s
  | .mmerge m u => Sys2Proof.Machine.execMmerge m u s
  | .mfold u => Sys2Proof.Machine.execMfold u s
  | .mfin d k u => Sys2Proof.Machine.execMfin d k u s
  | .msave a k u => Sys2Proof.Machine.execMsave a k u s
  | .mload a k u => Sys2Proof.Machine.execMload a k u s
  | .xsend v a r => Sys2Proof.Machine.execXsend v a r s
  | .xrecv d a r => Sys2Proof.Machine.execXrecv d a r s
  | .qput d v b => Sys2Proof.Machine.execQput d v b s
  | .qget d v => Sys2Proof.Machine.execQget d v s
  | .ldred d a o x t => Sys2Proof.Machine.execLdred d a o x t s
  | .stmc v a o x => Sys2Proof.Machine.execStmc v a o x s
  | .xchk d a b => Sys2Proof.Machine.execXchk d a b s
  | .launch d c => Sys2Proof.Machine.execLaunch d c s
  | .registerWrite off val => Sys2Proof.Machine.execRegisterWrite off val s
  | .writePerformed core idx => Sys2Proof.Machine.execWritePerformed core idx s
  | .readCacheFill core line => Sys2Proof.Machine.execReadCacheFill core line s
  | .wagonZeroingDone cluster wagon => Sys2Proof.Machine.execWagonZeroingDone cluster wagon s
  | .ownerChange core slot => Sys2Proof.Machine.execOwnerChange core slot s
  | .dropDrainEnd core slot => Sys2Proof.Machine.execDropDrainEnd core slot s
  | .heldMessagePost core => Sys2Proof.Machine.execHeldMessagePost core s
  | .trapEntry cause tval => Sys2Proof.Machine.execTrapEntry cause tval s
  | .impound core slot => Sys2Proof.Machine.execImpound core slot s
  | .impoundRelease wagon => Sys2Proof.Machine.execImpoundRelease wagon s
  | .partitionFaultReport core => Sys2Proof.Machine.execPartitionFaultReport core s
  | .packetEjection core idx => Sys2Proof.Machine.execPacketEjection core idx s
  | .peerRequest r => Sys2Proof.Machine.execPeerRequest r s
  | .peerKillReport part gid rank => Sys2Proof.Machine.execPeerKillReport part gid rank s
  | .copyChunk core ch => Sys2Proof.Machine.execCopyChunk core ch s
  | .copyCompletion core ch => Sys2Proof.Machine.execCopyCompletion core ch s
  | .remoteSignal core ch => Sys2Proof.Machine.execRemoteSignal core ch s
  | .killQuiescence part => Sys2Proof.Machine.execKillQuiescence part s
  | .leaseGrant cluster dray => Sys2Proof.Machine.execLeaseGrant cluster dray s
  | .drayCommandRun cluster dray => Sys2Proof.Machine.execDrayCommandRun cluster dray s
  | .batchComplete cluster dray => Sys2Proof.Machine.execBatchComplete cluster dray s
  | .stagecoachCompletion cluster => Sys2Proof.Machine.execStagecoachCompletion cluster s
  | .barrier47RemoteArrival disp lin => Sys2Proof.Machine.execBarrier47RemoteArrival disp lin s
  | .timedInstructionDue core => Sys2Proof.Machine.execTimedInstructionDue core s
  | .distributorSelect => Sys2Proof.Machine.execDistributorSelect s
  | .caravanBind disp => Sys2Proof.Machine.execCaravanBind disp s
  | .taskRetire core => Sys2Proof.Machine.execTaskRetire core s
  | .hostSubmission queue pkt => Sys2Proof.Machine.execHostSubmission queue pkt s
  | .switchTick rot => Sys2Proof.Machine.execSwitchTick rot s
  | .saveDeadline rot => Sys2Proof.Machine.execSaveDeadline rot s
  | .contextSave car => Sys2Proof.Machine.execContextSave car s
  | .caravanRestore car => Sys2Proof.Machine.execCaravanRestore car s
  | .budgetPeriod => Sys2Proof.Machine.execBudgetPeriod s
  | .frameScrub => Sys2Proof.Machine.execFrameScrub s
  | .pset pkt => Sys2Proof.Machine.execPset pkt s
  | .pclr pkt => Sys2Proof.Machine.execPclr pkt s
  | .inval pkt => Sys2Proof.Machine.execInval pkt s
  | .kill pkt => Sys2Proof.Machine.execKill pkt s
  | .pfans pkt => Sys2Proof.Machine.execPfans pkt s
  | .dbswap pkt => Sys2Proof.Machine.execDbswap pkt s
  | .setw pkt => Sys2Proof.Machine.execSetw pkt s
  | .free pkt => Sys2Proof.Machine.execFree pkt s
  | .alloc pkt => Sys2Proof.Machine.execAlloc pkt s
  | .driverCommandComplete idx => Sys2Proof.Machine.execDriverCommandComplete idx s
  | .faultQueueWrite => Sys2Proof.Machine.execFaultQueueWrite s
  | .feataccWrite idx val => Sys2Proof.Machine.execFeataccWrite idx val s
  | .lockInterface => Sys2Proof.Machine.execLockInterface s
  | .startInterface => Sys2Proof.Machine.execStartInterface s
  | .stopInterface => Sys2Proof.Machine.execStopInterface s
  | .ideIntegrityFailure => Sys2Proof.Machine.execIdeIntegrityFailure s
  | .deviceReset => Sys2Proof.Machine.execDeviceReset s
  | .hostCxlMemAccess r => Sys2Proof.Machine.execHostCxlMemAccess r s
  | .timebaseLock domain time => Sys2Proof.Machine.execTimebaseLock domain time s
  | .timebaseLockLost => Sys2Proof.Machine.execTimebaseLockLost s
  | .routeFailed route => Sys2Proof.Machine.execRouteFailed route s
  | .thermalLimit => Sys2Proof.Machine.execThermalLimit s
  | .eoldaysUpdate days => Sys2Proof.Machine.execEoldaysUpdate days s
  | .readPerformed core idx => Sys2Proof.Machine.execReadPerformed core idx s
  | .backgroundScrubber loc => Sys2Proof.Machine.execBackgroundScrubber loc s
  | .managementControllerRequest r => Sys2Proof.Machine.execManagementControllerRequest r s
  | .queueConfiguration queue c => Sys2Proof.Machine.execQueueConfiguration queue c s
  | .rotationConfiguration rot c => Sys2Proof.Machine.execRotationConfiguration rot c s

end Sys2Proof.Machine
end

