-- ==== Sys2Proof/WellFormed.lean ====
section
/-!
DEFINITION. Which instructions the encoding admits: the checks of spec 07 R147 step 2 that trap in both modes and depend on
the word alone (register pairs, accepted types, scope and order codes, ranges of immediates).
-/

namespace Sys2Proof

namespace VT

/-- Width in bits of a vector type code; 0 for a reserved code (Table 07-2). -/
def width (t : BitVec 4) : Nat :=
  match t.toNat with
  | 0 => 32 | 1 => 16 | 2 => 16 | 3 => 8 | 4 => 8 | 5 => 32 | 6 => 16 | 7 => 8 | 8 => 4 | 9 => 64 | _ => 0

/-- Elements of a type in one vector register (Table 07-2); 0 for a reserved code. -/
def nelem (t : BitVec 4) : Nat := if width t = 0 then 0 else 4096 / width t

/-- FP32, BF16 or FP16: the types with floating-point arithmetic (R135). -/
def isFloat (t : BitVec 4) : Bool := decide (t.toNat ≤ 2)
/-- An integer type (Table 07-2). -/
def isInt (t : BitVec 4) : Bool := decide (5 ≤ t.toNat ∧ t.toNat ≤ 9)
/-- A type code that is not reserved (Table 07-2). -/
def isType (t : BitVec 4) : Bool := decide (t.toNat ≤ 9)

end VT

namespace Instr

/-- The scope field of an atomic: a code of Table 04-2, zero with order 0 (R82). -/
def scopeOk (o : BitVec 2) (s : BitVec 3) : Bool := if o = 0 then s == 0 else decide (s.toNat ≤ 4)

/-- True when the word of the instruction passes every check that traps whatever the mode (R147 step 2, Table 07-18). -/
def wf : Instr → Bool
  | .bfx _ _ p l => p.toNat + l.toNat + 1 ≤ 64
  | .bfxu _ _ p l => p.toNat + l.toNat + 1 ≤ 64
  | .bfi _ _ p l => p.toNat + l.toNat + 1 ≤ 64
  | .ldp _ _ _ s u _ => s.toNat = 3 → u = 0
  | .aadd _ _ _ o s => scopeOk o s
  | .aand _ _ _ o s => scopeOk o s
  | .aor _ _ _ o s => scopeOk o s
  | .axor _ _ _ o s => scopeOk o s
  | .amin _ _ _ o s => scopeOk o s
  | .amax _ _ _ o s => scopeOk o s
  | .aminu _ _ _ o s => scopeOk o s
  | .amaxu _ _ _ o s => scopeOk o s
  | .aswp _ _ _ o s => scopeOk o s
  | .acas _ _ _ o s => scopeOk o s
  | .afadd _ _ _ o s => scopeOk o s
  | .fence p q s => p ≠ 0 ∧ q ≠ 0 ∧ s.toNat ≤ 4
  | .ldAcq _ _ u w s => s.toNat ≤ 4 ∧ (w.toNat = 3 → u = 0)
  | .stRel _ _ _ s => s.toNat ≤ 4
  | .wbind _ _ b => b.toNat ≤ 60
  | .wstat _ _ q => q.toNat ≤ 5
  | .inbox d => d.toNat % 2 = 0
  | .inpeek d => d.toNat % 2 = 0
  | .hint n => n.toNat ≠ 0 ∧ (n.toNat < 64 ∨ 192 < n.toNat)
  | .vadd _ _ _ _ t => VT.isFloat t
  | .vsub _ _ _ _ t => VT.isFloat t
  | .vmul _ _ _ _ t => VT.isFloat t
  | .vfma _ _ _ _ t => VT.isFloat t
  | .vfms _ _ _ _ t => VT.isFloat t
  | .vfnma _ _ _ _ t => VT.isFloat t
  | .vdiv _ _ _ _ t => VT.isFloat t
  | .vsqrt _ _ _ t => VT.isFloat t
  | .vrcp _ _ _ t => VT.isFloat t
  | .vmin _ _ _ _ t => VT.isFloat t
  | .vmax _ _ _ _ t => VT.isFloat t
  | .vabs _ _ _ t => VT.isFloat t
  | .vneg _ _ _ t => VT.isFloat t
  | .vexp2 _ _ _ t => VT.isFloat t
  | .vlog2 _ _ _ t => VT.isFloat t
  | .viadd _ _ _ _ t => VT.isInt t
  | .visub _ _ _ _ t => VT.isInt t
  | .vimul _ _ _ _ t => VT.isInt t
  | .vimad _ _ _ _ t => VT.isInt t
  | .vimin _ _ _ _ t => VT.isInt t
  | .vimax _ _ _ _ t => VT.isInt t
  | .viminu _ _ _ _ t => VT.isInt t
  | .vimaxu _ _ _ _ t => VT.isInt t
  | .vishl _ _ _ _ t => VT.isInt t
  | .vishr _ _ _ _ t => VT.isInt t
  | .vishra _ _ _ _ t => VT.isInt t
  | .viadds _ _ _ _ t => VT.isInt t
  | .vand _ _ _ _ t => VT.isType t
  | .vor _ _ _ _ t => VT.isType t
  | .vxor _ _ _ _ t => VT.isType t
  | .vnot _ _ _ t => VT.isType t
  | .vperm _ _ _ _ t => t.toNat = 5 ∨ t.toNat = 6 ∨ t.toNat = 7 ∨ t.toNat = 9
  | .vslide _ _ _ _ t => VT.isType t
  | .vbcast _ _ _ _ t => VT.isType t
  | .vsel _ _ _ _ t => VT.isType t
  | .vcmpEq _ _ _ _ t => VT.isType t
  | .vcmpNe _ _ _ _ t => VT.isType t
  | .vcmpLt _ _ _ _ t => VT.isType t
  | .vcmpLe _ _ _ _ t => VT.isType t
  | .vcmpLtu _ _ _ _ t => VT.isInt t
  | .vcmpLeu _ _ _ _ t => VT.isInt t
  | .vcmpUn _ _ _ _ t => t.toNat ≤ 4
  | .vcvt _ _ s _ t => VT.isType t && VT.isType s && t != s && VT.width t == VT.width s
  | .vwiden d _ s _ t => VT.isType t && VT.isType s && (VT.width t == 2 * VT.width s && d.toNat % 2 == 0 || VT.width t == 4 * VT.width s && d.toNat % 4 == 0)
  | .vnarrow _ a s _ t => VT.isType t && VT.isType s && (VT.width s == 2 * VT.width t && a.toNat % 2 == 0 || VT.width s == 4 * VT.width t && a.toNat % 4 == 0)
  | .vld _ _ _ _ w => w.toNat ≤ 3
  | .vst _ _ _ _ w => w.toNat ≤ 3
  | .vlds _ _ _ _ w => w.toNat ≤ 3
  | .vsts _ _ _ _ w => w.toNat ≤ 3
  | .vldx _ _ _ _ t => t.toNat ≤ 2
  | .vrsum _ _ _ t => VT.isFloat t || VT.isInt t
  | .vrmax _ _ _ t => VT.isFloat t || VT.isInt t
  | .vrmin _ _ _ t => VT.isFloat t || VT.isInt t
  | .vscan _ _ _ t => VT.isFloat t || VT.isInt t
  | .kpopc _ _ t => VT.isType t
  | .kfirst _ _ t => VT.isType t
  | .kfrom _ _ t => VT.isType t
  | .vget _ _ _ t => VT.isType t
  | .vput _ _ _ t => VT.isType t
  | .vmov _ _ _ t => VT.isType t
  | .vmovS _ _ _ t => VT.isType t
  | .binit _ n _ => n.toNat ≤ 47
  | .barr _ n => n.toNat ≤ 47
  | .bwait _ n => n.toNat ≤ 47
  | .barrw _ n => n.toNat ≤ 47
  | .bwdr _ n b => n.toNat ≤ 47 ∧ (n.toNat = 47 → b = 0)
  | .mlock _ n => n.toNat ≤ 15
  | .munlock n => n.toNat ≤ 15
  | .cpset _ r _ => r.toNat ≤ 18
  | .cpget _ r _ => r.toNat ≤ 18
  | .mma _ _ b _ => b.toNat ≤ 62
  | .mmac _ _ b => b.toNat ≤ 62
  | .mtbl _ q => 1 ≤ q.toNat ∧ q.toNat ≤ 3
  | .ldred d _ o s t => t.toNat ≤ 2 ∧ o.toNat ≤ 1 ∧ (o = 0 → s = 0) ∧ s.toNat ≤ 4 ∧ (t.toNat = 1 → d.toNat % 2 = 0)
  | .stmc _ _ o s => (o.toNat = 0 ∨ o.toNat = 2) ∧ (o = 0 → s = 0) ∧ s.toNat ≤ 4
  | _ => true

end Instr

end Sys2Proof
end

