-- ==== Sys2Proof/Decode.lean ====
section
/-!
DEFINITION. The decoder and the encoder, from the formats of spec 07 (Tables 07-7 to 07-17) and the encoding tables of the instruction
chapters. A word is parsed by its major opcode and its func or minor code; the fields a row's table marks zero are its
reserved fields, whose fate the mode decides (R147 Table 07-18).
-/

namespace Sys2Proof

/-- Why a word is no instruction (Table 07-18); each gives TCAUSE 1 in both modes. -/
inductive DecodeError where
  /-- Major 0x00, a reserved major, or a func or minor code not assigned in its major. -/
  | unassigned
  /-- A reserved type, scope or order code, a misaligned pair, or a number outside its range. -/
  | badField
  /-- Fewer than four bytes. -/
  | tooShort
  deriving DecidableEq, Repr

/-- A word read by its row: the instruction and the row's reserved fields as (lowest bit, length). -/
structure Parsed where
  instr    : Instr
  reserved : List (Nat × Nat)
  deriving DecidableEq, Repr

/-- A decoded word: the instruction, and whether a reserved field of its word is non-zero (R144). -/
structure Decoded where
  instr   : Instr
  nonzero : Bool
  deriving DecidableEq, Repr

namespace Decode

/-- Field [lo+n-1:lo] of a word. -/
def fld (w lo n : Nat) : BitVec n := BitVec.ofNat n (w / 2 ^ lo)

/-- Major 0x01, ALU register (Table 08-2). -/
def decode01 (w : Nat) : Option Parsed :=
  match w % 256 with
  | 0 => some ⟨.add (fld w 20 6) (fld w 14 6) (fld w 8 6), []⟩
  | 1 => some ⟨.sub (fld w 20 6) (fld w 14 6) (fld w 8 6), []⟩
  | 2 => some ⟨.andR (fld w 20 6) (fld w 14 6) (fld w 8 6), []⟩
  | 3 => some ⟨.orR (fld w 20 6) (fld w 14 6) (fld w 8 6), []⟩
  | 4 => some ⟨.xorR (fld w 20 6) (fld w 14 6) (fld w 8 6), []⟩
  | 5 => some ⟨.andn (fld w 20 6) (fld w 14 6) (fld w 8 6), []⟩
  | 8 => some ⟨.shl (fld w 20 6) (fld w 14 6) (fld w 8 6), []⟩
  | 9 => some ⟨.shr (fld w 20 6) (fld w 14 6) (fld w 8 6), []⟩
  | 10 => some ⟨.shra (fld w 20 6) (fld w 14 6) (fld w 8 6), []⟩
  | 11 => some ⟨.ror (fld w 20 6) (fld w 14 6) (fld w 8 6), []⟩
  | 16 => some ⟨.minS (fld w 20 6) (fld w 14 6) (fld w 8 6), []⟩
  | 17 => some ⟨.maxS (fld w 20 6) (fld w 14 6) (fld w 8 6), []⟩
  | 18 => some ⟨.minu (fld w 20 6) (fld w 14 6) (fld w 8 6), []⟩
  | 19 => some ⟨.maxu (fld w 20 6) (fld w 14 6) (fld w 8 6), []⟩
  | 24 => some ⟨.slt (fld w 20 6) (fld w 14 6) (fld w 8 6), []⟩
  | 25 => some ⟨.sltu (fld w 20 6) (fld w 14 6) (fld w 8 6), []⟩
  | 26 => some ⟨.seq (fld w 20 6) (fld w 14 6) (fld w 8 6), []⟩
  | _ => none

/-- Major 0x02, ALU immediate (Table 08-3). -/
def decode02 (w : Nat) : Option Parsed :=
  if w / 2 ^ 13 % 2 = 0 then some ⟨.addi (fld w 20 6) (fld w 14 6) (fld w 0 13), []⟩
  else match w / 2 ^ 11 % 4 with
  | 0 => some ⟨.andi (fld w 20 6) (fld w 14 6) (fld w 0 11), []⟩
  | 1 => some ⟨.ori (fld w 20 6) (fld w 14 6) (fld w 0 11), []⟩
  | 2 => some ⟨.xori (fld w 20 6) (fld w 14 6) (fld w 0 11), []⟩
  | _ =>
    if w / 2 ^ 10 % 2 = 0 then
      if w / 2 ^ 9 % 2 = 0 then some ⟨.slti (fld w 20 6) (fld w 14 6) (fld w 0 9), []⟩
      else some ⟨.sltui (fld w 20 6) (fld w 14 6) (fld w 0 9), []⟩
    else match w / 2 ^ 8 % 4 with
    | 0 => some ⟨.shli (fld w 20 6) (fld w 14 6) (fld w 0 6), [(6, 2)]⟩
    | 1 => some ⟨.shri (fld w 20 6) (fld w 14 6) (fld w 0 6), [(6, 2)]⟩
    | 2 => some ⟨.shrai (fld w 20 6) (fld w 14 6) (fld w 0 6), [(6, 2)]⟩
    | _ => some ⟨.rori (fld w 20 6) (fld w 14 6) (fld w 0 6), [(6, 2)]⟩

/-- Major 0x03, upper immediate (Table 08-1). -/
def decode03 (w : Nat) : Option Parsed :=
  if w / 2 ^ 19 % 2 = 0 then some ⟨.lui (fld w 20 6) (fld w 0 19), []⟩ else some ⟨.addpc (fld w 20 6) (fld w 0 19), []⟩

/-- Major 0x04, multiply and divide (Table 08-4). -/
def decode04 (w : Nat) : Option Parsed :=
  match w % 256 with
  | 0 => some ⟨.mul (fld w 20 6) (fld w 14 6) (fld w 8 6), []⟩
  | 1 => some ⟨.mulh (fld w 20 6) (fld w 14 6) (fld w 8 6), []⟩
  | 2 => some ⟨.mulhu (fld w 20 6) (fld w 14 6) (fld w 8 6), []⟩
  | 4 => some ⟨.div (fld w 20 6) (fld w 14 6) (fld w 8 6), []⟩
  | 5 => some ⟨.divu (fld w 20 6) (fld w 14 6) (fld w 8 6), []⟩
  | 6 => some ⟨.rem (fld w 20 6) (fld w 14 6) (fld w 8 6), []⟩
  | 7 => some ⟨.remu (fld w 20 6) (fld w 14 6) (fld w 8 6), []⟩
  | 8 => some ⟨.madd (fld w 20 6) (fld w 14 6) (fld w 8 6), []⟩
  | _ => none

/-- Major 0x05, bits and select (Table 08-5). -/
def decode05 (w : Nat) : Option Parsed :=
  match w / 2 ^ 6 % 4 with
  | 0 =>
    match w % 64 with
    | 0 => some ⟨.sel (fld w 20 6) (fld w 14 6) (fld w 8 6), []⟩
    | 1 => some ⟨.clz (fld w 20 6) (fld w 14 6), [(8, 6)]⟩
    | 2 => some ⟨.ctz (fld w 20 6) (fld w 14 6), [(8, 6)]⟩
    | 3 => some ⟨.popc (fld w 20 6) (fld w 14 6), [(8, 6)]⟩
    | 4 => some ⟨.brev (fld w 20 6) (fld w 14 6), [(8, 6)]⟩
    | 5 => some ⟨.sextb (fld w 20 6) (fld w 14 6), [(8, 6)]⟩
    | 6 => some ⟨.sexth (fld w 20 6) (fld w 14 6), [(8, 6)]⟩
    | 7 => some ⟨.sextw (fld w 20 6) (fld w 14 6), [(8, 6)]⟩
    | _ => none
  | 1 => some ⟨.bfx (fld w 20 6) (fld w 14 6) (fld w 8 6) (fld w 0 6), []⟩
  | 2 => some ⟨.bfxu (fld w 20 6) (fld w 14 6) (fld w 8 6) (fld w 0 6), []⟩
  | _ => some ⟨.bfi (fld w 20 6) (fld w 14 6) (fld w 8 6) (fld w 0 6), []⟩

/-- Major 0x08, branch (Table 08-1). -/
def decode08 (w : Nat) : Option Parsed :=
  match w / 2 ^ 11 % 8 with
  | 0 => some ⟨.brEq (fld w 20 6) (fld w 14 6) (fld w 0 11), []⟩
  | 1 => some ⟨.brNe (fld w 20 6) (fld w 14 6) (fld w 0 11), []⟩
  | 2 => some ⟨.brLt (fld w 20 6) (fld w 14 6) (fld w 0 11), []⟩
  | 3 => some ⟨.brGe (fld w 20 6) (fld w 14 6) (fld w 0 11), []⟩
  | 4 => some ⟨.brLtu (fld w 20 6) (fld w 14 6) (fld w 0 11), []⟩
  | 5 => some ⟨.brGeu (fld w 20 6) (fld w 14 6) (fld w 0 11), []⟩
  | _ => none

/-- Major 0x09, JMP, CALL (Table 08-1). -/
def decode09 (w : Nat) : Option Parsed :=
  if w / 2 ^ 25 % 2 = 0 then some ⟨.jmp (fld w 0 25), []⟩ else some ⟨.call (fld w 0 25), []⟩

/-- Major 0x0A, JR, CALLR (Table 08-1). -/
def decode0A (w : Nat) : Option Parsed :=
  match w % 256 with
  | 0 => some ⟨.jr (fld w 14 6), [(8, 6), (20, 6)]⟩
  | 1 => some ⟨.callr (fld w 14 6), [(8, 6), (20, 6)]⟩
  | _ => none

/-- Major 0x0B, WLOOP (Table 08-1). -/
def decode0B (w : Nat) : Option Parsed :=
  match w / 2 ^ 11 % 8 with
  | 0 => some ⟨.wloop (fld w 20 3) (fld w 14 2) (fld w 0 11), [(16, 4), (23, 3)]⟩
  | _ => none

/-- Major 0x0C, loads (Table 08-7). -/
def decode0C (w : Nat) : Option Parsed :=
  match w / 2 ^ 11 % 8 with
  | 0 => some ⟨.ldb (fld w 20 6) (fld w 14 6) (fld w 0 11), []⟩
  | 1 => some ⟨.ldbu (fld w 20 6) (fld w 14 6) (fld w 0 11), []⟩
  | 2 => some ⟨.ldh (fld w 20 6) (fld w 14 6) (fld w 0 11), []⟩
  | 3 => some ⟨.ldhu (fld w 20 6) (fld w 14 6) (fld w 0 11), []⟩
  | 4 => some ⟨.ldw (fld w 20 6) (fld w 14 6) (fld w 0 11), []⟩
  | 5 => some ⟨.ldwu (fld w 20 6) (fld w 14 6) (fld w 0 11), []⟩
  | 6 => some ⟨.ldd (fld w 20 6) (fld w 14 6) (fld w 0 11), []⟩
  | _ => some ⟨.ldp (fld w 20 6) (fld w 14 6) (fld w 8 3) (fld w 6 2) (fld w 5 1) (fld w 0 5), []⟩

/-- Major 0x0D, stores (Table 08-1). -/
def decode0D (w : Nat) : Option Parsed :=
  match w / 2 ^ 12 % 4 with
  | 0 => some ⟨.stb (fld w 20 6) (fld w 14 6) (fld w 0 12), []⟩
  | 1 => some ⟨.sth (fld w 20 6) (fld w 14 6) (fld w 0 12), []⟩
  | 2 => some ⟨.stw (fld w 20 6) (fld w 14 6) (fld w 0 12), []⟩
  | _ => some ⟨.std (fld w 20 6) (fld w 14 6) (fld w 0 12), []⟩

/-- Major 0x0E, atomics (Table 08-8). -/
def decode0E (w : Nat) : Option Parsed :=
  match w / 2 ^ 13 % 2 * 8 + w / 2 ^ 5 % 8 with
  | 0 => some ⟨.aadd (fld w 20 6) (fld w 14 6) (fld w 8 5) (fld w 3 2) (fld w 0 3), []⟩
  | 1 => some ⟨.aand (fld w 20 6) (fld w 14 6) (fld w 8 5) (fld w 3 2) (fld w 0 3), []⟩
  | 2 => some ⟨.aor (fld w 20 6) (fld w 14 6) (fld w 8 5) (fld w 3 2) (fld w 0 3), []⟩
  | 3 => some ⟨.axor (fld w 20 6) (fld w 14 6) (fld w 8 5) (fld w 3 2) (fld w 0 3), []⟩
  | 4 => some ⟨.amin (fld w 20 6) (fld w 14 6) (fld w 8 5) (fld w 3 2) (fld w 0 3), []⟩
  | 5 => some ⟨.amax (fld w 20 6) (fld w 14 6) (fld w 8 5) (fld w 3 2) (fld w 0 3), []⟩
  | 6 => some ⟨.aminu (fld w 20 6) (fld w 14 6) (fld w 8 5) (fld w 3 2) (fld w 0 3), []⟩
  | 7 => some ⟨.amaxu (fld w 20 6) (fld w 14 6) (fld w 8 5) (fld w 3 2) (fld w 0 3), []⟩
  | 8 => some ⟨.aswp (fld w 20 6) (fld w 14 6) (fld w 8 5) (fld w 3 2) (fld w 0 3), []⟩
  | 9 => some ⟨.acas (fld w 20 6) (fld w 14 6) (fld w 8 5) (fld w 3 2) (fld w 0 3), []⟩
  | 10 => some ⟨.afadd (fld w 20 6) (fld w 14 6) (fld w 8 5) (fld w 3 2) (fld w 0 3), []⟩
  | _ => none

/-- Major 0x0F, fences (Table 08-9). -/
def decode0F (w : Nat) : Option Parsed :=
  if w / 2 ^ 7 % 2 = 0 then some ⟨.fence (fld w 5 2) (fld w 3 2) (fld w 0 3), [(8, 18)]⟩
  else match w / 2 ^ 5 % 4 with
  | 0 => some ⟨.ifence, [(0, 5), (8, 18)]⟩
  | 1 => some ⟨.ldAcq (fld w 20 6) (fld w 14 6) (fld w 8 1) (fld w 3 2) (fld w 0 3), [(9, 5)]⟩
  | 2 => some ⟨.stRel (fld w 20 6) (fld w 14 6) (fld w 3 2) (fld w 0 3), [(8, 6)]⟩
  | _ => none

/-- Major 0x10, walkers (Table 08-1). -/
def decode10 (w : Nat) : Option Parsed :=
  match w % 256 with
  | 0 => some ⟨.wbind (fld w 20 3) (fld w 14 6) (fld w 8 6), [(23, 3)]⟩
  | 1 => some ⟨.wunbind (fld w 20 3), [(8, 12), (23, 3)]⟩
  | 2 => some ⟨.wstat (fld w 20 6) (fld w 14 3) (fld w 8 6), [(17, 3)]⟩
  | _ => none

/-- Major 0x14, hitch (Table 10-1). -/
def decode14 (w : Nat) : Option Parsed :=
  match w % 32 with
  | 0 => some ⟨.hitch (fld w 20 6) (fld w 14 5), [(5, 9), (19, 1)]⟩
  | 1 => some ⟨.hand (fld w 20 6) (fld w 14 5) (fld w 8 6), [(5, 3), (19, 1)]⟩
  | 2 => some ⟨.take (fld w 20 6) (fld w 14 5), [(5, 9), (19, 1)]⟩
  | 3 => some ⟨.takeT (fld w 20 6) (fld w 14 5), [(5, 9), (19, 1)]⟩
  | 4 => some ⟨.drop (fld w 20 6) (fld w 14 5), [(5, 9), (19, 1)]⟩
  | 5 => some ⟨.hstat (fld w 20 6) (fld w 14 5), [(5, 9), (19, 1)]⟩
  | 6 => some ⟨.lvset (fld w 14 5) (fld w 8 6), [(5, 3), (19, 7)]⟩
  | 7 => some ⟨.lvget (fld w 20 6) (fld w 14 5), [(5, 9), (19, 1)]⟩
  | 8 => some ⟨.wtag (fld w 14 5) (fld w 8 6), [(5, 3), (19, 7)]⟩
  | 9 => some ⟨.wtagE (fld w 14 5) (fld w 8 6), [(5, 3), (19, 7)]⟩
  | 10 => some ⟨.hitchImp (fld w 20 6) (fld w 14 5) (fld w 8 6), [(5, 3), (19, 1)]⟩
  | _ => none

/-- Major 0x15, barriers (Table 10-3). -/
def decode15 (w : Nat) : Option Parsed :=
  match w % 32 with
  | 0 => some ⟨.binit (fld w 20 6) (fld w 14 6) (fld w 8 6), [(5, 3)]⟩
  | 1 => some ⟨.barr (fld w 20 6) (fld w 14 6), [(5, 9)]⟩
  | 2 => some ⟨.bwait (fld w 20 6) (fld w 14 6), [(5, 9)]⟩
  | 3 => some ⟨.barrw (fld w 20 6) (fld w 14 6), [(5, 9)]⟩
  | 4 => some ⟨.bwdr (fld w 20 6) (fld w 14 6) (fld w 8 6), [(5, 3)]⟩
  | 5 => some ⟨.evwait (fld w 20 6) (fld w 14 6), [(5, 9)]⟩
  | 6 => some ⟨.evsig (fld w 20 6) (fld w 14 6), [(5, 9)]⟩
  | 7 => some ⟨.mlock (fld w 20 6) (fld w 14 6), [(5, 9)]⟩
  | 8 => some ⟨.munlock (fld w 14 6), [(5, 9), (20, 6)]⟩
  | _ => none

/-- Major 0x16, triggers (Table 10-7). -/
def decode16 (w : Nat) : Option Parsed :=
  match w % 32 with
  | 0 => some ⟨.trig, [(5, 21)]⟩
  | 1 => some ⟨.haltpt (fld w 14 6), [(5, 9), (20, 6)]⟩
  | 2 => some ⟨.vccwait (fld w 14 6), [(5, 9), (20, 6)]⟩
  | 3 => some ⟨.submit (fld w 20 6) (fld w 14 6) (fld w 8 5), [(5, 3), (13, 1)]⟩
  | _ => none

/-- Major 0x18, vector floating point (Table 09-2). -/
def decode18 (w : Nat) : Option Parsed :=
  match w % 16 with
  | 0 => some ⟨.vadd (fld w 21 5) (fld w 16 5) (fld w 11 5) (fld w 8 3) (fld w 4 4), []⟩
  | 1 => some ⟨.vsub (fld w 21 5) (fld w 16 5) (fld w 11 5) (fld w 8 3) (fld w 4 4), []⟩
  | 2 => some ⟨.vmul (fld w 21 5) (fld w 16 5) (fld w 11 5) (fld w 8 3) (fld w 4 4), []⟩
  | 3 => some ⟨.vfma (fld w 21 5) (fld w 16 5) (fld w 11 5) (fld w 8 3) (fld w 4 4), []⟩
  | 4 => some ⟨.vfms (fld w 21 5) (fld w 16 5) (fld w 11 5) (fld w 8 3) (fld w 4 4), []⟩
  | 5 => some ⟨.vfnma (fld w 21 5) (fld w 16 5) (fld w 11 5) (fld w 8 3) (fld w 4 4), []⟩
  | 6 => some ⟨.vdiv (fld w 21 5) (fld w 16 5) (fld w 11 5) (fld w 8 3) (fld w 4 4), []⟩
  | 7 => some ⟨.vsqrt (fld w 21 5) (fld w 16 5) (fld w 8 3) (fld w 4 4), [(11, 5)]⟩
  | 8 => some ⟨.vrcp (fld w 21 5) (fld w 16 5) (fld w 8 3) (fld w 4 4), [(11, 5)]⟩
  | 9 => some ⟨.vmin (fld w 21 5) (fld w 16 5) (fld w 11 5) (fld w 8 3) (fld w 4 4), []⟩
  | 10 => some ⟨.vmax (fld w 21 5) (fld w 16 5) (fld w 11 5) (fld w 8 3) (fld w 4 4), []⟩
  | 11 => some ⟨.vabs (fld w 21 5) (fld w 16 5) (fld w 8 3) (fld w 4 4), [(11, 5)]⟩
  | 12 => some ⟨.vneg (fld w 21 5) (fld w 16 5) (fld w 8 3) (fld w 4 4), [(11, 5)]⟩
  | 13 => some ⟨.vexp2 (fld w 21 5) (fld w 16 5) (fld w 8 3) (fld w 4 4), [(11, 5)]⟩
  | 14 => some ⟨.vlog2 (fld w 21 5) (fld w 16 5) (fld w 8 3) (fld w 4 4), [(11, 5)]⟩
  | _ => none

/-- Major 0x19, vector integer (Table 09-4). -/
def decode19 (w : Nat) : Option Parsed :=
  match w % 16 with
  | 0 => some ⟨.viadd (fld w 21 5) (fld w 16 5) (fld w 11 5) (fld w 8 3) (fld w 4 4), []⟩
  | 1 => some ⟨.visub (fld w 21 5) (fld w 16 5) (fld w 11 5) (fld w 8 3) (fld w 4 4), []⟩
  | 2 => some ⟨.vimul (fld w 21 5) (fld w 16 5) (fld w 11 5) (fld w 8 3) (fld w 4 4), []⟩
  | 3 => some ⟨.vimad (fld w 21 5) (fld w 16 5) (fld w 11 5) (fld w 8 3) (fld w 4 4), []⟩
  | 4 => some ⟨.vimin (fld w 21 5) (fld w 16 5) (fld w 11 5) (fld w 8 3) (fld w 4 4), []⟩
  | 5 => some ⟨.vimax (fld w 21 5) (fld w 16 5) (fld w 11 5) (fld w 8 3) (fld w 4 4), []⟩
  | 6 => some ⟨.viminu (fld w 21 5) (fld w 16 5) (fld w 11 5) (fld w 8 3) (fld w 4 4), []⟩
  | 7 => some ⟨.vimaxu (fld w 21 5) (fld w 16 5) (fld w 11 5) (fld w 8 3) (fld w 4 4), []⟩
  | 8 => some ⟨.vishl (fld w 21 5) (fld w 16 5) (fld w 11 5) (fld w 8 3) (fld w 4 4), []⟩
  | 9 => some ⟨.vishr (fld w 21 5) (fld w 16 5) (fld w 11 5) (fld w 8 3) (fld w 4 4), []⟩
  | 10 => some ⟨.vishra (fld w 21 5) (fld w 16 5) (fld w 11 5) (fld w 8 3) (fld w 4 4), []⟩
  | 11 => some ⟨.viadds (fld w 21 5) (fld w 16 5) (fld w 11 5) (fld w 8 3) (fld w 4 4), []⟩
  | _ => none

/-- Major 0x1A, vector logic and compare (Table 09-1 and 09-5). -/
def decode1A (w : Nat) : Option Parsed :=
  match w % 16 with
  | 0 => some ⟨.vand (fld w 21 5) (fld w 16 5) (fld w 11 5) (fld w 8 3) (fld w 4 4), []⟩
  | 1 => some ⟨.vor (fld w 21 5) (fld w 16 5) (fld w 11 5) (fld w 8 3) (fld w 4 4), []⟩
  | 2 => some ⟨.vxor (fld w 21 5) (fld w 16 5) (fld w 11 5) (fld w 8 3) (fld w 4 4), []⟩
  | 3 => some ⟨.vnot (fld w 21 5) (fld w 16 5) (fld w 8 3) (fld w 4 4), [(11, 5)]⟩
  | 4 => some ⟨.vperm (fld w 21 5) (fld w 16 5) (fld w 11 5) (fld w 8 3) (fld w 4 4), []⟩
  | 5 => some ⟨.vslide (fld w 21 5) (fld w 16 5) (fld w 11 5) (fld w 8 3) (fld w 4 4), []⟩
  | 6 => some ⟨.vbcast (fld w 21 5) (fld w 16 5) (fld w 11 5) (fld w 8 3) (fld w 4 4), []⟩
  | 7 => some ⟨.vsel (fld w 21 5) (fld w 16 5) (fld w 11 5) (fld w 8 3) (fld w 4 4), []⟩
  | 8 => some ⟨.vcmpEq (fld w 21 3) (fld w 16 5) (fld w 11 5) (fld w 8 3) (fld w 4 4), [(24, 2)]⟩
  | 9 => some ⟨.vcmpNe (fld w 21 3) (fld w 16 5) (fld w 11 5) (fld w 8 3) (fld w 4 4), [(24, 2)]⟩
  | 10 => some ⟨.vcmpLt (fld w 21 3) (fld w 16 5) (fld w 11 5) (fld w 8 3) (fld w 4 4), [(24, 2)]⟩
  | 11 => some ⟨.vcmpLe (fld w 21 3) (fld w 16 5) (fld w 11 5) (fld w 8 3) (fld w 4 4), [(24, 2)]⟩
  | 12 => some ⟨.vcmpLtu (fld w 21 3) (fld w 16 5) (fld w 11 5) (fld w 8 3) (fld w 4 4), [(24, 2)]⟩
  | 13 => some ⟨.vcmpLeu (fld w 21 3) (fld w 16 5) (fld w 11 5) (fld w 8 3) (fld w 4 4), [(24, 2)]⟩
  | 14 => some ⟨.vcmpUn (fld w 21 3) (fld w 16 5) (fld w 11 5) (fld w 8 3) (fld w 4 4), [(24, 2)]⟩
  | _ => none

/-- Major 0x1B, conversion (Table 09-1). -/
def decode1B (w : Nat) : Option Parsed :=
  match w % 16 with
  | 0 => some ⟨.vcvt (fld w 21 5) (fld w 16 5) (fld w 11 4) (fld w 8 3) (fld w 4 4), [(15, 1)]⟩
  | 1 => some ⟨.vwiden (fld w 21 5) (fld w 16 5) (fld w 11 4) (fld w 8 3) (fld w 4 4), [(15, 1)]⟩
  | 2 => some ⟨.vnarrow (fld w 21 5) (fld w 16 5) (fld w 11 4) (fld w 8 3) (fld w 4 4), [(15, 1)]⟩
  | _ => none

/-- Major 0x1C, vector memory (Table 09-6). -/
def decode1C (w : Nat) : Option Parsed :=
  match w / 2 ^ 3 % 8 with
  | 0 => some ⟨.vld (fld w 21 5) (fld w 15 6) (fld w 9 6) (fld w 6 3) (fld w 0 3), []⟩
  | 1 => some ⟨.vst (fld w 21 5) (fld w 15 6) (fld w 9 6) (fld w 6 3) (fld w 0 3), []⟩
  | 2 => some ⟨.vlds (fld w 21 5) (fld w 15 6) (fld w 9 6) (fld w 6 3) (fld w 0 3), []⟩
  | 3 => some ⟨.vsts (fld w 21 5) (fld w 15 6) (fld w 9 6) (fld w 6 3) (fld w 0 3), []⟩
  | 4 => if w / 2 % 4 = 1 then some ⟨.vldg (fld w 21 5) (fld w 15 6) (fld w 9 5) (fld w 6 3) (fld w 0 1), [(14, 1)]⟩ else none
  | 5 => if w / 2 % 4 = 1 then some ⟨.vstg (fld w 21 5) (fld w 15 6) (fld w 9 5) (fld w 6 3) (fld w 0 1), [(14, 1)]⟩ else none
  | 6 => some ⟨.vldx (fld w 21 5) (fld w 15 6) (fld w 9 6) (fld w 6 3) (fld w 0 3), []⟩
  | _ => none

/-- Major 0x1D, reductions (Table 09-7). -/
def decode1D (w : Nat) : Option Parsed :=
  match w % 16 with
  | 0 => some ⟨.vrsum (fld w 21 5) (fld w 16 5) (fld w 8 3) (fld w 4 4), [(11, 5)]⟩
  | 1 => some ⟨.vrmax (fld w 21 5) (fld w 16 5) (fld w 8 3) (fld w 4 4), [(11, 5)]⟩
  | 2 => some ⟨.vrmin (fld w 21 5) (fld w 16 5) (fld w 8 3) (fld w 4 4), [(11, 5)]⟩
  | 3 => some ⟨.vscan (fld w 21 5) (fld w 16 5) (fld w 8 3) (fld w 4 4), [(11, 5)]⟩
  | _ => none

/-- Major 0x1E, masks (Table 09-8). -/
def decode1E (w : Nat) : Option Parsed :=
  match w % 16 with
  | 0 => some ⟨.kand (fld w 21 3) (fld w 16 3) (fld w 11 3), [(4, 7), (14, 2), (19, 2), (24, 2)]⟩
  | 1 => some ⟨.kor (fld w 21 3) (fld w 16 3) (fld w 11 3), [(4, 7), (14, 2), (19, 2), (24, 2)]⟩
  | 2 => some ⟨.kxor (fld w 21 3) (fld w 16 3) (fld w 11 3), [(4, 7), (14, 2), (19, 2), (24, 2)]⟩
  | 3 => some ⟨.knot (fld w 21 3) (fld w 16 3), [(4, 12), (19, 2), (24, 2)]⟩
  | 4 => some ⟨.kpopc (fld w 21 5) (fld w 16 3) (fld w 4 4), [(8, 8), (19, 2)]⟩
  | 5 => some ⟨.kfirst (fld w 21 5) (fld w 16 3) (fld w 4 4), [(8, 8), (19, 2)]⟩
  | 6 => some ⟨.kfrom (fld w 21 3) (fld w 16 5) (fld w 4 4), [(8, 8), (24, 2)]⟩
  | _ => none

/-- Major 0x1F, vector-scalar moves (Table 09-9). -/
def decode1F (w : Nat) : Option Parsed :=
  match w % 16 with
  | 0 => some ⟨.vget (fld w 21 5) (fld w 16 5) (fld w 10 6) (fld w 4 4), [(8, 2)]⟩
  | 1 => some ⟨.vput (fld w 21 5) (fld w 16 5) (fld w 10 6) (fld w 4 4), [(8, 2)]⟩
  | 2 => some ⟨.vmov (fld w 21 5) (fld w 16 5) (fld w 8 2) (fld w 4 4), [(10, 6)]⟩
  | 3 => some ⟨.vmovS (fld w 21 5) (fld w 10 6) (fld w 8 2) (fld w 4 4), [(16, 5)]⟩
  | _ => none

/-- Major 0x20, copy engine (Table 11-1). -/
def decode20 (w : Nat) : Option Parsed :=
  match w % 32 with
  | 0 => some ⟨.cpset (fld w 14 6) (fld w 8 6) (fld w 5 2), [(7, 1), (20, 6)]⟩
  | 1 => some ⟨.cpget (fld w 20 6) (fld w 8 6) (fld w 5 2), [(7, 1), (14, 6)]⟩
  | 2 => some ⟨.cpgo (fld w 20 6) (fld w 5 2), [(7, 13)]⟩
  | 3 => some ⟨.cpwm (fld w 20 6) (fld w 5 2), [(7, 13)]⟩
  | 4 => some ⟨.cpabort (fld w 20 6) (fld w 14 6), [(5, 9)]⟩
  | _ => none

/-- Major 0x24, dray (Table 11-6). -/
def decode24 (w : Nat) : Option Parsed :=
  match w % 32 with
  | 0 => some ⟨.dlease (fld w 5 1), [(6, 20)]⟩
  | 1 => some ⟨.dfree (fld w 5 1), [(6, 20)]⟩
  | 2 => some ⟨.dcommit (fld w 20 6) (fld w 5 1), [(6, 14)]⟩
  | 3 => some ⟨.dwait (fld w 20 6) (fld w 14 6) (fld w 5 1), [(6, 8)]⟩
  | 4 => some ⟨.mma (fld w 20 6) (fld w 14 6) (fld w 8 6) (fld w 5 1), [(6, 2)]⟩
  | 5 => some ⟨.mmac (fld w 20 6) (fld w 14 6) (fld w 8 6), [(5, 3)]⟩
  | 6 => some ⟨.accrd (fld w 20 6) (fld w 14 6) (fld w 5 1), [(6, 8)]⟩
  | 7 => some ⟨.accrdV (fld w 20 5) (fld w 14 6) (fld w 5 1), [(6, 8), (25, 1)]⟩
  | 8 => some ⟨.accwr (fld w 14 6) (fld w 8 5) (fld w 5 1), [(6, 2), (13, 1), (20, 6)]⟩
  | 9 => some ⟨.acczero (fld w 20 6) (fld w 14 6) (fld w 5 1), [(6, 8)]⟩
  | 10 => some ⟨.accst (fld w 20 6) (fld w 14 6) (fld w 8 6) (fld w 5 1), [(6, 2)]⟩
  | 11 => some ⟨.accwrCb (fld w 20 6) (fld w 14 6) (fld w 5 1), [(6, 8)]⟩
  | _ => none

/-- Major 0x28, stagecoach (Table 12-1). -/
def decode28 (w : Nat) : Option Parsed :=
  match w % 32 with
  | 0 => some ⟨.sccfg (fld w 20 6) (fld w 14 6), [(5, 9)]⟩
  | 1 => some ⟨.sctopk (fld w 20 6), [(5, 15)]⟩
  | 2 => some ⟨.sccolk (fld w 20 6), [(5, 15)]⟩
  | 3 => some ⟨.scroute (fld w 20 6) (fld w 14 6), [(5, 9)]⟩
  | 4 => some ⟨.scrouteCnt (fld w 20 6), [(5, 15)]⟩
  | 5 => some ⟨.scsend (fld w 20 6), [(5, 15)]⟩
  | 6 => some ⟨.scgather (fld w 20 6) (fld w 14 6), [(5, 9)]⟩
  | 7 => some ⟨.scmread (fld w 20 6) (fld w 14 6), [(5, 9)]⟩
  | 8 => some ⟨.scclaim (fld w 20 6) (fld w 14 6) (fld w 8 6), [(5, 3)]⟩
  | 9 => some ⟨.scstat (fld w 20 6) (fld w 14 6), [(5, 9)]⟩
  | _ => none

/-- Major 0x2C, mean engine (Table 13-6). -/
def decode2C (w : Nat) : Option Parsed :=
  match w % 32 with
  | 0 => some ⟨.mset (fld w 14 6) (fld w 5 3), [(8, 6), (20, 6)]⟩
  | 1 => some ⟨.mtbl (fld w 14 6) (fld w 5 3), [(8, 6), (20, 6)]⟩
  | 2 => some ⟨.macc (fld w 14 5) (fld w 8 3) (fld w 5 3), [(11, 3), (19, 7)]⟩
  | 3 => some ⟨.maccqV (fld w 20 6) (fld w 5 3), [(8, 12)]⟩
  | 4 => some ⟨.maccqS (fld w 20 6) (fld w 5 3), [(8, 12)]⟩
  | 5 => some ⟨.mmerge (fld w 14 3) (fld w 5 3), [(8, 6), (17, 9)]⟩
  | 6 => some ⟨.mfold (fld w 5 3), [(8, 18)]⟩
  | 7 => some ⟨.mfin (fld w 20 5) (fld w 8 3) (fld w 5 3), [(11, 9), (25, 1)]⟩
  | 8 => some ⟨.msave (fld w 14 6) (fld w 8 3) (fld w 5 3), [(11, 3), (20, 6)]⟩
  | 9 => some ⟨.mload (fld w 14 6) (fld w 8 3) (fld w 5 3), [(11, 3), (20, 6)]⟩
  | _ => none

/-- Major 0x2E, exchange (Table 14-1). -/
def decode2E (w : Nat) : Option Parsed :=
  match w % 32 with
  | 0 => some ⟨.xsend (fld w 20 5) (fld w 14 6) (fld w 8 4), [(5, 3), (12, 2), (25, 1)]⟩
  | 1 => some ⟨.xrecv (fld w 20 5) (fld w 14 6) (fld w 8 4), [(5, 3), (12, 2), (25, 1)]⟩
  | 2 => some ⟨.qput (fld w 20 6) (fld w 14 5) (fld w 8 6), [(5, 3), (19, 1)]⟩
  | 3 => some ⟨.qget (fld w 20 6) (fld w 14 5), [(5, 9), (19, 1)]⟩
  | 4 => some ⟨.ldred (fld w 20 5) (fld w 14 6) (fld w 11 2) (fld w 8 3) (fld w 5 3), [(13, 1), (25, 1)]⟩
  | 5 => some ⟨.stmc (fld w 20 5) (fld w 14 6) (fld w 11 2) (fld w 8 3), [(5, 3), (13, 1), (25, 1)]⟩
  | 6 => some ⟨.xchk (fld w 20 6) (fld w 14 6) (fld w 8 6), [(5, 3)]⟩
  | _ => none

/-- Major 0x30, CSR (Table 07-16). -/
def decode30 (w : Nat) : Option Parsed :=
  match w % 4 with
  | 0 => some ⟨.csrr (fld w 20 6) (fld w 2 12), [(14, 6)]⟩
  | 1 => some ⟨.csrw (fld w 20 6) (fld w 14 6) (fld w 2 12), []⟩
  | 2 => some ⟨.csrs (fld w 20 6) (fld w 14 6) (fld w 2 12), []⟩
  | _ => some ⟨.csrc (fld w 20 6) (fld w 14 6) (fld w 2 12), []⟩

/-- Major 0x31, system (Table 08-11). -/
def decode31 (w : Nat) : Option Parsed :=
  match w % 256 with
  | 0 => some ⟨.syscall (fld w 8 12), [(20, 6)]⟩
  | 1 => some ⟨.brk (fld w 8 12), [(20, 6)]⟩
  | 2 => some ⟨.tret, [(8, 18)]⟩
  | 3 => some ⟨.doneT, [(8, 18)]⟩
  | 4 => some ⟨.waiti, [(8, 18)]⟩
  | _ => none

/-- Major 0x33, inbox (Table 08-1). -/
def decode33 (w : Nat) : Option Parsed :=
  match w % 256 with
  | 0 => some ⟨.inbox (fld w 20 6), [(8, 12)]⟩
  | 1 => some ⟨.inpeek (fld w 20 6), [(8, 12)]⟩
  | _ => none

/-- Major 0x3E, hints (Table 08-14). -/
def decode3E (w : Nat) : Option Parsed :=
  let c := w % 2 ^ 26
  if c = 0 then some ⟨.nop, []⟩
  else if 64 ≤ c ∧ c < 128 then some ⟨.hintPf (fld w 0 6), []⟩
  else if 128 ≤ c ∧ c < 192 then some ⟨.hintPfm (fld w 0 6), []⟩
  else if c = 192 then some ⟨.hintSpin, []⟩
  else some ⟨.hint (fld w 0 26), []⟩

/-- The fields of a word by its major opcode (Table 07-17); none for a reserved major or an unassigned func or minor code. -/
def parse (w : Nat) : Option Parsed :=
  match w / 2 ^ 26 % 64 with
  | 0x01 => decode01 w
  | 0x02 => decode02 w
  | 0x03 => decode03 w
  | 0x04 => decode04 w
  | 0x05 => decode05 w
  | 0x08 => decode08 w
  | 0x09 => decode09 w
  | 0x0A => decode0A w
  | 0x0B => decode0B w
  | 0x0C => decode0C w
  | 0x0D => decode0D w
  | 0x0E => decode0E w
  | 0x0F => decode0F w
  | 0x10 => decode10 w
  | 0x14 => decode14 w
  | 0x15 => decode15 w
  | 0x16 => decode16 w
  | 0x18 => decode18 w
  | 0x19 => decode19 w
  | 0x1A => decode1A w
  | 0x1B => decode1B w
  | 0x1C => decode1C w
  | 0x1D => decode1D w
  | 0x1E => decode1E w
  | 0x1F => decode1F w
  | 0x20 => decode20 w
  | 0x24 => decode24 w
  | 0x28 => decode28 w
  | 0x2C => decode2C w
  | 0x2E => decode2E w
  | 0x30 => decode30 w
  | 0x31 => decode31 w
  | 0x33 => decode33 w
  | 0x3E => decode3E w
  | _ => none

/-- Fields that other fields of the word make reserved: a scope with order 0 (R82), U with width D (R159, R163).
They read as zero and join the reserved fields. -/
def relax : Instr → Instr × List (Nat × Nat)
  | .aadd d a b o s => if o = 0 then (.aadd d a b o 0, [(0, 3)]) else (.aadd d a b o s, [])
  | .aand d a b o s => if o = 0 then (.aand d a b o 0, [(0, 3)]) else (.aand d a b o s, [])
  | .aor d a b o s => if o = 0 then (.aor d a b o 0, [(0, 3)]) else (.aor d a b o s, [])
  | .axor d a b o s => if o = 0 then (.axor d a b o 0, [(0, 3)]) else (.axor d a b o s, [])
  | .amin d a b o s => if o = 0 then (.amin d a b o 0, [(0, 3)]) else (.amin d a b o s, [])
  | .amax d a b o s => if o = 0 then (.amax d a b o 0, [(0, 3)]) else (.amax d a b o s, [])
  | .aminu d a b o s => if o = 0 then (.aminu d a b o 0, [(0, 3)]) else (.aminu d a b o s, [])
  | .amaxu d a b o s => if o = 0 then (.amaxu d a b o 0, [(0, 3)]) else (.amaxu d a b o s, [])
  | .aswp d a b o s => if o = 0 then (.aswp d a b o 0, [(0, 3)]) else (.aswp d a b o s, [])
  | .acas d a b o s => if o = 0 then (.acas d a b o 0, [(0, 3)]) else (.acas d a b o s, [])
  | .afadd d a b o s => if o = 0 then (.afadd d a b o 0, [(0, 3)]) else (.afadd d a b o s, [])
  | .ldp d a w s u i => if s = 3 then (.ldp d a w s 0 i, [(5, 1)]) else (.ldp d a w s u i, [])
  | .ldAcq d a u w s => if w = 3 then (.ldAcq d a 0 w s, [(8, 1)]) else (.ldAcq d a u w s, [])
  | .bwdr d n b => if n = 47 then (.bwdr d n 0, [(8, 6)]) else (.bwdr d n b, [])
  | .ldred d a o s t => if o = 0 then (.ldred d a o 0 t, [(8, 3)]) else (.ldred d a o s t, [])
  | .stmc v a o s => if o = 0 then (.stmc v a o 0, [(8, 3)]) else (.stmc v a o s, [])
  | i => (i, [])

/-- True when the named fields of the word are all zero. -/
def zeros (w : Nat) (fs : List (Nat × Nat)) : Bool := fs.all (fun f => w / 2 ^ f.1 % 2 ^ f.2 == 0)

/-- Decodes one 32-bit word (R143). -/
def word (w : Nat) : Except DecodeError Decoded :=
  match parse w with
  | none => .error .unassigned
  | some p =>
    let r := relax p.instr
    if r.1.wf then .ok ⟨r.1, !(zeros w p.reserved && zeros w r.2)⟩ else .error .badField

/-- The little-endian value of four bytes (R143). -/
def leWord (b0 b1 b2 b3 : Byte) : Nat := b0.toNat + b1.toNat * 2 ^ 8 + b2.toNat * 2 ^ 16 + b3.toNat * 2 ^ 24

/-- Decodes the instruction at the head of a byte list, with the bytes that follow it. -/
def bytes : List Byte → Except DecodeError (Decoded × List Byte)
  | b0 :: b1 :: b2 :: b3 :: rest =>
    match word (leWord b0 b1 b2 b3) with
    | .ok d => .ok (d, rest)
    | .error e => .error e
  | _ => .error .tooShort

/-- The four bytes of a word as memory holds them, lowest address first (R143). -/
def wordBytes (w : Nat) : List Byte :=
  [BitVec.ofNat 8 w, BitVec.ofNat 8 (w / 2 ^ 8), BitVec.ofNat 8 (w / 2 ^ 16), BitVec.ofNat 8 (w / 2 ^ 24)]

/-- A word of fixed bits and fields, each field given as (value, lowest bit). -/
def pack (fixed : Nat) (fs : List (Nat × Nat)) : Nat := fs.foldl (fun acc f => acc + f.1 * 2 ^ f.2) fixed

/-- The word of an instruction, from the same encoding tables, every reserved field zero; none for a step without an encoding. -/
def encode : Instr → Option Nat
  | .add d a b => some (pack 0x04000000 [(d.toNat, 20), (a.toNat, 14), (b.toNat, 8)])
  | .sub d a b => some (pack 0x04000001 [(d.toNat, 20), (a.toNat, 14), (b.toNat, 8)])
  | .andR d a b => some (pack 0x04000002 [(d.toNat, 20), (a.toNat, 14), (b.toNat, 8)])
  | .orR d a b => some (pack 0x04000003 [(d.toNat, 20), (a.toNat, 14), (b.toNat, 8)])
  | .xorR d a b => some (pack 0x04000004 [(d.toNat, 20), (a.toNat, 14), (b.toNat, 8)])
  | .andn d a b => some (pack 0x04000005 [(d.toNat, 20), (a.toNat, 14), (b.toNat, 8)])
  | .shl d a b => some (pack 0x04000008 [(d.toNat, 20), (a.toNat, 14), (b.toNat, 8)])
  | .shr d a b => some (pack 0x04000009 [(d.toNat, 20), (a.toNat, 14), (b.toNat, 8)])
  | .shra d a b => some (pack 0x0400000A [(d.toNat, 20), (a.toNat, 14), (b.toNat, 8)])
  | .ror d a b => some (pack 0x0400000B [(d.toNat, 20), (a.toNat, 14), (b.toNat, 8)])
  | .minS d a b => some (pack 0x04000010 [(d.toNat, 20), (a.toNat, 14), (b.toNat, 8)])
  | .maxS d a b => some (pack 0x04000011 [(d.toNat, 20), (a.toNat, 14), (b.toNat, 8)])
  | .minu d a b => some (pack 0x04000012 [(d.toNat, 20), (a.toNat, 14), (b.toNat, 8)])
  | .maxu d a b => some (pack 0x04000013 [(d.toNat, 20), (a.toNat, 14), (b.toNat, 8)])
  | .slt d a b => some (pack 0x04000018 [(d.toNat, 20), (a.toNat, 14), (b.toNat, 8)])
  | .sltu d a b => some (pack 0x04000019 [(d.toNat, 20), (a.toNat, 14), (b.toNat, 8)])
  | .seq d a b => some (pack 0x0400001A [(d.toNat, 20), (a.toNat, 14), (b.toNat, 8)])
  | .addi d a i => some (pack 0x08000000 [(d.toNat, 20), (a.toNat, 14), (i.toNat, 0)])
  | .andi d a i => some (pack 0x08002000 [(d.toNat, 20), (a.toNat, 14), (i.toNat, 0)])
  | .ori d a i => some (pack 0x08002800 [(d.toNat, 20), (a.toNat, 14), (i.toNat, 0)])
  | .xori d a i => some (pack 0x08003000 [(d.toNat, 20), (a.toNat, 14), (i.toNat, 0)])
  | .slti d a i => some (pack 0x08003800 [(d.toNat, 20), (a.toNat, 14), (i.toNat, 0)])
  | .sltui d a i => some (pack 0x08003A00 [(d.toNat, 20), (a.toNat, 14), (i.toNat, 0)])
  | .shli d a n => some (pack 0x08003C00 [(d.toNat, 20), (a.toNat, 14), (n.toNat, 0)])
  | .shri d a n => some (pack 0x08003D00 [(d.toNat, 20), (a.toNat, 14), (n.toNat, 0)])
  | .shrai d a n => some (pack 0x08003E00 [(d.toNat, 20), (a.toNat, 14), (n.toNat, 0)])
  | .rori d a n => some (pack 0x08003F00 [(d.toNat, 20), (a.toNat, 14), (n.toNat, 0)])
  | .lui d i => some (pack 0x0C000000 [(d.toNat, 20), (i.toNat, 0)])
  | .addpc d i => some (pack 0x0C080000 [(d.toNat, 20), (i.toNat, 0)])
  | .mul d a b => some (pack 0x10000000 [(d.toNat, 20), (a.toNat, 14), (b.toNat, 8)])
  | .mulh d a b => some (pack 0x10000001 [(d.toNat, 20), (a.toNat, 14), (b.toNat, 8)])
  | .mulhu d a b => some (pack 0x10000002 [(d.toNat, 20), (a.toNat, 14), (b.toNat, 8)])
  | .div d a b => some (pack 0x10000004 [(d.toNat, 20), (a.toNat, 14), (b.toNat, 8)])
  | .divu d a b => some (pack 0x10000005 [(d.toNat, 20), (a.toNat, 14), (b.toNat, 8)])
  | .rem d a b => some (pack 0x10000006 [(d.toNat, 20), (a.toNat, 14), (b.toNat, 8)])
  | .remu d a b => some (pack 0x10000007 [(d.toNat, 20), (a.toNat, 14), (b.toNat, 8)])
  | .madd d a b => some (pack 0x10000008 [(d.toNat, 20), (a.toNat, 14), (b.toNat, 8)])
  | .sel d a b => some (pack 0x14000000 [(d.toNat, 20), (a.toNat, 14), (b.toNat, 8)])
  | .clz d a => some (pack 0x14000001 [(d.toNat, 20), (a.toNat, 14)])
  | .ctz d a => some (pack 0x14000002 [(d.toNat, 20), (a.toNat, 14)])
  | .popc d a => some (pack 0x14000003 [(d.toNat, 20), (a.toNat, 14)])
  | .brev d a => some (pack 0x14000004 [(d.toNat, 20), (a.toNat, 14)])
  | .sextb d a => some (pack 0x14000005 [(d.toNat, 20), (a.toNat, 14)])
  | .sexth d a => some (pack 0x14000006 [(d.toNat, 20), (a.toNat, 14)])
  | .sextw d a => some (pack 0x14000007 [(d.toNat, 20), (a.toNat, 14)])
  | .bfx d a p l => some (pack 0x14000040 [(d.toNat, 20), (a.toNat, 14), (p.toNat, 8), (l.toNat, 0)])
  | .bfxu d a p l => some (pack 0x14000080 [(d.toNat, 20), (a.toNat, 14), (p.toNat, 8), (l.toNat, 0)])
  | .bfi d a p l => some (pack 0x140000C0 [(d.toNat, 20), (a.toNat, 14), (p.toNat, 8), (l.toNat, 0)])
  | .brEq a b i => some (pack 0x20000000 [(a.toNat, 20), (b.toNat, 14), (i.toNat, 0)])
  | .brNe a b i => some (pack 0x20000800 [(a.toNat, 20), (b.toNat, 14), (i.toNat, 0)])
  | .brLt a b i => some (pack 0x20001000 [(a.toNat, 20), (b.toNat, 14), (i.toNat, 0)])
  | .brGe a b i => some (pack 0x20001800 [(a.toNat, 20), (b.toNat, 14), (i.toNat, 0)])
  | .brLtu a b i => some (pack 0x20002000 [(a.toNat, 20), (b.toNat, 14), (i.toNat, 0)])
  | .brGeu a b i => some (pack 0x20002800 [(a.toNat, 20), (b.toNat, 14), (i.toNat, 0)])
  | .jmp i => some (pack 0x24000000 [(i.toNat, 0)])
  | .call i => some (pack 0x26000000 [(i.toNat, 0)])
  | .jr a => some (pack 0x28000000 [(a.toNat, 14)])
  | .callr a => some (pack 0x28000001 [(a.toNat, 14)])
  | .wloop w n i => some (pack 0x2C000000 [(w.toNat, 20), (n.toNat, 14), (i.toNat, 0)])
  | .ldb d a i => some (pack 0x30000000 [(d.toNat, 20), (a.toNat, 14), (i.toNat, 0)])
  | .ldbu d a i => some (pack 0x30000800 [(d.toNat, 20), (a.toNat, 14), (i.toNat, 0)])
  | .ldh d a i => some (pack 0x30001000 [(d.toNat, 20), (a.toNat, 14), (i.toNat, 0)])
  | .ldhu d a i => some (pack 0x30001800 [(d.toNat, 20), (a.toNat, 14), (i.toNat, 0)])
  | .ldw d a i => some (pack 0x30002000 [(d.toNat, 20), (a.toNat, 14), (i.toNat, 0)])
  | .ldwu d a i => some (pack 0x30002800 [(d.toNat, 20), (a.toNat, 14), (i.toNat, 0)])
  | .ldd d a i => some (pack 0x30003000 [(d.toNat, 20), (a.toNat, 14), (i.toNat, 0)])
  | .ldp d a w s u i => some (pack 0x30003800 [(d.toNat, 20), (a.toNat, 14), (w.toNat, 8), (s.toNat, 6), (u.toNat, 5), (i.toNat, 0)])
  | .stb d a i => some (pack 0x34000000 [(d.toNat, 20), (a.toNat, 14), (i.toNat, 0)])
  | .sth d a i => some (pack 0x34001000 [(d.toNat, 20), (a.toNat, 14), (i.toNat, 0)])
  | .stw d a i => some (pack 0x34002000 [(d.toNat, 20), (a.toNat, 14), (i.toNat, 0)])
  | .std d a i => some (pack 0x34003000 [(d.toNat, 20), (a.toNat, 14), (i.toNat, 0)])
  | .aadd d a b o s => some (pack 0x38000000 [(d.toNat, 20), (a.toNat, 14), (b.toNat, 8), (o.toNat, 3), (s.toNat, 0)])
  | .aand d a b o s => some (pack 0x38000020 [(d.toNat, 20), (a.toNat, 14), (b.toNat, 8), (o.toNat, 3), (s.toNat, 0)])
  | .aor d a b o s => some (pack 0x38000040 [(d.toNat, 20), (a.toNat, 14), (b.toNat, 8), (o.toNat, 3), (s.toNat, 0)])
  | .axor d a b o s => some (pack 0x38000060 [(d.toNat, 20), (a.toNat, 14), (b.toNat, 8), (o.toNat, 3), (s.toNat, 0)])
  | .amin d a b o s => some (pack 0x38000080 [(d.toNat, 20), (a.toNat, 14), (b.toNat, 8), (o.toNat, 3), (s.toNat, 0)])
  | .amax d a b o s => some (pack 0x380000A0 [(d.toNat, 20), (a.toNat, 14), (b.toNat, 8), (o.toNat, 3), (s.toNat, 0)])
  | .aminu d a b o s => some (pack 0x380000C0 [(d.toNat, 20), (a.toNat, 14), (b.toNat, 8), (o.toNat, 3), (s.toNat, 0)])
  | .amaxu d a b o s => some (pack 0x380000E0 [(d.toNat, 20), (a.toNat, 14), (b.toNat, 8), (o.toNat, 3), (s.toNat, 0)])
  | .aswp d a b o s => some (pack 0x38002000 [(d.toNat, 20), (a.toNat, 14), (b.toNat, 8), (o.toNat, 3), (s.toNat, 0)])
  | .acas d a b o s => some (pack 0x38002020 [(d.toNat, 20), (a.toNat, 14), (b.toNat, 8), (o.toNat, 3), (s.toNat, 0)])
  | .afadd d a b o s => some (pack 0x38002040 [(d.toNat, 20), (a.toNat, 14), (b.toNat, 8), (o.toNat, 3), (s.toNat, 0)])
  | .fence p q s => some (pack 0x3C000000 [(p.toNat, 5), (q.toNat, 3), (s.toNat, 0)])
  | .ifence => some (pack 0x3C000080 [])
  | .ldAcq d a u w s => some (pack 0x3C0000A0 [(d.toNat, 20), (a.toNat, 14), (u.toNat, 8), (w.toNat, 3), (s.toNat, 0)])
  | .stRel d a w s => some (pack 0x3C0000C0 [(d.toNat, 20), (a.toNat, 14), (w.toNat, 3), (s.toNat, 0)])
  | .wbind w a b => some (pack 0x40000000 [(w.toNat, 20), (a.toNat, 14), (b.toNat, 8)])
  | .wunbind w => some (pack 0x40000001 [(w.toNat, 20)])
  | .wstat d w q => some (pack 0x40000002 [(d.toNat, 20), (w.toNat, 14), (q.toNat, 8)])
  | .csrr d c => some (pack 0xC0000000 [(d.toNat, 20), (c.toNat, 2)])
  | .csrw d a c => some (pack 0xC0000001 [(d.toNat, 20), (a.toNat, 14), (c.toNat, 2)])
  | .csrs d a c => some (pack 0xC0000002 [(d.toNat, 20), (a.toNat, 14), (c.toNat, 2)])
  | .csrc d a c => some (pack 0xC0000003 [(d.toNat, 20), (a.toNat, 14), (c.toNat, 2)])
  | .syscall c => some (pack 0xC4000000 [(c.toNat, 8)])
  | .brk c => some (pack 0xC4000001 [(c.toNat, 8)])
  | .tret => some (pack 0xC4000002 [])
  | .doneT => some (pack 0xC4000003 [])
  | .waiti => some (pack 0xC4000004 [])
  | .inbox d => some (pack 0xCC000000 [(d.toNat, 20)])
  | .inpeek d => some (pack 0xCC000001 [(d.toNat, 20)])
  | .nop => some (pack 0xF8000000 [])
  | .hint n => some (pack 0xF8000000 [(n.toNat, 0)])
  | .hintPf i => some (pack 0xF8000040 [(i.toNat, 0)])
  | .hintPfm i => some (pack 0xF8000080 [(i.toNat, 0)])
  | .hintSpin => some (pack 0xF80000C0 [])
  | .vadd d a b k t => some (pack 0x60000000 [(d.toNat, 21), (a.toNat, 16), (b.toNat, 11), (k.toNat, 8), (t.toNat, 4)])
  | .vsub d a b k t => some (pack 0x60000001 [(d.toNat, 21), (a.toNat, 16), (b.toNat, 11), (k.toNat, 8), (t.toNat, 4)])
  | .vmul d a b k t => some (pack 0x60000002 [(d.toNat, 21), (a.toNat, 16), (b.toNat, 11), (k.toNat, 8), (t.toNat, 4)])
  | .vfma d a b k t => some (pack 0x60000003 [(d.toNat, 21), (a.toNat, 16), (b.toNat, 11), (k.toNat, 8), (t.toNat, 4)])
  | .vfms d a b k t => some (pack 0x60000004 [(d.toNat, 21), (a.toNat, 16), (b.toNat, 11), (k.toNat, 8), (t.toNat, 4)])
  | .vfnma d a b k t => some (pack 0x60000005 [(d.toNat, 21), (a.toNat, 16), (b.toNat, 11), (k.toNat, 8), (t.toNat, 4)])
  | .vdiv d a b k t => some (pack 0x60000006 [(d.toNat, 21), (a.toNat, 16), (b.toNat, 11), (k.toNat, 8), (t.toNat, 4)])
  | .vsqrt d a k t => some (pack 0x60000007 [(d.toNat, 21), (a.toNat, 16), (k.toNat, 8), (t.toNat, 4)])
  | .vrcp d a k t => some (pack 0x60000008 [(d.toNat, 21), (a.toNat, 16), (k.toNat, 8), (t.toNat, 4)])
  | .vmin d a b k t => some (pack 0x60000009 [(d.toNat, 21), (a.toNat, 16), (b.toNat, 11), (k.toNat, 8), (t.toNat, 4)])
  | .vmax d a b k t => some (pack 0x6000000A [(d.toNat, 21), (a.toNat, 16), (b.toNat, 11), (k.toNat, 8), (t.toNat, 4)])
  | .vabs d a k t => some (pack 0x6000000B [(d.toNat, 21), (a.toNat, 16), (k.toNat, 8), (t.toNat, 4)])
  | .vneg d a k t => some (pack 0x6000000C [(d.toNat, 21), (a.toNat, 16), (k.toNat, 8), (t.toNat, 4)])
  | .vexp2 d a k t => some (pack 0x6000000D [(d.toNat, 21), (a.toNat, 16), (k.toNat, 8), (t.toNat, 4)])
  | .vlog2 d a k t => some (pack 0x6000000E [(d.toNat, 21), (a.toNat, 16), (k.toNat, 8), (t.toNat, 4)])
  | .viadd d a b k t => some (pack 0x64000000 [(d.toNat, 21), (a.toNat, 16), (b.toNat, 11), (k.toNat, 8), (t.toNat, 4)])
  | .visub d a b k t => some (pack 0x64000001 [(d.toNat, 21), (a.toNat, 16), (b.toNat, 11), (k.toNat, 8), (t.toNat, 4)])
  | .vimul d a b k t => some (pack 0x64000002 [(d.toNat, 21), (a.toNat, 16), (b.toNat, 11), (k.toNat, 8), (t.toNat, 4)])
  | .vimad d a b k t => some (pack 0x64000003 [(d.toNat, 21), (a.toNat, 16), (b.toNat, 11), (k.toNat, 8), (t.toNat, 4)])
  | .vimin d a b k t => some (pack 0x64000004 [(d.toNat, 21), (a.toNat, 16), (b.toNat, 11), (k.toNat, 8), (t.toNat, 4)])
  | .vimax d a b k t => some (pack 0x64000005 [(d.toNat, 21), (a.toNat, 16), (b.toNat, 11), (k.toNat, 8), (t.toNat, 4)])
  | .viminu d a b k t => some (pack 0x64000006 [(d.toNat, 21), (a.toNat, 16), (b.toNat, 11), (k.toNat, 8), (t.toNat, 4)])
  | .vimaxu d a b k t => some (pack 0x64000007 [(d.toNat, 21), (a.toNat, 16), (b.toNat, 11), (k.toNat, 8), (t.toNat, 4)])
  | .vishl d a b k t => some (pack 0x64000008 [(d.toNat, 21), (a.toNat, 16), (b.toNat, 11), (k.toNat, 8), (t.toNat, 4)])
  | .vishr d a b k t => some (pack 0x64000009 [(d.toNat, 21), (a.toNat, 16), (b.toNat, 11), (k.toNat, 8), (t.toNat, 4)])
  | .vishra d a b k t => some (pack 0x6400000A [(d.toNat, 21), (a.toNat, 16), (b.toNat, 11), (k.toNat, 8), (t.toNat, 4)])
  | .viadds d a b k t => some (pack 0x6400000B [(d.toNat, 21), (a.toNat, 16), (b.toNat, 11), (k.toNat, 8), (t.toNat, 4)])
  | .vand d a b k t => some (pack 0x68000000 [(d.toNat, 21), (a.toNat, 16), (b.toNat, 11), (k.toNat, 8), (t.toNat, 4)])
  | .vor d a b k t => some (pack 0x68000001 [(d.toNat, 21), (a.toNat, 16), (b.toNat, 11), (k.toNat, 8), (t.toNat, 4)])
  | .vxor d a b k t => some (pack 0x68000002 [(d.toNat, 21), (a.toNat, 16), (b.toNat, 11), (k.toNat, 8), (t.toNat, 4)])
  | .vnot d a k t => some (pack 0x68000003 [(d.toNat, 21), (a.toNat, 16), (k.toNat, 8), (t.toNat, 4)])
  | .vperm d a b k t => some (pack 0x68000004 [(d.toNat, 21), (a.toNat, 16), (b.toNat, 11), (k.toNat, 8), (t.toNat, 4)])
  | .vslide d a n k t => some (pack 0x68000005 [(d.toNat, 21), (a.toNat, 16), (n.toNat, 11), (k.toNat, 8), (t.toNat, 4)])
  | .vbcast d a n k t => some (pack 0x68000006 [(d.toNat, 21), (a.toNat, 16), (n.toNat, 11), (k.toNat, 8), (t.toNat, 4)])
  | .vsel d a b k t => some (pack 0x68000007 [(d.toNat, 21), (a.toNat, 16), (b.toNat, 11), (k.toNat, 8), (t.toNat, 4)])
  | .vcmpEq d a b k t => some (pack 0x68000008 [(d.toNat, 21), (a.toNat, 16), (b.toNat, 11), (k.toNat, 8), (t.toNat, 4)])
  | .vcmpNe d a b k t => some (pack 0x68000009 [(d.toNat, 21), (a.toNat, 16), (b.toNat, 11), (k.toNat, 8), (t.toNat, 4)])
  | .vcmpLt d a b k t => some (pack 0x6800000A [(d.toNat, 21), (a.toNat, 16), (b.toNat, 11), (k.toNat, 8), (t.toNat, 4)])
  | .vcmpLe d a b k t => some (pack 0x6800000B [(d.toNat, 21), (a.toNat, 16), (b.toNat, 11), (k.toNat, 8), (t.toNat, 4)])
  | .vcmpLtu d a b k t => some (pack 0x6800000C [(d.toNat, 21), (a.toNat, 16), (b.toNat, 11), (k.toNat, 8), (t.toNat, 4)])
  | .vcmpLeu d a b k t => some (pack 0x6800000D [(d.toNat, 21), (a.toNat, 16), (b.toNat, 11), (k.toNat, 8), (t.toNat, 4)])
  | .vcmpUn d a b k t => some (pack 0x6800000E [(d.toNat, 21), (a.toNat, 16), (b.toNat, 11), (k.toNat, 8), (t.toNat, 4)])
  | .vcvt d a s k t => some (pack 0x6C000000 [(d.toNat, 21), (a.toNat, 16), (s.toNat, 11), (k.toNat, 8), (t.toNat, 4)])
  | .vwiden d a s k t => some (pack 0x6C000001 [(d.toNat, 21), (a.toNat, 16), (s.toNat, 11), (k.toNat, 8), (t.toNat, 4)])
  | .vnarrow d a s k t => some (pack 0x6C000002 [(d.toNat, 21), (a.toNat, 16), (s.toNat, 11), (k.toNat, 8), (t.toNat, 4)])
  | .vld d a b k w => some (pack 0x70000000 [(d.toNat, 21), (a.toNat, 15), (b.toNat, 9), (k.toNat, 6), (w.toNat, 0)])
  | .vst d a b k w => some (pack 0x70000008 [(d.toNat, 21), (a.toNat, 15), (b.toNat, 9), (k.toNat, 6), (w.toNat, 0)])
  | .vlds d a b k w => some (pack 0x70000010 [(d.toNat, 21), (a.toNat, 15), (b.toNat, 9), (k.toNat, 6), (w.toNat, 0)])
  | .vsts d a b k w => some (pack 0x70000018 [(d.toNat, 21), (a.toNat, 15), (b.toNat, 9), (k.toNat, 6), (w.toNat, 0)])
  | .vldg d a b k w => some (pack 0x70000022 [(d.toNat, 21), (a.toNat, 15), (b.toNat, 9), (k.toNat, 6), (w.toNat, 0)])
  | .vstg d a b k w => some (pack 0x7000002A [(d.toNat, 21), (a.toNat, 15), (b.toNat, 9), (k.toNat, 6), (w.toNat, 0)])
  | .vldx d a b k t => some (pack 0x70000030 [(d.toNat, 21), (a.toNat, 15), (b.toNat, 9), (k.toNat, 6), (t.toNat, 0)])
  | .vrsum d a k t => some (pack 0x74000000 [(d.toNat, 21), (a.toNat, 16), (k.toNat, 8), (t.toNat, 4)])
  | .vrmax d a k t => some (pack 0x74000001 [(d.toNat, 21), (a.toNat, 16), (k.toNat, 8), (t.toNat, 4)])
  | .vrmin d a k t => some (pack 0x74000002 [(d.toNat, 21), (a.toNat, 16), (k.toNat, 8), (t.toNat, 4)])
  | .vscan d a k t => some (pack 0x74000003 [(d.toNat, 21), (a.toNat, 16), (k.toNat, 8), (t.toNat, 4)])
  | .kand d a b => some (pack 0x78000000 [(d.toNat, 21), (a.toNat, 16), (b.toNat, 11)])
  | .kor d a b => some (pack 0x78000001 [(d.toNat, 21), (a.toNat, 16), (b.toNat, 11)])
  | .kxor d a b => some (pack 0x78000002 [(d.toNat, 21), (a.toNat, 16), (b.toNat, 11)])
  | .knot d a => some (pack 0x78000003 [(d.toNat, 21), (a.toNat, 16)])
  | .kpopc d a t => some (pack 0x78000004 [(d.toNat, 21), (a.toNat, 16), (t.toNat, 4)])
  | .kfirst d a t => some (pack 0x78000005 [(d.toNat, 21), (a.toNat, 16), (t.toNat, 4)])
  | .kfrom d a t => some (pack 0x78000006 [(d.toNat, 21), (a.toNat, 16), (t.toNat, 4)])
  | .vget i a d t => some (pack 0x7C000000 [(i.toNat, 21), (a.toNat, 16), (d.toNat, 10), (t.toNat, 4)])
  | .vput d i b t => some (pack 0x7C000001 [(d.toNat, 21), (i.toNat, 16), (b.toNat, 10), (t.toNat, 4)])
  | .vmov d a k t => some (pack 0x7C000002 [(d.toNat, 21), (a.toNat, 16), (k.toNat, 8), (t.toNat, 4)])
  | .vmovS d b k t => some (pack 0x7C000003 [(d.toNat, 21), (b.toNat, 10), (k.toNat, 8), (t.toNat, 4)])
  | .hitch d s => some (pack 0x50000000 [(d.toNat, 20), (s.toNat, 14)])
  | .hand d s b => some (pack 0x50000001 [(d.toNat, 20), (s.toNat, 14), (b.toNat, 8)])
  | .take d s => some (pack 0x50000002 [(d.toNat, 20), (s.toNat, 14)])
  | .takeT d s => some (pack 0x50000003 [(d.toNat, 20), (s.toNat, 14)])
  | .drop d s => some (pack 0x50000004 [(d.toNat, 20), (s.toNat, 14)])
  | .hstat d s => some (pack 0x50000005 [(d.toNat, 20), (s.toNat, 14)])
  | .lvset s b => some (pack 0x50000006 [(s.toNat, 14), (b.toNat, 8)])
  | .lvget d s => some (pack 0x50000007 [(d.toNat, 20), (s.toNat, 14)])
  | .wtag s b => some (pack 0x50000008 [(s.toNat, 14), (b.toNat, 8)])
  | .wtagE s b => some (pack 0x50000009 [(s.toNat, 14), (b.toNat, 8)])
  | .hitchImp d s b => some (pack 0x5000000A [(d.toNat, 20), (s.toNat, 14), (b.toNat, 8)])
  | .binit d n b => some (pack 0x54000000 [(d.toNat, 20), (n.toNat, 14), (b.toNat, 8)])
  | .barr d n => some (pack 0x54000001 [(d.toNat, 20), (n.toNat, 14)])
  | .bwait d n => some (pack 0x54000002 [(d.toNat, 20), (n.toNat, 14)])
  | .barrw d n => some (pack 0x54000003 [(d.toNat, 20), (n.toNat, 14)])
  | .bwdr d n b => some (pack 0x54000004 [(d.toNat, 20), (n.toNat, 14), (b.toNat, 8)])
  | .evwait d n => some (pack 0x54000005 [(d.toNat, 20), (n.toNat, 14)])
  | .evsig d n => some (pack 0x54000006 [(d.toNat, 20), (n.toNat, 14)])
  | .mlock d n => some (pack 0x54000007 [(d.toNat, 20), (n.toNat, 14)])
  | .munlock n => some (pack 0x54000008 [(n.toNat, 14)])
  | .trig => some (pack 0x58000000 [])
  | .haltpt a => some (pack 0x58000001 [(a.toNat, 14)])
  | .vccwait a => some (pack 0x58000002 [(a.toNat, 14)])
  | .submit d a b => some (pack 0x58000003 [(d.toNat, 20), (a.toNat, 14), (b.toNat, 8)])
  | .cpset a r c => some (pack 0x80000000 [(a.toNat, 14), (r.toNat, 8), (c.toNat, 5)])
  | .cpget d r c => some (pack 0x80000001 [(d.toNat, 20), (r.toNat, 8), (c.toNat, 5)])
  | .cpgo d c => some (pack 0x80000002 [(d.toNat, 20), (c.toNat, 5)])
  | .cpwm d c => some (pack 0x80000003 [(d.toNat, 20), (c.toNat, 5)])
  | .cpabort d a => some (pack 0x80000004 [(d.toNat, 20), (a.toNat, 14)])
  | .dlease u => some (pack 0x90000000 [(u.toNat, 5)])
  | .dfree u => some (pack 0x90000001 [(u.toNat, 5)])
  | .dcommit d u => some (pack 0x90000002 [(d.toNat, 20), (u.toNat, 5)])
  | .dwait d a u => some (pack 0x90000003 [(d.toNat, 20), (a.toNat, 14), (u.toNat, 5)])
  | .mma d a b u => some (pack 0x90000004 [(d.toNat, 20), (a.toNat, 14), (b.toNat, 8), (u.toNat, 5)])
  | .mmac d a b => some (pack 0x90000005 [(d.toNat, 20), (a.toNat, 14), (b.toNat, 8)])
  | .accrd d a u => some (pack 0x90000006 [(d.toNat, 20), (a.toNat, 14), (u.toNat, 5)])
  | .accrdV d a u => some (pack 0x90000007 [(d.toNat, 20), (a.toNat, 14), (u.toNat, 5)])
  | .accwr a b u => some (pack 0x90000008 [(a.toNat, 14), (b.toNat, 8), (u.toNat, 5)])
  | .acczero d a u => some (pack 0x90000009 [(d.toNat, 20), (a.toNat, 14), (u.toNat, 5)])
  | .accst d a b u => some (pack 0x9000000A [(d.toNat, 20), (a.toNat, 14), (b.toNat, 8), (u.toNat, 5)])
  | .accwrCb d a u => some (pack 0x9000000B [(d.toNat, 20), (a.toNat, 14), (u.toNat, 5)])
  | .sccfg d a => some (pack 0xA0000000 [(d.toNat, 20), (a.toNat, 14)])
  | .sctopk d => some (pack 0xA0000001 [(d.toNat, 20)])
  | .sccolk d => some (pack 0xA0000002 [(d.toNat, 20)])
  | .scroute d a => some (pack 0xA0000003 [(d.toNat, 20), (a.toNat, 14)])
  | .scrouteCnt d => some (pack 0xA0000004 [(d.toNat, 20)])
  | .scsend d => some (pack 0xA0000005 [(d.toNat, 20)])
  | .scgather d a => some (pack 0xA0000006 [(d.toNat, 20), (a.toNat, 14)])
  | .scmread d a => some (pack 0xA0000007 [(d.toNat, 20), (a.toNat, 14)])
  | .scclaim d a b => some (pack 0xA0000008 [(d.toNat, 20), (a.toNat, 14), (b.toNat, 8)])
  | .scstat d a => some (pack 0xA0000009 [(d.toNat, 20), (a.toNat, 14)])
  | .mset a u => some (pack 0xB0000000 [(a.toNat, 14), (u.toNat, 5)])
  | .mtbl a q => some (pack 0xB0000001 [(a.toNat, 14), (q.toNat, 5)])
  | .macc v k u => some (pack 0xB0000002 [(v.toNat, 14), (k.toNat, 8), (u.toNat, 5)])
  | .maccqV d u => some (pack 0xB0000003 [(d.toNat, 20), (u.toNat, 5)])
  | .maccqS d u => some (pack 0xB0000004 [(d.toNat, 20), (u.toNat, 5)])
  | .mmerge m u => some (pack 0xB0000005 [(m.toNat, 14), (u.toNat, 5)])
  | .mfold u => some (pack 0xB0000006 [(u.toNat, 5)])
  | .mfin d k u => some (pack 0xB0000007 [(d.toNat, 20), (k.toNat, 8), (u.toNat, 5)])
  | .msave a k u => some (pack 0xB0000008 [(a.toNat, 14), (k.toNat, 8), (u.toNat, 5)])
  | .mload a k u => some (pack 0xB0000009 [(a.toNat, 14), (k.toNat, 8), (u.toNat, 5)])
  | .xsend v a r => some (pack 0xB8000000 [(v.toNat, 20), (a.toNat, 14), (r.toNat, 8)])
  | .xrecv d a r => some (pack 0xB8000001 [(d.toNat, 20), (a.toNat, 14), (r.toNat, 8)])
  | .qput d v b => some (pack 0xB8000002 [(d.toNat, 20), (v.toNat, 14), (b.toNat, 8)])
  | .qget d v => some (pack 0xB8000003 [(d.toNat, 20), (v.toNat, 14)])
  | .ldred d a o s t => some (pack 0xB8000004 [(d.toNat, 20), (a.toNat, 14), (o.toNat, 11), (s.toNat, 8), (t.toNat, 5)])
  | .stmc v a o s => some (pack 0xB8000005 [(v.toNat, 20), (a.toNat, 14), (o.toNat, 11), (s.toNat, 8)])
  | .xchk d a b => some (pack 0xB8000006 [(d.toNat, 20), (a.toNat, 14), (b.toNat, 8)])
  | .launch _ _ => none
  | .registerWrite _ _ => none
  | .writePerformed _ _ => none
  | .readCacheFill _ _ => none
  | .wagonZeroingDone _ _ => none
  | .ownerChange _ _ => none
  | .dropDrainEnd _ _ => none
  | .heldMessagePost _ => none
  | .trapEntry _ _ => none
  | .impound _ _ => none
  | .impoundRelease _ => none
  | .partitionFaultReport _ => none
  | .packetEjection _ _ => none
  | .peerRequest _ => none
  | .peerKillReport _ _ _ => none
  | .copyChunk _ _ => none
  | .copyCompletion _ _ => none
  | .remoteSignal _ _ => none
  | .killQuiescence _ => none
  | .leaseGrant _ _ => none
  | .drayCommandRun _ _ => none
  | .batchComplete _ _ => none
  | .stagecoachCompletion _ => none
  | .barrier47RemoteArrival _ _ => none
  | .timedInstructionDue _ => none
  | .distributorSelect => none
  | .caravanBind _ => none
  | .taskRetire _ => none
  | .hostSubmission _ _ => none
  | .switchTick _ => none
  | .saveDeadline _ => none
  | .contextSave _ => none
  | .caravanRestore _ => none
  | .budgetPeriod => none
  | .frameScrub => none
  | .pset _ => none
  | .pclr _ => none
  | .inval _ => none
  | .kill _ => none
  | .pfans _ => none
  | .dbswap _ => none
  | .setw _ => none
  | .free _ => none
  | .alloc _ => none
  | .driverCommandComplete _ => none
  | .faultQueueWrite => none
  | .feataccWrite _ _ => none
  | .lockInterface => none
  | .startInterface => none
  | .stopInterface => none
  | .ideIntegrityFailure => none
  | .deviceReset => none
  | .hostCxlMemAccess _ => none
  | .timebaseLock _ _ => none
  | .timebaseLockLost => none
  | .routeFailed _ => none
  | .thermalLimit => none
  | .eoldaysUpdate _ => none
  | .readPerformed _ _ => none
  | .backgroundScrubber _ => none
  | .managementControllerRequest _ => none
  | .queueConfiguration _ _ => none
  | .rotationConfiguration _ _ => none

end Decode

/-- The instruction the decoder reads from a row's bits; every instruction of the D9 is one 32-bit word (R143), so the bits above `nbits`
are zero and a longer row has none. -/
def decodeTableWord (nbits w : Nat) : Option Instr :=
  if nbits ≤ 32 then
    match Decode.bytes (Decode.wordBytes (w % 2 ^ nbits)) with
    | .ok (d, _) => some d.instr
    | .error _ => none
  else none

end Sys2Proof
end

