-- ==== Sys2Proof/Machine/Fetch.lean ====
section
/-!
DEFINITION. Fetching and issuing: the registers an instruction waits for, instruction fetch, the traps of words that are no instruction,
the turns of the core clock and of the environment (spec 07 R143 to R147, R315, 04 R84, R87, 06 R112, 15 R264, 01 R9).
-/

namespace Sys2Proof.Machine

/-- The registers that an instruction names (R133): scalars that it reads, base addresses, scalars that it only writes, vectors that it reads,
those that it reads and waits for itself, vectors that it only writes, masks, walkers, mean accumulators. `merge` says that what it writes of a
vector keeps the elements that its mask leaves out (R136). -/
structure Uses where
  s  : List Nat := []
  b  : List Nat := []
  sd : List Nat := []
  v  : List Nat := []
  x  : List Nat := []
  vd : List Nat := []
  k  : List Nat := []
  w  : List Nat := []
  m  : List Nat := []
  merge : Bool := false
  deriving DecidableEq, Repr

/-- The registers of each instruction, as its description names its operands. -/
def usesOf : Instr → Uses
  | .add d a b | .sub d a b | .andR d a b | .orR d a b | .xorR d a b | .andn d a b | .shl d a b | .shr d a b | .shra d a b | .ror d a b |
    .minS d a b | .maxS d a b | .minu d a b | .maxu d a b | .slt d a b | .sltu d a b | .seq d a b | .mul d a b | .mulh d a b |
    .mulhu d a b | .div d a b | .divu d a b | .rem d a b | .remu d a b => { s := [a.toNat, b.toNat], sd := [d.toNat] }
  | .addi d a _ | .andi d a _ | .ori d a _ | .xori d a _ | .slti d a _ | .sltui d a _ | .shli d a _ | .shri d a _ | .shrai d a _ |
    .rori d a _ | .csrw d a _ | .csrs d a _ | .csrc d a _ | .dwait d a _ | .accrd d a _ | .acczero d a _ => { s := [a.toNat], sd := [d.toNat] }
  | .lui d _ | .addpc d _ | .csrr d _ | .hitch d _ | .take d _ | .takeT d _ | .drop d _ | .hstat d _ | .lvget d _ | .barr d _ | .bwait d _ |
    .barrw d _ | .evwait d _ | .evsig d _ | .mlock d _ | .cpgo d _ | .cpwm d _ | .dcommit d _ | .launch d _ => { sd := [d.toNat] }
  | .madd d a b | .sel d a b => { s := [d.toNat, a.toNat, b.toNat] }
  | .clz d a | .ctz d a | .popc d a | .brev d a | .sextb d a | .sexth d a | .sextw d a | .cpabort d a | .scmread d a | .scstat d a
      => { s := [a.toNat], sd := [d.toNat] }
  | .bfx d a _ _ | .bfxu d a _ _ => { s := [a.toNat], sd := [d.toNat] }
  | .bfi d a _ _ => { s := [d.toNat, a.toNat] }
  | .brEq a b _ | .brNe a b _ | .brLt a b _ | .brGe a b _ | .brLtu a b _ | .brGeu a b _ => { s := [a.toNat, b.toNat] }
  | .call _ => { sd := [63] }
  | .jr a | .haltpt a | .vccwait a => { s := [a.toNat] }
  | .callr a => { s := [a.toNat], sd := [63] }
  | .wloop w _ _ => { w := [w.toNat] }
  | .ldb d a _ | .ldbu d a _ | .ldh d a _ | .ldhu d a _ | .ldw d a _ | .ldwu d a _ | .ldd d a _ | .accwrCb d a _
      => { b := [a.toNat], sd := [d.toNat] }
  | .ldp d a _ _ _ _ => { b := [a.toNat], sd := [d.toNat] }
  | .stb d a _ | .sth d a _ | .stw d a _ | .std d a _ => { s := [d.toNat], b := [a.toNat] }
  | .aadd d a b _ _ | .aand d a b _ _ | .aor d a b _ _ | .axor d a b _ _ | .amin d a b _ _ | .amax d a b _ _ | .aminu d a b _ _ |
    .amaxu d a b _ _ | .aswp d a b _ _ | .afadd d a b _ _ => { s := [b.toNat], b := [a.toNat], sd := [d.toNat] }
  | .acas d a b _ _ => { s := [d.toNat, b.toNat], b := [a.toNat] }
  | .ldAcq d a _ _ _ => { b := [a.toNat], sd := [d.toNat] }
  | .stRel d a _ _ => { s := [d.toNat], b := [a.toNat] }
  | .wbind _ a b => { s := [a.toNat, b.toNat, b.toNat + 1, b.toNat + 2, b.toNat + 3] }
  | .wstat d w _ => { sd := [d.toNat], w := [w.toNat] }
  | .inbox d | .inpeek d => { sd := [d.toNat, d.toNat + 1] }
  | .vadd d a b k _ | .vsub d a b k _ | .vmul d a b k _ | .vdiv d a b k _ | .vmin d a b k _ | .vmax d a b k _ | .viadd d a b k _ |
    .visub d a b k _ | .vimul d a b k _ | .vimin d a b k _ | .vimax d a b k _ | .viminu d a b k _ | .vimaxu d a b k _ | .vishl d a b k _ |
    .vishr d a b k _ | .vishra d a b k _ | .viadds d a b k _ | .vand d a b k _ | .vor d a b k _ | .vxor d a b k _ | .vperm d a b k _
      => { v := [a.toNat, b.toNat], vd := [d.toNat], k := [k.toNat], merge := true }
  | .vfma d a b k _ | .vfms d a b k _ | .vfnma d a b k _ | .vimad d a b k _ => { v := [d.toNat, a.toNat, b.toNat], k := [k.toNat] }
  | .vsqrt d a k _ | .vrcp d a k _ | .vabs d a k _ | .vneg d a k _ | .vexp2 d a k _ | .vlog2 d a k _ | .vnot d a k _ | .vscan d a k _ |
    .vmov d a k _ => { v := [a.toNat], vd := [d.toNat], k := [k.toNat], merge := true }
  | .vslide d a _ k _ | .vbcast d a _ k _ | .vcvt d a _ k _ => { v := [a.toNat], vd := [d.toNat], k := [k.toNat], merge := true }
  | .vsel d a b k _ => { v := [a.toNat, b.toNat], vd := [d.toNat], k := [k.toNat] }
  | .vcmpEq _ a b k _ | .vcmpNe _ a b k _ | .vcmpLt _ a b k _ | .vcmpLe _ a b k _ | .vcmpLtu _ a b k _ | .vcmpLeu _ a b k _ |
    .vcmpUn _ a b k _ => { v := [a.toNat, b.toNat], k := [k.toNat] }
  | .vwiden d a _ k _ => { v := [a.toNat], vd := [d.toNat, d.toNat + 1, d.toNat + 2, d.toNat + 3], k := [k.toNat], merge := true }
  | .vnarrow d a _ k _ => { v := [a.toNat, a.toNat + 1, a.toNat + 2, a.toNat + 3], vd := [d.toNat], k := [k.toNat], merge := true }
  | .vld d a b k _ | .vlds d a b k _ | .vldx d a b k _ => { s := [b.toNat], b := [a.toNat], vd := [d.toNat], k := [k.toNat] }
  | .vst d a b k _ | .vsts d a b k _ => { s := [b.toNat], b := [a.toNat], v := [d.toNat], k := [k.toNat] }
  | .vldg d a b k _ => { b := [a.toNat], v := [b.toNat], vd := [d.toNat], k := [k.toNat] }
  | .vstg d a b k _ => { b := [a.toNat], v := [d.toNat, b.toNat], k := [k.toNat] }
  | .vrsum d a k _ | .vrmax d a k _ | .vrmin d a k _ => { v := [d.toNat, a.toNat], k := [k.toNat] }
  | .kand _ a b | .kor _ a b | .kxor _ a b => { k := [a.toNat, b.toNat] }
  | .knot _ a => { k := [a.toNat] }
  | .kpopc d a _ | .kfirst d a _ => { sd := [d.toNat], k := [a.toNat] }
  | .kfrom _ a _ => { s := [a.toNat] }
  | .vget i a d _ => { s := [i.toNat], sd := [d.toNat], v := [a.toNat] }
  | .vput d i b _ => { s := [i.toNat, b.toNat], v := [d.toNat] }
  | .vmovS d b k _ => { s := [b.toNat], vd := [d.toNat], k := [k.toNat], merge := true }
  | .hand d _ b | .hitchImp d _ b | .binit d _ b | .bwdr d _ b => { s := [b.toNat], sd := [d.toNat] }
  | .lvset _ b | .wtag _ b | .wtagE _ b => { s := [b.toNat] }
  | .submit d a b => { b := [a.toNat], sd := [d.toNat], v := [b.toNat] }
  | .cpset a _ _ => { s := [a.toNat] }
  | .cpget d _ _ => { sd := [d.toNat] }
  | .mma d a b _ => { s := [a.toNat, b.toNat, b.toNat + 1], sd := [d.toNat] }
  | .mmac d a b => { s := [a.toNat, b.toNat, b.toNat + 1], sd := [d.toNat] }
  | .accrdV d a _ | .xrecv d a _ => { s := [a.toNat], vd := [d.toNat] }
  | .accwr a b _ => { s := [a.toNat], v := [b.toNat] }
  | .accst d a b _ => { s := [a.toNat, b.toNat], sd := [d.toNat] }
  | .sccfg d a | .scroute d a | .scgather d a => { b := [a.toNat], sd := [d.toNat] }
  | .sctopk d | .sccolk d | .scrouteCnt d | .scsend d => { sd := [d.toNat] }
  | .scclaim d a b | .xchk d a b => { s := [b.toNat], b := [a.toNat], sd := [d.toNat] }
  | .mset a _ => { s := [a.toNat] }
  | .mtbl a _ => { b := [a.toNat] }
  | .macc v k u => { v := [v.toNat], k := [k.toNat], m := [u.toNat] }
  | .maccqV d u | .maccqS d u => { s := [d.toNat], m := [u.toNat] }
  | .mmerge m u => { m := [m.toNat, u.toNat] }
  | .mfold u => { m := [u.toNat] }
  | .mfin d k u => { vd := [d.toNat], k := [k.toNat], m := [u.toNat], merge := true }
  | .msave a k u | .mload a k u => { b := [a.toNat], k := [k.toNat], m := [u.toNat] }
  | .xsend v a _ => { s := [a.toNat], x := [v.toNat] }
  | .qput d v b => { s := [b.toNat], sd := [d.toNat], v := [v.toNat] }
  | .qget d v => { sd := [d.toNat], v := [v.toNat] }
  | .ldred d a _ _ _ => { b := [a.toNat], vd := [d.toNat, d.toNat + 1] }
  | .stmc v a _ _ => { b := [a.toNat], v := [v.toNat] }
  | _ => {}

/-- A register that the instruction reads or writes waits for a late read (R84); s0 holds no value. XSEND waits for its vector itself (Table
06-3). -/
def Core.busy (c : Core) (i : Instr) : Bool :=
  !c.mem.late.isEmpty && (let u := usesOf i
    c.mem.late.any (fun l => match l.dest with
      | .scalar d _ => d != 0 && (u.s ++ u.b ++ u.sd).contains d
      | .vector d _ => (u.v ++ u.vd).contains d))

/-- The keys of the registers that an instruction reads (R84): a base operand in walker mode is its walker (R134); s0 and k0 hold nothing. -/
def Core.reads (c : Core) (i : Instr) : List Nat :=
  let u := usesOf i
  let masks := u.k.filter (· != 0)
  u.s.filter (· != 0) ++ (u.b.filter (· != 0)).map (fun r => if c.walks r then 104 + (r - 48) else r) ++
    (u.v ++ u.x ++ (if u.merge && !masks.isEmpty then u.vd else [])).map (64 + ·) ++ masks.map (96 + ·) ++ u.w.map (104 + ·) ++ u.m.map (112 + ·)

/-- The stamp of what an instruction reads (R84). -/
def Core.stampFor (c : Core) (i : Instr) : Nat := (c.reads i).foldl (fun m k => max m (c.stamp k)) 0

/-- The instruction reads a register that holds an uncorrectable error (R264). MSAVE and MLOAD look at the lanes that they use themselves. -/
def Core.upsetRead (c : Core) (i : Instr) : Bool :=
  (c.reads i).any c.regs.upset.contains ||
    (match i with
      | .msave _ _ _ => false
      | .mload _ _ _ => false
      | _ => (usesOf i).m.any c.meanUpset)

/-- Why a fetch gives no word: TCAUSE (R9, R23, R264, R265). -/
inductive Fetched where
  | word (s : State) (w : BitVec 32)
  | fails (cause : Nat)
  deriving DecidableEq, Repr

/-- The word at a location in the memory that a core's fetches see (R87). -/
def Core.fetchWord (c : Core) (loc : Nat) : BitVec 32 :=
  BitVec.ofNat 32 (Decode.leWord (Sparse.get 0 c.mem.imem loc) (Sparse.get 0 c.mem.imem (loc + 1)) (Sparse.get 0 c.mem.imem (loc + 2))
    (Sparse.get 0 c.mem.imem (loc + 3)))

/-- The location of the issuing core's next instruction, with the state after the walk (R143, R147 step 1). -/
def fetchPlace (s : State) : Except Nat (State × Nat) :=
  if spaceOf s.pc ≠ 0 then .error 2
  else match translate s (clusterOf s.cur) s.myPart s.me.sup .fetch s.pc.toNat with
    | .error c => .error c
    | .ok (t, x) =>
      if x.region ≠ 0 then .error 2
      else if !t.owns s.myPart x.pa then .error 15
      else if t.hasBad (locHbm x.pa) 4 then .error 11
      else .ok (t, locHbm x.pa)

/-- Fetches the word at the program counter of the issuing core. -/
def fetch (s : State) : Fetched :=
  match fetchPlace s with
  | .error c => .fails c
  | .ok (t, loc) => .word t (s.me.fetchWord loc)

/-- How a core's turn goes on. -/
inductive Next where
  /-- The turn ends in this state. -/
  | stop (s : State)
  /-- The instruction issues in this state. -/
  | issue (i : Instr) (s : State)
  deriving DecidableEq, Repr

/-- The issuing core starts an instruction: what it reads gives the stamp of its accesses and results (R84). -/
def State.startInstr (s : State) (i : Instr) : State := s.upd (fun c => { c with mem := { c.mem with now := c.stampFor i } })

/-- A word fetched: what it is in the mode in force (R147 step 2, Table 07-18), whether it can issue now, and whether a register that it reads
holds an uncorrectable error (R264). -/
def readWord (s : State) (w : BitVec 32) (late : Bool) : Next :=
  let t := { s with word := w, late := late }
  match Decode.word w.toNat with
  | .error _ => .stop (trapEntry t 1 0)
  | .ok d =>
    if s.strict && d.nonzero then .stop (trapEntry t 1 0)
    else if s.me.busy d.instr then .stop s
    else if s.me.upsetRead d.instr then .stop (trapEntry t 11 (BitVec.allOnes 64))
    else .issue d.instr (t.startInstr d.instr)

/-- The turn of the issuing core (R147, R265): nothing while it does not run or waits for leases, a timed slot or its asynchronous trap;
else the word at its program counter. -/
def coreTurn (s : State) (late : Bool) : Next :=
  let c := s.me
  if c.sched.run != .running || !c.sched.wantLease.isEmpty then .stop s
  else match c.asyncTrap with
    | some (cause, tval) => .stop (takeAsync s cause tval)
    | none =>
      match c.sched.hold with
      | .timed _ _ _ => .stop s
      | _ =>
        match fetch s with
        | .fails cause => .stop (trapEntry (discardRecord { s with word := 0 } cause s.pc) cause s.pc)
        | .word t w => readWord t w late

/-! ### The core clock (R315, R112, R247) -/

/-- A member holds a timed instruction whose slot is the current VCC (R112). -/
def Core.pauses (c : Core) (vcc : Word) : Bool :=
  c.sched.run == .running && (match c.sched.hold with
    | .timed t vw _ => !vw && t == vcc
    | .due t vw _ => !vw && t == vcc
    | .stale t _ => t == vcc
    | _ => false)

/-- A caravan after one period: VCC advances or pauses for all members (R112). -/
def Caravan.tick (s : State) (c : Caravan) : Caravan :=
  if c.st == .running && !(s.cluster (clusterOf (c.cores.headD 0))).throttled && c.cores.all (fun g => !(s.core g).pauses c.vcc) then
    { c with vcc := c.vcc + 1 }
  else c

/-- A core after one period: the message of its port is there from now on (R247), and a port that it emptied may be filled (R249). -/
def Core.tick (c : Core) : Core :=
  { c with mail := { c.mail with port := c.mail.port.map (fun p => { p with fresh := false }), emptied := false } }

/-- The Tlanil links that a write of core g may cross: those of the ways from its die to the die of the byte; a wagon is in the core's own
cluster, and the pool and the peers are reached without one (R4). -/
def linksFor (g loc : Nat) : List Nat := if loc < 2 ^ 64 then linksOf (dieOf (clusterOf g)) (dieOfHbm loc) else []

/-- The bound of timed visibility covers a buffered write (R102): not one on its way over a failed link, nor one into a peer while the
timebases are not locked (R103, R281). -/
def State.bounded (s : State) (g : Nat) (w : Write) : Bool :=
  if w.loc ≥ locPeers then s.host.bar0.tsync else !(linksFor g w.loc).any (fun l => s.routes.contains l)

/-- TIME may take a value: it does not run backwards, and no write that the bound covers and that issued in window N is unperformed when
window N + 2 begins (R102, R315). -/
def mayPass (s : State) (t : Nat) : Bool :=
  decide (s.time.toNat ≤ t) && decide (t < 2 ^ 64) &&
    s.cores.all (fun e => e.2.mem.wbuf.all (fun w => !s.bounded e.1 w || decide (s.windowOf (BitVec.ofNat 64 t) < w.win + 2)))

/-- The correction of TIME in a turn of n ticks while it is behind or ahead of its domain: at most 100 parts per million, which the model
uses whole (R315; DESIGN CHOICE, log 67), and the ticks left over toward the next one. -/
def slewStep (h : HostSide) (n : Nat) : Int × Nat :=
  if h.slew = 0 then (0, 0)
  else
    let m := min ((h.credit + n) / 10000) h.slew.natAbs
    (if h.slew < 0 then -(m : Int) else m, (h.credit + n) - 10000 * m)

/-- One period of the core clock passes, and the timebase's oscillator advances by so many ticks (R315). The wait of a tick whose gang has
saved ends at the latest now (R131). While a write is due, the turn changes nothing else (R102). -/
def clockTurn (s0 : State) (ticks : Nat) : State :=
  let s := ticksDone s0
  let c := slewStep s.host ticks
  let t := ((s.time.toNat + ticks : Nat) + c.1).toNat
  if !mayPass s t then s else
  { s with
    cycle := s.cycle + 1,
    time := BitVec.ofNat 64 t,
    host := { s.host with slew := s.host.slew - c.1, credit := if s.host.slew = c.1 then 0 else c.2 },
    caravans := s.caravans.map (fun e => (e.1, e.2.map (Caravan.tick s))),
    cores := s.cores.map (fun e => (e.1, e.2.tick)) }

/-! ### The environment -/

/-- An uncorrectable error arises in the granule of a location of HBM or of a wagon, and its frame or wagon is retired (R264). It arises
while no late read of the granule is pending (DESIGN CHOICE, log 11). -/
def upsetTurn (s : State) (loc : Nat) : State :=
  if (loc < Config.hbmBytes ∨ (2 ^ 64 ≤ loc ∧ loc < 2 ^ 64 + Config.clusters * 2 ^ 25)) ∧
      s.cores.all (fun e => e.2.mem.late.all (fun l => !overlap l.loc l.n (granuleOf loc) (granuleSize loc))) then
    { s with bad := Sparse.set false s.bad (granuleOf loc) true }.retireAt loc
  else s

/-- A health counter takes a value (R283, Table 16-1): AGE 0 to 3, CECNT from 4, LRETRY from 16. It counts from device reset and does not
fall. -/
def healthTurn (s : State) (reg : Nat) (v : Word) : State :=
  let up := fun (m : Sparse Word) (i : Nat) => if (Sparse.get 0 m i).ule v then Sparse.set 0 m i v else m
  { s with host := { s.host with bar0 :=
    if reg < 4 then { s.host.bar0 with age := up s.host.bar0.age reg }
    else if reg < 16 then { s.host.bar0 with cecnt := up s.host.bar0.cecnt (reg - 4) }
    else if reg < 44 then { s.host.bar0 with lretry := up s.host.bar0.lretry (reg - 16) } else s.host.bar0 } }

/-- A key of the registers that a core has (R133): s0 and k0 are no storage. -/
def isRegKey (k : Nat) : Bool := decide (1 ≤ k) && decide (k ≠ 96) && (decide (k < 112) || (decide (128 ≤ k) && decide (k < 128 + 8 * 128)))

/-- A turn of the environment; the other turns change nothing here. -/
def envTurn (s : State) : Turn → State
  | .clock n => clockTurn s n
  | .upset loc => upsetTurn s loc
  | .regUpset g k => if g < Config.cores ∧ isRegKey k then s.updCore g (fun c => { c with regs := { c.regs with upset := c.heal k ++ [k] } }) else s
  | .hostRead off => hostRead s off
  | .throttle cl on => if cl < Config.clusters then s.updCluster cl (fun c => { c with throttled := on }) else s
  | .outside loc v => if 2 * 2 ^ 64 ≤ loc then s.putBytes [(loc, v)] else s
  | .health reg v => healthTurn s reg v
  | .dropLine g line => s.updCore g (fun c => { c with mem := { c.mem with rcache := Sparse.set none c.mem.rcache line none } })
  | .dropTlb cl i => s.updCluster cl (fun c => { c with tlb := c.tlb.eraseIdx i })
  | .dropWalk die i => { s with walks := Sparse.modify [] s.walks die (fun ws => ws.eraseIdx i) }
  | .peerRefuses loc n on => { s with refuses := (s.refuses.filter (fun r => decide (r ≠ (loc, n)))) ++ (if on then [(loc, n)] else []) }
  | .core _ _ => s
  | .event _ => s

/-- The step of an agent other than a core: one of the events, but not LAUNCH, which is the load of a core (R16). -/
def agentStep : Instr → Bool
  | .launch _ _ => false
  | i => i.isEvent

/-! ### Placing a word (for withFetchWord) -/

/-- The issuing core runs a task, holds nothing, has no asynchronous trap due and no register in error. -/
def runnable (s : State) : State :=
  s.upd (fun c => { c with
    mem := { c.mem with late := [] },
    regs := { c.regs with upset := [] },
    sched := { c.sched with
      run := .running, hold := .free, wantLease := [], pfHere := [],
      task := some (c.sched.task.getD { uid := 1, disp := 0, lin := 0, rank := 0, car := 0, part := 0, acct := 0 }) } })

/-- A page of 64 KiB at physical address 0 with every permission, cached for the page of the program counter, and owned. -/
def mapPage (s : State) : State :=
  let page := s.pc.toNat / 65536 * 65536
  let e : TlbEntry := { part := s.myPart, base := page, size := 65536, leaf := 0xDF, entry := 0 }
  let s1 := s.updMyCluster (fun c => { c with tlb := e :: c.tlb.filter (fun t => !(t.part == e.part && t.base == e.base)) })
  s1.updFrames (fun f => { f with owner := Sparse.set none f.owner 0 (some s.myPart), scrub := dropFrame f.scrub 0, clean := dropFrame f.clean 0 })

/-- Puts a word at a location, in memory and in what the issuing core's fetches see. -/
def putWord (s : State) (loc w : Nat) : State :=
  let bs := (List.range 4).map (fun i => (loc + i, byteOf w i))
  let s1 := { s with bad := Sparse.set false s.bad (granuleOf loc) false }.putBytes bs
  s1.upd (fun c => { c with mem := { c.mem with imem := Sparse.setMany 0 c.mem.imem bs } })

/-- A word stored where the issuing core fetches its next instruction; a core that cannot fetch gets a task and a page first. -/
def placeWord (s : State) (w : Nat) : State :=
  let s1 := runnable { s with schedule := [] }
  match fetchPlace s1 with
  | .ok (_, loc) => putWord s1 loc w
  | .error _ => putWord (mapPage s1) (locHbm (s1.pc.toNat % 65536)) w

end Sys2Proof.Machine
end

