-- ==== Sys2Proof/Machine/Step.lean ====
section
/-!
DEFINITION. One step of the machine: the next turn of the schedule, and with an empty schedule the turn of the issuing core (log 1).
-/

namespace Sys2Proof.Machine

/-- A core's turn: the instruction at its program counter, when it can issue. -/
def stepCore (s : State) (late : Bool) : Host.Outcome State Fault Refusal :=
  match coreTurn s late with
  | .stop t => .next t
  | .issue i t => exec i t

/-- One turn. -/
def stepTurn (s : State) : Turn → Host.Outcome State Fault Refusal
  | .core g late => if g < Config.cores then stepCore { s with cur := g } late else .fault .noSuchAgent
  | .event e => if agentStep e then exec e s else .fault .noSuchAgent
  | t => .next (envTurn s t)

/-- One step. -/
def step (s : State) : Host.Outcome State Fault Refusal :=
  match s.schedule with
  | [] => stepCore s false
  | t :: l => stepTurn { s with schedule := l } t

/-- The state with an instruction stored where step fetches its next one (R143: one 32-bit word). -/
def State.withFetchWord (s : State) (nbits w : Nat) : State := placeWord s (w % 2 ^ nbits)

end Sys2Proof.Machine
end

