-- ==== Sys2Proof/Safety.lean ====
section
/-!
DEFINITION. The terms of the statements: what an instruction leaves unchanged, and what the tables of the spec give as results.
-/

namespace Sys2Proof.Machine

/-! ### Frames -/

/-- A part of a core that an instruction may change. -/
inductive CorePart where
  /-- The program counter, and how far the waiting instruction has got. -/
  | pc
  /-- The privilege. -/
  | sup
  | scalars
  | vectors
  | masks
  | walkers
  | means
  | pairs
  | csrs
  /-- The hitch table. -/
  | hitch
  | windows
  /-- Inbox, held messages, receive queue, receive port. -/
  | mail
  /-- The copy channels. -/
  | channels
  /-- The stagecoach registers. -/
  | coach
  /-- The observed generations of lines, and the stamp of the last read of a clock (R102). -/
  | observed
  /-- Accesses issued and not performed. -/
  | pending
  /-- The read cache, and the stamps of its fills and of the instruction. -/
  | cache
  /-- The memory that fetches see. -/
  | fetched
  /-- The task-side state. -/
  | task
  deriving DecidableEq, Repr

/-- A part of the device beside the cores. -/
inductive DevPart where
  | caravans
  | launches
  | clusters
  | queues
  | partitions
  | rotations
  | memory
  /-- The granules that hold an uncorrectable error. -/
  | errors
  | frames
  | host
  /-- CYCLE and TIME. -/
  | clocks
  /-- What the model keeps for itself: the issuing core, its word, the count of open values, the schedule, the next number. -/
  | model
  /-- The walk caches of the dies. -/
  | walkCaches
  /-- The requests that wait for a budget. -/
  | requests
  /-- The routes, what the peers refuse, the selection order of queues, the reservation window. -/
  | other
  deriving DecidableEq, Repr

/-- Two cores agree in the stamps and the errors of the registers of some keys. -/
def Core.sameKeys (c e : Core) (lo hi : Nat) : Prop :=
  ∀ k, lo ≤ k → k < hi → c.stamp k = e.stamp k ∧ c.regs.upset.contains k = e.regs.upset.contains k

/-- Two cores agree in a part. -/
def Core.same (c e : Core) : CorePart → Prop
  | .pc => c.pc = e.pc ∧ c.sched.hold = e.sched.hold
  | .sup => c.sup = e.sup
  | .scalars => c.regs.s = e.regs.s ∧ c.sameKeys e 0 64
  | .vectors => c.regs.v = e.regs.v ∧ c.sameKeys e 64 96
  | .masks => c.regs.k = e.regs.k ∧ c.sameKeys e 96 104
  | .walkers => c.regs.w = e.regs.w ∧ c.sameKeys e 104 112
  | .means => c.regs.m = e.regs.m ∧ c.sameKeys e 112 1152
  | .pairs => c.regs.pairs = e.regs.pairs
  | .csrs => c.csr = e.csr
  | .hitch => c.hitch = e.hitch
  | .windows => c.wins = e.wins
  | .mail => c.mail = e.mail
  | .channels => c.chans = e.chans
  | .coach => c.sc = e.sc
  | .observed => c.obs = e.obs ∧ c.mem.timed = e.mem.timed
  | .pending => c.mem.wbuf = e.mem.wbuf ∧ c.mem.late = e.mem.late ∧ c.mem.seq = e.mem.seq
  | .cache => c.mem.rcache = e.mem.rcache ∧ c.mem.tick = e.mem.tick ∧ c.mem.now = e.mem.now
  | .fetched => c.mem.imem = e.mem.imem
  | .task => { c.sched with hold := .free } = { e.sched with hold := .free }

/-- Two states agree in a part of the device. -/
def State.same (s t : State) : DevPart → Prop
  | .caravans => s.caravans = t.caravans
  | .launches => s.disps = t.disps
  | .clusters => s.clusters = t.clusters
  | .queues => s.queues = t.queues
  | .partitions => s.parts = t.parts
  | .rotations => s.rots = t.rots
  | .memory => s.mem = t.mem
  | .errors => s.bad = t.bad
  | .frames => s.frames = t.frames
  | .host => s.host = t.host
  | .clocks => s.cycle = t.cycle ∧ s.time = t.time
  | .model => s.cur = t.cur ∧ s.word = t.word ∧ s.late = t.late ∧ s.free = t.free ∧ s.schedule = t.schedule ∧ s.nextId = t.nextId
  | .walkCaches => s.walks = t.walks
  | .requests => s.asks = t.asks
  | .other => s.routes = t.routes ∧ s.refuses = t.refuses ∧ s.rr = t.rr ∧ s.w = t.w

/-- From `s` to `t` nothing changes but the parts `cs` of core `g` and the parts `ds` of the device: every other part of the device, every
other core and every other register of core `g` is the same, and so is every byte of memory unless memory is among the parts. -/
structure Keeps (s t : State) (g : Nat) (cs : List CorePart) (ds : List DevPart) : Prop where
  device : ∀ p, p ∉ ds → s.same t p
  others : ∀ j, j ≠ g → t.core j = s.core j
  core : ∀ p, p ∉ cs → (s.core g).same (t.core g) p
  memory : DevPart.memory ∉ ds → ∀ loc, t.byte loc = s.byte loc

/-- Scalar register `d` of the issuing core takes `v`, and no other changes; s0 discards the write and reads zero (R134). -/
def ScalarIs (s t : State) (d : Nat) (v : Word) : Prop := ∀ r, t.me.getS r = if r = d ∧ d ≠ 0 then v else s.me.getS r
/-- Vector register `d` of the issuing core takes `v`, and no other changes. -/
def VectorIs (s t : State) (d : Nat) (v : VReg) : Prop := ∀ r, t.me.getV r = if r = d then v else s.me.getV r
/-- Mask register `d` of the issuing core takes `v`, and no other changes; k0 discards the write and reads all ones (R136). -/
def MaskIs (s t : State) (d : Nat) (v : KReg) : Prop := ∀ r, t.me.getK r = if r = d ∧ d ≠ 0 then v else s.me.getK r
/-- Walker `w` of the issuing core takes `v`, and no other changes. -/
def WalkerIs (s t : State) (w : Nat) (v : Walker) : Prop := ∀ r, t.me.getW r = if r = w then v else s.me.getW r

/-- The whole effect: scalar register `d` takes `v`, the program counter goes to `pc`. -/
def WritesScalar (s t : State) (d : Nat) (v pc : Word) : Prop := ScalarIs s t d v ∧ t.pc = pc ∧ Keeps s t s.cur [.pc, .scalars] []
/-- The whole effect: the program counter goes to `pc`. -/
def OnlyGoes (s t : State) (pc : Word) : Prop := t.pc = pc ∧ Keeps s t s.cur [.pc] []

/-- A trap is taken at the handler's address, without the fatal path (R259). -/
structure TakesTrap (s t : State) (cause : Nat) (tval : Word) : Prop where
  tcause : t.me.csr.tcause = BitVec.ofNat 64 cause
  tval   : t.me.csr.tval = tval
  tepc   : t.me.csr.tepc = s.pc
  tword  : t.me.csr.tword = s.word.setWidth 64
  tstat  : t.me.csr.tstat = if s.me.sup then 3 else 2
  pc     : t.pc = s.me.csr.tvec + BitVec.ofNat 64 (128 * cause)
  csrs   : t.me.csr = { s.me.csr with tcause := t.me.csr.tcause, tval := t.me.csr.tval, tepc := t.me.csr.tepc, tword := t.me.csr.tword,
                                      tstat := t.me.csr.tstat }
  sched  : t.me.sched = { s.me.sched with hold := .free }
  keeps  : Keeps s t s.cur [.pc, .csrs] []

/-- A trap taken now reaches its handler: TSTAT.NEST is 0, TVEC is not 0 (R259). -/
def handled (s : State) : Bool := !s.me.csr.tstat.getLsbD 1 && s.me.csr.tvec != 0

/-! ### Results of the integer instructions, from Tables 08-2 to 08-5 -/

/-- The word of an integer, modulo 2^64. -/
def wordOf (x : Int) : Word := BitVec.ofInt 64 x

/-- The destination and the result of an instruction of Tables 08-2 to 08-5 other than a division (R150 to R153). -/
def scalarResult (s : State) (i : Instr) : Option (BitVec 6 × Word) :=
  let u := fun (r : BitVec 6) => (s.getS r).toNat
  let z := fun (r : BitVec 6) => (s.getS r).toInt
  let sh := fun (r : BitVec 6) => (s.getS r).toNat % 64
  let bit := fun (c : Bool) => if c then (1 : Word) else 0
  match i with
  | .add d a b => some (d, BitVec.ofNat 64 (u a + u b))
  | .sub d a b => some (d, wordOf (z a - z b))
  | .andR d a b => some (d, s.getS a &&& s.getS b)
  | .orR d a b => some (d, s.getS a ||| s.getS b)
  | .xorR d a b => some (d, s.getS a ^^^ s.getS b)
  | .andn d a b => some (d, s.getS a &&& ~~~(s.getS b))
  | .shl d a b => some (d, BitVec.ofNat 64 (u a * 2 ^ sh b))
  | .shr d a b => some (d, BitVec.ofNat 64 (u a / 2 ^ sh b))
  | .shra d a b => some (d, wordOf (z a / 2 ^ sh b))
  | .ror d a b => some (d, BitVec.ofNat 64 (u a / 2 ^ sh b + u a * 2 ^ (64 - sh b)))
  | .minS d a b => some (d, wordOf (min (z a) (z b)))
  | .maxS d a b => some (d, wordOf (max (z a) (z b)))
  | .minu d a b => some (d, BitVec.ofNat 64 (min (u a) (u b)))
  | .maxu d a b => some (d, BitVec.ofNat 64 (max (u a) (u b)))
  | .slt d a b => some (d, bit (decide (z a < z b)))
  | .sltu d a b => some (d, bit (decide (u a < u b)))
  | .seq d a b => some (d, bit (decide (u a = u b)))
  | .addi d a i => some (d, wordOf (z a + i.toInt))
  | .andi d a i => some (d, s.getS a &&& wordOf i.toInt)
  | .ori d a i => some (d, s.getS a ||| BitVec.ofNat 64 i.toNat)
  | .xori d a i => some (d, s.getS a ^^^ BitVec.ofNat 64 i.toNat)
  | .slti d a i => some (d, bit (decide (z a < i.toInt)))
  | .sltui d a i => some (d, bit (decide (u a < (wordOf i.toInt).toNat)))
  | .shli d a n => some (d, BitVec.ofNat 64 (u a * 2 ^ n.toNat))
  | .shri d a n => some (d, BitVec.ofNat 64 (u a / 2 ^ n.toNat))
  | .shrai d a n => some (d, wordOf (z a / 2 ^ n.toNat))
  | .rori d a n => some (d, BitVec.ofNat 64 (u a / 2 ^ n.toNat + u a * 2 ^ (64 - n.toNat)))
  | .lui d i => some (d, wordOf (i.toInt * 2 ^ 13))
  | .addpc d i => some (d, wordOf (s.pc.toNat + i.toInt * 2 ^ 13))
  | .mul d a b => some (d, BitVec.ofNat 64 (u a * u b))
  | .mulh d a b => some (d, wordOf (z a * z b / 2 ^ 64))
  | .mulhu d a b => some (d, BitVec.ofNat 64 (u a * u b / 2 ^ 64))
  | .madd d a b => some (d, BitVec.ofNat 64 (u a * u b + u d))
  | .sel d a b => some (d, if u d ≠ 0 then s.getS a else s.getS b)
  | .clz d a => some (d, BitVec.ofNat 64 (((List.range 64).takeWhile (fun k => !(s.getS a).getLsbD (63 - k))).length))
  | .ctz d a => some (d, BitVec.ofNat 64 (((List.range 64).takeWhile (fun k => !(s.getS a).getLsbD k)).length))
  | .popc d a => some (d, BitVec.ofNat 64 (((List.range 64).filter (s.getS a).getLsbD).length))
  | .brev d a => some (d, (s.getS a).reverse)
  | .sextb d a => some (d, wordOf ((s.getS a).setWidth 8).toInt)
  | .sexth d a => some (d, wordOf ((s.getS a).setWidth 16).toInt)
  | .sextw d a => some (d, wordOf ((s.getS a).setWidth 32).toInt)
  | .bfx d a p l => some (d, wordOf ((s.getS a).extractLsb' p.toNat (l.toNat + 1)).toInt)
  | .bfxu d a p l => some (d, BitVec.ofNat 64 (u a / 2 ^ p.toNat % 2 ^ (l.toNat + 1)))
  | .bfi d a p l =>
    let n := l.toNat + 1
    some (d, BitVec.ofNat 64 (u d / 2 ^ (p.toNat + n) * 2 ^ (p.toNat + n) + u a % 2 ^ n * 2 ^ p.toNat + u d % 2 ^ p.toNat))
  | _ => none

/-! ### Control transfer and CSRs -/

/-- The condition and the offset of a branch (R154). -/
def branchOf (s : State) : Instr → Option (Bool × BitVec 11)
  | .brEq a b i => some (decide ((s.getS a).toInt = (s.getS b).toInt), i)
  | .brNe a b i => some (decide ((s.getS a).toInt ≠ (s.getS b).toInt), i)
  | .brLt a b i => some (decide ((s.getS a).toInt < (s.getS b).toInt), i)
  | .brGe a b i => some (decide ((s.getS a).toInt ≥ (s.getS b).toInt), i)
  | .brLtu a b i => some (decide ((s.getS a).toNat < (s.getS b).toNat), i)
  | .brGeu a b i => some (decide ((s.getS a).toNat ≥ (s.getS b).toNat), i)
  | _ => none

/-- A word offset from the instruction's own address (Table 07-20). -/
def target (s : State) {n : Nat} (i : BitVec n) : Word := wordOf (s.pc.toNat + 4 * i.toInt)

/-- The writable CSRs but BWSTAT and MODE, with the bits that are not reserved (Table 07-4). -/
def csrBits : List (Nat × Word) :=
  [(0x000, 0xF), (0x001, 0x1F1F), (0x002, 0xFFFFFFFFFFFFFFFF), (0x003, 1), (0x010, 0xFFFFFFFFFFFFF000), (0x011, 0x1F), (0x012, 0xFFFFFFFFFFFFFFFF),
   (0x013, 0xFFFFFFFFFFFFFFFF), (0x014, 0xFFFFFFFF), (0x015, 3), (0x016, 0xFFFFFFFFFFFFFFFF), (0x030, 0xFF01), (0x031, 0x803F00FF)]

/-- The listed CSR indices (Table 07-4). -/
def csrListed : List Nat :=
  [0x000, 0x001, 0x002, 0x003, 0x010, 0x011, 0x012, 0x013, 0x014, 0x015, 0x016, 0x020, 0x021, 0x030, 0x031, 0x032, 0x033, 0x040, 0x041, 0x042,
   0x043, 0x044, 0x050, 0x060, 0x061, 0x080]

/-- The CSRs that are read-only at every privilege (Table 07-4). -/
def csrFixed : List Nat := [0x020, 0x021, 0x032, 0x040, 0x041, 0x042, 0x043, 0x044, 0x050, 0x060, 0x061]

/-! ### Loads, stores and atomics -/

/-- The walker that a base address operand names has taken its step; every other walker is the same (R134, R157). -/
def StepsWalker (s t : State) (a : BitVec 6) : Prop :=
  ∀ j, t.me.getW j = if s.me.walks a.toNat = true ∧ j = a.toNat - 48 then (s.me.getW j).advance else s.me.getW j

/-- A scalar load with an immediate: destination, base register, address, width in bytes, sign extension (R159). -/
def loadForm (s : State) : Instr → Option (BitVec 6 × BitVec 6 × Word × Nat × Bool)
  | .ldb d a i => some (d, a, BitVec.ofNat 64 ((s.base a).toNat + i.toNat), 1, true)
  | .ldbu d a i => some (d, a, BitVec.ofNat 64 ((s.base a).toNat + i.toNat), 1, false)
  | .ldh d a i => some (d, a, BitVec.ofNat 64 ((s.base a).toNat + 2 * i.toNat), 2, true)
  | .ldhu d a i => some (d, a, BitVec.ofNat 64 ((s.base a).toNat + 2 * i.toNat), 2, false)
  | .ldw d a i => some (d, a, BitVec.ofNat 64 ((s.base a).toNat + 4 * i.toNat), 4, true)
  | .ldwu d a i => some (d, a, BitVec.ofNat 64 ((s.base a).toNat + 4 * i.toNat), 4, false)
  | .ldd d a i => some (d, a, BitVec.ofNat 64 ((s.base a).toNat + 8 * i.toNat), 8, false)
  | _ => none

/-- A scalar store: data register, base register, address, width in bytes (R160). -/
def storeForm (s : State) : Instr → Option (BitVec 6 × BitVec 6 × Word × Nat)
  | .stb d a i => some (d, a, BitVec.ofNat 64 ((s.base a).toNat + i.toNat), 1)
  | .sth d a i => some (d, a, BitVec.ofNat 64 ((s.base a).toNat + 2 * i.toNat), 2)
  | .stw d a i => some (d, a, BitVec.ofNat 64 ((s.base a).toNat + 4 * i.toNat), 4)
  | .std d a i => some (d, a, BitVec.ofNat 64 ((s.base a).toNat + 8 * i.toNat), 8)
  | _ => none

/-- A number of n bytes as a register holds it (R159). -/
def loadedWord (n : Nat) (signed : Bool) (v : Nat) : Word := if signed then wordOf (BitVec.ofNat (8 * n) v).toInt else BitVec.ofNat 64 v

/-- Neither PEND at 255 nor a copy's watermark holds an access to n bytes at a place (R36, R50). -/
def unheld (s : State) (a : Word) (p : Place) (n : Nat) : Bool := !s.pendFull p && !s.wmStall s.cur a.toNat (a.toNat + n - 1)

/-- A load of n bytes can be performed: nothing holds it, no byte meets an uncorrectable error (R264), no earlier read that it follows is
pending (R83, R85 case 9), and its account has the bandwidth left (R128). -/
def loadReady (s : State) (a : Word) (p : Place) (n : Nat) : Bool :=
  unheld s a p n && !s.badNow p n && s.me.readable p n && (s.chargeList (s.readAsks p n)).isSome

/-- A store of n bytes can be issued: nothing holds it, no interlock of Table 04-7 is met (R91). -/
def storeReady (s : State) (a : Word) (p : Place) (n : Nat) : Bool := unheld s a p n && s.interlock s.cur a.toNat (a.toNat + n - 1) == .go

/-- An atomic of n bytes can be performed: as a store, with no earlier read of the core, no store of it to these bytes and, for an uncached
one, no uncached store of it pending, no error in its bytes, and its bandwidth left (R83, R85, R128, R264). -/
def atomicReady (s : State) (a : Word) (p : Place) (n : Nat) : Bool :=
  storeReady s a p n && s.me.mem.late.isEmpty && !s.me.mem.wbuf.any (fun e => overlap e.loc e.n p.loc n || (p.mtype == 2 && e.mtype == 2)) &&
    !s.hasBad p.loc n && (s.chargeList (hbmAsks s s.atIssue s.cur p.loc n)).isSome

/-- The order half of an atomic can be performed: an acquire after the core's releases, hand-overs and drops (R85 case 7), a release after its stores (case 6). -/
def orderReady (s : State) (o : BitVec 2) (stores : Bool) : Bool :=
  (!o.getLsbD 0 || (!s.me.mem.wbuf.any (fun e => e.rel) && !s.me.giving)) && (!(stores && o.getLsbD 1) || (s.me.mem.wbuf.isEmpty && s.me.sched.pfWay.isEmpty))

/-- An integer atomic of 8 bytes: destination, base, order, scope, and the value it leaves of the old one (R162). -/
def atomicForm (s : State) : Instr → Option (BitVec 6 × BitVec 6 × BitVec 2 × BitVec 3 × (Word → Word))
  | .aadd d a b o x => some (d, a, o, x, fun m => BitVec.ofNat 64 (m.toNat + (s.getS b).toNat))
  | .aand d a b o x => some (d, a, o, x, fun m => m &&& s.getS b)
  | .aor d a b o x => some (d, a, o, x, fun m => m ||| s.getS b)
  | .axor d a b o x => some (d, a, o, x, fun m => m ^^^ s.getS b)
  | .amin d a b o x => some (d, a, o, x, fun m => wordOf (min m.toInt (s.getS b).toInt))
  | .amax d a b o x => some (d, a, o, x, fun m => wordOf (max m.toInt (s.getS b).toInt))
  | .aminu d a b o x => some (d, a, o, x, fun m => BitVec.ofNat 64 (min m.toNat (s.getS b).toNat))
  | .amaxu d a b o x => some (d, a, o, x, fun m => BitVec.ofNat 64 (max m.toNat (s.getS b).toNat))
  | .aswp d a b o x => some (d, a, o, x, fun _ => s.getS b)
  | _ => none

/-- The kind, the address and the width of a scalar memory access by its form (R159 to R163, R257); LDD and STD of the event lines and of the
copy channels are none. -/
def accessForm (s : State) (i : Instr) : Option (Access × Word × Nat) :=
  match loadForm s i with
  | some (_, _, x, n, _) => if n = 8 ∧ (spaceOf x = 0xE8 ∨ spaceOf x = 0xEC) then none else some (.load, x, n)
  | none =>
    match storeForm s i with
    | some (_, _, x, n) => if n = 8 ∧ spaceOf x = 0xEC then none else some (.store, x, n)
    | none =>
      match i with
      | .ldAcq _ a _ w _ => some (.load, s.base a, 2 ^ w.toNat)
      | .stRel _ a w _ => some (.store, s.base a, 2 ^ w.toNat)
      | .xchk _ a _ => some (.load, s.base a, 8)
      | .acas _ a _ _ _ => some (.atomic, s.base a, 8)
      | .afadd _ a _ _ _ => some (.atomic, s.base a, 4)
      | j => (atomicForm s j).map (fun f => (.atomic, s.base f.2.1, 8))

/-- What comes before the checks of an access: a release store waits for the core's stores (R85), AFADD samples RMODE (R66). -/
def accessGate (s : State) : Instr → Bool
  | .stRel _ _ _ _ => s.me.mem.wbuf.isEmpty && s.me.sched.pfWay.isEmpty
  | .afadd _ _ _ _ _ => !(s.strict && (decide (s.me.csr.rmode.toNat % 8 ≥ 6) || (s.me.csr.rmode.toNat % 8 == 1 && !s.feature 5)))
  | _ => true

/-- A location of the dirty bitmap in use, which any write may set a bit of (R282). -/
def inBitmap (s : State) (j : Nat) : Bool := s.feature 7 && decide (s.dirtyBase ≤ j) && decide (j ≤ s.dirtyBase + Config.frames / 8)

/-- The n bytes at a location hold a number, least significant byte first (R6). -/
def BytesAre (s : State) (loc n v : Nat) : Prop :=
  ∀ i, i < n → inBitmap s (loc + i) = false → s.byte (loc + i) = BitVec.ofNat 8 (v / 2 ^ (8 * i))

/-- Every byte outside n bytes at a location, and outside the dirty bitmap in use, reads as before. -/
def OnlyBytes (s t : State) (loc n : Nat) : Prop := ∀ j, j < loc ∨ loc + n ≤ j → inBitmap s j = false → t.byte j = s.byte j

/-- The rounding mode can be sampled: outside strict mode every code, in strict mode the codes 0 to 5, SR with feature 5 alone (R66, R275). -/
def modeOk (s : State) : Bool :=
  let code := s.me.csr.rmode.toNat % 8
  !(s.strict && (decide (code ≥ 6) || (code == 1 && !s.feature 5)))

/-! ### Vector instructions -/

/-- The low w bits of an integer. -/
def bitsOf (w : Nat) (x : Int) : Nat := (BitVec.ofInt w x).toNat

/-- The elements of vector register `d` of the issuing core are `f` in a width, and every other vector register is the same. -/
def ElemsAre (s t : State) (d w : Nat) (f : Nat → Nat) : Prop :=
  (∀ j, j < elemCount w → elem (t.me.getV d) w j = f j) ∧ ∀ r, r ≠ d → t.me.getV r = s.me.getV r

/-- Destination, type and elements of an instruction of Tables 09-4 to 09-6 and 09-8 that raises no flag (R175 to R179, R191). -/
def intForm (s : State) (i : Instr) : Option (BitVec 5 × BitVec 4 × (Nat → Nat)) :=
  let u := fun (t : BitVec 4) (r : BitVec 5) (j : Nat) => elem (s.getV r) (typeWidth t) j
  let z := fun (t : BitVec 4) (r : BitVec 5) (j : Nat) => (BitVec.ofNat (typeWidth t) (u t r j)).toInt
  let sh := fun (t : BitVec 4) (r : BitVec 5) (j : Nat) => u t r j % typeWidth t
  let form := fun (d : BitVec 5) (k : BitVec 3) (t : BitVec 4) (f : Nat → Nat) =>
    some (d, t, fun j => if active (s.getK k) (typeWidth t) j then f j else u t d j)
  match i with
  | .viadd d a b k t => form d k t (fun j => bitsOf (typeWidth t) (z t a j + z t b j))
  | .visub d a b k t => form d k t (fun j => bitsOf (typeWidth t) (z t a j - z t b j))
  | .vimul d a b k t => form d k t (fun j => bitsOf (typeWidth t) (z t a j * z t b j))
  | .vimad d a b k t => form d k t (fun j => bitsOf (typeWidth t) (z t a j * z t b j + z t d j))
  | .vimin d a b k t => form d k t (fun j => bitsOf (typeWidth t) (min (z t a j) (z t b j)))
  | .vimax d a b k t => form d k t (fun j => bitsOf (typeWidth t) (max (z t a j) (z t b j)))
  | .viminu d a b k t => form d k t (fun j => min (u t a j) (u t b j))
  | .vimaxu d a b k t => form d k t (fun j => max (u t a j) (u t b j))
  | .vishl d a b k t => form d k t (fun j => bitsOf (typeWidth t) (z t a j * 2 ^ sh t b j))
  | .vishr d a b k t => form d k t (fun j => u t a j / 2 ^ sh t b j)
  | .vishra d a b k t => form d k t (fun j => bitsOf (typeWidth t) (z t a j / 2 ^ sh t b j))
  | .vand d a b k t => form d k t (fun j => u t a j &&& u t b j)
  | .vor d a b k t => form d k t (fun j => u t a j ||| u t b j)
  | .vxor d a b k t => form d k t (fun j => u t a j ^^^ u t b j)
  | .vnot d a k t => form d k t (fun j => 2 ^ typeWidth t - 1 - u t a j)
  | .vperm d a b k t =>
    form d k t (fun j => u t a (if t = 7 then u t b j % 256 + 256 * (j / 256) else u t b j % elemCount (typeWidth t)))
  | .vslide d a n k t => form d k t (fun j => if j + n.toNat < elemCount (typeWidth t) then u t a (j + n.toNat) else 0)
  | .vbcast d a n k t => form d k t (fun _ => u t a n.toNat)
  | .vsel d a b k t => some (d, t, fun j => if active (s.getK k) (typeWidth t) j then u t a j else u t b j)
  | .vmov d a k t => form d (k.setWidth 3) t (u t a)
  | .vmovS d b k t => form d (k.setWidth 3) t (fun _ => (s.getS b).toNat % 2 ^ typeWidth t)
  | _ => none

/-- An element-wise instruction that may raise flags: destination, mask, width, whether it rounds under RMODE, and the bits and flags of an
element from its index and its draw (R171, R174, R175, R182). -/
def flagForm (s : State) (i : Instr) : Option (BitVec 5 × KReg × Nat × Bool × (Nat → Nat → Nat × Nat)) :=
  let v := fun (t : BitVec 4) (r : BitVec 5) (j : Nat) => elemVal t (s.getV r) j
  let u := fun (t : BitVec 4) (r : BitVec 5) (j : Nat) => elem (s.getV r) (typeWidth t) j
  let z := fun (t : BitVec 4) (r : BitVec 5) (j : Nat) => (BitVec.ofNat (typeWidth t) (u t r j)).toInt
  let rounds := fun (d : BitVec 5) (k : BitVec 3) (t : BitVec 4) (f : Nat → Val × Nat) =>
    some (d, s.getK k, typeWidth t, true, fun j g => roundIn s t g (f j))
  let raw := fun (d : BitVec 5) (k : BitVec 3) (t : BitVec 4) (f : Nat → Nat × Nat) => some (d, s.getK k, typeWidth t, false, fun j (_ : Nat) => f j)
  let conv := fun (d : BitVec 5) (k : BitVec 3) (t ts : BitVec 4) (f : Nat → Nat) =>
    some (d, s.getK k, typeWidth t, convRounds t ts, fun j g => convElem s t ts g (f j))
  match i with
  | .vadd d a b k t => rounds d k t (fun j => addVal s.mode (v t a j) (v t b j))
  | .vsub d a b k t => rounds d k t (fun j => addVal s.mode (v t a j) (negVal (v t b j)))
  | .vmul d a b k t => rounds d k t (fun j => mulVal (v t a j) (v t b j))
  | .vfma d a b k t => rounds d k t (fun j => fmaVal s.mode (v t a j) (v t b j) (v t d j))
  | .vfms d a b k t => rounds d k t (fun j => fmaVal s.mode (v t a j) (v t b j) (negVal (v t d j)))
  | .vfnma d a b k t => rounds d k t (fun j => fmaVal s.mode (negVal (v t a j)) (v t b j) (v t d j))
  | .vdiv d a b k t => rounds d k t (fun j => divVal (v t a j) (v t b j))
  | .vsqrt d a k t => rounds d k t (fun j => sqrtVal (v t a j))
  | .vrcp d a k t => rounds d k t (fun j => divVal (.fin false 1 1 0) (v t a j))
  | .vexp2 d a k t => rounds d k t (fun j => exp2Val (v t a j))
  | .vlog2 d a k t => rounds d k t (fun j => log2Val (v t a j))
  | .vmin d a b k t => raw d k t (fun j => fpPick false t (u t a j) (u t b j))
  | .vmax d a b k t => raw d k t (fun j => fpPick true t (u t a j) (u t b j))
  | .vabs d a k t => raw d k t (fun j => (u t a j % 2 ^ (typeWidth t - 1), 0))
  | .vneg d a k t => raw d k t (fun j => (u t a j ^^^ 2 ^ (typeWidth t - 1), 0))
  | .viadds d a b k t => raw d k t (fun j =>
      let x := z t a j + z t b j
      let m : Int := 2 ^ (typeWidth t - 1)
      (bitsOf (typeWidth t) (max (-m) (min (m - 1) x)), if x < -m ∨ m - 1 < x then 1 else 0))
  | .vcvt d a ts k t => conv d k t ts (u ts a)
  | .vnarrow d a ts k t => conv d k t ts (fun j => elem (s.me.getV (a.toNat + j / elemCount (typeWidth ts))) (typeWidth ts) (j % elemCount (typeWidth ts)))
  | _ => none

/-- The draw of element j: the generator after one step for each active element up to j, in lane order (R68). -/
def laneDraw (s : State) (k : KReg) (w j : Nat) : Nat := srDraw (srAdvance ((List.range (j + 1)).filter (active k w)).length s.me.csr.srseed)

/-- The flags of the active elements together. -/
def flagsOf (k : KReg) (w : Nat) (f : Nat → Nat) : Nat := ((List.range (elemCount w)).filter (active k w)).foldl (fun a j => a ||| f j) 0

/-- FFLAGS collects flags, SRSEED takes n steps, no other CSR changes (R68, R71). -/
def FlagsAre (s t : State) (flags n : Nat) : Prop :=
  t.me.csr = { s.me.csr with fflags := s.me.csr.fflags ||| BitVec.ofNat 64 (flags % 32), srseed := srAdvance n s.me.csr.srseed }

/-- A compare: destination, mask, type, result and flags of an element (Table 09-5). -/
def compareForm (s : State) (i : Instr) : Option (BitVec 3 × KReg × BitVec 4 × (Nat → Bool × Nat)) :=
  let form := fun (d : BitVec 3) (a b : BitVec 5) (k : BitVec 3) (t : BitVec 4) (fp : Val → Val → Bool) (nan any : Bool)
      (int : Int → Int → Bool) (nat : Nat → Nat → Bool) =>
    some (d, s.getK k, t, fun j =>
      let x := elem (s.getV a) (typeWidth t) j
      let y := elem (s.getV b) (typeWidth t) j
      if t.toNat ≥ 5 then (int (BitVec.ofNat (typeWidth t) x).toInt (BitVec.ofNat (typeWidth t) y).toInt && nat x y, 0)
      else
        let f := fmtOfType t
        let p := decodeVal f x
        let q := decodeVal f y
        if isNan p || isNan q then (nan, if any || isSig p || isSig q then 1 else 0) else (fp p q, 0))
  match i with
  | .vcmpEq d a b k t => form d a b k t eqVal false false (fun x y => decide (x = y)) (fun _ _ => true)
  | .vcmpNe d a b k t => form d a b k t (fun x y => !eqVal x y) true false (fun x y => decide (x ≠ y)) (fun _ _ => true)
  | .vcmpLt d a b k t => form d a b k t ltVal false true (fun x y => decide (x < y)) (fun _ _ => true)
  | .vcmpLe d a b k t => form d a b k t (fun x y => !ltVal y x) false true (fun x y => decide (x ≤ y)) (fun _ _ => true)
  | .vcmpLtu d a b k t => form d a b k t (fun _ _ => false) false false (fun _ _ => true) (fun x y => decide (x < y))
  | .vcmpLeu d a b k t => form d a b k t (fun _ _ => false) false false (fun _ _ => true) (fun x y => decide (x ≤ y))
  | .vcmpUn d a b k t => form d a b k t (fun _ _ => false) true false (fun _ _ => false) (fun _ _ => true)
  | _ => none

/-- The active elements of a mask, ascending. -/
def activeList (k : KReg) (w : Nat) : List Nat := (List.range (elemCount w)).filter (active k w)

/-- A vector access: register, base register, mask, bytes of an element, whether it is contiguous, base address, address of an element
(R185). -/
structure VAccess where
  d    : BitVec 5
  a    : BitVec 6
  k    : KReg
  nb   : Nat
  run  : Bool
  base : Word
  addr : Nat → Word

/-- The active elements of an access with their addresses. -/
def vecList (x : VAccess) : List (Nat × Word) := (activeList x.k (8 * x.nb)).map (fun j => (j, x.addr j))

/-- The accesses of VLD, VLDS and VLDG, and of VLDX by a livery of no format (R186); of VST, VSTS and VSTG when `st` is set (R185). -/
def vecForm (s : State) (st : Bool) (i : Instr) : Option VAccess :=
  let line := fun (d : BitVec 5) (a b : BitVec 6) (k w : BitVec 3) =>
    some { d := d, a := a, k := s.getK k, nb := 2 ^ w.toNat, run := true, base := s.base a + s.getS b,
           addr := fun j => BitVec.ofNat 64 ((s.base a).toNat + (s.getS b).toNat + j * 2 ^ w.toNat) : VAccess }
  let stride := fun (d : BitVec 5) (a b : BitVec 6) (k w : BitVec 3) =>
    some { d := d, a := a, k := s.getK k, nb := 2 ^ w.toNat, run := false, base := s.base a,
           addr := fun j => wordOf ((s.base a).toNat + j * (s.getS b).toInt) : VAccess }
  let gather := fun (d : BitVec 5) (a : BitVec 6) (b : BitVec 5) (k : BitVec 3) (w : BitVec 1) =>
    let nb := if w = 0 then 4 else 8
    some { d := d, a := a, k := s.getK k, nb := nb, run := false, base := s.base a,
           addr := fun j => wordOf ((s.base a).toNat + (BitVec.ofNat (8 * nb) (elem (s.getV b) (8 * nb) j)).toInt) : VAccess }
  match st, i with
  | false, .vld d a b k w => line d a b k w
  | false, .vlds d a b k w => stride d a b k w
  | false, .vldg d a b k w => gather d a b k w
  | false, .vldx d a b k ty =>
    let x := s.base a
    let n := x.toNat / 2 ^ 18 % 32
    let f := ((s.cluster (clusterOf s.cur)).wagon (s.me.slot n).wagon).livery.toNat % 256
    let nb := if ty = 0 then 4 else 2
    if spaceOf x = 0xE0 ∧ x.toNat % 2 ^ 56 < 2 ^ 23 ∧ x.toNat % 2 ^ 18 = 0 ∧ (s.me.slot n).st = .attached ∧ (f = 0 ∨ f = 12) ∧ ty.toNat ≤ 2 then
      some { d := d, a := a, k := s.getK k, nb := nb, run := true, base := BitVec.ofNat 64 (x.toNat + (s.getS b).toNat * nb),
             addr := fun j => BitVec.ofNat 64 (x.toNat + ((s.getS b).toNat + j) * nb) : VAccess }
    else none
  | true, .vst d a b k w => line d a b k w
  | true, .vsts d a b k w => stride d a b k w
  | true, .vstg d a b k w => gather d a b k w
  | _, _ => none

/-- What comes before the checks of a vector access: VLDX samples RMODE (R66, R186). -/
def vecGate (s : State) : Instr → Bool
  | .vldx _ _ _ _ _ => modeOk s
  | _ => true

/-! ### Effects on several cores and on clusters -/

/-- From `s` to `t` nothing changes but the parts `cs` of the cores `gs` and the parts `ds` of the device. -/
structure Leaves (s t : State) (gs : List Nat) (cs : List CorePart) (ds : List DevPart) : Prop where
  device : ∀ p, p ∉ ds → s.same t p
  others : ∀ j, j ∉ gs → t.core j = s.core j
  core : ∀ j p, p ∉ cs → (s.core j).same (t.core j) p
  memory : DevPart.memory ∉ ds → ∀ loc, t.byte loc = s.byte loc

/-- The issuing core goes on to the next instruction, and only the named parts of it and of the device change. -/
def GoesOn (s t : State) (cs : List CorePart) (ds : List DevPart) : Prop := t.pc = s.pc + 4 ∧ Keeps s t s.cur (.pc :: cs) ds

/-- As GoesOn, with a status in sD. -/
def Answers (s t : State) (d : BitVec 6) (status : Nat) (cs : List CorePart) (ds : List DevPart) : Prop :=
  ScalarIs s t d.toNat (BitVec.ofNat 64 status) ∧ GoesOn s t (.scalars :: cs) ds

/-- Hitch slot `n` of core `g` is `h`, and every other slot of it is the same. -/
def SlotIs (s t : State) (g n : Nat) (h : Hitch) : Prop := ∀ j, (t.core g).slot j = if j = n then h else (s.core g).slot j

/-- The clusters are as before, but for which events have reached their units in this cycle (R38, R199, R216). -/
def OnlyOrder (s t : State) : Prop := ∀ j, { t.cluster j with order := [] } = { s.cluster j with order := [] }

/-- Wagon `w` of cluster `c` is `x`; every other wagon and every other cluster is the same. -/
def WagonIs (s t : State) (c w : Nat) (x : Wagon) : Prop :=
  (∀ j, (t.cluster c).wagon j = if j = w then x else (s.cluster c).wagon j) ∧ ∀ j, j ≠ c → t.cluster j = s.cluster j

/-- No release of the issuing core is pending, a hand-over or a drop among them, so that an acquire of it can be performed (R85, R97). -/
def acquireOk (s : State) : Bool := !(s.me.mem.wbuf.any (fun w => w.rel) || s.me.giving)

/-- The lowest FREE wagon of a yard that is not retired (R33, R264). -/
def FreeWagon (c : Cluster) (w : Nat) : Prop :=
  w < 128 ∧ (c.wagon w).yard = .free ∧ (c.wagon w).retired = false ∧ ∀ v, v < w → (c.wagon v).yard ≠ .free ∨ (c.wagon v).retired = true

/-- Barrier `n` of caravan `k` is `x`; every other barrier, everything else of that caravan and every other caravan is the same. -/
def BarIs (s t : State) (k n : Nat) (x : Bar) : Prop :=
  ∃ c c', s.caravan k = some c ∧ t.caravan k = some c' ∧ (∀ j, c'.bar j = if j = n then x else c.bar j) ∧
    { c' with bars := [] } = { c with bars := [] } ∧ ∀ j, j ≠ k → t.caravan j = s.caravan j

/-- A barrier after an arrival or a withdrawal: a phase ends when a member is counted and every counted member has arrived (R197). -/
def phase (x : Bar) : Bar :=
  if x.members ≠ 0 ∧ x.members &&& ~~~x.arrived = 0 then { x with gen := x.gen + 1, arrived := 0 } else x

/-- Launch `k` is `x`, and every other launch is the same. -/
def LaunchIs (s t : State) (k : Nat) (x : Option Dispatch) : Prop := ∀ j, t.disp j = if j = k then x else s.disp j

/-- Mutex `n` of a partition in cluster `c` is `x`; every other mutex and every other cluster is the same. -/
def MutexIs (s t : State) (c part n : Nat) (x : Mutex) : Prop :=
  (∀ j, Sparse.get {} (t.cluster c).mutexes j = if j = part * 16 + n then x else Sparse.get {} (s.cluster c).mutexes j) ∧
    ∀ j, j ≠ c → t.cluster j = s.cluster j

/-- The task-side state of the issuing core is `x`. -/
def SchedIs (t : State) (x : Sched) : Prop := t.me.sched = x

/-- Copy channel `n` of core `g` is `x`, and every other channel of it is the same. -/
def ChanIs (s t : State) (g n : Nat) (x : Chan) : Prop := ∀ j, (t.core g).chan j = if j = n then x else (s.core g).chan j

/-- The address of register `r` of a channel in space 0xEC (Table 01-2). -/
def chanAddr (ch r : Nat) : Word := BitVec.ofNat 64 (0xEC * 2 ^ 56 + 256 * ch + 8 * r)

/-- The location of the byte of core `g` that an element's address names, for a window address. -/
def windowLoc (s : State) (g a : Nat) : Nat := locWagon (clusterOf g) ((s.core g).slot (a / 2 ^ 18 % 32)).wagon (a % 2 ^ 18)

/-- The first and the last byte address of a side of bytes, as exact integers; none when a product or a sum of R204 leaves the signed 64-bit
range, or an address its range. -/
def byteEnds (c : Chan) (dst : Bool) : Option (Nat × Nat) :=
  let sh := fun (i : Nat) => Sparse.get 0 c.shadow i
  let base := (sh (if dst then 1 else 0)).toNat
  let start := fun (d : Nat) => (sh (14 + d)).toInt
  let str := fun (d : Nat) => (sh ((if dst then 10 else 6) + d)).toInt
  let p0 := fun (d : Nat) => start d * str d
  let p1 := fun (d : Nat) => (start d + (max (sh (2 + d)).toNat 1 : Nat) - 1) * str d
  let lo := fun (k : Nat) => ((List.range k).map (fun d => min (p0 d) (p1 d))).sum
  let hi := fun (k : Nat) => ((List.range k).map (fun d => max (p0 d) (p1 d))).sum
  let fits := fun (x : Int) => decide (-2 ^ 63 ≤ x) && decide (x < 2 ^ 63)
  if (List.range 4).all (fun d => fits (p0 d) && fits (p1 d) && fits (lo (d + 1)) && fits (hi (d + 1))) ∧ 0 ≤ (base : Int) + lo 4 ∧
    (base : Int) + hi 4 < 2 ^ 64 then some (((base : Int) + lo 4).toNat, ((base : Int) + hi 4).toNat) else none

/-- The code of a side of bytes that fails a check of CPGO: its range, its spaces, its slots, its region (R204, Table 11-4). -/
def byteCode (s : State) (c : Chan) (dst : Bool) : Option Nat :=
  match byteEnds c dst with
  | none => some 1
  | some (l, h) =>
    let inWindow := fun (a : Nat) => decide (a / 2 ^ 56 = 0xE0 ∧ a % 2 ^ 56 < 2 ^ 23)
    if l / 2 ^ 56 = 0 ∧ h / 2 ^ 56 = 0 then
      match translate s (clusterOf s.cur) s.myPart s.me.sup (if dst then .store else .load) l with
      | .ok (_, x) => if x.region = 1 ∧ dst then some 4 else none
      | .error _ => none
    else if inWindow l ∧ inWindow h then
      if (List.range 32).any (fun n => decide (l / 2 ^ 18 % 32 ≤ n ∧ n ≤ h / 2 ^ 18 % 32) && (s.me.slot n).st != .attached) then some 3 else none
    else some 2

/-- What the walk of a side's lowest byte leaves (R204). -/
def byteWalk (s : State) (c : Chan) (dst : Bool) : State × Option Nat :=
  match byteEnds c dst with
  | some (l, _) => if l / 2 ^ 56 = 0 then
      match translate s (clusterOf s.cur) s.myPart s.me.sup (if dst then .store else .load) l with
      | .ok (s1, x) => (s1, some x.region)
      | .error _ => (s, none)
    else (s, none)
  | none => (s, none)

/-- A message comes to core g: into its inbox while a credit is left and none is held before it, else among those held (R44). -/
def Posts (s t : State) (g : Nat) (m : Msg) : Prop :=
  (t.core g).mail = if (s.core g).mail.held = [] ∧ (s.core g).mail.inbox.length < s.credits g
    then { (s.core g).mail with inbox := (s.core g).mail.inbox ++ [m] } else { (s.core g).mail with held := (s.core g).mail.held ++ [m] }

/-- Dray `d` of cluster `c` is `x`; the rest of that cluster and every other cluster are the same. -/
def DrayIs (s t : State) (c d : Nat) (x : Dray) : Prop := t.cluster c = (s.cluster c).setDray d x ∧ ∀ j, j ≠ c → t.cluster j = s.cluster j

/-! ### Stagecoach and mean engine -/

/-- A block of n doublewords from an address can be read at once by the issuing core: its doublewords have the places `es` after the walks in
`s1`, nothing holds them, none meets an error, and their bandwidth is left (R185, R161). -/
structure BlockReads (s s1 : State) (run : Bool) (a : Word) (n : Nat) (es : List VElem) : Prop where
  places   : vectorPlaces s .load run a 8 ((List.range n).map (fun i => (i, a + BitVec.ofNat 64 (8 * i)))) = .ok (s1, es)
  free     : vectorStall s1 run 8 es = false
  sound    : ∀ e ∈ es, s1.badNow e.place 8 = false
  readable : ∀ e ∈ es, s.me.readable e.place 8 = true
  budget   : (s1.chargeList (elemAsks s1 8 es)).isSome = true

/-- The value of a block, its first doubleword least significant (R6). -/
def blockValue (s1 : State) (es : List VElem) : Nat := packElems 64 (es.map (fun e => s1.readNow e.place 8))

/-- Destination, function and address operand of an asynchronous stagecoach command other than SCCLAIM (Table 12-1). -/
def coachForm : Instr → Option (BitVec 6 × Nat × Option (BitVec 6))
  | .sctopk d => some (d, 1, none)
  | .sccolk d => some (d, 2, none)
  | .scroute d a => some (d, 3, some a)
  | .scrouteCnt d => some (d, 4, none)
  | .scsend d => some (d, 5, none)
  | .scgather d a => some (d, 6, some a)
  | _ => none

/-- The walker of an address operand has taken its step; without one every walker is the same. -/
def StepsOperand (s t : State) (a : Option (BitVec 6)) : Prop := match a with | some a => StepsWalker s t a | none => ∀ j, t.me.getW j = s.me.getW j

/-- A stagecoach command is accepted: sD takes the next sequence number, the command enters the engine's queue with a copy of the
configuration, and SRSEED takes a step for each draw that it will make (R216, R218, R229). -/
structure Accepts (s t : State) (d : BitVec 6) (c : CCmd) (draws : Nat) : Prop where
  id    : ScalarIs s t d.toNat (BitVec.ofNat 64 c.seq)
  next  : c.seq = if s.me.sc.seq = 65535 then 1 else s.me.sc.seq + 1
  seq   : t.me.sc = { s.me.sc with seq := c.seq }
  same  : c.core = s.cur ∧ c.uid = s.me.uid ∧ c.part = s.myPart ∧ c.sup = s.me.sup ∧ c.rmode = s.me.csr.rmode ∧ c.seed = s.me.csr.srseed
  seed  : t.me.csr = { s.me.csr with srseed := srAdvance draws s.me.csr.srseed }
  keeps : Keeps s t s.cur [.pc, .scalars, .walkers, .csrs, .coach, .cache] [.clusters, .partitions, .requests]
  queue : ∀ j, { t.cluster j with order := [] } = { s.cluster j with
    coach := (s.cluster j).coach ++ (if j = clusterOf s.cur then [c] else []), order := [] }

/-- The number that n bytes hold at an address of the hitch window of core g, least significant byte first (R6, R12). -/
def winBytes (s : State) (g a n : Nat) : Nat := ((List.range n).map (fun i => (s.byte (windowLoc s g (a + i))).toNat * 256 ^ i)).sum

/-- Ranges of addresses that a stagecoach command meets in the hitch window of its core, over ATTACHED slots: no two addresses name one byte, no
error and no earlier store of the core is in the way (R12, R90). -/
structure CoachWindows (s : State) (c : CCmd) (areas : List (Nat × Nat)) : Prop where
  window : ∀ r ∈ areas, r.1 / 2 ^ 56 = 0xE0 ∧ r.1 % 2 ^ 56 + r.2 ≤ 2 ^ 23
  slots  : ∀ r ∈ areas, ∀ i, i < r.2 → ((s.core c.core).slot ((r.1 + i) / 2 ^ 18 % 32)).st = .attached
  apart  : areas.Pairwise (fun r q => r.1 + r.2 ≤ q.1 ∨ q.1 + q.2 ≤ r.1)
  single : ∀ r ∈ areas, ∀ q ∈ areas, ∀ i j, i < r.2 → j < q.2 → windowLoc s c.core (r.1 + i) = windowLoc s c.core (q.1 + j) → r.1 + i = q.1 + j
  sound  : s.bad = []
  quiet  : (s.core c.core).mem.wbuf = []

/-- A stagecoach command over windows has run: it is the first of its cluster's queue, every byte outside the ranges that it writes is as
before, and the record of its core, while its task lives, holds its result with status 0 (R230). -/
def CoachRan (s u : State) (c : CCmd) (written : List (Nat × Nat)) (result : Nat) : Prop :=
  exec (.stagecoachCompletion (clusterOf c.core)) s = .next u ∧
    (∀ loc, (∀ r ∈ written, ∀ i, i < r.2 → windowLoc s c.core (r.1 + i) ≠ loc) → u.byte loc = s.byte loc) ∧
    ((s.core c.core).uid = c.uid → (s.core c.core).live = true → (u.core c.core).sc.result = BitVec.ofNat 64 result ∧ (u.core c.core).sc.lstat = 0)

/-- Mean accumulator `u` of the issuing core has configuration `cfg` and the lanes `f`, and every other accumulator is the same. -/
def MeanIs (s t : State) (u : Nat) (cfg : Word) (f : Nat → Lane) : Prop :=
  (t.me.getM u).cfg = cfg ∧ (∀ i, i < 128 → (t.me.getM u).lane i = f i) ∧ ∀ r, r ≠ u → t.me.getM r = s.me.getM r

/-- An accumulator's lanes after a step on some of them: with FMODE the first lane that meets a condition traps and nothing is written,
else the lanes take their values (R240). -/
def LaneSteps (s : State) (i : Instr) (u : BitVec 3) (rows : List (Nat × LaneStep)) (cs : List CorePart) (k : State → Prop) : Prop :=
  let m := s.me.getM u.toNat
  let bad := rows.filter (fun r => r.2.2 != 0)
  ((m.fmode = false ∨ bad = []) → ∃ t, exec i s = .next t ∧ k t ∧ Keeps s t s.cur (.pc :: .means :: cs) [] ∧
    MeanIs s t u.toNat m.cfg (fun j => match rows.find? (fun r => r.1 == j) with | some r => r.2.1 | none => m.lane j)) ∧
  ∀ r l, m.fmode = true → bad = r :: l → handled s = true →
    ∃ t, exec i s = .next t ∧ TakesTrap s t 10 (BitVec.ofNat 64 (u.toNat * 2 ^ 16 + r.1 * 2 ^ 8 + r.2.2))

/-! ### Exchange -/

/-- XSTAT takes CODE and RANK, ERR is set by a code that is not 0 and kept else, and no other CSR changes (R246). -/
def Reports (s t : State) (code rank : Nat) : Prop :=
  let err := if code ≠ 0 ∨ s.me.csr.xstat.getLsbD 31 = true then 2 ^ 31 else 0
  t.me.csr = { s.me.csr with xstat := BitVec.ofNat 64 (err + rank % 64 * 2 ^ 16 + code) }

/-- The core waits at a timed instruction: nothing changes but how far that instruction has got (R112, R113). -/
def Pauses (s t : State) (h : Hold) : Prop := t.pc = s.pc ∧ t.hold = h ∧ Keeps s t s.cur [.pc] []

/-- The group of the issuing core's partition that alone holds 512 bytes at an aligned address of space 0 (R255). -/
structure GroupIs (s : State) (x : Word) (gid : Nat) (g : Group) : Prop where
  aligned : x.toNat % 64 = 0
  space   : spaceOf x = 0
  group   : ∃ p, s.part s.myPart = some p ∧ Sparse.get none p.groups gid = some g ∧ (gid, some g) ∈ p.groups ∧ g.base ≤ x.toNat ∧ x.toNat + 512 ≤ g.base + g.size ∧
    ∀ k h, (k, some h) ∈ p.groups → h.base ≤ x.toNat → x.toNat + 512 ≤ h.base + h.size → k = gid ∧ h = g

/-! ### Driver commands -/

/-- The driver command of an OP (Table 16-2) that carries a packet. -/
def DriverForm (op : Nat) (k : BitVec 512) (i : Instr) : Prop :=
  (op = 1 ∧ i = .pset k) ∨ (op = 2 ∧ i = .pclr k) ∨ (op = 3 ∧ i = .inval k) ∨ (op = 4 ∧ i = .kill k) ∨ (op = 5 ∧ i = .pfans k) ∨ (op = 6 ∧ i = .dbswap k) ∨
    (op = 7 ∧ i = .setw k) ∨ (op = 8 ∧ i = .free k) ∨ (op = 9 ∧ i = .alloc k)

/-- A driver command is accepted and has run to its start, with a status and the accesses that it waits for (R273). -/
def Starts (s t : State) (k : BitVec 512) (status : Nat) (wait : List (Nat × Nat)) : Prop :=
  t.host.cmds = s.host.cmds ++ [{ pkt := k, started := true, status := status, wait := wait }] ∧ t.host.reply = .accepted

/-- The next command of its partition can run: none of that partition is there, and the interface permits it (R273, R276). -/
def runsNow (s : State) (k : BitVec 512) : Prop :=
  cmdAddr k % 16 = 0 ∧ (∀ c ∈ s.host.cmds, cmdPart c.pkt ≠ cmdPart k) ∧ (s.host.tdisp = .unlocked ∨ s.host.tdisp = .run) ∧ cmdPart k < 64

end Sys2Proof.Machine
end

