-- ==== Sys2Proof/Certificates/Slice0/Obligations.lean ====
section
/-!
DEFINITION. The statements for the provers.
-/

open Sys2Proof Sys2Proof.Machine

/-! ### Integer and control instructions -/

/-- Every instruction of Tables 08-2 to 08-5 but the divisions completes with the result of its table row, modulo 2^64, in sD; s0 discards it; nothing
else changes (R150 to R153). DIV, DIVU, REM and REMU complete when the divisor is not 0, or DZT[0] is 0 (R153). A zero divisor with DZT[0] set traps
with TCAUSE 8 and TVAL 0, and sD is unchanged (R153). -/
def Obligations.ScalarResults : Prop :=
  (∀ (i : Instr) (s : State) (d : BitVec 6) (v : Word), scalarResult s i = some (d, v) →
     ∃ t, exec i s = .next t ∧ WritesScalar s t d.toNat v (s.pc + 4)) ∧
  (∀ (d a b : BitVec 6) (s : State), (s.getS b ≠ 0 ∨ s.me.csr.dzt.getLsbD 0 = false) →
     let x := s.getS a
     let y := s.getS b
     let done := fun (i : Instr) (v : Word) => ∃ t, exec i s = .next t ∧ WritesScalar s t d.toNat v (s.pc + 4)
     done (.div d a b) (if y = 0 then BitVec.allOnes 64 else wordOf (x.toInt.tdiv y.toInt)) ∧
     done (.rem d a b) (if y = 0 then x else wordOf (x.toInt.tmod y.toInt)) ∧
     done (.divu d a b) (if y = 0 then BitVec.allOnes 64 else BitVec.ofNat 64 (x.toNat / y.toNat)) ∧
     done (.remu d a b) (if y = 0 then x else BitVec.ofNat 64 (x.toNat % y.toNat))) ∧
  (∀ (d a b : BitVec 6) (s : State) (i : Instr), i ∈ [Instr.div d a b, .divu d a b, .rem d a b, .remu d a b] →
     s.getS b = 0 → s.me.csr.dzt.getLsbD 0 = true → handled s = true → ∃ t, exec i s = .next t ∧ TakesTrap s t 8 0)

/-- BR.cond (R154): its six conditions by code, the two codes that are unassigned, the target and the reach; it falls through when its condition does
not hold, and changes nothing else. -/
def Obligations.Branches : Prop :=
  (∀ (i : Instr) (s : State) (c : Bool) (off : BitVec 11), branchOf s i = some (c, off) →
    (∃ t, exec i s = .next t ∧ OnlyGoes s t (if c then target s off else s.pc + 4)) ∧ -1024 ≤ off.toInt ∧ off.toInt ≤ 1023) ∧
  ∀ (a b : BitVec 6) (off : BitVec 11) (cond : BitVec 3),
    Decode.word (0x08 * 2 ^ 26 + a.toNat * 2 ^ 20 + b.toNat * 2 ^ 14 + cond.toNat * 2 ^ 11 + off.toNat) = match cond.toNat with
      | 0 => .ok ⟨.brEq a b off, false⟩
      | 1 => .ok ⟨.brNe a b off, false⟩
      | 2 => .ok ⟨.brLt a b off, false⟩
      | 3 => .ok ⟨.brGe a b off, false⟩
      | 4 => .ok ⟨.brLtu a b off, false⟩
      | 5 => .ok ⟨.brGeu a b off, false⟩
      | _ => .error .unassigned

/-- JMP and CALL go to their target, JR and CALLR to an aligned register value; CALL and CALLR leave PC + 4 in s63 (R155). A register target with bits
[1:0] not zero raises TCAUSE 4 at the jump, with TVAL holding the target; no link is written (R155). WBIND, WUNBIND, WLOOP and WSTAT (R156, R158):
each completes on every walker, bound or not. That WUNBIND clears BOUND alone, and WSTAT of an unbound walker reads what is left, is the model's
choice (log 49, DEDUCED). -/
def Obligations.JumpsAndWalkers : Prop :=
  ((∀ (i : BitVec 25) (s : State), (∃ t, exec (.jmp i) s = .next t ∧ OnlyGoes s t (target s i)) ∧
     ∃ t, exec (.call i) s = .next t ∧ WritesScalar s t 63 (s.pc + 4) (target s i)) ∧
   ∀ (a : BitVec 6) (s : State), (s.getS a).toNat % 4 = 0 → (∃ t, exec (.jr a) s = .next t ∧ OnlyGoes s t (s.getS a)) ∧
     ∃ t, exec (.callr a) s = .next t ∧ WritesScalar s t 63 (s.pc + 4) (s.getS a)) ∧
  (∀ (a : BitVec 6) (s : State) (i : Instr), i ∈ [Instr.jr a, .callr a] → (s.getS a).toNat % 4 ≠ 0 → handled s = true →
     ∃ t, exec i s = .next t ∧ TakesTrap s t 4 (s.getS a)) ∧
  (∀ (w : BitVec 3) (s : State),
     let x := s.me.getW w.toNat
     let dim := fun (v : Word) => ({ cnt := v.extractLsb' 0 32, str := v.extractLsb' 32 32, idx := 0, fin := false } : Dim)
     (∀ a b : BitVec 6, b.toNat ≤ 60 → ∃ t, exec (.wbind w a b) s = .next t ∧ t.pc = s.pc + 4 ∧ Keeps s t s.cur [.pc, .walkers] [] ∧
       WalkerIs s t w.toNat { base := s.getS a, d0 := dim (s.me.getS b.toNat), d1 := dim (s.me.getS (b.toNat + 1)),
                              d2 := dim (s.me.getS (b.toNat + 2)), d3 := dim (s.me.getS (b.toNat + 3)), bound := true }) ∧
     (∃ t, exec (.wunbind w) s = .next t ∧ t.pc = s.pc + 4 ∧ Keeps s t s.cur [.pc, .walkers] [] ∧ WalkerIs s t w.toNat { x with bound := false }) ∧
     (∀ (n : BitVec 2) (i : BitVec 11), ∃ t, exec (.wloop w n i) s = .next t ∧ Keeps s t s.cur [.pc, .walkers] [] ∧
       (if x.bound = true ∧ x.ends n.toNat = false then t.pc = target s i ∧ WalkerIs s t w.toNat x
        else if x.bound = true then t.pc = s.pc + 4 ∧ WalkerIs s t w.toNat (x.clearEnds n.toNat)
        else t.pc = s.pc + 4 ∧ WalkerIs s t w.toNat x)) ∧
     ∀ (d q : BitVec 6), q.toNat ≤ 5 → ∃ t, exec (.wstat d w q) s = .next t ∧ WritesScalar s t d.toNat (x.stat q.toNat) (s.pc + 4))

/-! ### CSRs -/

/-- CSRR of a listed CSR returns it; PTAG needs the supervisor; a read of CYCLE or TIME is noted for the loads that follow it (R102, R139, R140).
CSRW, CSRS and CSRC of a writable CSR: the old value goes to sD; the CSR holds the new value in its bits that are not reserved, which read zero else;
every other CSR reads as before (R140, R164). CSRW and CSRS of BWSTAT clear the bits named in sA, CSRC clears none; the old value goes to sD (R140,
R164). The checks of a CSR instruction in order (R140): an unlisted index, PTAG at task privilege, a write where the CSR is read-only. A supervisor
write of MODE sets the mode of the writer's own partition when PSEL is its tag, and no mode otherwise (R142); strict mode can be set with feature 4
alone (R275). -/
def Obligations.CsrAccesses : Prop :=
  (∀ (d : BitVec 6) (c : BitVec 12) (s : State), c.toNat ∈ csrListed → (c.toNat = 0x041 → s.me.sup = true) →
     ∃ v t, csrRead s c.toNat = some v ∧ exec (.csrr d c) s = .next t ∧ ScalarIs s t d.toNat v ∧ t.pc = s.pc + 4 ∧
       Keeps s t s.cur ([.pc, .scalars] ++ if c.toNat = 0x060 ∨ c.toNat = 0x061 then [.observed] else []) []) ∧
  (∀ (d a : BitVec 6) (c : BitVec 12) (s : State) (m old : Word), (c.toNat, m) ∈ csrBits → csrRead s c.toNat = some old →
     let x := s.getS a
     ∀ (i : Instr) (v : Word), (i, v) ∈ [(Instr.csrw d a c, x), (.csrs d a c, old ||| x), (.csrc d a c, old &&& ~~~x)] →
       ∃ t, exec i s = .next t ∧ t.pc = s.pc + 4 ∧ ScalarIs s t d.toNat old ∧ csrRead t c.toNat = some (v &&& m) ∧
         (∀ j, j ≠ c.toNat → csrRead t j = csrRead s j) ∧ Keeps s t s.cur [.pc, .scalars, .csrs] []) ∧
  (∀ (d a : BitVec 6) (s : State) (i : Instr) (m : Word),
     (i, m) ∈ [(Instr.csrw d a 0x033, s.getS a), (.csrs d a 0x033, s.getS a), (.csrc d a 0x033, 0)] →
       ∃ t, exec i s = .next t ∧ t.pc = s.pc + 4 ∧ ScalarIs s t d.toNat s.me.csr.bwstat ∧
         t.me.csr = { s.me.csr with bwstat := s.me.csr.bwstat &&& ~~~m } ∧ Keeps s t s.cur [.pc, .scalars, .csrs] []) ∧
  (∀ (d a : BitVec 6) (c : BitVec 12) (s : State), handled s = true →
     let writes := [Instr.csrw d a c, .csrs d a c, .csrc d a c]
     let traps := fun (i : Instr) (cause : Nat) (v : Word) => ∃ t, exec i s = .next t ∧ TakesTrap s t cause v
     (c.toNat ∉ csrListed → ∀ i ∈ Instr.csrr d c :: writes, traps i 1 (c.setWidth 64)) ∧
     (c.toNat = 0x041 → s.me.sup = false → ∀ i ∈ Instr.csrr d c :: writes, traps i 3 0) ∧
     (c.toNat ∈ csrFixed → (c.toNat = 0x041 → s.me.sup = true) → ∀ i ∈ writes, traps i 1 (c.setWidth 64)) ∧
     (c.toNat = 0x080 → s.me.sup = false → ∀ i ∈ writes, traps i 1 (c.setWidth 64))) ∧
  (∀ (d a : BitVec 6) (s : State) (p : Partition), s.me.sup = true → s.part s.myPart = some p → s.myPart < 64 →
     let x := s.getS a
     ∃ t, exec (.csrw d a 0x080) s = .next t ∧ t.pc = s.pc + 4 ∧ Keeps s t s.cur [.pc, .scalars] [.partitions] ∧
       (∀ j, j ≠ s.myPart → t.part j = s.part j) ∧
       t.part s.myPart = some (if x.toNat / 2 ^ 8 % 64 = s.myPart ∧ s.feature 4 = true then { p with strict := x.getLsbD 0 } else p))

/-! ### Traps, system and hint instructions -/

/-- SYSCALL and BREAK raise their trap with the code in TVAL, and it is taken at TVEC + 128 * cause without a change of privilege (R165, R259). A trap
with NEST set or TVEC 0 writes the trap CSRs and ends the task: it is dead, its queues are empty, its registers and hitch table stay, and no byte of
memory changes while other tasks of its launch run (R259, R261). A core's turn in which no instruction issues (R9, R23, R84, R147, R259, R264, R265,
R278): a core that does not run, or waits for its leases or a timed slot, changes nothing; a fetch that fails traps with its cause, the program
counter in TVAL, and a record when the router discards it; a word that is no instruction, or in strict mode one with a reserved field set, traps with
TCAUSE 1 and TVAL 0; an instruction that reads a register in error ends the task with TCAUSE 11. The turn with an empty schedule, and the core that
makes no step of its own, are the model's (log 1, log 51). -/
def Obligations.SystemTraps : Prop :=
  (∀ (c : BitVec 12) (s : State), handled s = true →
     (∃ t, exec (.syscall c) s = .next t ∧ TakesTrap s t 13 (c.setWidth 64)) ∧ ∃ t, exec (.brk c) s = .next t ∧ TakesTrap s t 12 (c.setWidth 64)) ∧
  (∀ (c : BitVec 12) (s : State), (s.me.csr.tstat.getLsbD 1 = true ∨ s.me.csr.tvec = 0) → s.me.sched.task.isSome = true →
     ∃ t, exec (.syscall c) s = .next t ∧ t.me.sched.dead = true ∧ (t.me.sched.run = .finished ∨ t.me.sched.run = .idle) ∧
       t.me.mail = {} ∧ t.me.csr.tcause = 13 ∧ t.me.csr.tval = c.setWidth 64 ∧ t.me.csr.tepc = s.pc ∧
       t.me.csr.tstat = (if s.me.sup then 3 else 2) ∧ t.me.regs = s.me.regs ∧ t.me.hitch = s.me.hitch ∧
       ((∀ k d, s.me.sched.task = some k → s.disp k.disp = some d → d.killed = false ∧ d.predBad = false ∧ d.ended + 1 < d.counting) → t.mem = s.mem)) ∧
  (∀ (s : State), s.schedule = [] →
     let c := s.me
     (c.sched.run ≠ .running ∨ c.sched.wantLease ≠ [] → step s = .next s) ∧
     (c.asyncTrap = none → (∃ x y z, c.sched.hold = .timed x y z) → step s = .next s) ∧
     (c.sched.run = .running → c.sched.wantLease = [] → c.asyncTrap = none → (∀ x y z, c.sched.hold ≠ .timed x y z) → handled s = true →
       (spaceOf s.pc ≠ 0 → ∃ t, step s = .next t ∧ TakesTrap { s with word := 0 } t 2 s.pc) ∧
       (∀ n, fetchPlace s = .error n → n ∈ [2, 3, 11, 15] ∧ (n ≠ 15 → ∃ t, step s = .next t ∧ TakesTrap { s with word := 0 } t n s.pc) ∧
         (n = 15 → ∃ t, step s = .next t ∧ TakesTrap { s with word := 0, host := { s.host with held := s.host.held ++
           [⟨BitVec.ofNat 64 (8 + s.myPart % 64 * 2 ^ 8 + s.cur % 1024 * 2 ^ 16), s.pc⟩] } } t 15 s.pc)) ∧
       ∀ s1 loc, fetchPlace s = .ok (s1, loc) →
         let w := s.me.fetchWord loc
         ((∃ e, Decode.word w.toNat = .error e) ∨ (∃ i, Decode.word w.toNat = .ok ⟨i, true⟩ ∧ s1.strict = true)) →
           ∃ t, step s = .next t ∧ TakesTrap { s1 with word := w, late := false } t 1 0) ∧
     (c.sched.run = .running → c.sched.wantLease = [] → c.asyncTrap = none → (∀ x y z, c.sched.hold ≠ .timed x y z) → c.sched.task.isSome = true →
       ∀ s1 loc i z, fetchPlace s = .ok (s1, loc) → Decode.word (c.fetchWord loc).toNat = .ok ⟨i, z⟩ → (z = false ∨ s1.strict = false) →
         c.busy i = false → c.upsetRead i = true →
         ∃ t, step s = .next t ∧ t.me.sched.dead = true ∧ t.me.csr.tcause = 11 ∧ t.me.csr.tval = BitVec.allOnes 64 ∧ t.me.csr.tepc = s.pc))

/-- TRET (R166): an unaligned TEPC traps with TCAUSE 4, a return to the supervisor at task privilege with TCAUSE 3; otherwise NEST is cleared, a
supervisor takes the privilege of PPRIV, and the core goes on at TEPC. -/
def Obligations.TrapReturns : Prop :=
  ∀ (s : State),
    let e := s.me.csr.tepc
    let up := s.me.csr.tstat.getLsbD 0
    (e.toNat % 4 ≠ 0 → handled s = true → ∃ t, exec .tret s = .next t ∧ TakesTrap s t 4 e) ∧
    (e.toNat % 4 = 0 → s.me.sup = false → up = true → handled s = true → ∃ t, exec .tret s = .next t ∧ TakesTrap s t 3 0) ∧
    (e.toNat % 4 = 0 → (s.me.sup = true ∨ up = false) → ∃ t, exec .tret s = .next t ∧ t.pc = e ∧ t.me.sup = (s.me.sup && up) ∧
      t.me.csr = { s.me.csr with tstat := s.me.csr.tstat &&& ~~~2 } ∧ Keeps s t s.cur [.pc, .sup, .csrs] [])

/-- NOP and every hint go on to the next instruction and change nothing else; HINT of a code above 255 traps in strict mode (R146, R169). That HINT.PF
leaves the line fill to READ_CACHE_FILL, and so changes nothing itself, is the model's choice (log 18, DEDUCED). WAITI goes on once the inbox or the
receive queue holds an entry, and waits with no effect until then (R165, R167). INPEEK and INBOX write the oldest message to sD and s(D+1), zeros when
the inbox is empty; INBOX removes it. A completion is an acquire: it waits for the core's releases, hand-overs and drops, and empties its read cache
(R168, R92, R96, R97). -/
def Obligations.HintsAndWaits : Prop :=
  (∀ (s : State), (∀ i ∈ [Instr.nop, .hintSpin], ∃ t, exec i s = .next t ∧ OnlyGoes s t (s.pc + 4)) ∧
     (∀ (r : BitVec 6), ∀ i ∈ [Instr.hintPf r, .hintPfm r], ∃ t, exec i s = .next t ∧ OnlyGoes s t (s.pc + 4)) ∧
     ∀ (n : BitVec 26), ((n.toNat < 256 ∨ s.strict = false) → ∃ t, exec (.hint n) s = .next t ∧ OnlyGoes s t (s.pc + 4)) ∧
       (n.toNat ≥ 256 → s.strict = true → handled s = true → ∃ t, exec (.hint n) s = .next t ∧ TakesTrap s t 1 0)) ∧
  (∀ (s : State), ((s.me.mail.inbox ≠ [] ∨ s.me.mail.rq ≠ []) → ∃ t, exec .waiti s = .next t ∧ OnlyGoes s t (s.pc + 4)) ∧
     (s.me.mail.inbox = [] → s.me.mail.rq = [] → exec .waiti s = .next s)) ∧
  (∀ (d : BitVec 6) (s : State), d.toNat % 2 = 0 →
     let m := s.me.mail.inbox.headD ⟨0, 0⟩
     let done := fun (t : State) => t.pc = s.pc + 4 ∧
       ∀ r, t.me.getS r = if r = d.toNat + 1 then m.w1 else if r = d.toNat ∧ d.toNat ≠ 0 then m.w0 else s.me.getS r
     let acq := decide (s.me.mail.inbox ≠ []) && decide (2 ≤ m.w0.toNat % 256 ∧ m.w0.toNat % 256 ≤ 5)
     (∃ t, exec (.inpeek d) s = .next t ∧ done t ∧ Keeps s t s.cur [.pc, .scalars] []) ∧
     ((acq = true → acquireOk s = true) → ∃ t, exec (.inbox d) s = .next t ∧ done t ∧
       t.me.mail = { s.me.mail with inbox := s.me.mail.inbox.tail } ∧ t.me.mem.rcache = (if acq then [] else s.me.mem.rcache) ∧
       Keeps s t s.cur [.pc, .scalars, .mail, .cache] []))

/-! ### Memory -/

/-- LDB to LDD complete when the address is aligned, its translation succeeds and nothing holds the access: sD takes the bytes that the core reads,
sign- or zero-extended, a walker takes its step, and no byte of memory changes after the walk (R157, R159, R161). LDD of an event line or of a channel
has its own statement. A load that the memory system performs later completes with its register unwritten and its read pending; when the read is
performed the register takes the bytes that the core reads then (R78, R83, R84). That such a read meets no error is the model's choice (log 11: an
error arises in a granule only while no late read of it is pending). LDP reads the bytes of its window that lie in bounds and zeros beyond, where
PWSTAT records the access; wholly out of bounds it reads 0 with no memory access (R19, R20, R159). -/
def Obligations.ScalarLoads : Prop :=
  (∀ (i : Instr) (s s1 : State) (d a : BitVec 6) (x : Word) (n : Nat) (sg : Bool) (p : Place), loadForm s i = some (d, a, x, n, sg) →
     spaceOf x ≠ 0xE8 → spaceOf x ≠ 0xEC → x.toNat % n = 0 → locate s s.cur s.me.sup .load x = .ok (s1, p) → loadReady s1 x p n = true → s.late = false →
     ∃ t, exec i s = .next t ∧ ScalarIs s t d.toNat (loadedWord n sg (s1.readNow p n)) ∧ t.pc = s.pc + 4 ∧
       StepsWalker s t a ∧ Keeps s1 t s.cur [.pc, .scalars, .walkers, .cache] [.partitions, .requests]) ∧
  ((∀ (i : Instr) (s s1 : State) (d a : BitVec 6) (x : Word) (n : Nat) (sg : Bool) (p : Place), loadForm s i = some (d, a, x, n, sg) →
     spaceOf x ≠ 0xE8 → spaceOf x ≠ 0xEC → x.toNat % n = 0 → locate s s.cur s.me.sup .load x = .ok (s1, p) → unheld s1 x p n = true →
     s1.hasBad p.loc n = false → s1.badNow p n = false → s.late = true →
     ∃ t r, exec i s = .next t ∧ t.me.mem.late = s.me.mem.late ++ [r] ∧ r.loc = p.loc ∧ r.n = n ∧ r.mtype = p.mtype ∧ r.slot = p.slot ∧
       r.dest = .scalar d.toNat sg ∧ r.seq = s.me.mem.seq ∧ r.dep = s.me.mem.now ∧ t.me.mem.seq = s.me.mem.seq + 1 ∧ t.pc = s.pc + 4 ∧ StepsWalker s t a ∧
       Keeps s1 t s.cur [.pc, .walkers, .pending] []) ∧
   ∀ (s : State) (g : Nat) (r : Late) (d : Nat) (sg : Bool), (s.core g).mem.late = [r] → (s.core g).mem.wbuf = [] → r.dest = .scalar d sg →
     (s.chargeList (hbmAsks s (.access g r.seq) g r.loc (s.memBytes g r.mtype r.seq r.dep r.loc r.n))).isSome = true → s.hasBad r.loc r.n = false → d < 64 →
     ∃ t, exec (.readPerformed g 0) s = .next t ∧ (t.core g).mem.late = [] ∧ Keeps s t g [.scalars, .pending, .cache] [.partitions, .requests] ∧
       ∀ q, (t.core g).getS q = if q = d ∧ d ≠ 0 then loaded r.n sg (s.coreRead g r.mtype r.seq r.dep r.loc r.n) else (s.core g).getS q) ∧
  (∀ (d a : BitVec 6) (w : BitVec 3) (z : BitVec 2) (u : BitVec 1) (i : BitVec 5) (s : State),
     let n := 2 ^ z.toNat
     let o : Word := BitVec.ofNat 64 ((s.base a).toNat + i.toNat * n)
     let win := s.window w.toNat
     let k := min n (win.size.toNat - o.toNat)
     let stat := s.me.csr.pwstat ||| BitVec.ofNat 64 (if k < n then 1 + 2 ^ (8 + w.toNat) else 0)
     o.toNat % n = 0 → win.bound = true →
     (win.size.toNat ≤ o.toNat → ∃ t, exec (.ldp d a w z u i) s = .next t ∧ ScalarIs s t d.toNat 0 ∧ t.pc = s.pc + 4 ∧ StepsWalker s t a ∧
       t.me.csr = { s.me.csr with pwstat := stat } ∧ Keeps s t s.cur [.pc, .scalars, .walkers, .csrs] []) ∧
     ∀ (s1 : State) (p : Place), o.toNat < win.size.toNat → locate s s.cur s.me.sup .load (win.base + o) = .ok (s1, p) →
       loadReady s1 (win.base + o) p k = true → s.late = false →
       ∃ t, exec (.ldp d a w z u i) s = .next t ∧
         ScalarIs s t d.toNat (loadedWord k (u == 0 && k == n) (s1.readNow p k)) ∧ t.pc = s.pc + 4 ∧ StepsWalker s t a ∧
         t.me.csr = { s.me.csr with pwstat := stat } ∧ Keeps s1 t s.cur [.pc, .scalars, .walkers, .cache, .csrs] [.partitions, .requests])

/-- STB to STD enter one write in the store buffer, with the bytes of sD at the address; no byte of memory changes until the write is performed (R78,
R160, R161). STD to a channel has its own statement. A load of the core that follows its store to the same bytes reads the bytes of the store,
performed or not (R79, R86). -/
def Obligations.ScalarStores : Prop :=
  (∀ (i : Instr) (s s1 : State) (d a : BitVec 6) (x : Word) (n : Nat) (p : Place), storeForm s i = some (d, a, x, n) →
     spaceOf x ≠ 0xEC → x.toNat % n = 0 → locate s s.cur s.me.sup .store x = .ok (s1, p) → storeReady s1 x p n = true →
     ∃ t w, exec i s = .next t ∧ t.me.mem.wbuf = s.me.mem.wbuf ++ [w] ∧ w.loc = p.loc ∧ w.n = n ∧ w.val = s.getS d ∧ w.mask = 0xFF ∧ w.rel = false ∧
       w.mtype = p.mtype ∧ w.slot = p.slot ∧ w.part = s.myPart ∧ w.seq = s.me.mem.seq ∧ w.member = none ∧ t.me.mem.seq = s.me.mem.seq + 1 ∧
       t.pc = s.pc + 4 ∧ StepsWalker s t a ∧ Keeps s1 t s.cur [.pc, .walkers, .pending] []) ∧
  (∀ (i : Instr) (s s1 : State) (d a : BitVec 6) (x : Word) (n : Nat) (p : Place), storeForm s i = some (d, a, x, n) →
     spaceOf x ≠ 0xEC → x.toNat % n = 0 → locate s s.cur s.me.sup .store x = .ok (s1, p) → storeReady s1 x p n = true →
     ∃ t, exec i s = .next t ∧ t.readNow p n = (s.getS d).toNat % 2 ^ (8 * n))

/-- WRITE_PERFORMED of the only write of a core: the bytes of its mask are in memory, every other byte is as before, and the store buffer is empty
(R78, R80). Discarded stores and asynchronous traps (R3, R79, R264, R265, R278): a write to a frame of another owner is discarded with a record, its
report reaches the core, and the core traps with TCAUSE 15 at its next boundary, TWORD zero (log 24); READ_CACHE_FILL takes the bytes of a line of an
owned frame, and a full cache gives up one line for it. The line of 64 bytes and which line a full cache gives up are log 8. -/
def Obligations.WritesPerformed : Prop :=
  (∀ (s : State) (g : Nat) (w : Write), (s.core g).mem.wbuf = [w] → (s.core g).mem.late = [] → w.member = none → s.hasBad w.loc w.n = false →
     (2 ^ 64 ≤ w.loc ∨ s.owns w.part w.loc = true) → (s.chargeList (writeAsks s g w w.n)).isSome = true →
     ∃ t, exec (.writePerformed g 0) s = .next t ∧ (t.core g).mem.wbuf = [] ∧ Keeps s t g [.pending, .cache] [.memory, .partitions, .requests, .errors] ∧
       (∀ j, inBitmap s j = false → t.byte j = if w.loc ≤ j ∧ j < w.loc + w.n ∧ w.mask.getLsbD (j - w.loc) = true then
         BitVec.ofNat 8 (w.val.toNat / 2 ^ (8 * (j - w.loc))) else s.byte j)) ∧
  (∀ (s : State) (g : Nat),
     let c := s.core g
     (∀ w, c.mem.wbuf = [w] → c.mem.late = [] → w.member = none → c.sched.dead = false → w.loc < 2 ^ 64 → s.owns w.part w.loc = false →
       exec (.writePerformed g 0) s = .next s ∧
       ∃ t, exec (.packetEjection g 0) s = .next t ∧ Leaves s t [g] [.pending, .task] [.host] ∧ (t.core g).mem.wbuf = [] ∧
         (t.core g).sched = { c.sched with pfWay := c.sched.pfWay ++ [w.va] } ∧
         t.host = { s.host with held := s.host.held ++ [⟨BitVec.ofNat 64 (8 + w.part % 64 * 2 ^ 8 + g % 1024 * 2 ^ 16), w.va⟩] }) ∧
     (∀ a l, c.sched.pfWay = a :: l → ∃ t, exec (.partitionFaultReport g) s = .next t ∧ Leaves s t [g] [.task] [] ∧
       (t.core g).sched = { c.sched with pfWay := l, pfHere := c.sched.pfHere ++ [a] }) ∧
     (∀ a l, s.me.sched.pfHere = a :: l → s.me.sched.run = .running → s.hold = .free → s.me.csr.tstat.getLsbD 1 = false → s.me.csr.tvec ≠ 0 →
       ∃ t, exec (.trapEntry 15 a) s = .next t ∧ t.me.csr.tcause = 15 ∧ t.me.csr.tval = a ∧ t.me.csr.tepc = s.pc ∧ t.me.csr.tword = 0 ∧
         t.pc = s.me.csr.tvec + 1920 ∧ t.me.sched.pfHere = l ∧ Keeps s t s.cur [.pc, .csrs, .task] [.model]) ∧
     (s.me.sched.pfHere = [] → ∀ n v, exec (.trapEntry n v) s = .next s) ∧
     ∀ line, c.sched.task.isSome = true → line * 64 + 64 ≤ 576000000000 → s.owns c.part (line * 64) = true → s.hasBad (line * 64) 64 = false →
       let held := fun (x : State) (j : Nat) => Sparse.get none (x.core g).mem.rcache j
       ∃ t, exec (.readCacheFill g line) s = .next t ∧ Leaves s t [g] [.cache] [] ∧
         held t line = some { data := BitVec.ofNat 512 (s.bytes (line * 64) 64), born := c.mem.tick + 1 } ∧ (t.core g).mem.tick = c.mem.tick + 1 ∧
         (c.mem.rcache.length < 512 ∨ held s line ≠ none → ∀ j, j ≠ line → held t j = held s j) ∧
         (Sparse.wf none c.mem.rcache = true → ∀ j x, j ≠ line → held t j = some x → held s j = some x))

/-- AADD to ASWP complete when nothing holds them: sD takes the old 8 bytes, memory the new ones, and no other byte changes (R82, R162). ACAS: the old
bytes go to sD; where they equal sD the new value is stored, and no byte changes otherwise (R82, R162). AFADD of two finite values, no enabled flag
raised: the 4 bytes take the rounded sum, sD the old ones, FFLAGS the flags; SRSEED takes one step under stochastic rounding alone (R68, R71, R162).
An enabled flag traps with nothing written but FFLAGS. An atomic of a whole ECC granule in error is performed, and the error is gone; sD takes an open
value, from which the new one comes, whatever it is (R264; log 11). -/
def Obligations.Atomics : Prop :=
  (∀ (i : Instr) (s s1 : State) (d a : BitVec 6) (o : BitVec 2) (sc : BitVec 3) (f : Word → Word) (p : Place),
     atomicForm s i = some (d, a, o, sc, f) → (s.base a).toNat % 8 = 0 → locate s s.cur s.me.sup .atomic (s.base a) = .ok (s1, p) →
     atomicReady s1 (s.base a) p 8 = true → orderReady s o true = true →
     let old : Word := BitVec.ofNat 64 (s1.bytes p.loc 8)
     ∃ t, exec i s = .next t ∧ ScalarIs s t d.toNat old ∧ BytesAre t p.loc 8 (f old).toNat ∧ OnlyBytes s1 t p.loc 8 ∧ t.pc = s.pc + 4 ∧
       StepsWalker s t a ∧ Keeps s1 t s.cur [.pc, .scalars, .walkers, .cache] [.memory, .partitions, .requests, .errors]) ∧
  (∀ (d a : BitVec 6) (b : BitVec 5) (o : BitVec 2) (sc : BitVec 3) (s s1 : State) (p : Place),
     (s.base a).toNat % 8 = 0 → locate s s.cur s.me.sup .atomic (s.base a) = .ok (s1, p) → atomicReady s1 (s.base a) p 8 = true →
     let old : Word := BitVec.ofNat 64 (s1.bytes p.loc 8)
     orderReady s o (decide (old = s.getS d)) = true →
     ∃ t, exec (.acas d a b o sc) s = .next t ∧ ScalarIs s t d.toNat old ∧ t.pc = s.pc + 4 ∧ StepsWalker s t a ∧
       Keeps s1 t s.cur [.pc, .scalars, .walkers, .cache] [.memory, .partitions, .requests, .errors] ∧
       (if old = s.getS d then BytesAre t p.loc 8 (s.getS b).toNat ∧ OnlyBytes s1 t p.loc 8 else ∀ j, t.byte j = s1.byte j)) ∧
  (∀ (d a : BitVec 6) (b : BitVec 5) (o : BitVec 2) (sc : BitVec 3) (s s1 : State) (p : Place),
     (s.base a).toNat % 4 = 0 → locate s s.cur s.me.sup .atomic (s.base a) = .ok (s1, p) → atomicReady s1 (s.base a) p 4 = true →
     orderReady s o true = true → modeOk s = true →
     let old := s1.bytes p.loc 4
     let r := faddF32 s (BitVec.ofNat 64 old) (s.getS b)
     (s.enabled r.2 = true → handled s = true → ∃ t u, exec (.afadd d a b o sc) s = .next t ∧ Keeps s1 u s.cur [] [.partitions, .requests] ∧
       TakesTrap (u.raise r.2) t 9 (BitVec.ofNat 64 (r.2 % 32))) ∧
     (s.enabled r.2 = false → ∃ t, exec (.afadd d a b o sc) s = .next t ∧ ScalarIs s t d.toNat (BitVec.ofNat 64 old) ∧ BytesAre t p.loc 4 r.1 ∧ OnlyBytes s1 t p.loc 4 ∧
       t.me.csr = { s.me.csr with fflags := s.me.csr.fflags ||| BitVec.ofNat 64 (r.2 % 32),
                                  srseed := if s.drawing then srNext s.me.csr.srseed else s.me.csr.srseed } ∧
       t.pc = s.pc + 4 ∧ StepsWalker s t a ∧ Keeps s1 t s.cur [.pc, .scalars, .walkers, .cache, .csrs] [.memory, .partitions, .requests, .errors])) ∧
  (∀ (i : Instr) (s s1 : State) (d a : BitVec 6) (o : BitVec 2) (sc : BitVec 3) (f : Word → Word) (p : Place),
     atomicForm s i = some (d, a, o, sc, f) → (s.base a).toNat % 8 = 0 → locate s s.cur s.me.sup .atomic (s.base a) = .ok (s1, p) →
     s1.hasBad p.loc 8 = true → 2 ^ 64 ≤ p.loc → p.loc % 8 = 0 → storeReady s1 (s.base a) p 8 = true → s.me.mem.late = [] → s.me.mem.wbuf = [] →
     orderReady s o true = true →
     ∃ t old, exec i s = .next t ∧ ScalarIs s t d.toNat old ∧ BytesAre t p.loc 8 (f old).toNat ∧ OnlyBytes s1 t p.loc 8 ∧ t.badAt p.loc = false ∧
       t.pc = s.pc + 4 ∧ StepsWalker s t a ∧ Keeps s1 t s.cur [.pc, .scalars, .walkers, .cache] [.memory, .partitions, .requests, .errors, .model])

/-- LD.ACQ reads the bytes from memory from cluster scope on, never from the read cache, and then empties the cache; at core scope a line filled after
the last read of a clock may serve it, and nothing is dropped (R79, R96, R102); ST.REL enters its write marked as a release, after every earlier store
of the core (R85, R163). FENCE goes on once the accesses that it orders are performed: stores, hand-overs and drops in P, loads in P with the source
reads of earlier engine commands; it empties the read cache when it orders later loads from cluster scope on. IFENCE makes later fetches see memory
with the core's own stores (R85 case 8, R87, R90, R96, R97, R163). -/
def Obligations.OrderedAccesses : Prop :=
  (∀ (d a : BitVec 6) (w : BitVec 2) (sc : BitVec 3) (s s1 : State) (p : Place),
     let n := 2 ^ w.toNat
     (s.base a).toNat % n = 0 →
     (∀ (u : BitVec 1), acquireOk s = true → locate s s.cur s.me.sup .load (s.base a) = .ok (s1, p) →
       loadReady (acquireView s1 p n sc) (s.base a) p n = true → s1.hasBad p.loc n = false →
       ∃ t, exec (.ldAcq d a u w sc) s = .next t ∧ ScalarIs s t d.toNat (loadedWord n (u == 0) ((acquireView s1 p n sc).readNow p n)) ∧
         (s.me.mem.wbuf = [] → 1 ≤ sc.toNat → ScalarIs s t d.toNat (loadedWord n (u == 0) (s1.bytes p.loc n))) ∧
         t.pc = s.pc + 4 ∧ StepsWalker s t a ∧ (sc.toNat ≥ 1 → t.me.mem.rcache = []) ∧
         Keeps s1 t s.cur [.pc, .scalars, .walkers, .cache] [.partitions, .requests]) ∧
     (s.me.mem.wbuf = [] → s.me.sched.pfWay = [] → locate s s.cur s.me.sup .store (s.base a) = .ok (s1, p) → storeReady s1 (s.base a) p n = true →
       ∃ t e, exec (.stRel d a w sc) s = .next t ∧ t.me.mem.wbuf = [e] ∧ e.loc = p.loc ∧ e.n = n ∧ e.val = s.getS d ∧ e.mask = 0xFF ∧ e.rel = true ∧
         t.pc = s.pc + 4 ∧ StepsWalker s t a ∧ Keeps s1 t s.cur [.pc, .walkers, .pending] [])) ∧
  (∀ (s : State), (∀ (p q : BitVec 2) (sc : BitVec 3),
       let stores := p.getLsbD 1 = true → s.me.mem.wbuf = [] ∧ s.me.sched.pfWay = [] ∧ s.me.giving = false
       let loads := p.getLsbD 0 = true → (q.getLsbD 0 = true → s.me.mem.late = []) ∧ (q ≠ 0 → s.sourcing s.cur = false)
       (stores → loads → ∃ t, exec (.fence p q sc) s = .next t ∧ t.pc = s.pc + 4 ∧
         t.me.mem.rcache = (if q.getLsbD 0 = true ∧ sc.toNat ≥ 1 then [] else s.me.mem.rcache) ∧ Keeps s t s.cur [.pc, .cache] []) ∧
       (¬stores → exec (.fence p q sc) s = .next s)) ∧
     ∃ t, exec .ifence s = .next t ∧ t.pc = s.pc + 4 ∧ Keeps s t s.cur [.pc, .fetched] [] ∧ t.me.mem.imem = s.ownView s.me ∧
       (s.me.mem.wbuf = [] → ∀ j, Sparse.get 0 t.me.mem.imem j = s.byte j))

/-- When a scalar load, store, atomic or ordered access, LDP, XCHK or SCMREAD traps (R8 to R10, R13, R15, R19, R23, R161, R264, R265): an address that
is not aligned, with TCAUSE 4; a place that it cannot reach, with the cause of the failure (2, 3, 5, or 15 with the record of the discarded packet);
an uncorrectable error in what it reads, with TCAUSE 11; for LDP an unbound window, with TCAUSE 7. Nothing is written; of an ordered load the stamp of
the instruction may have moved. -/
def Obligations.AccessTraps : Prop :=
  ∀ (s : State), handled s = true →
    let traps := fun (i : Instr) (u : State) (c : Nat) (v : Word) => ∃ t, exec i s = .next t ∧ TakesTrap u t c v
    let lost := fun (x : Word) => { s with host := { s.host with held := s.host.held ++
      [⟨BitVec.ofNat 64 (8 + s.myPart % 64 * 2 ^ 8 + s.cur % 1024 * 2 ^ 16), x⟩] } }
    let fails := fun (i : Instr) (k : Access) (x : Word) => ∀ c, locate s s.cur s.me.sup k x = .error c →
      c ∈ [2, 3, 5, 15] ∧ traps i (if c = 15 then lost x else s) c x
    let inError := fun (u : State) (p : Place) (n : Nat) => ∃ j, j < n ∧ u.badAt (p.loc + j) = true
    (∀ (i : Instr) (k : Access) (x : Word) (n : Nat), accessForm s i = some (k, x, n) → accessGate s i = true →
      (x.toNat % n ≠ 0 → traps i s 4 x) ∧
      (x.toNat % n = 0 → fails i k x) ∧
      ∀ s1 p, x.toNat % n = 0 → locate s s.cur s.me.sup k x = .ok (s1, p) → s.me.mem.wbuf = [] → inError s1 p n →
        (k = .load → s.me.mem.rcache = [] → s.me.giving = false → unheld s1 x p n = true → ∃ u, Keeps s1 u s.cur [.cache] [] ∧ u.me.mem.rcache = [] ∧ traps i u 11 x) ∧
        (k = .atomic → s.me.mem.late = [] → s.me.giving = false → storeReady s1 x p n = true → s1.hasBad p.loc n = true →
          (n < granuleSize p.loc ∨ ∃ d a b o sc, i = .acas d a b o sc) → traps i s1 11 x)) ∧
    (∀ (d a : BitVec 6) (w : BitVec 3) (z : BitVec 2) (u : BitVec 1) (i : BitVec 5),
      let n := 2 ^ z.toNat
      let o : Word := BitVec.ofNat 64 ((s.base a).toNat + i.toNat * n)
      let win := s.window w.toNat
      (o.toNat % n ≠ 0 → traps (.ldp d a w z u i) s 4 o) ∧
      (o.toNat % n = 0 → win.bound = false → traps (.ldp d a w z u i) s 7 (w.setWidth 64)) ∧
      (o.toNat % n = 0 → win.bound = true → o.toNat < win.size.toNat → fails (.ldp d a w z u i) .load (win.base + o))) ∧
    (∀ (d a : BitVec 6) (i : BitVec 11),
      let x : Word := BitVec.ofNat 64 ((s.base a).toNat + 8 * i.toNat)
      (spaceOf x = 0xE8 ∨ spaceOf x = 0xEC → x.toNat % 8 ≠ 0 → traps (.ldd d a i) s 4 x) ∧
      (spaceOf x = 0xE8 → x.toNat % 8 = 0 → ¬(x.toNat % 64 = 0 ∧ (x.toNat % 2 ^ 56 / 64 < 48 ∨ (64 ≤ x.toNat % 2 ^ 56 / 64 ∧ x.toNat % 2 ^ 56 / 64 < 128))) →
        traps (.ldd d a i) s 2 x) ∧
      (spaceOf x = 0xEC → x.toNat % 8 = 0 → ¬(x.toNat % 2 ^ 56 < 1024 ∧ x.toNat % 256 ≤ 0x98) → traps (.ldd d a i) s 2 x)) ∧
    (∀ (d a : BitVec 6) (i : BitVec 12),
      let x : Word := BitVec.ofNat 64 ((s.base a).toNat + 8 * i.toNat)
      (spaceOf x = 0xEC → x.toNat % 8 ≠ 0 → traps (.std d a i) s 4 x) ∧
      (spaceOf x = 0xEC → x.toNat % 8 = 0 → ¬(x.toNat % 2 ^ 56 < 1024 ∧ x.toNat % 256 < 0x98) → traps (.std d a i) s 2 x)) ∧
    ∀ (d a : BitVec 6) (cfg : BitVec 512), s.me.sc.cfg = some cfg → s.coachCmds s.cur = [] →
      let j := (s.getS a).toNat
      let man := cfgField cfg 384 64
      let x : Word := BitVec.ofNat 64 (man + 4 * j)
      j < cfgField cfg 16 14 * cfgField cfg 9 4 → man ≠ 0 →
        (x.toNat % 4 ≠ 0 → traps (.scmread d a) s 4 x) ∧ (x.toNat % 4 = 0 → fails (.scmread d a) .load x)

/-- Where a memory access lands (R8 to R10, R22, R23, R27): a window access changes nothing, and lands in the wagon of its slot. A global access that
a cached entry of the cluster serves changes nothing; else the tables lead from where the die's walk caches begin, or the root, to the leaf, which
alone changes: A is set, and D for a store or an atomic; the cluster caches it. Why an access reaches no place (R8, R10, R22, R23, R278): a space or
must-be-zero bits that no access has, a slot that is not ATTACHED; a table beyond HBM or of another partition, an entry that is not valid or has a
reserved bit set, a leaf of level 4, not aligned, beyond HBM or of MTYPE 3, a permission that the leaf does not give, another region than local HBM; a
frame of another partition. -/
def Obligations.Translations : Prop :=
  (∀ (s s1 : State) (g : Nat) (sup : Bool) (k : Access) (x : Word) (p : Place), locate s g sup k x = .ok (s1, p) →
     let part := (s.core g).part
     let cl := clusterOf g
     let va := x.toNat
     let bits := if k = .store ∨ k = .atomic then 192 else 64
     let serves := fun (t : TlbEntry) => t.part == part && decide (t.base ≤ va) && decide (va < t.base + t.size)
     let cached := (s.cluster cl).tlb.find? serves
     let used := ∃ t, cached = some t ∧ bits &&& t.leaf.toNat = bits
     (spaceOf x = 0xE0 → s1 = s ∧ p.loc = locWagon cl ((s.core g).slot (va / 2 ^ 18 % 32)).wagon (va % 2 ^ 18) ∧
       ((s.core g).slot (va / 2 ^ 18 % 32)).st = .attached) ∧
     (spaceOf x = 0xE0 ∨ spaceOf x = 0) ∧ Keeps s s1 g [] [.clusters, .memory, .errors, .host, .walkCaches] ∧
     (spaceOf x = 0 → used → s1 = s) ∧
     (spaceOf x = 0 → ¬used → ∃ q e at_ level, s.part part = some q ∧
       walkFrom s part va (walkStart s (dieOf cl) part va q.root).1 (walkStart s (dieOf cl) part va q.root).2 = .ok (e, at_, level) ∧
       p.loc = pteField e 13 35 * 8192 + va % 2 ^ (6 + 10 * level) ∧ OnlyBytes s s1 at_ 8 ∧
       (s.hasBad at_ 8 = false → BytesAre s1 at_ 8 (e ||| bits)) ∧
       (s1.cluster cl).tlb.head? = some { part := part, base := va / 2 ^ (6 + 10 * level) * 2 ^ (6 + 10 * level), size := 2 ^ (6 + 10 * level),
                                          leaf := BitVec.ofNat 64 (e ||| bits), entry := at_ })) ∧
  (∀ (s : State) (g : Nat) (sup : Bool) (k : Access) (x : Word),
     let part := (s.core g).part
     let cl := clusterOf g
     let va := x.toNat
     (spaceOf x = 0xE0 → 2 ^ 23 ≤ va % 2 ^ 56 → locate s g sup k x = .error 2) ∧
     (spaceOf x = 0xE0 → va % 2 ^ 56 < 2 ^ 23 → ((s.core g).slot (va / 2 ^ 18 % 32)).st ≠ .attached → locate s g sup k x = .error 5) ∧
     (spaceOf x ≠ 0xE0 → spaceOf x ≠ 0 → locate s g sup k x = .error 2) ∧
     (∀ c, spaceOf x = 0 → translate s cl part sup k va = .error c → locate s g sup k x = .error c) ∧
     (∀ s1 y, spaceOf x = 0 → translate s cl part sup k va = .ok (s1, y) →
       (y.region ≠ 0 → locate s g sup k x = .error 2) ∧
       (y.region = 0 → k ≠ .store → s.owns part y.pa = false → locate s g sup k x = .error 15)) ∧
     ∀ q, s.part part = some q → (∀ t ∈ (s.cluster cl).tlb, t.part ≠ part) → Sparse.get [] s.walks (dieOf cl) = [] →
       let entry := fun (l table : Nat) => table + va / 2 ^ (6 + 10 * l) % 1024 * 8
       (∀ c, walkFrom s part va 4 q.root = .error c → translate s cl part sup k va = .error c) ∧
       (∀ l table, 1 ≤ l → l ≤ 4 →
         let at_ := entry l table
         let e := s.bytes at_ 8
         let valid := e % 2 = 1 ∧ pteField e 56 8 = 0 ∧ pteField e 12 1 = 0
         (at_ + 8 > Config.hbmBytes → walkFrom s part va l table = .error 2) ∧
         (at_ + 8 ≤ Config.hbmBytes → s.owns part at_ = false → walkFrom s part va l table = .error 15) ∧
         (at_ + 8 ≤ Config.hbmBytes → s.owns part at_ = true → ¬valid → walkFrom s part va l table = .error 2) ∧
         (at_ + 8 ≤ Config.hbmBytes → s.owns part at_ = true → valid → pteField e 1 1 = 0 →
           walkFrom s part va l table = if pteField e 48 8 ≠ 0 ∨ pteField e 2 10 ≠ 0 ∨ l = 1 ∨ pteField e 13 35 * 8192 + 8192 > Config.hbmBytes
             then .error 2 else walkFrom s part va (l - 1) (pteField e 13 35 * 8192)) ∧
         (at_ + 8 ≤ Config.hbmBytes → s.owns part at_ = true → valid → pteField e 1 1 = 1 → walkFrom s part va l table = .ok (e, at_, l))) ∧
       ∀ e at_ level, walkFrom s part va 4 q.root = .ok (e, at_, level) → pteField e 10 2 = 0 →
         let base := pteField e 13 35 * 8192
         let size := 2 ^ (6 + 10 * level)
         let formed := pteField e 48 8 = 0 ∧ level ≠ 4 ∧ base % size = 0 ∧ pteField e 8 2 ≠ 3 ∧ base + size ≤ Config.hbmBytes
         let right := match k with
           | .load => pteField e 2 1 = 1
           | .store => pteField e 3 1 = 1
           | .atomic => pteField e 2 1 = 1 ∧ pteField e 3 1 = 1
           | .fetch => pteField e 4 1 = 1
         (¬formed → translate s cl part sup k va = .error 2) ∧
         (formed → ¬(right ∧ (sup = true ∨ pteField e 5 1 = 0)) → translate s cl part sup k va = .error 3))

/-! ### Vector instructions -/

/-- The integer, logic, permute, selection and move instructions of majors 0x19 and 0x1F that raise no flag complete with the elements of their table
rows; an inactive element keeps its value (R170, R175 to R179, R191). -/
def Obligations.VectorIntegers : Prop :=
  ∀ (i : Instr) (s : State) (d : BitVec 5) (ty : BitVec 4) (f : Nat → Nat), intForm s i = some (d, ty, f) →
    ∃ t, exec i s = .next t ∧ ElemsAre s t d.toNat (typeWidth ty) f ∧ t.pc = s.pc + 4 ∧ Keeps s t s.cur [.pc, .vectors] []

/-- The element-wise instructions that raise flags, when no raised flag is enabled: each active element takes its result, with its own draw under
stochastic rounding; FFLAGS collects the flags, SRSEED takes one step for each draw (R68, R71, R171, R172, R174, R175, R182). -/
def Obligations.VectorResults : Prop :=
  ∀ (i : Instr) (s : State) (d : BitVec 5) (k : KReg) (w : Nat) (rounds : Bool) (f : Nat → Nat → Nat × Nat),
    flagForm s i = some (d, k, w, rounds, f) → (rounds = true → modeOk s = true) →
    let draws := rounds && s.drawing
    let r := fun j => f j (if draws then laneDraw s k w j else srDraw s.me.csr.srseed)
    let flags := flagsOf k w (fun j => (r j).2)
    s.enabled flags = false →
    ∃ t, exec i s = .next t ∧ ElemsAre s t d.toNat w (fun j => if active k w j then (r j).1 % 2 ^ w else elem (s.getV d) w j) ∧
      FlagsAre s t flags (if draws then (activeList k w).length else 0) ∧ t.pc = s.pc + 4 ∧ Keeps s t s.cur [.pc, .vectors, .csrs] []

/-- A flag that is raised and enabled traps with TCAUSE 9 and the flags in TVAL: FFLAGS is set, no element is written and SRSEED stays (R71, R172). In
strict mode the reserved codes of RMODE, and SR without feature 5, trap where an instruction samples RMODE, before its own checks: TCAUSE 1, TVAL
holding RMODE (R66, R147 step 2, R171, R275). -/
def Obligations.VectorTraps : Prop :=
  (∀ (i : Instr) (s : State) (d : BitVec 5) (k : KReg) (w : Nat) (rounds : Bool) (f : Nat → Nat → Nat × Nat),
     flagForm s i = some (d, k, w, rounds, f) → (rounds = true → modeOk s = true) → handled s = true →
     let r := fun j => f j (if (rounds && s.drawing) = true then laneDraw s k w j else srDraw s.me.csr.srseed)
     let flags := flagsOf k w (fun j => (r j).2)
     s.enabled flags = true →
     ∃ t, exec i s = .next t ∧ TakesTrap (s.raise flags) t 9 (BitVec.ofNat 64 (flags % 32)) ∧
       (s.raise flags).me.csr = { s.me.csr with fflags := s.me.csr.fflags ||| BitVec.ofNat 64 (flags % 32) } ∧
       Keeps s (s.raise flags) s.cur [.csrs] []) ∧
  (∀ (s : State), modeOk s = false → handled s = true →
     let traps := fun (i : Instr) => ∃ t, exec i s = .next t ∧ TakesTrap s t 1 s.me.csr.rmode
     (∀ (i : Instr) (d : BitVec 5) (k : KReg) (w : Nat) (f : Nat → Nat → Nat × Nat), flagForm s i = some (d, k, w, true, f) → traps i) ∧
     (∀ (d a : BitVec 5) (ts : BitVec 4) (k : BitVec 3) (ty : BitVec 4), convRounds ty ts = true → traps (.vwiden d a ts k ty)) ∧
     (∀ (d : BitVec 5) (a b : BitVec 6) (k ty : BitVec 3), traps (.vldx d a b k ty)) ∧
     (∀ (d a : BitVec 6) (b : BitVec 5) (o : BitVec 2) (sc : BitVec 3), traps (.afadd d a b o sc)) ∧
     (∀ (d a b : BitVec 6) (u : BitVec 1), traps (.accst d a b u) ∧ ((s.getS a).getLsbD 59 = true → traps (.mma d a b u) ∧ traps (.mmac d a b))) ∧
     (∀ (d a : BitVec 6), traps (.scgather d a)) ∧
     ∀ (d : BitVec 6) (c : BitVec 2) (s1 : State) (p : CopyPlan), (∀ k y z, s.hold ≠ .cpgo k y z) → cpgoCheck s (s.me.chan c.toNat) = .ok (s1, p) →
       traps (.cpgo d c))

/-- VCMP: each byte of an active element, active by its first mask bit, takes the element's result, a byte of two I4 elements the AND of theirs, every
other byte 0; an enabled flag traps with kD unwritten (R136, R180). -/
def Obligations.VectorCompares : Prop :=
  ∀ (i : Instr) (s : State) (d : BitVec 3) (k : KReg) (ty : BitVec 4) (f : Nat → Bool × Nat), compareForm s i = some (d, k, ty, f) →
    let w := typeWidth ty
    let flags := flagsOf k w (fun j => (f j).2)
    (s.enabled flags = false → ∃ t m, exec i s = .next t ∧ MaskIs s t d.toNat m ∧ FlagsAre s t flags 0 ∧ t.pc = s.pc + 4 ∧
      Keeps s t s.cur [.pc, .masks, .csrs] [] ∧
      ∀ b, b < 512 → m.getLsbD b = if w = 4 then active k w (2 * b) && (f (2 * b)).1 && (f (2 * b + 1)).1
        else active k w (b / (w / 8)) && (f (b / (w / 8))).1) ∧
    (s.enabled flags = true → handled s = true →
      ∃ t, exec i s = .next t ∧ TakesTrap (s.raise flags) t 9 (BitVec.ofNat 64 (flags % 32)))

/-- The mask instructions and the moves between vector and scalar registers; k0 and s0 discard a write, an index beyond the register reads 0 and
writes nothing (R136, R190, R191). -/
def Obligations.VectorMasks : Prop :=
  ∀ (s : State),
    let onMask := fun (i : Instr) (d : BitVec 3) (v : KReg) => ∃ t, exec i s = .next t ∧ MaskIs s t d.toNat v ∧ t.pc = s.pc + 4 ∧ Keeps s t s.cur [.pc, .masks] []
    let onScalar := fun (i : Instr) (d : Nat) (v : Word) => ∃ t, exec i s = .next t ∧ WritesScalar s t d v (s.pc + 4)
    (∀ d a b : BitVec 3, onMask (.kand d a b) d (s.getK a &&& s.getK b) ∧ onMask (.kor d a b) d (s.getK a ||| s.getK b) ∧
      onMask (.kxor d a b) d (s.getK a ^^^ s.getK b) ∧ onMask (.knot d a) d (~~~(s.getK a))) ∧
    ∀ ty : BitVec 4,
      let w := typeWidth ty
      (∀ (d : BitVec 5) (a : BitVec 3), onScalar (.kpopc d a ty) d.toNat (BitVec.ofNat 64 (activeList (s.getK a) w).length) ∧
        onScalar (.kfirst d a ty) d.toNat (BitVec.ofNat 64 ((activeList (s.getK a) w).headD (elemCount w)))) ∧
      (∀ (d : BitVec 3) (a : BitVec 5), ∃ t m, exec (.kfrom d a ty) s = .next t ∧ MaskIs s t d.toNat m ∧ t.pc = s.pc + 4 ∧
        Keeps s t s.cur [.pc, .masks] [] ∧ ∀ b, b < 512 → m.getLsbD b = decide (8 * b < min (s.getS a).toNat (elemCount w) * w)) ∧
      (∀ (x a : BitVec 5) (d : BitVec 6), onScalar (.vget x a d ty) d.toNat
        (let e := elem (s.getV a) w (s.getS x).toNat
         if (s.getS x).toNat ≥ elemCount w then 0 else if ty.toNat ≥ 5 then wordOf (BitVec.ofNat w e).toInt else BitVec.ofNat 64 e)) ∧
      ∀ (d x : BitVec 5) (b : BitVec 6), ∃ t, exec (.vput d x b ty) s = .next t ∧ t.pc = s.pc + 4 ∧ Keeps s t s.cur [.pc, .vectors] [] ∧
        ElemsAre s t d.toNat w (fun j => if j = (s.getS x).toNat then (s.getS b).toNat % 2 ^ w else elem (s.getV d) w j)

/-- VWIDEN: source element i, active by the mask at the source's width, goes to element i mod q of register D + i / q (R181, R182); an enabled flag
traps with no register of the group written (R71, R172). -/
def Obligations.VectorWidening : Prop :=
  ∀ (d a : BitVec 5) (ts : BitVec 4) (k : BitVec 3) (ty : BitVec 4) (s : State), Instr.wf (.vwiden d a ts k ty) = true →
    (convRounds ty ts = true → modeOk s = true) →
    let w := typeWidth ts
    let v := typeWidth ty
    let q := elemCount v
    let m := s.getK k
    let draws := convRounds ty ts && s.drawing
    let r := fun j => convElem s ty ts (if draws then laneDraw s m w j else srDraw s.me.csr.srseed) (elem (s.getV a) w j)
    let flags := flagsOf m w (fun j => (r j).2)
    (s.enabled flags = true → handled s = true →
      ∃ t, exec (.vwiden d a ts k ty) s = .next t ∧ TakesTrap (s.raise flags) t 9 (BitVec.ofNat 64 (flags % 32))) ∧
    (s.enabled flags = false → ∃ t, exec (.vwiden d a ts k ty) s = .next t ∧
      (∀ j, j < elemCount w → elem (t.me.getV (d.toNat + j / q)) v (j % q) =
        if active m w j then (r j).1 % 2 ^ v else elem (s.me.getV (d.toNat + j / q)) v (j % q)) ∧
      (∀ n, n < d.toNat ∨ d.toNat + v / w ≤ n → t.me.getV n = s.me.getV n) ∧
      FlagsAre s t flags (if draws then (activeList m w).length else 0) ∧ t.pc = s.pc + 4 ∧ Keeps s t s.cur [.pc, .vectors, .csrs] [])

/-- VRSUM, VRMAX and VRMIN write element 0 alone, whatever the mask; VSCAN writes the active elements. For an integer type they are the sum modulo
2^w, the largest and the smallest active element, and the running sums; for a float type the values of the pairwise tree and of the scan's passes,
rounded RNE (R75, R187, R188), where the scan raises the flags of active positions alone (R172). An enabled flag traps with no element written (R71).
-/
def Obligations.VectorReductions : Prop :=
  ∀ (d a : BitVec 5) (k : BitVec 3) (ty : BitVec 4) (s : State), Instr.wf (.vrsum d a k ty) = true →
    let w := typeWidth ty
    let m := s.getK k
    let n := elemCount w
    let u := fun j => if active m w j then elem (s.getV a) w j else 0
    let z := fun j => (BitVec.ofNat w (elem (s.getV a) w j)).toInt
    let traps := fun (i : Instr) (r : Nat) => s.enabled r = true → handled s = true →
      ∃ t, exec i s = .next t ∧ TakesTrap (s.raise r) t 9 (BitVec.ofNat 64 (r % 32))
    let first := fun (i : Instr) (r : Nat × Nat) => traps i r.2 ∧ (s.enabled r.2 = false →
      ∃ t, exec i s = .next t ∧ ElemsAre s t d.toNat w (fun j => if j = 0 then r.1 % 2 ^ w else elem (s.getV d) w j) ∧ FlagsAre s t r.2 0 ∧
        t.pc = s.pc + 4 ∧ Keeps s t s.cur [.pc, .vectors, .csrs] [])
    let float := VT.isFloat ty
    let tree := fun (op : Nat → Nat → Nat × Nat) (e : Nat) => pairwiseTree op n.log2 ((List.range n).map (fun j => if active m w j then elem (s.getV a) w j else e))
    let sum := if float then tree (sumElem ty) (sumIdent ty) else (((List.range n).foldl (fun x j => x + u j) 0) % 2 ^ w, 0)
    let best := fun (larger : Bool) => if float then tree (fpPick larger ty) (pickIdent larger ty) else
      (bitsOf w ((activeList m w).foldl (fun x j => if larger then max x (z j) else min x (z j)) (if larger then -2 ^ (w - 1) else 2 ^ (w - 1) - 1)), 0)
    let scan := if float then scanGo (sumElem ty) (active m w) n.log2 1 ((List.range n).map (fun j => if active m w j then elem (s.getV a) w j else sumIdent ty))
      else ((List.range n).map (fun j => ((List.range (j + 1)).foldl (fun x i => x + u i) 0) % 2 ^ w), 0)
    first (.vrsum d a k ty) sum ∧ first (.vrmax d a k ty) (best true) ∧ first (.vrmin d a k ty) (best false) ∧
    traps (.vscan d a k ty) scan.2 ∧ (s.enabled scan.2 = false → ∃ t, exec (.vscan d a k ty) s = .next t ∧
      ElemsAre s t d.toNat w (fun j => if active m w j then scan.1[j]?.getD 0 % 2 ^ w else elem (s.getV d) w j) ∧ FlagsAre s t scan.2 0 ∧
      t.pc = s.pc + 4 ∧ Keeps s t s.cur [.pc, .vectors, .csrs] [])

/-- VLD, VLDS and VLDG complete when the checks and translations of their active elements pass and nothing holds them: performed at once, each active
element takes the bytes that the core reads at its place; performed later, each is a pending read and the register is as it was. An inactive element
keeps its value (R78, R170, R185). -/
def Obligations.VectorLoads : Prop :=
  ∀ (i : Instr) (s s1 : State) (x : VAccess) (es : List VElem), vecForm s false i = some x → vecGate s i = true →
    vectorPlaces s .load x.run x.base x.nb (vecList x) = .ok (s1, es) → vectorStall s1 x.run x.nb es = false →
    (∀ e ∈ es, s1.badNow e.place x.nb = false) →
    (s.late = false → (∀ e ∈ es, s1.me.readable e.place x.nb = true) → (s1.chargeList (elemAsks s1 x.nb es)).isSome = true →
      ∃ t, exec i s = .next t ∧ (∀ r, r ≠ x.d.toNat → t.me.getV r = s.me.getV r) ∧
        (∀ e ∈ es, elem (t.getV x.d) (8 * x.nb) e.idx = s1.readNow e.place x.nb) ∧
        (∀ j, j < elemCount (8 * x.nb) → active x.k (8 * x.nb) j = false → elem (t.getV x.d) (8 * x.nb) j = elem (s.getV x.d) (8 * x.nb) j) ∧
        t.pc = s.pc + 4 ∧ StepsWalker s t x.a ∧ Keeps s1 t s.cur [.pc, .vectors, .walkers, .cache] [.partitions, .requests]) ∧
    (s.late = true → (∀ e ∈ es, s1.hasBad e.place.loc x.nb = false) → ∃ t, exec i s = .next t ∧ t.me.mem.late = s.me.mem.late ++ es.map (fun e =>
        { loc := e.place.loc, n := x.nb, mask := 0xFF, va := e.addr, seq := s.me.mem.seq, mtype := e.place.mtype, slot := e.place.slot,
          dest := .vector x.d.toNat (e.idx * x.nb), dep := s.me.mem.now : Late }) ∧
      t.pc = s.pc + 4 ∧ StepsWalker s t x.a ∧ Keeps s1 t s.cur [.pc, .walkers, .pending] [])

/-- VST, VSTS and VSTG enter the writes of their active elements: VSTS and VSTG one for each, in ascending order; VST one for each 8-byte unit that
has an active element, with the active bytes as its mask. No byte changes until they are performed (R78, R80, R185). The checks of a vector access, in
order over all active elements: alignment of the base to 64 bytes and of each element, then space and slot, then translation; the lowest element that
fails gives TVAL, and a discarded packet its record. When they pass, each active element has its place, in order, and only a walk's own effects remain
(R161, R185, R265). -/
def Obligations.VectorStores : Prop :=
  (∀ (i : Instr) (s s1 : State) (x : VAccess) (es : List VElem), vecForm s true i = some x → Instr.wf i = true →
     vectorPlaces s .store x.run x.base x.nb (vecList x) = .ok (s1, es) → vectorStall s1 x.run x.nb es = false →
     (∀ e ∈ es, s1.interlock s.cur e.addr.toNat (e.addr.toNat + x.nb - 1) = .go) →
     ∃ t ws, exec i s = .next t ∧ t.me.mem.wbuf = s.me.mem.wbuf ++ ws ∧ (∀ w ∈ ws, w.seq = s.me.mem.seq ∧ w.rel = false ∧ w.part = s.myPart) ∧
       t.pc = s.pc + 4 ∧ StepsWalker s t x.a ∧ Keeps s1 t s.cur [.pc, .walkers, .pending] [] ∧
       (x.run = false → ws.map (fun w => (w.loc, w.n, w.val, w.mask)) =
         es.map (fun e => (e.place.loc, x.nb, BitVec.ofNat 64 (elem (s.getV x.d) (8 * x.nb) e.idx), 0xFF))) ∧
       (x.run = true → (∀ e ∈ es, ∃ w ∈ ws, ∃ b, w.val = BitVec.ofNat 64 (elem (s.getV x.d) 64 (e.idx * x.nb / 8)) ∧ w.n = 8 ∧ b = e.idx * x.nb % 8 ∧
           ∀ y, y < x.nb → w.mask.getLsbD (b + y) = true) ∧
         ∀ w ∈ ws, ∃ e ∈ es, w.loc = e.place.loc - e.idx * x.nb % 8 ∧ w.val = BitVec.ofNat 64 (elem (s.getV x.d) 64 (e.idx * x.nb / 8)) ∧
           ∀ y, y < 8 → w.mask.getLsbD y = active x.k (8 * x.nb) ((e.idx * x.nb / 8 * 8 + y) / x.nb))) ∧
  (∀ (i : Instr) (s : State) (st : Bool) (x : VAccess), vecForm s st i = some x → vecGate s i = true → handled s = true →
     (∀ j y l, (vecList x).filter (fun e => decide (x.base.toNat % 64 ≠ 0 ∨ e.2.toNat % x.nb ≠ 0)) = (j, y) :: l → ∃ t, exec i s = .next t ∧ TakesTrap s t 4 y) ∧
     ((∀ e ∈ vecList x, x.base.toNat % 64 = 0 ∧ e.2.toNat % x.nb = 0) →
       let spaces := (vecList x).filter (fun e => decide (spaceOf e.2 ≠ 0 ∧ (spaceOf e.2 ≠ 0xE0 ∨ 2 ^ 23 ≤ e.2.toNat % 2 ^ 56 ∨
         (x.run = true ∧ spaceOf x.base = 0xE0 ∧ e.2.toNat / 2 ^ 18 % 32 ≠ x.base.toNat / 2 ^ 18 % 32) ∨
         (s.me.slot (e.2.toNat / 2 ^ 18 % 32)).st ≠ .attached)))
       let other := fun (y : Word) => decide (x.run = true ∧ spaceOf x.base = 0xE0 ∧ y.toNat / 2 ^ 18 % 32 ≠ x.base.toNat / 2 ^ 18 % 32)
       (∀ j y l, spaces = (j, y) :: l → ∃ t, exec i s = .next t ∧
         TakesTrap s t (if spaceOf y = 0xE0 ∧ y.toNat % 2 ^ 56 < 2 ^ 23 ∧ other y = false then 5 else 2) y) ∧
       ∀ l1 j y l2 u es c, spaces = [] → vecList x = l1 ++ (j, y) :: l2 → vectorPlaces s (if st then .store else .load) x.run x.base x.nb l1 = .ok (u, es) →
         locate u s.cur s.me.sup (if st then .store else .load) y = .error c → ∃ t, exec i s = .next t ∧
           TakesTrap (if c = 15 then { s with host := { s.host with held := s.host.held ++
             [⟨BitVec.ofNat 64 (8 + s.myPart % 64 * 2 ^ 8 + s.cur % 1024 * 2 ^ 16), y⟩] } } else s) t c y) ∧
     ∀ k s1 es, vectorPlaces s k x.run x.base x.nb (vecList x) = .ok (s1, es) → es.map (fun e => (e.idx, e.addr)) = vecList x ∧
       Keeps s s1 s.cur [] [.clusters, .memory, .errors, .host, .walkCaches])

/-- VLDX by a livery that has a format reads each active element, converts it with its scale and writes it rounded under RMODE (R57, R60 to R62,
R186); an enabled flag traps with no element written (R71, R172). That all its reads are performed at issue is the model's choice (log 9). -/
def Obligations.WagonLoads : Prop :=
  ∀ (d : BitVec 5) (a b : BitVec 6) (k ty : BitVec 3) (s : State),
    let x := s.base a
    let n := x.toNat / 2 ^ 18 % 32
    let l := (s.cluster (clusterOf s.cur)).wagon (s.me.slot n).wagon
    let loc := locWagon (clusterOf s.cur) (s.me.slot n).wagon 0
    let t4 := ty.setWidth 4
    let w := typeWidth t4
    let m := s.getK k
    let spot := fun (j : Nat) => spotOf l.livery ((s.getS b).toNat + j)
    let r := fun j => roundIn s t4 (if s.drawing then laneDraw s m w j else srDraw s.me.csr.srseed) (spotVal s l.livery loc (spot j), 0)
    let flags := flagsOf m w (fun j => (r j).2)
    let p : Place := { loc := loc, mtype := 0, slot := some n }
    spaceOf x = 0xE0 → x.toNat % 2 ^ 56 < 2 ^ 23 → x.toNat % 2 ^ 18 = 0 → (s.me.slot n).st = .attached →
    l.livery.toNat % 256 ≠ 0 → l.livery.toNat % 256 ≠ 12 → modeOk s = true → s.pendFull p = false →
    (∀ j ∈ activeList m w, spotBeyond l.livery (spot j) = false ∧ ∀ y ∈ spotRanges l.livery (spot j),
      s.wmStall s.cur (x.toNat + y.1) (x.toNat + y.2) = false ∧ s.readBad s.cur 0 s.me.mem.seq s.me.mem.now (loc + y.1) (y.2 - y.1 + 1) = false ∧
      s.me.readable { p with loc := loc + y.1 } (y.2 - y.1 + 1) = true) →
    (s.enabled flags = true → handled s = true → ∃ t u, exec (.vldx d a b k ty) s = .next t ∧ Keeps s u s.cur [.cache] [] ∧
      TakesTrap (u.raise flags) t 9 (BitVec.ofNat 64 (flags % 32))) ∧
    (s.enabled flags = false → ∃ t, exec (.vldx d a b k ty) s = .next t ∧
      ElemsAre s t d.toNat w (fun j => if active m w j then (r j).1 % 2 ^ w else elem (s.getV d) w j) ∧
      FlagsAre s t flags (if s.drawing then (activeList m w).length else 0) ∧ t.pc = s.pc + 4 ∧ StepsWalker s t a ∧
      Keeps s t s.cur [.pc, .vectors, .walkers, .csrs, .cache] [])

/-! ### Wagons -/

/-- HITCH and HITCH.IMP (R33, R42, R48, R54, R129, R193): supervisor only; an acquire; the statuses of a slot that is not free, an empty yard and an
unknown impounded wagon; a wagon with the partition's own record is given at once, another is cleared first, its record unchanged, while the core
waits. -/
def Obligations.Hitches : Prop :=
  ∀ (d b : BitVec 6) (n : BitVec 5) (s : State),
    let cl := clusterOf s.cur
    let h := s.me.slot n.toNat
    let free := h.st = .detached ∧ h.inb = false ∧ h.rvk = false
    let room := poolRoom s 1 (fun q => (s.cluster cl).held q) s.myPart 1
    let turn := s.mayReach cl (slotKey s.cur n.toNat) 0 = true
    (s.me.sup = false → handled s = true → ∀ i ∈ [Instr.hitch d n, .hitchImp d n b], ∃ t, exec i s = .next t ∧ TakesTrap s t 3 0) ∧
    (s.me.sup = true → acquireOk s = true →
      (∀ i ∈ [Instr.hitch d n, .hitchImp d n b], turn → s.hold ≠ .zeroing → ¬free → ∃ t, exec i s = .next t ∧ Answers s t d 1 [] [.clusters] ∧ OnlyOrder s t) ∧
      (turn → s.hold ≠ .zeroing → free → ((∀ w, ¬FreeWagon (s.cluster cl) w) ∨ room = false) →
        ∃ t, exec (.hitch d n) s = .next t ∧ Answers s t d 6 [] [.clusters] ∧ OnlyOrder s t) ∧
      (∀ w, turn → s.hold ≠ .zeroing → free → FreeWagon (s.cluster cl) w → room = true →
        let x := (s.cluster cl).wagon w
        (x.prec = some s.myPart → ∃ t, exec (.hitch d n) s = .next t ∧ Answers s t d 0 [.hitch, .cache] [.clusters] ∧
          SlotIs s t s.cur n.toNat { h with st := .attached, wagon := w } ∧ WagonIs s t cl w { x with livery := 0, tag := 0, yard := .hitched } ∧
          t.me.mem.rcache = []) ∧
        (x.prec ≠ some s.myPart → ∃ t, exec (.hitch d n) s = .next t ∧ t.pc = s.pc ∧ t.hold = .zeroing ∧ Keeps s t s.cur [.pc, .hitch] [.clusters] ∧
          SlotIs s t s.cur n.toNat { h with st := .attached, wagon := w } ∧
          WagonIs s t cl w { x with livery := 0, tag := 0, next := some s.myPart, yard := .zeroing } ∧ w ∈ (t.cluster cl).zeroing.map (fun e => e.1))) ∧
      (s.hold = .zeroing → ((s.cluster cl).wagon h.wagon).yard = .hitched → ∃ t, exec (.hitch d n) s = .next t ∧ Answers s t d 0 [.cache] [] ∧
        t.me.mem.rcache = []) ∧
      (turn → free → let w := (s.getS b).toNat % 128
        (((s.cluster cl).impounds.any (fun r => r.wagon == w && r.part == s.myPart) = false →
          ∃ t, exec (.hitchImp d n b) s = .next t ∧ Answers s t d 7 [] [.clusters] ∧ OnlyOrder s t) ∧
        ∀ r, (s.cluster cl).impounds.filter (fun r => r.wagon == w && r.part == s.myPart) = [r] → clusterOf r.core = cl → r.core ≠ s.cur →
          ∃ t, exec (.hitchImp d n b) s = .next t ∧ t.pc = s.pc + 4 ∧ ScalarIs s t d.toNat 0 ∧ Leaves s t [s.cur, r.core] [.pc, .scalars, .hitch, .cache] [.clusters] ∧
            SlotIs s t s.cur n.toNat { h with st := .attached, wagon := w } ∧
            SlotIs s t r.core r.slot { (s.core r.core).slot r.slot with st := .detached, wagon := 0 } ∧
            WagonIs s t cl w { (s.cluster cl).wagon w with yard := .hitched } ∧
            (t.cluster cl).impounds = (s.cluster cl).impounds.filter (fun x => x.wagon != w))))

/-- HAND answers the first status of Table 02-6 that applies; with status 0 the giver's slot is LEAVING, the target slot has INB set, and the giver
goes on (R39, R40). It waits while a later event of the cycle has reached its slot or the target's (R38). A core whose caravan is bound and not yet
started counts as running no task, which is the model's choice (log 59). TAKE and TAKE.T (Table 02-5, R43, R45): an arrived wagon is attached, an
acquire; a revoked slot answers 5; an empty one waits; any other state, and for TAKE.T a wrong tag, is a schedule fault. -/
def Obligations.HandOvers : Prop :=
  (∀ (d b : BitVec 6) (n : BitVec 5) (s : State),
     let x := (s.getS b).toNat
     let h := s.me.slot n.toNat
     let ts := x / 2 ^ 16 % 32
     let cl := clusterOf s.cur
     let own := s.mayReach cl (slotKey s.cur n.toNat) 0 = true
     let reach := fun (g : Nat) => s.mayReach cl (slotKey g ts) (if g = s.cur then 0 else 2 + s.cur) = true
     let target := fun (g : Nat) => s.physOf s.myPart (x % 1024) = some g
     let answers := fun (c : Nat) => ∃ t, exec (.hand d n b) s = .next t ∧ Answers s t d c [] [.clusters] ∧ OnlyOrder s t
     (¬own → exec (.hand d n b) s = .next s) ∧
     (∀ g, target g → clusterOf g = cl → ¬reach g → exec (.hand d n b) s = .next s) ∧
     (own → (∀ g, target g → clusterOf g = cl → reach g) → h.st ≠ .attached → answers 4) ∧
     (own → h.st = .attached → (∀ g, target g → clusterOf g ≠ cl) → answers 2) ∧
     ∀ g, target g → clusterOf g = cl → reach g → own → h.st = .attached →
       let e := (s.core g).slot ts
       let runs := (s.core g).sched.run ∈ [Run.running, .done, .point] ∧ (s.core g).part = s.myPart
       (¬runs → answers 3) ∧
       (runs → ¬(e.st = .detached ∧ e.inb = false ∧ e.rvk = false) → answers 1) ∧
       (runs → e.st = .detached → e.inb = false → e.rvk = false →
         ∃ t, exec (.hand d n b) s = .next t ∧ t.pc = s.pc + 4 ∧ ScalarIs s t d.toNat 0 ∧ Leaves s t [s.cur, g] [.pc, .scalars, .hitch] [.clusters] ∧ OnlyOrder s t ∧
           ∀ c j, (t.core c).slot j = if c = g ∧ j = ts then { e with inb := true }
             else if c = s.cur ∧ j = n.toNat then { h with st := .leaving, dest := some (g, ts), since := s.me.mem.seq } else (s.core c).slot j)) ∧
  (∀ (d : BitVec 6) (n : BitVec 5) (s : State) (i : Instr), i ∈ [Instr.take d n, .takeT d n] →
     let h := s.me.slot n.toNat
     let tag := ((s.cluster (clusterOf s.cur)).wagon h.wagon).tag
     let turn := s.mayReach (clusterOf s.cur) (slotKey s.cur n.toNat) 0 = true
     let fault : Word := BitVec.ofNat 64 (h.st.code * 2 ^ 40 + n.toNat * 2 ^ 32 + h.etag.toNat * 2 ^ 16 + (if h.st = .detached then 0 else tag.toNat))
     (h.st = .detached → h.rvk = true → turn → ∃ t, exec i s = .next t ∧ Answers s t d 5 [.hitch] [.clusters] ∧ OnlyOrder s t ∧
       SlotIs s t s.cur n.toNat { h with rvk := false }) ∧
     (h.st = .detached → h.rvk = false → exec i s = .next s) ∧
     (h.st = .arriving → (i = .take d n ∨ tag = h.etag) → acquireOk s = true → turn → ∃ t, exec i s = .next t ∧ Answers s t d 0 [.hitch, .cache] [.clusters] ∧
       OnlyOrder s t ∧ SlotIs s t s.cur n.toNat { h with st := .attached } ∧ t.me.mem.rcache = []) ∧
     ((h.st ∈ [HState.attached, .leaving, .impounded] ∨ (h.st = .arriving ∧ i = .takeT d n ∧ tag ≠ h.etag)) → handled s = true →
       ∃ t, exec i s = .next t ∧ TakesTrap s t 6 fault))

/-- DROP (R37, R97, Table 02-5), HSTAT (Table 02-3), LVSET, LVGET, WTAG and WTAG.E (R52, R56, R193): each works on its slot; a slot that is not
ATTACHED faults the four that act on its wagon. -/
def Obligations.SlotInstructions : Prop :=
  ∀ (d b : BitVec 6) (n : BitVec 5) (s : State),
    let cl := clusterOf s.cur
    let h := s.me.slot n.toNat
    let x := (s.cluster cl).wagon h.wagon
    let turn := s.mayReach cl (slotKey s.cur n.toNat) 0 = true
    (turn → h.st = .detached → h.rvk = true → ∃ t, exec (.drop d n) s = .next t ∧ Answers s t d 0 [.hitch] [.clusters] ∧ OnlyOrder s t ∧
      SlotIs s t s.cur n.toNat { h with rvk := false }) ∧
    (turn → ((h.st = .detached ∧ h.rvk = false) ∨ h.st = .leaving ∨ h.st = .impounded) →
      ∃ t, exec (.drop d n) s = .next t ∧ Answers s t d 4 [] [.clusters] ∧ OnlyOrder s t) ∧
    (turn → h.st = .attached → ∃ t, exec (.drop d n) s = .next t ∧ Answers s t d 0 [.hitch] [.clusters] ∧ OnlyOrder s t ∧
      SlotIs s t s.cur n.toNat { h with st := .leaving, dest := none, since := s.me.mem.seq }) ∧
    (h.st = .arriving → s.me.drained = false → exec (.drop d n) s = .next s) ∧
    (turn → h.st = .arriving → s.me.drained = true → ∃ t, exec (.drop d n) s = .next t ∧ Answers s t d 0 [.hitch] [.clusters] ∧
      SlotIs s t s.cur n.toNat { h with st := .detached, wagon := 0 } ∧ WagonIs s t cl h.wagon { x with yard := .free, next := none }) ∧
    (∃ t, exec (.hstat d n) s = .next t ∧ Answers s t d (h.st.code + (if h.inb then 8 else 0) + (if h.rvk then 16 else 0) +
      (if h.st = .detached then 0 else h.wagon % 128) * 2 ^ 8 + h.etag.toNat * 2 ^ 16 + s.pend s.cur n.toNat % 256 * 2 ^ 32) [] []) ∧
    (∃ t, exec (.wtagE n b) s = .next t ∧ GoesOn s t [.hitch] [] ∧ SlotIs s t s.cur n.toNat { h with etag := (s.getS b).setWidth 16 }) ∧
    (h.st = .attached →
      (∃ t, exec (.lvget d n) s = .next t ∧ Answers s t d x.livery.toNat [] []) ∧
      (∃ t, exec (.wtag n b) s = .next t ∧ GoesOn s t [] [.clusters] ∧ WagonIs s t cl h.wagon { x with tag := (s.getS b).setWidth 16 }) ∧
      (liveryValid s ((s.getS b).setWidth 32) = true → s.pend s.cur n.toNat = 0 → ∃ t, exec (.lvset n b) s = .next t ∧ GoesOn s t [] [.clusters] ∧
        WagonIs s t cl h.wagon { x with livery := (s.getS b).setWidth 32 }) ∧
      (liveryValid s ((s.getS b).setWidth 32) = false → handled s = true → ∃ t, exec (.lvset n b) s = .next t ∧
        TakesTrap s t 1 (((s.getS b).setWidth 32).setWidth 64))) ∧
    (h.st ≠ .attached → handled s = true → ∀ i ∈ [Instr.lvset n b, .lvget d n, .wtag n b], ∃ t, exec i s = .next t ∧
      TakesTrap s t 5 (BitVec.ofNat 64 (0xE0 * 2 ^ 56 + n.toNat * 2 ^ 18)))

/-- The yard's own steps, each in its place of the cycle (R38): the end of a clearing (R33), the owner change of a hand-over with its message, or into
the impound list of a dead target (R40, R44, R47), the end of a drop's drain (R37, R97), a held message (R44, R129), the impounding of a dead core's
slot with its count in the launch's fault (R46, R262) and the release of the wagon (R48). That the owner change waits for the accesses to the wagon
alone (log 58) and the inbox credits of a partition (log 14) are the model's choices. -/
def Obligations.YardSteps : Prop :=
  ∀ (s : State),
    (∀ (c w t0 : Nat), (s.cluster c).zeroing.find? (fun e => e.1 == w) = some (w, some t0) → t0 + 512 ≤ s.cycle.toNat → w < 128 →
      (∀ k x, s.caravan k = some x → x.st ≠ .starting) → Memory.wf s.mem = true →
      ∃ t, exec (.wagonZeroingDone c w) s = .next t ∧ Leaves s t [] [] [.clusters, .memory, .errors] ∧ (∀ o, o < 2 ^ 18 → t.byte (locWagon c w o) = 0) ∧
        (∀ j, j < locWagon c w 0 ∨ locWagon c w 0 + 2 ^ 18 ≤ j → t.byte j = s.byte j) ∧
        let x := (s.cluster c).wagon w
        WagonIs s t c w { x with livery := 0, tag := 0, prec := x.next, next := none, yard := if x.yard = .zeroing then .hitched else x.yard }) ∧
    (∀ (g n r ts : Nat), let h := (s.core g).slot n
      let e := (s.core r).slot ts
      h.st = .leaving → h.dest = some (r, ts) → leavingDrained s g n = true → e.inb = true → g ≠ r →
      s.untouched (clusterOf g) (slotKey g n) = true → s.mayReach (clusterOf r) (slotKey r ts) 1 = true →
      ((s.core r).sched.dead = true → (∀ tk, (s.core r).sched.task = some tk → s.disp tk.disp = none) →
        ∃ t, exec (.ownerChange g n) s = .next t ∧ Leaves s t [g, r] [.hitch] [.clusters] ∧ SlotIs s t g n { h with st := .detached, wagon := 0, dest := none } ∧
          SlotIs s t r ts { e with st := .impounded, wagon := h.wagon, inb := false, dest := none } ∧
          ((t.cluster (clusterOf r)).wagon h.wagon).yard = .impounded ∧
          (t.cluster (clusterOf r)).impounds = (s.cluster (clusterOf r)).impounds ++ [⟨h.wagon, r, ts, (s.core r).part, (s.core r).csr.tcause.toNat⟩]) ∧
      ((s.core r).sched.dead = false → (s.core r).mail.held = [] → (s.core r).mail.inbox.length < s.credits r →
      ∃ t, exec (.ownerChange g n) s = .next t ∧ Leaves s t [g, r] [.hitch, .mail] [.clusters] ∧ OnlyOrder s t ∧
        SlotIs s t g n { h with st := .detached, wagon := 0, dest := none } ∧
        SlotIs s t r ts { e with st := .arriving, wagon := h.wagon, inb := false } ∧
        (t.core r).mail.inbox = (s.core r).mail.inbox ++ [⟨BitVec.ofNat 64 (1 + s.logicalOf (s.core g).part g % 1024 * 2 ^ 16 + n % 32 * 2 ^ 26 + ts % 32 * 2 ^ 32 +
          h.wagon % 128 * 2 ^ 40 + ((s.cluster (clusterOf g)).wagon h.wagon).tag.toNat * 2 ^ 48), 0⟩])) ∧
    (∀ (g n : Nat), let h := (s.core g).slot n
      h.st = .leaving → h.dest = none → leavingDrained s g n = true → (s.core g).drainedTo h.since = true → s.mayReach (clusterOf g) (slotKey g n) 1 = true → ∃ t, exec (.dropDrainEnd g n) s = .next t ∧ Leaves s t [g] [.hitch] [.clusters] ∧
        SlotIs s t g n { h with st := .detached, wagon := 0 } ∧ WagonIs s t (clusterOf g) h.wagon { (s.cluster (clusterOf g)).wagon h.wagon with yard := .free, next := none }) ∧
    (∀ (g : Nat) (m : Msg) (l : List Msg), (s.core g).mail.held = m :: l → (s.core g).mail.inbox.length < s.credits g →
      ∃ t, exec (.heldMessagePost g) s = .next t ∧ Leaves s t [g] [.mail] [] ∧
        (t.core g).mail = { (s.core g).mail with inbox := (s.core g).mail.inbox ++ [m], held := l }) ∧
    (∀ (g n : Nat) (tk : Task), let h := (s.core g).slot n
      (s.core g).sched.dead = true → h.st = .attached → h.dest = none → s.pend g n = 0 → s.mayReach (clusterOf g) (slotKey g n) 1 = true →
      (s.core g).sched.task = some tk → (∀ d, s.disp tk.disp = some d → d.ready = false) →
      ((s.core g).sched.unwound = false ∨ ((s.core g).setSlot n { h with st := .impounded, inb := false }).named ≠ []) →
      ∃ t, exec (.impound g n) s = .next t ∧ Leaves s t [g] [.hitch] [.clusters, .launches] ∧ SlotIs s t g n { h with st := .impounded, inb := false } ∧
        (∀ j, t.disp j = if j = tk.disp then (s.disp j).map (fun d =>
          { d with fault := d.fault.map (fun f => if f.uid = tk.uid then { f with imp := f.imp + 1 } else f) }) else s.disp j) ∧
        WagonIs s t (clusterOf g) h.wagon { (s.cluster (clusterOf g)).wagon h.wagon with yard := .impounded } ∧
        (t.cluster (clusterOf g)).impounds = (s.cluster (clusterOf g)).impounds ++ [⟨h.wagon, g, n, (s.core g).part, (s.core g).csr.tcause.toNat⟩]) ∧
    ∀ (w : Nat) (r : Impound), (s.cluster (clusterOf s.cur)).impounds.filter (fun r => r.wagon == w && r.part == s.myPart) = [r] →
      clusterOf r.core = clusterOf s.cur → s.me.sup = true → s.me.sched.run = .running → s.me.drained = true →
      s.mayReach (clusterOf r.core) (slotKey r.core r.slot) 1 = true → ∃ t, exec (.impoundRelease w) s = .next t ∧ Leaves s t [r.core] [.hitch] [.clusters] ∧
        SlotIs s t r.core r.slot { (s.core r.core).slot r.slot with st := .detached, wagon := 0 } ∧
        WagonIs s t (clusterOf s.cur) w { (s.cluster (clusterOf s.cur)).wagon w with yard := .free, next := none }

/-! ### Barriers, lines, mutexes, points, submissions -/

/-- The barriers 0 to 46 of a caravan (R195, R197, R199): BARR and the arrival half of BARRW enter the rank, and the last arrival ends the phase; an
arrival of a core that is no member or has arrived is a fault; BINIT and BWDR answer the statuses of their rows. An arrival or a withdrawal waits
while an event that comes later among those of one cycle has reached the barrier. Barrier 47 of a launch (R98, R114, R195, R197, R199): an arrival in
the cluster of the event unit counts at once, another when it gets there; the last counted arrival ends the phase; BINIT answers 3; BWDR withdraws the
task, and sets BWSTAT bit 47 of every task that is still counted, of a saved one for its return. -/
def Obligations.Barriers : Prop :=
  (∀ (d n b : BitVec 6) (s : State) (tk : Task) (c : Caravan), s.me.sched.task = some tk → s.caravan tk.car = some c → n.toNat < 47 → s.me.drained = true →
     let x := c.bar n.toNat
     let inTurn := s.mayReach (clusterOf s.cur) (barKey tk.car n.toNat) s.cur = true
     let here := x.members.getLsbD tk.rank = true ∧ x.arrived.getLsbD tk.rank = false
     let y := phase { x with arrived := x.arrived ||| BitVec.ofNat 16 (2 ^ tk.rank) }
     let m : BitVec 16 := (s.getS b).setWidth 16
     let rank := (s.getS b).toNat % 16
     (inTurn → here → ∃ t, exec (.barr d n) s = .next t ∧ ScalarIs s t d.toNat x.gen ∧ GoesOn s t [.scalars] [.caravans, .clusters] ∧ OnlyOrder s t ∧
       BarIs s t tk.car n.toNat y) ∧
     (inTurn → here → s.hold ≠ .arrived → y.gen = s.observed n.toNat ∨ s.me.giving = true → ∃ t, exec (.barrw d n) s = .next t ∧ t.pc = s.pc ∧
       t.hold = .arrived ∧ Keeps s t s.cur [.pc] [.caravans, .clusters] ∧ OnlyOrder s t ∧ BarIs s t tk.car n.toNat y) ∧
     (inTurn → here → s.hold ≠ .arrived → y.gen ≠ s.observed n.toNat → s.me.giving = false → ∃ t, exec (.barrw d n) s = .next t ∧ ScalarIs s t d.toNat y.gen ∧
       GoesOn s t [.scalars, .observed, .cache] [.caravans, .clusters] ∧ OnlyOrder s t ∧ BarIs s t tk.car n.toNat y ∧ t.observed n.toNat = y.gen) ∧
     (inTurn → ¬here → handled s = true → ∀ i ∈ [Instr.barr d n, .barrw d n], s.hold ≠ .arrived → ∃ t, exec i s = .next t ∧ TakesTrap s t 6 (n.setWidth 64)) ∧
     (¬inTurn → s.hold ≠ .arrived → ∀ i ∈ [Instr.barr d n, .barrw d n, .bwdr d n b], exec i s = .next s) ∧
     ((m = 0 ∨ 2 ^ c.size ≤ m.toNat) → ∃ t, exec (.binit d n b) s = .next t ∧ Answers s t d 2 [] []) ∧
     (m ≠ 0 → m.toNat < 2 ^ c.size → x.arrived ≠ 0 → ∃ t, exec (.binit d n b) s = .next t ∧ Answers s t d 1 [] []) ∧
     (m ≠ 0 → m.toNat < 2 ^ c.size → x.arrived = 0 → ∃ t, exec (.binit d n b) s = .next t ∧ Answers s t d 0 [] [.caravans] ∧
       BarIs s t tk.car n.toNat { x with members := m }) ∧
     (inTurn → x.members.getLsbD rank = false → ∃ t, exec (.bwdr d n b) s = .next t ∧ Answers s t d 1 [] [.clusters] ∧ OnlyOrder s t) ∧
     (inTurn → x.members.getLsbD rank = true → c.cores.Nodup → s.cur ∈ c.cores → let left := x.members &&& ~~~(BitVec.ofNat 16 (2 ^ rank))
       ∃ t, exec (.bwdr d n b) s = .next t ∧ t.pc = s.pc + 4 ∧ ScalarIs s t d.toNat 0 ∧ BarIs s t tk.car n.toNat (phase { x with members := left, arrived := x.arrived &&& left }) ∧
         Leaves s t c.cores [.pc, .scalars, .csrs] [.caravans, .clusters] ∧ OnlyOrder s t ∧ ∀ r g, c.cores[r]? = some g → (t.core g).csr = { (s.core g).csr with
           bwstat := (s.core g).csr.bwstat ||| (if left.getLsbD r then BitVec.ofNat 64 (2 ^ n.toNat) else 0) })) ∧
  (∀ (d b : BitVec 6) (s : State) (tk : Task) (l : Dispatch) (cl : Nat), s.me.sched.task = some tk → s.disp tk.disp = some l → s.me.drained = true →
     l.pkt.part = s.myPart → l.home = some cl →
     let inTurn := fun (g : Nat) => s.mayReach cl (barKey tk.disp 47) g = true
     let here := tk.lin ∉ l.b47.withdrawn ∧ tk.lin ∉ l.b47.arrived ∧ tk.lin ∉ l.b47.flight
     let counted := l.counting - l.b47.withdrawn.length
     let ends := fun (lin : Nat) (t : State) (fl : List Nat) => LaunchIs s t tk.disp (some { l with b47 := if counted > 0 ∧ counted ≤ l.b47.arrived.length + 1
       then { l.b47 with gen := l.b47.gen + 1, arrived := [], flight := fl } else { l.b47 with arrived := lin :: l.b47.arrived, flight := fl } })
     (∃ t, exec (.binit d 47 b) s = .next t ∧ Answers s t d 3 [] []) ∧
     (cl = clusterOf s.cur → inTurn s.cur →
       (here → ∃ t, exec (.barr d 47) s = .next t ∧ ScalarIs s t d.toNat l.b47.gen ∧ GoesOn s t [.scalars] [.launches, .partitions, .clusters] ∧ OnlyOrder s t ∧
         ends tk.lin t l.b47.flight) ∧
       (¬here → handled s = true → ∃ t, exec (.barr d 47) s = .next t ∧ TakesTrap s t 6 47)) ∧
     (cl ≠ clusterOf s.cur →
       (here → ∃ t, exec (.barr d 47) s = .next t ∧ ScalarIs s t d.toNat l.b47.gen ∧ GoesOn s t [.scalars] [.launches] ∧
         LaunchIs s t tk.disp (some { l with b47 := { l.b47 with flight := l.b47.flight ++ [tk.lin] } })) ∧
       (¬here → handled s = true → ∃ t, exec (.barr d 47) s = .next t ∧ TakesTrap s t 6 47)) ∧
     (∀ lin, lin ∈ l.b47.flight → inTurn ((s.coreOfLin tk.disp lin).getD 0) → ∃ t, exec (.barrier47RemoteArrival tk.disp lin) s = .next t ∧
       Leaves s t [] [] [.launches, .partitions, .clusters] ∧ OnlyOrder s t ∧ ends lin t (l.b47.flight.filter (· != lin))) ∧
     (¬inTurn s.cur → exec (.bwdr d 47 b) s = .next s ∧ (cl = clusterOf s.cur → exec (.barr d 47) s = .next s)) ∧
     (inTurn s.cur → tk.lin ∈ l.b47.withdrawn → ∃ t, exec (.bwdr d 47 b) s = .next t ∧ Answers s t d 1 [] [.clusters] ∧ OnlyOrder s t) ∧
     (inTurn s.cur → tk.lin ∉ l.b47.withdrawn → s.coreOfLin tk.disp tk.lin = some s.cur →
       let left := l.b47.arrived.filter (· != tk.lin)
       let w := { l.b47 with withdrawn := tk.lin :: l.b47.withdrawn, flight := l.b47.flight.filter (· != tk.lin), lost := tk.lin :: l.b47.lost }
       ∃ t b47, exec (.bwdr d 47 b) s = .next t ∧ t.pc = s.pc + 4 ∧ ScalarIs s t d.toNat 0 ∧ OnlyOrder s t ∧
         LaunchIs s t tk.disp (some { l with b47 := b47, gone := s.cur :: l.gone }) ∧
         { b47 with owed := l.b47.owed } = (if 1 < counted ∧ counted - 1 ≤ left.length then { w with gen := l.b47.gen + 1, arrived := [] } else { w with arrived := left }) ∧
         (∀ lin, lin ≠ tk.lin → lin ∉ l.b47.withdrawn → lin ∈ s.saved47 tk.disp → (Sparse.get 0 b47.owed lin).getLsbD 47 = true) ∧
         ∀ g lin, (g, lin) ∈ s.members47 tk.disp → lin ≠ tk.lin → lin ∉ l.b47.withdrawn → (t.core g).csr.bwstat.getLsbD 47 = true))

/-- A wait at a line (R13, R115): an LDD of an event line, BWAIT, EVWAIT and a BARRW that has arrived wait while the generation is the observed one;
then they read it, observe it, and acquire. EVSIG adds one to a flag and returns it, after the arrivals and the revocations of its cycle (R199). MLOCK
and MUNLOCK (R196, R198): a free mutex is granted at once, 1 being returned after a dead holder; a held one queues the core; MUNLOCK grants it to the
waiter with the lowest core above the holder, wrapping; a wrong holder faults. -/
def Obligations.LinesAndMutexes : Prop :=
  (∀ (d a n : BitVec 6) (o : BitVec 11) (s : State) (line : Nat) (i : Instr),
     ((i = .bwait d n ∧ line = n.toNat ∧ line ≤ 47) ∨ (i = .barrw d n ∧ s.hold = .arrived ∧ line = n.toNat ∧ line ≤ 47) ∨ (i = .evwait d n ∧ line = 64 + n.toNat) ∨
       (i = .ldd d a o ∧ (line < 48 ∨ (64 ≤ line ∧ line < 128)) ∧ BitVec.ofNat 64 ((s.base a).toNat + 8 * o.toNat) = BitVec.ofNat 64 (0xE8 * 2 ^ 56 + 64 * line))) →
     let g := s.lineGen s.cur line
     (g = s.observed line → exec i s = .next s) ∧
     (g ≠ s.observed line → acquireOk s = true → (line = 47 → s.me.sched.preempt = false) → ∃ t, exec i s = .next t ∧ ScalarIs s t d.toNat g ∧
       GoesOn s t [.scalars, .observed, .cache, .walkers] [] ∧ t.me.mem.rcache = [] ∧ (∀ j, t.observed j = if j = line then g else s.observed j) ∧
       (i = .ldd d a o → StepsWalker s t a) ∧ (i ≠ .ldd d a o → t.me.regs.w = s.me.regs.w)) ∧
     (line = 47 → g ≠ s.observed line → acquireOk s = true → s.me.sched.preempt = true → boundaryFree s = true → ∃ t, exec i s = .next t ∧
       ScalarIs s t d.toNat g ∧ t.pc = s.pc + 4 ∧ t.me.sched = { s.me.sched with hold := .free, run := .point, ptWord := s.word }) ∧
     (s.me.drained = true → let k := s.myPart * 64 + n.toNat
       let cl := clusterOf s.cur
       let v := Sparse.get 0 (s.cluster cl).flags k + 1
       let inTurn := s.mayReach cl (flagKey s.myPart n.toNat) (1536 + s.cur) = true
       (¬inTurn → exec (.evsig d n) s = .next s) ∧
       (s.me.sched.task.isSome = true → inTurn → ∃ t, exec (.evsig d n) s = .next t ∧ ScalarIs s t d.toNat v ∧ GoesOn s t [.scalars] [.clusters] ∧
         (∀ j, Sparse.get 0 (t.cluster cl).flags j = if j = k then v else Sparse.get 0 (s.cluster cl).flags j) ∧
         { t.cluster cl with flags := [], order := [] } = { s.cluster cl with flags := [], order := [] } ∧ ∀ c, c ≠ cl → t.cluster c = s.cluster c))) ∧
  (∀ (d n : BitVec 6) (s : State),
     let cl := clusterOf s.cur
     let m := Sparse.get {} (s.cluster cl).mutexes (s.myPart * 16 + n.toNat)
     (acquireOk s = true → s.hold ≠ .queued →
       (m.holder = none → m.waiters = [] → ∃ t, exec (.mlock d n) s = .next t ∧ Answers s t d (if m.dead then 1 else 0) [.cache] [.clusters] ∧ t.me.mem.rcache = [] ∧
         MutexIs s t cl s.myPart n.toNat { holder := some s.cur, last := s.cur, dead := false, waiters := [] }) ∧
       (∀ g, m.holder = some g → g ≠ s.cur → ∃ t, exec (.mlock d n) s = .next t ∧ t.pc = s.pc ∧ t.hold = .queued ∧ Keeps s t s.cur [.pc] [.clusters] ∧
         MutexIs s t cl s.myPart n.toNat { m with waiters := m.waiters ++ [s.cur] }) ∧
       (m.holder = some s.cur → handled s = true → ∃ t, exec (.mlock d n) s = .next t ∧ TakesTrap s t 6 (n.setWidth 64))) ∧
     (acquireOk s = true → s.hold = .queued → m.holder = some s.cur → ∃ t, exec (.mlock d n) s = .next t ∧
       Answers s t d (if m.dead then 1 else 0) [.cache] [.clusters] ∧ MutexIs s t cl s.myPart n.toNat { m with dead := false }) ∧
     (s.me.drained = true →
       (m.holder = some s.cur → m.waiters = [] → ∃ t, exec (.munlock n) s = .next t ∧ GoesOn s t [] [.clusters] ∧ MutexIs s t cl s.myPart n.toNat { m with holder := none }) ∧
       (∀ g, m.holder = some s.cur → g ∈ m.waiters → m.last < g → (∀ x ∈ m.waiters, m.last < x → g ≤ x) → ∃ t, exec (.munlock n) s = .next t ∧
         GoesOn s t [] [.clusters] ∧ MutexIs s t cl s.myPart n.toNat { m with holder := some g, last := g, waiters := m.waiters.filter (· != g) }) ∧
       (∀ g, m.holder = some s.cur → g ∈ m.waiters → (∀ x ∈ m.waiters, x ≤ m.last ∧ g ≤ x) → ∃ t, exec (.munlock n) s = .next t ∧
         GoesOn s t [] [.clusters] ∧ MutexIs s t cl s.myPart n.toNat { m with holder := some g, last := g, waiters := m.waiters.filter (· != g) }) ∧
       (m.holder ≠ some s.cur → handled s = true → ∃ t, exec (.munlock n) s = .next t ∧ TakesTrap s t 6 (n.setWidth 64))))

/-- TRIG counts the first trigger of a task (R99); HALTPT registers a live-range table and is a pre-emption point (R116, R118); VCCWAIT goes on when
VCC has reached its value and holds the core until TIMED_INSTRUCTION_DUE otherwise (R113). DONE, once every earlier access is performed or reported,
closes the open batches of the drays that the core holds, and the core issues nothing further (R100, R167, R211). -/
def Obligations.Points : Prop :=
  (∀ (a : BitVec 6) (s : State),
     let x := s.getS a
     (∀ tk, s.me.drained = true → s.me.sched.task = some tk → s.me.sched.triggered = false → ∃ t, exec .trig s = .next t ∧ t.pc = s.pc + 4 ∧
       Keeps s t s.cur [.pc, .task] [.launches] ∧ t.me.sched = { s.me.sched with hold := .free, triggered := true } ∧
       LaunchIs s t tk.disp ((s.disp tk.disp).map (fun l => { l with trig := l.trig + 1 }))) ∧
     (s.me.drained = true → s.me.sched.triggered = true → ∃ t, exec .trig s = .next t ∧ GoesOn s t [] []) ∧
     (x.toNat % 16 = 0 → spaceOf x = 0 → ∃ t, exec (.haltpt a) s = .next t ∧ t.pc = s.pc + 4 ∧ Keeps s t s.cur [.pc, .task] [] ∧
       t.me.sched = if s.me.sched.preempt then { s.me.sched with hold := .free, lrt := some x, run := .point, ptWord := s.word } else
         { s.me.sched with hold := .free, lrt := some x }) ∧
     (x.toNat % 16 ≠ 0 → handled s = true → ∃ t, exec (.haltpt a) s = .next t ∧ TakesTrap s t 4 x) ∧
     (x.toNat % 16 = 0 → spaceOf x ≠ 0 → handled s = true → ∃ t, exec (.haltpt a) s = .next t ∧ TakesTrap s t 2 x) ∧
     (x.toNat ≤ s.vcc.toNat → ∃ t, exec (.vccwait a) s = .next t ∧ GoesOn s t [] []) ∧
     (s.vcc.toNat < x.toNat → ∃ t, exec (.vccwait a) s = .next t ∧ t.pc = s.pc ∧ t.hold = .timed x true none ∧ Keeps s t s.cur [.pc] []) ∧
     ∀ (g : Nat) (v : Word) (vw : Bool) (peer : Option Nat), (s.core g).sched.hold = .timed v vw peer → v.toNat ≤ (s.vccOf g).toNat →
       ∃ t, exec (.timedInstructionDue g) s = .next t ∧ Leaves s t [g] [.pc] [] ∧ (t.core g).sched.hold = .due v vw peer ∧ (t.core g).pc = (s.core g).pc) ∧
  (∀ (s : State), s.me.drained = true → ∃ t, exec .doneT s = .next t ∧ t.me.sched = { s.me.sched with run := .done } ∧
     Keeps s t s.cur [.task] [.clusters] ∧ (∀ c, c ≠ clusterOf s.cur → t.cluster c = s.cluster c) ∧
     (∀ d, t.dray (clusterOf s.cur) d = if (s.dray (clusterOf s.cur) d).holder = some s.cur then (s.dray (clusterOf s.cur) d).commit false
       else s.dray (clusterOf s.cur) d) ∧
     ∀ late, coreTurn t late = .stop t)

/-- A packet that passes its checks enters its queue, from SUBMIT and from the host, a group packet the groups of its partition; the statuses of Table
06-8 answer the others, in its order; the host is answered with acceptance or retry, and its refusal goes to QSTAT (R17, R120, R201, R253). How a
partition's pools are shared is the model's choice (log 14), and that a launch packet counts until its last caravan is selected (log 57). -/
def Obligations.Submissions : Prop :=
  ∀ (d a : BitVec 6) (b : BitVec 5) (pkt : BitVec 512) (q : Nat) (s : State), q < 256 →
    let f := fun (lo n : Nat) => pkt.toNat / 2 ^ lo % 2 ^ n
    let isGroup := (s.queue q).sup = true ∧ f 504 8 = 0x47
    let allowed := fun (p : Nat) => (s.queue q).owner = some p ∧ f 384 6 = p ∧ (s.part p).isSome = true
    let packed := fun (p : Nat) (bad : Bool) => if bad then 2 else if (s.queue q).depth ≤ s.queueHeld q then 1 else if poolRoom s 0 s.slotsUsed p 1 then 0 else 4
    let group := fun (p : Nat) => (s.part p).bind (fun x => groupPacket s p q x pkt)
    let status := fun (p : Nat) => packed p (if isGroup then (group p).isNone else packetBad s pkt)
    let taken := fun (p : Nat) (t : State) =>
      (¬isGroup → t.nextId = s.nextId + 1 ∧ LaunchIs s t s.nextId (some { pkt := packetOf pkt, queue := q, sup := (s.queue q).sup }) ∧
        ∀ j, t.queue j = if j = q then { s.queue q with pkts := (s.queue q).pkts ++ [s.nextId] } else s.queue j) ∧
      (isGroup → ∀ x g, s.part p = some x → group p = some g → ∃ y, t.part p = some y ∧
        if (s.byLid p g.dlid).isSome then y = { x with pend := x.pend ++ [g] } else y = { x with groups := Sparse.set none x.groups g.gid g.group })
    let parts : List DevPart := if isGroup then [.clusters, .memory, .errors, .host, .walkCaches, .partitions] else [.launches, .queues, .model]
    ((spaceOf (s.base a) = 0xF0 ∧ (s.base a).toNat % 2 ^ 56 = 64 * q) → (s.getV b).setWidth 512 = pkt → s.me.drained = true →
      let mine := allowed s.myPart ∧ ((s.queue q).sup = true → s.me.sup = true)
      (¬mine → ∃ t, exec (.submit d a b) s = .next t ∧ StepsWalker s t a ∧ Answers s t d 3 [.walkers] []) ∧
      (mine → let n := status s.myPart
        ∃ t, exec (.submit d a b) s = .next t ∧ StepsWalker s t a ∧ Answers s t d n [.walkers] (if n = 0 then parts else []) ∧ (n = 0 → taken s.myPart t))) ∧
    ((s.host.tdisp = .unlocked ∨ s.host.tdisp = .run) → ∀ n, ((∀ p, ¬allowed p) ∧ n = 3) ∨ (∃ p, allowed p ∧ n = status p) →
      ∃ t, exec (.hostSubmission q pkt) s = .next t ∧ t.host.reply = (if n = 0 then .accepted else .retry) ∧
        (n = 0 → (∀ p, allowed p → taken p t) ∧ Leaves s t [] [] (.host :: parts)) ∧
        (n ≠ 0 → Leaves s t [] [] [.queues, .host] ∧ { t.host with reply := s.host.reply } = s.host ∧
          ∀ j, t.queue j = if j = q then { s.queue q with qstat := n } else s.queue j)) ∧
    (s.host.tdisp = .locked ∨ s.host.tdisp = .error → ∃ t, exec (.hostSubmission q pkt) s = .next t ∧ t.host = { s.host with reply := .retry } ∧
      Leaves s t [] [] [.queues, .host] ∧ (t.queue q).qstat = 3)

/-! ### Copies -/

/-- The shadow registers, read and written by CPGET, CPSET and by LDD and STD in space 0xEC; CPWM; CPABORT (R15, R16, R202, R209). CPGO, and an LDD of
a channel's LAUNCH register, start a transfer when its checks pass and the channel has room: it is the channel's last, with the id in sD; a failed
check gives 2^31 + CODE and leaves what the walks before it did; a full channel holds the core, which does not check again (R16, R23, R69, R203,
R204). For a transfer of bytes each code is that of Table 11-4, in its order; so are code 6, the first code 7 and an Error pair of formats for every
one. -/
def Obligations.CopyStarts : Prop :=
  (∀ (d a r : BitVec 6) (o : BitVec 11) (q : BitVec 12) (c : BitVec 2) (s : State),
     let x := s.me.chan c.toNat
     let set := fun (n : Nat) (v : Word) => { x with shadow := Sparse.set 0 x.shadow n v }
     (∃ t, exec (.cpset a r c) s = .next t ∧ GoesOn s t [.channels] [] ∧ ChanIs s t s.cur c.toNat (set r.toNat (s.getS a))) ∧
     (∃ t, exec (.cpget d r c) s = .next t ∧ WritesScalar s t d.toNat (Sparse.get 0 x.shadow r.toNat) (s.pc + 4)) ∧
     (r.toNat ≤ 18 → BitVec.ofNat 64 ((s.base a).toNat + 8 * o.toNat) = chanAddr c.toNat r.toNat → ∃ t, exec (.ldd d a o) s = .next t ∧
       ScalarIs s t d.toNat (Sparse.get 0 x.shadow r.toNat) ∧ GoesOn s t [.scalars, .walkers] [] ∧ StepsWalker s t a) ∧
     (r.toNat ≤ 18 → BitVec.ofNat 64 ((s.base a).toNat + 8 * q.toNat) = chanAddr c.toNat r.toNat → ∃ t, exec (.std d a q) s = .next t ∧
       ChanIs s t s.cur c.toNat (set r.toNat (s.getS d)) ∧ GoesOn s t [.channels, .walkers] [] ∧ StepsWalker s t a) ∧
     (∃ t, exec (.cpwm d c) s = .next t ∧ WritesScalar s t d.toNat (match x.xfers.filter (fun y => y.active && decide (y.dst.lo / 2 ^ 56 = 0xE0)) with
       | y :: _ => BitVec.ofNat 64 (xferWm y)
       | [] => 0) (s.pc + 4)) ∧
     let named := fun (y : Xfer) => y.active && y.id == (s.getS a).toNat % 2 ^ 32 && y.uid == s.me.uid
     ((∀ y ∈ s.me.xfers, named y = false) → ∃ t, exec (.cpabort d a) s = .next t ∧ Answers s t d 1 [] []) ∧
     ((∃ y ∈ s.me.xfers, named y = true) → ∃ t, exec (.cpabort d a) s = .next t ∧ Answers s t d 0 [.channels] [] ∧
       ∀ n y, (n, y) ∈ s.me.chans → (n, { y with xfers := y.xfers.map (fun v => if named v then { v with st := .ended, status := 3, faddr := 0 } else v) }) ∈ t.me.chans)) ∧
  (∀ (d a : BitVec 6) (o : BitVec 11) (c : BitVec 2) (s : State) (i : Instr),
     (i = .cpgo d c ∨ i = .launch d c ∨ (i = .ldd d a o ∧ BitVec.ofNat 64 ((s.base a).toNat + 8 * o.toNat) = chanAddr c.toNat 19)) →
     let x := s.me.chan c.toNat
     let fresh := ∀ k y z, s.hold ≠ .cpgo k y z
     let cfg := fun (lo n : Nat) => (Sparse.get 0 x.shadow 18).toNat / 2 ^ lo % 2 ^ n
     let ext := fun (j : Nat) => max (Sparse.get 0 x.shadow (2 + j)).toNat 1
     let steps := fun (t : State) => (i = .ldd d a o → StepsWalker s t a) ∧ (i ≠ .ldd d a o → t.me.regs.w = s.me.regs.w)
     let fails := fun (u : State) (e : Nat) => ∃ t, exec i s = .next t ∧ ScalarIs s t d.toNat (BitVec.ofNat 64 (2 ^ 31 + e)) ∧ t.pc = s.pc + 4 ∧ steps t ∧
       Keeps u t s.cur [.pc, .scalars, .walkers] []
     let goes := fun (s1 : State) (k : CopyKind) (y z : Side) =>
       let full := decide (8 ≤ (x.xfers.filter Xfer.active).length) || (sideSlots y ++ sideSlots z).any (fun n => decide (255 ≤ s.pend s.cur n))
       let id := x.seq.toNat / 64 * 256 + x.seq.toNat % 64 * 4 + c.toNat
       (full = true → ∃ t, exec i s = .next t ∧ t.pc = s.pc ∧ t.hold = .cpgo k y z ∧ Keeps s1 t s.cur [.pc] []) ∧
       (full = false → ∃ t v, exec i s = .next t ∧ ScalarIs s t d.toNat (BitVec.ofNat 64 id) ∧ t.pc = s.pc + 4 ∧ steps t ∧
         Keeps s1 t s.cur [.pc, .scalars, .walkers, .channels, .csrs] [] ∧ ChanIs s t s.cur c.toNat { x with seq := x.seq + 1, xfers := x.xfers ++ [v] } ∧
         v.id = id ∧ v.kind = k ∧ v.src = y ∧ v.dst = z ∧ v.uid = s.me.uid ∧ v.part = s.myPart ∧ v.st = .running ∧ v.pos = 0 ∧ v.chunks = 0 ∧
         v.rmode = s.me.csr.rmode ∧ v.seed = s.me.csr.srseed ∧ v.silent = false ∧
         t.me.csr = { s.me.csr with srseed := srAdvance (if k = .conv ∧ s.drawing = true then z.ext.foldl (· * ·) 1 else 0) s.me.csr.srseed })
     let clean := cfg 21 11 = 0 ∧ cfg 17 1 = 0 ∧ cfg 18 2 ≤ 1 ∧ ∀ f ∈ [cfg 0 8, cfg 8 8], f < 12 ∨ (f = 12 ∧ s.feature 0 = true)
     let small := ∀ j, j < 4 → ext j ≤ 2 ^ 32
     (fresh → ∀ u e, cpgoCheck s x = .error (u, e) → fails u e ∧ Keeps s u s.cur [] [.clusters, .memory, .errors, .host, .walkCaches]) ∧
     (fresh → ∀ s1 p, cpgoCheck s x = .ok (s1, p) → modeOk s = true → goes s1 p.kind p.src p.dst) ∧
     (∀ k y z, s.hold = .cpgo k y z → goes s k y z) ∧
     (fresh → ¬clean → fails s 6) ∧
     (fresh → clean → ¬small → fails s 7) ∧
     (fresh → clean → small → cfg 16 1 = 1 → (∀ j, j < 4 → ext j = 1 ∧ Sparse.get 0 x.shadow (14 + j) = 0) →
       (Sparse.get 0 x.shadow 0).toNat < 2 ^ 55 ∧ (Sparse.get 0 x.shadow 1).toNat < 2 ^ 55 → (byteWalk (byteWalk s x false).1 x true).2 ≠ some 1 →
       (cfg 0 8 = 12 ∧ 0 < cfg 8 8 ∧ cfg 8 8 < 12) ∨ (cfg 8 8 = 12 ∧ 0 < cfg 0 8 ∧ cfg 0 8 < 12) → fails (byteWalk (byteWalk s x false).1 x true).1 5) ∧
     (fresh → clean → small → cfg 16 1 = 0 →
       let s1 := (byteWalk s x false).1
       let w := byteWalk s1 x true
       (∀ e, byteCode s x false = some e → fails s e) ∧
       (byteCode s x false = none → ∀ e, byteCode s1 x true = some e → fails (if e = 4 then w.1 else s1) e) ∧
       (byteCode s x false = none → byteCode s1 x true = none →
         let total := ext 0 * ext 1 * ext 2 * ext 3
         let flagBad := cfg 20 1 = 1 ∧ ((byteEnds x true).any (fun e => decide (e.1 / 2 ^ 56 = 0xE0)) = true ∨ w.2 = some 0)
         let room := poolRoom s 2 (s.copySlots (clusterOf s.cur / 12)) s.myPart 1
         (2 ^ 42 < total → fails w.1 7) ∧
         (total ≤ 2 ^ 42 → flagBad → fails w.1 4) ∧
         (total ≤ 2 ^ 42 → ¬flagBad → room = false → fails w.1 8) ∧
         (total ≤ 2 ^ 42 → ¬flagBad → room = true → ∃ p, cpgoCheck s x = .ok (w.1, p) ∧ p.kind = .bytes ∧ p.src.livery = 0 ∧ p.dst.livery = 0 ∧
           some (p.src.lo, p.src.hi) = byteEnds x false ∧ some (p.dst.lo, p.dst.hi) = byteEnds x true))))

/-- COPY_CHUNK of a transfer of bytes from window to window: every element of the chunk stands at its destination, no other byte has changed, and the
transfer has counted it (R72, R203, R205). That a chunk is one step is the model's choice (log 6), and so is how it waits for its budget (log 21).
COPY_COMPLETION posts the message of the oldest transfer that has ended and signalled, whatever runs before it, and frees its place; a dead core's
transfer posts none (R206, R208); REMOTE_SIGNAL counts the chunks performed at the flag that the peer admits, and ends the transfer with STATUS 5
where it does not (R207). What a peer admits is the model's (log 21). -/
def Obligations.CopyChunks : Prop :=
  (∀ (s : State) (g ch : Nat) (x : Xfer) (l : List Xfer), ((s.core g).chan ch).xfers = x :: l → x.st = .running → x.kind = .bytes →
     x.src.livery = 0 → x.dst.livery = 0 → x.src.noLow = false → x.dst.noLow = false → (s.chargeList (chunkAsks g ch x (chunkPositions x).length)).isSome = true →
     let from_ := fun (p : Nat) => sideAbs x.src p / 8
     let into_ := fun (p : Nat) => sideAbs x.dst p / 8
     (∀ p ∈ chunkPositions x, from_ p / 2 ^ 56 = 0xE0 ∧ into_ p / 2 ^ 56 = 0xE0 ∧
       s.hasBad (windowLoc s g (from_ p)) 1 = false ∧ s.hasBad (windowLoc s g (into_ p)) 1 = false ∧ (∀ w ∈ (s.core g).mem.wbuf, w.covers (windowLoc s g (from_ p)) = false) ∧
       ∀ q ∈ chunkPositions x, windowLoc s g (into_ p) = windowLoc s g (into_ q) → p = q) →
     ∃ t, exec (.copyChunk g ch) s = .next t ∧ Leaves s t [g] [.channels] [.memory, .errors, .partitions, .requests] ∧
       (∀ p ∈ chunkPositions x, t.byte (windowLoc s g (into_ p)) = s.byte (windowLoc s g (from_ p))) ∧
       (∀ j, (∀ p ∈ chunkPositions x, windowLoc s g (into_ p) ≠ j) → t.byte j = s.byte j) ∧
       let y := { x with pos := x.pos + (chunkPositions x).length, chunks := x.chunks + 1 }
       ((t.core g).chan ch).xfers.head? = some (if y.pos ≥ xferTotal x then { y with st := .ended, status := 0, faddr := 0 } else y)) ∧
  (∀ (s : State) (g ch : Nat) (x : Xfer) (pre l : List Xfer), ((s.core g).chan ch).xfers = pre ++ x :: l →
     let past := fun (y : Xfer) => y.st = .ended ∧ (y.flag = none ∨ y.chunks ≤ y.signalled)
     ((∀ y ∈ pre, ¬past y) → past x → ∃ t, exec (.copyCompletion g ch) s = .next t ∧ Leaves s t [g] [.channels, .mail] [] ∧
       ChanIs s t g ch { (s.core g).chan ch with xfers := pre ++ l } ∧
       (x.silent = false ∧ (s.core g).uid = x.uid → Posts s t g
         ⟨BitVec.ofNat 64 (2 + x.status % 256 * 2 ^ 8 + x.id % 2 ^ 18 * 2 ^ 16 + x.chunks % 2 ^ 30 * 2 ^ 34), if x.status ∈ [1, 2, 5, 6] then x.faddr else 0⟩) ∧
       (x.silent = true ∨ (s.core g).uid ≠ x.uid → (t.core g).mail = (s.core g).mail)) ∧
     ∀ (a : Nat) (s1 : State) (p : Landing), pre = [] → x.flag = some a → x.signalled < x.chunks → engineAt s g x.part x.sup .store a = .ok (s1, p) →
       (p.region = 2 ∨ p.region = 3) → s1.hasBad p.loc 8 = false →
       ∃ t, exec (.remoteSignal g ch) s = .next t ∧
         (p.answers = true → BytesAre t p.loc 8 x.chunks ∧ OnlyBytes s1 t p.loc 8 ∧ ((t.core g).chan ch).xfers.head? = some { x with signalled := x.chunks }) ∧
         (p.answers = false → (∀ j, t.byte j = s1.byte j) ∧ ((t.core g).chan ch).xfers.head? =
           some { x with st := .ended, status := 5, faddr := BitVec.ofNat 64 a, signalled := x.chunks }))

/-! ### Drays -/

/-- Leases and batches (R211, R215): DLEASE takes a free dray, clearing it for another partition, queues behind a holder, and faults a second request;
DFREE gives it back when every batch is over; DCOMMIT closes the open batch and returns its number; DWAIT posts the message of a completed batch,
batch 0 with status 0 (DEDUCED, log 47); BATCH_COMPLETE and LEASE_GRANT are the dray's own steps. -/
def Obligations.DrayLeases : Prop :=
  ∀ (d a : BitVec 6) (u : BitVec 1) (s : State),
    let cl := clusterOf s.cur
    let x := s.dray cl u.toNat
    let tval := fun (reason : Nat) => BitVec.ofNat 64 (reason * 2 ^ 8 + 2 * cl + u.toNat)
    let granted := fun (y : Dray) (g p : Nat) =>
      { (if y.lastPart = none ∨ y.lastPart = some p then y else { y with acc := [], mag := 0 }) with
        holder := some g, last := g % 16, lastPart := some p, waiters := y.waiters.filter (· != g), issued := 0 }
    let traps := fun (i : Instr) (reason : Nat) => handled s = true → ∃ t, exec i s = .next t ∧ TakesTrap s t 6 (tval reason)
    (acquireOk s = true → s.hold ≠ .queued →
      (x.holder = none → x.waiters = [] → ∃ t, exec (.dlease u) s = .next t ∧ GoesOn s t [.cache] [.clusters] ∧ DrayIs s t cl u.toNat (granted x s.cur s.myPart) ∧
        t.me.mem.rcache = []) ∧
      ((∃ g, x.holder = some g ∧ g ≠ s.cur) → ∃ t, exec (.dlease u) s = .next t ∧ t.pc = s.pc ∧ t.hold = .queued ∧ Keeps s t s.cur [.pc] [.clusters] ∧
        DrayIs s t cl u.toNat { x with waiters := x.waiters ++ [s.cur] }) ∧
      (x.holder = some s.cur → traps (.dlease u) 3)) ∧
    (acquireOk s = true → s.hold = .queued → x.holder = some s.cur → ∃ t, exec (.dlease u) s = .next t ∧ GoesOn s t [.cache] [] ∧ t.me.mem.rcache = []) ∧
    (x.holder ≠ some s.cur → traps (.dfree u) 1 ∧ traps (.dcommit d u) 1) ∧
    (x.holder = some s.cur → s.me.drained = true → x.closed = [] → x.cmds = [] → ∃ t, exec (.dfree u) s = .next t ∧ GoesOn s t [] [.clusters] ∧
      DrayIs s t cl u.toNat { x with holder := none, issued := 0, giveUp := false }) ∧
    (x.holder = some s.cur → ∃ t, exec (.dcommit d u) s = .next t ∧ ScalarIs s t d.toNat (BitVec.ofNat 64 x.next) ∧ GoesOn s t [.scalars] [.clusters] ∧
      DrayIs s t cl u.toNat { x with closed := x.closed ++ [x.next], next := if x.next + 1 ≥ 2 ^ 32 then 1 else x.next + 1 }) ∧
    (let n := (s.getS a).toNat % 2 ^ 32
     let ahead := n ≠ 0 ∧ 0 < (n + 2 ^ 32 - (x.next - 1)) % 2 ^ 32 ∧ (n + 2 ^ 32 - (x.next - 1)) % 2 ^ 32 ≤ 2 ^ 31
     let failed := x.fails.filter (fun e => e.1 == n)
     let st := if failed = [] then 0 else 1
     (ahead → traps (.dwait d a u) 4) ∧ (¬ahead → n ∈ x.closed → exec (.dwait d a u) s = .next s) ∧
     (¬ahead → n ∉ x.closed → acquireOk s = true → ∃ t, exec (.dwait d a u) s = .next t ∧ Answers s t d st [.mail, .cache] [] ∧ t.me.mem.rcache = [] ∧
       Posts s t s.cur ⟨BitVec.ofNat 64 (3 + st * 256 + (2 * cl + u.toNat) % 128 * 2 ^ 16 + n * 2 ^ 32),
         BitVec.ofNat 64 (match failed with | e :: _ => e.2 % 256 | [] => 0)⟩)) ∧
    ∀ (c v : Nat), v < 2 → let y := s.dray c v
      (∀ n l, y.closed = n :: l → (∀ e ∈ y.cmds, e.bat = n → e.done = true) → ∃ t, exec (.batchComplete c v) s = .next t ∧ Leaves s t [] [] [.clusters] ∧
        DrayIs s t c v { y with closed := l, cmds := y.cmds.filter (fun e => e.bat != n) }) ∧
      (∀ g, y.holder = none → y.giveUp = false → g ∈ y.waiters → y.last < g % 16 → (∀ w ∈ y.waiters, y.last < w % 16 → g ≤ w) →
        ∃ t, exec (.leaseGrant c v) s = .next t ∧ Leaves s t [g] [.task] [.clusters] ∧ DrayIs s t c v (granted y g (s.core g).part)) ∧
      (y.giveUp = true → y.closed = [] → y.cmds = [] → y.waiters = [] → ∃ t, exec (.leaseGrant c v) s = .next t ∧ Leaves s t [] [] [.clusters] ∧
        DrayIs s t c v { y with holder := none, issued := 0, giveUp := false })

/-- MMA, MMAC, ACCWR, ACCZERO, ACCST and ACCWR.CB check the lease and its command count, then shape and operands, and enter their command; ACCRD and
ACCRD.V read accumulators once no earlier command of the lease writes them (R69, R211 to R214). An access to accumulators that a committed batch still
writes waits, in strict mode it traps with the oldest such batch. MMAC reads an A source in the accumulators of dray 0 for both drays (DEDUCED, log
22). -/
def Obligations.DrayCommands : Prop :=
  ∀ (d a b : BitVec 6) (v : BitVec 5) (u : BitVec 1) (s : State),
    let cl := clusterOf s.cur
    let x := s.dray cl u.toNat
    let tval := fun (reason : Nat) => BitVec.ofNat 64 (reason * 2 ^ 8 + 2 * cl + u.toNat)
    let entry := fun (y : Dray) (op : DOp) =>
      { y with cmds := y.cmds ++ [⟨s.cur, s.me.uid, s.myPart, y.next, (y.cmds.filter (fun c => c.bat == y.next)).length, false, op⟩], issued := y.issued + 1 }
    let open_ := fun (y : Dray) (n : Nat) => ∃ e ∈ y.cmds, e.bat = n ∧ e.done = false
    let free := fun (r : Bool × Nat × Nat × Nat × Nat) => ∀ c ∈ x.cmds, c.bat ∈ x.closed → open_ x c.bat → c.writes u.toNat r = false
    let sure := fun (i : Instr) => modeOk s = true ∨ (i ≠ .accst d a b u ∧ (i = .mma d a b u → (s.getS a).getLsbD 59 = false))
    let q := (s.getS a).toNat
    let f := fun (lo n : Nat) => q / 2 ^ lo % 2 ^ n
    let bank := (s.getS a).getLsbD 8
    let half := f 23 1 * 128
    let all := [Instr.mma d a b u, .accwr a v u, .acczero d a u, .accst d a b u, .accwrCb d a u, .accrd d a u, .accrdV v a u]
    let ready := x.holder = some s.cur ∧ x.issued < 64
    (x.holder ≠ some s.cur → handled s = true → ∀ i ∈ all, sure i → ∃ t, exec i s = .next t ∧ TakesTrap s t 6 (tval 1)) ∧
    (x.holder = some s.cur → 64 ≤ x.issued → handled s = true → ∀ i ∈ all, sure i → ∃ t, exec i s = .next t ∧ TakesTrap s t 6 (tval 2)) ∧
    (ready → ∀ c l m, x.cmds = l ++ c :: m → c.bat ∈ x.closed → open_ x c.bat → c.writes u.toNat (bank, f 0 8, f 0 8, half, half + 127) = true →
      (∀ e ∈ l, e.bat ∈ x.closed → open_ x e.bat → e.writes u.toNat (bank, f 0 8, f 0 8, half, half + 127) = false) → ∀ i ∈ [Instr.accwr a v u, .accrdV v a u],
        (s.strict = false → exec i s = .next s) ∧
        (s.strict = true → handled s = true → ∃ t, exec i s = .next t ∧ TakesTrap s t 14 (BitVec.ofNat 64 ((2 * cl + u.toNat) * 2 ^ 32 + c.bat)))) ∧
    (ready → free (bank, f 0 8, f 0 8, half, half + 127) → ∃ t, exec (.accwr a v u) s = .next t ∧ GoesOn s t [] [.clusters] ∧
      DrayIs s t cl u.toNat (entry x (.accwr bank (f 0 8) half (s.getV v)))) ∧
    (ready → (f 32 16 = 0 ∨ 256 < f 0 8 + f 32 16) → ∃ t, exec (.acczero d a u) s = .next t ∧ Answers s t d 4 [] []) ∧
    (ready → f 32 16 ≠ 0 → f 0 8 + f 32 16 ≤ 256 → free (bank, f 0 8, f 0 8 + f 32 16 - 1, 0, 255) → ∃ t, exec (.acczero d a u) s = .next t ∧
      Answers s t d 0 [] [.clusters] ∧ DrayIs s t cl u.toNat (entry x (.acczero bank (f 0 8) (f 32 16)))) ∧
    (ready → modeOk s = true → let st := f 32 16 = 0 ∨ f 48 16 = 0 ∨ 256 < f 0 8 + f 32 16 ∨ 256 < f 16 8 + f 48 16
      (st → ∃ t, exec (.accst d a b u) s = .next t ∧ Answers s t d 4 [] []) ∧
      (¬st → drayOper s (s.getS b) (f 32 16) (f 48 16) true = none → ∃ t, exec (.accst d a b u) s = .next t ∧ Answers s t d 3 [] []) ∧
      ∀ o, ¬st → drayOper s (s.getS b) (f 32 16) (f 48 16) true = some o → free (bank, f 0 8, f 0 8 + f 32 16 - 1, f 16 8, f 16 8 + f 48 16 - 1) →
        s.pend s.cur o.slot < 255 →
        let raw := ((s.cluster cl).wagon (s.me.slot o.slot).wagon).livery.toNat % 256 == 0
        ∃ t, exec (.accst d a b u) s = .next t ∧ Answers s t d 0 [.csrs] [.clusters] ∧
          t.me.csr = { s.me.csr with srseed := srAdvance (if s.drawing = true ∧ raw = false then f 32 16 * f 48 16 else 0) s.me.csr.srseed } ∧
          DrayIs s t cl u.toNat (entry x (.accst bank (f 0 8) (f 16 8) (f 32 16) (f 48 16) o raw s.me.csr.rmode s.me.csr.srseed))) ∧
    (ready → let y := s.base a
      let n := y.toNat / 2 ^ 18 % 32
      let ok := spaceOf y = 0xE0 ∧ y.toNat % 2 ^ 56 < 2 ^ 23 ∧ (s.me.slot n).st = .attached ∧ y.toNat % 2 ^ 18 + 768 ≤ 2 ^ 18
      (¬ok → ∃ t, exec (.accwrCb d a u) s = .next t ∧ Answers s t d 3 [.walkers] [] ∧ StepsWalker s t a) ∧
      (ok → s.pend s.cur n < 255 → ∃ t, exec (.accwrCb d a u) s = .next t ∧ Answers s t d 0 [.walkers] [.clusters] ∧ StepsWalker s t a ∧
        DrayIs s t cl u.toNat (entry x (.acccb (locWagon cl (s.me.slot n).wagon (y.toNat % 2 ^ 18)) n)))) ∧
    (ready → free (bank, f 0 8, f 0 8, f 16 8, f 16 8) → (∀ c ∈ x.cmds, c.done = false → c.writes u.toNat (bank, f 0 8, f 0 8, f 16 8, f 16 8) = false) →
      ∃ t, exec (.accrd d a u) s = .next t ∧ ScalarIs s t d.toNat ((x.accAt bank (f 0 8) (f 16 8)).setWidth 64) ∧ GoesOn s t [.scalars] [.clusters] ∧
        DrayIs s t cl u.toNat { x with issued := x.issued + 1 }) ∧
    (ready → free (bank, f 0 8, f 0 8, half, half + 127) → (∀ c ∈ x.cmds, c.done = false → c.writes u.toNat (bank, f 0 8, f 0 8, half, half + 127) = false) →
      ∃ t, exec (.accrdV v a u) s = .next t ∧ ElemsAre s t v.toNat 32 (fun j => (x.accAt bank (f 0 8) (half + j)).toNat) ∧ GoesOn s t [.vectors] [.clusters] ∧
        DrayIs s t cl u.toNat { x with issued := x.issued + 1 }) ∧
    ∀ (both : Bool), let y := s.dray cl 1
      let i := if both then Instr.mmac d a b else .mma d a b u
      let o := mmaShape s (s.getS a) b.toNat both
      let oa := if o.aacc.isSome then some o.a else drayOper s (s.me.getS b.toNat) o.m o.k false
      let ob := if o.bt then drayOper s (s.me.getS (b.toNat + 1)) o.n o.k false else drayOper s (s.me.getS (b.toNat + 1)) o.k o.n false
      (if both then (s.dray cl 0).holder = some s.cur ∧ (s.dray cl 0).issued < 64 ∧ y.holder = some s.cur ∧ y.issued < 64 else ready) →
      (modeOk s = true ∨ (s.getS a).getLsbD 59 = false) →
      (mmaBad (s.getS a) o = true → ∃ t, exec i s = .next t ∧ Answers s t d 4 [] []) ∧
      (mmaBad (s.getS a) o = false → (oa = none ∨ ob = none) → ∃ t, exec i s = .next t ∧ Answers s t d 3 [] []) ∧
      ∀ p r, mmaBad (s.getS a) o = false → oa = some p → ob = some r → (o.aacc = none → s.pend s.cur p.slot < 255) → s.pend s.cur r.slot < 255 →
        (∀ bk row, o.aacc = some (bk, row) → let w := if both then 0 else u.toNat
          ∀ c ∈ (s.dray cl w).cmds, c.bat ∈ (s.dray cl w).closed → open_ (s.dray cl w) c.bat → c.writes w (bk, row, row + o.m - 1, 0, o.k - 1) = false) →
        let cmd := DOp.mma { o with a := p, b := r }
        ∃ t, exec i s = .next t ∧ Answers s t d 0 [.csrs] [.clusters] ∧ (∀ j, j ≠ cl → t.cluster j = s.cluster j) ∧
          t.me.csr = { s.me.csr with srseed := srAdvance (if o.aacc.isSome = true ∧ s.drawing = true then o.m * o.k else 0) s.me.csr.srseed } ∧
          ∀ j, j < 2 → t.dray cl j = if both = true ∨ j = u.toNat then entry (s.dray cl j) cmd else s.dray cl j

/-- DRAY_COMMAND_RUN performs the oldest command that is not done (R63, R64, R74, R93, R212 to R215): a matrix command gives each accumulator of its
region the rounded sums of groups of 8 products, an accumulator write its 128 columns, a clear its rows zeros, a table load its 768 bytes; an operand
with an error makes it write nothing and fails its batch. That a command is one step is the model's choice (log 6), and so is the A source of an MMAC
in the accumulators of dray 0 (DEDUCED, log 22). -/
def Obligations.DrayRuns : Prop :=
  ∀ (cl d : Nat) (s : State) (c : DCmd), d < 2 → (s.dray cl d).head = some c → drayBlocked s c = false →
    let x := s.dray cl d
    let others := fun (t : State) => (∀ j, j ≠ cl → t.cluster j = s.cluster j) ∧ ∀ j, j < 2 → j ≠ d → t.dray cl j = s.dray cl j
    let marks := fun (t : State) => ∀ e ∈ (t.dray cl d).cmds, e.bat = c.bat → e.pos = c.pos → e.done = true
    let run := fun (t : State) => exec (.drayCommandRun cl d) s = .next t ∧ others t ∧ marks t
    let accs := fun (t : State) (f : Nat → Option (BitVec 32)) => ∀ k, Sparse.get 0 (t.dray cl d).acc k = (f k).getD (Sparse.get 0 x.acc k)
    (c.op.reads.any (fun r => s.hasBad r.1 r.2) = true → (∀ o, c.op = .mma o → o.both = false) → ∃ t, run t ∧ Leaves s t [] [] [.clusters] ∧ (t.dray cl d).acc = x.acc ∧
      (t.dray cl d).mag = x.mag ∧ c.bat ∈ (t.dray cl d).fails.map (fun e => e.1)) ∧
    (c.op.reads.any (fun r => s.hasBad r.1 r.2) = false →
      (∀ b r col v, c.op = .accwr b r col v → ∃ t, run t ∧ Leaves s t [] [] [.clusters] ∧ accs t (fun k =>
        if accKey b r col ≤ k ∧ k < accKey b r col + 128 then some (BitVec.ofNat 32 (elem v 32 (k - accKey b r col))) else none)) ∧
      (∀ b r n, c.op = .acczero b r n → ∃ t, run t ∧ Leaves s t [] [] [.clusters] ∧ accs t (fun k =>
        if accKey b r 0 ≤ k ∧ k < accKey b r 0 + 256 * n then some 0 else none)) ∧
      (∀ loc n, c.op = .acccb loc n → ∃ t, run t ∧ Leaves s t [] [] [.clusters] ∧ (t.dray cl d).mag = BitVec.ofNat 6144 (s.bytes loc 768) ∧ (t.dray cl d).acc = x.acc) ∧
      (∀ o, c.op = .mma o → o.both = false → o.m ≤ 256 → o.n ≤ 256 → ∃ t, run t ∧ Leaves s t [] [] [.clusters] ∧
        (∀ i j, i < o.m → j < o.n → (t.dray cl d).accAt o.bank ((o.row0 + i) % 256) j = BitVec.ofNat 32 (drayElement o.ovw ((o.k + 7) / 8) true
          (x.accAt o.bank ((o.row0 + i) % 256) j).toNat ((List.range o.k).map (fun k => prodVal (mmaInts o) (mmaA s cl d o i k) (mmaB s cl d o k j))))) ∧
        ∀ k, (∀ i j, i < o.m → j < o.n → k ≠ accKey o.bank ((o.row0 + i) % 256) j) → Sparse.get 0 (t.dray cl d).acc k = Sparse.get 0 x.acc k) ∧
      (∀ o y z, c.op = .mma o → o.both = true → o.row0 + o.m ≤ 512 → o.n ≤ 256 → (s.dray cl 0).head = some y → (s.dray cl 1).head = some z →
        y.op = z.op → y.core = z.core → ∃ t, exec (.drayCommandRun cl d) s = .next t ∧ Leaves s t [] [] [.clusters] ∧ (∀ j, j ≠ cl → t.cluster j = s.cluster j) ∧
        marks t ∧ ∀ i j, i < o.m → j < o.n → let w := (o.row0 + i) / 256
          (t.dray cl w).accAt o.bank ((o.row0 + i) % 256) j = BitVec.ofNat 32 (drayElement o.ovw ((o.k + 7) / 8) true
            ((s.dray cl w).accAt o.bank ((o.row0 + i) % 256) j).toNat ((List.range o.k).map (fun k => prodVal (mmaInts o) (mmaA s cl w o i k) (mmaB s cl w o k j))))) ∧
      (∀ b r col nr nc dst raw rm sd, c.op = .accst b r col nr nc dst raw rm sd → ∃ t, run t ∧ Leaves s t [] [] [.clusters, .memory, .errors, .host] ∧
        (t.dray cl d).acc = x.acc ∧ (raw = true → dst.livery = 1 → s.bad = [] → 2 ^ 64 ≤ dst.wagon → dst.wagon % 4 = 0 →
          (∀ i j i' j', i < nr → j < nc → i' < nr → j' < nc → i * dst.ld + j = i' * dst.ld + j' → i = i' ∧ j = j') →
          ∀ i j, i < nr → j < nc → BytesAre t (dst.wagon + 4 * (dst.first + i * dst.ld + j)) 4 (x.accAt b (r + i) (col + j)).toNat)))

/-! ### Stagecoach -/

/-- SCCFG loads the 64-byte block when its fields are in order and answers 0, else it answers code 2 and keeps the configuration (R219, R220); SCSTAT
answers the selector's value (R231); SCMREAD answers 0 without a configuration or past the last entry, waits for the manifest's writers, and else
reads the entry as a 4-byte load of the core (R231); with MAN absent its value is open (log 23). That the loads of a block and of an entry are
performed at issue is the model's choice (log 9). An asynchronous stagecoach command at issue (R216, R218, R221): code 1 without a configuration, code
3 where a field that it needs is absent, an area lies over a slot that is not ATTACHED, or a table entry or output address is refused; else, with
fewer than 8 commands outstanding and its budget left, it is accepted under the next sequence number, in its place among the commands of the cycle.
SCCLAIM checks its operands alone (R227). That a table is read at issue in one step is the model's choice (log 9). -/
def Obligations.StagecoachCommands : Prop :=
  (∀ (d a : BitVec 6) (s : State),
     let x := s.getS a
     let c := s.me.sc
     (∀ s1 es, BlockReads s s1 true (s.base a) 8 es → let v := BitVec.ofNat 512 (blockValue s1 es)
       ∃ t, exec (.sccfg d a) s = .next t ∧ t.pc = s.pc + 4 ∧ StepsWalker s t a ∧
         ScalarIs s t d.toNat (BitVec.ofNat 64 (if cfgOk s v = true then 0 else 2 ^ 31 + 2)) ∧ t.me.sc = { c with cfg := if cfgOk s v = true then some v else c.cfg } ∧
         Keeps s1 t s.cur [.pc, .scalars, .walkers, .cache, .coach] [.partitions, .requests]) ∧
     (let v : Word := match x.toNat with
         | 0 => s.scstat
         | 1 => c.result
         | 2 => (match c.cfg with | some g => g.setWidth 64 | none => 0)
         | 3 => BitVec.ofNat 64 c.routed
         | 4 => BitVec.ofNat 64 c.drops
         | 5 => BitVec.ofNat 64 c.resid
         | 6 => BitVec.ofNat 64 c.discarded
         | n => (match c.cfg with
           | some g => if 256 ≤ n ∧ n < 256 + cfgField g 0 9 then BitVec.ofNat 64 (Sparse.get 0 c.counts (n - 256)) else 0
           | none => 0)
       ∃ t, exec (.scstat d a) s = .next t ∧ WritesScalar s t d.toNat v (s.pc + 4)) ∧
     (c.cfg = none → ∃ t, exec (.scmread d a) s = .next t ∧ WritesScalar s t d.toNat 0 (s.pc + 4)) ∧
     ∀ g, c.cfg = some g →
       let man := cfgField g 384 64
       let y := BitVec.ofNat 64 (man + 4 * x.toNat)
       let writers := (s.coachCmds s.cur).filter (fun e => e.func == 1 || e.func == 2 || e.func == 3)
       (writers ≠ [] → exec (.scmread d a) s = .next s) ∧
       (writers = [] → cfgField g 16 14 * cfgField g 9 4 ≤ x.toNat → ∃ t, exec (.scmread d a) s = .next t ∧ WritesScalar s t d.toNat 0 (s.pc + 4)) ∧
       (writers = [] → x.toNat < cfgField g 16 14 * cfgField g 9 4 →
         (man = 0 → ∃ t, exec (.scmread d a) s = .next t ∧ t.pc = s.pc + 4 ∧ ScalarIs s t d.toNat (Config.freeValue s.free) ∧ t.free = s.free + 1 ∧
           Keeps s t s.cur [.pc, .scalars] [.model]) ∧
         ∀ s1 p, man ≠ 0 → y.toNat % 4 = 0 → locate s s.cur s.me.sup .load y = .ok (s1, p) → loadReady s1 y p 4 = true →
           ∃ t, exec (.scmread d a) s = .next t ∧ ScalarIs s t d.toNat (BitVec.ofNat 64 (s1.readNow p 4)) ∧
             t.pc = s.pc + 4 ∧ Keeps s1 t s.cur [.pc, .scalars, .cache] [.partitions, .requests])) ∧
  ((∀ (i : Instr) (s : State) (d : BitVec 6) (func : Nat) (a : Option (BitVec 6)), coachForm i = some (d, func, a) →
     let x : Word := match a with | some r => s.base r | none => 0
     let refused := fun (code : Nat) => ∃ t, exec i s = .next t ∧ Answers s t d (2 ^ 31 + code) [.walkers] [] ∧ StepsOperand s t a
     (func = 6 → modeOk s = true) →
     (s.me.sc.cfg = none → refused 1) ∧
     ∀ cfg, s.me.sc.cfg = some cfg →
       let f := cfgField cfg
       let absent := (∃ lo ∈ coachNeeds cfg func, f lo 64 = 0) ∨ (func = 3 ∧ f 48 1 = 1 ∧ x = 0)
       let spaceOk := func = 6 → spaceOf x = 0 ∨ (spaceOf x = 0xE0 ∧ x.toNat % 2 ^ 56 < 2 ^ 23)
       let areas := (coachAreas cfg func x.toNat).map (fun r => areaSlots s r.1 r.2)
       (absent → refused 3) ∧
       (¬absent → (¬spaceOk ∨ none ∈ areas) → refused 3) ∧
       ∀ s1 es, ¬absent → spaceOk → none ∉ areas → tablePlaces s (coachTable cfg func x.toNat) = .ok (s1, es) →
         let w := (coachTable cfg func x.toNat).2.2
         let tab := es.map (fun e => BitVec.ofNat 64 (s1.readNow e.place w))
         let asks := elemAsks s1 w es
         let dl := if func = 5 ∨ func = 6 then dtabSlots s (f 32 14 * f 64 16) tab else some []
         (dl = none → (∀ e ∈ es, s1.me.readable e.place w = true) → (s1.chargeList asks).isSome = true →
           ∃ t, exec i s = .next t ∧ Answers s1 t d (2 ^ 31 + 3) [.walkers, .cache] [.partitions, .requests] ∧ StepsOperand s t a) ∧
         ∀ l, dl = some l → s.me.sc.seq ≤ 65535 → (s1.coachCmds s.cur).length < 8 → (∀ n, n ∈ l ∨ some n ∈ areas.flatMap (fun o => (o.getD []).map some) → s1.pend s.cur n < 255) →
           (s1.chargeList (asks ++ [askOf s1.atIssue s.cur s.myPart s.me.acct 4 1])).isSome = true → s1.mayReach (clusterOf s.cur) coachKey (s.cur % 16) = true →
           ∃ t c, exec i s = .next t ∧ t.pc = s.pc + 4 ∧ StepsOperand s t a ∧
             Accepts s1 t d c (if func = 6 ∧ s.drawing = true then f 16 14 * (f 64 16 / (if f 50 2 = 0 then 4 else 2)) else 0) ∧
             c.func = func ∧ c.cfg = cfg ∧ c.a = x ∧ c.table = tab) ∧
   ∀ (d a b : BitVec 6) (s : State),
     let x := s.base a
     let n := (s.getS b).toNat % 2 ^ 14
     let cap := (s.getS b).toNat / 2 ^ 16 % 2 ^ 14
     let range := n = 0 ∨ 8192 < n ∨ cap = 0 ∨ 8192 < cap
     let refused := fun (code : Nat) => ∃ t, exec (.scclaim d a b) s = .next t ∧ Answers s t d (2 ^ 31 + code) [.walkers] [] ∧ StepsWalker s t a
     (range → refused 2) ∧ (¬range → (x.toNat % 8 ≠ 0 ∨ spaceOf x ≠ 0) → refused 3) ∧
     (¬range → x.toNat % 8 = 0 → spaceOf x = 0 → s.me.sc.seq ≤ 65535 → (s.coachCmds s.cur).length < 8 →
       (s.charge (askOf s.atIssue s.cur s.myPart s.me.acct 4 1)).isSome = true → s.mayReach (clusterOf s.cur) coachKey (s.cur % 16) = true →
       ∃ t c, exec (.scclaim d a b) s = .next t ∧ t.pc = s.pc + 4 ∧ StepsWalker s t a ∧ Accepts s t d c 0 ∧ c.func = 8 ∧ c.a = x ∧ c.b = s.getS b))

/-- The engine's oldest command runs and completes (R227, R230): it leaves the queue, its status and result enter the core's record, and its message
is posted while its task lives; a failure posts the failing address. A claim adds to its counter and returns the old value. That a command runs in one
step, once its bytes are served, is the model's choice (logs 6, 14); that one whose task has ended runs on unreported is DEDUCED (log 52). The order
of SCTOPK and SCCOLK (R223, R224): each index once, a score never before one that outranks it, ties by ascending index; a NaN outranks nothing, and -0
and +0 tie. -/
def Obligations.StagecoachRuns : Prop :=
  (∀ (s : State) (c : CCmd) (l : List CCmd), (s.cluster (clusterOf c.core)).coach = c :: l →
     let k := s.core c.core
     let cl := clusterOf c.core
     let paid := fun (u : State) => (coachAsks s u c).all (coachServed s) = true
     let ends := fun (u t : State) (status result : Nat) =>
       Leaves u t [c.core] [.coach, .mail] [.clusters] ∧ (∀ j, t.cluster j = if j = cl then { u.cluster j with coach := (u.cluster j).coach.drop 1 } else u.cluster j) ∧
       ((u.core c.core).uid ≠ c.uid ∨ (u.core c.core).live = false → t.core c.core = u.core c.core) ∧
       ((u.core c.core).uid = c.uid → (u.core c.core).live = true →
         let z := (t.core c.core).sc
         z.lseq = c.seq ∧ z.lfunc = c.func ∧ z.lstat = status ∧ z.result = BitVec.ofNat 64 result ∧ z.cfg = (u.core c.core).sc.cfg ∧ z.seq = (u.core c.core).sc.seq ∧
         Posts u t c.core ⟨BitVec.ofNat 64 (4 + status % 256 * 2 ^ 8 + c.func % 32 * 2 ^ 16 + c.seq % 2 ^ 16 * 2 ^ 32), BitVec.ofNat 64 result⟩)
     (∀ x, coachRun c s = .ok x → c.func ≠ 8 → paid x.s → ∃ t, exec (.stagecoachCompletion cl) s = .next t ∧ ends x.s t 0 x.result) ∧
     (∀ s1 st a r, coachRun c s = .error (.fail s1 st a r) → paid s1 →
       ∃ t, exec (.stagecoachCompletion cl) s = .next t ∧ ends (if r then s1.fqPush (frecWord 8 c.part c.core 0 0) a else s1) t st a) ∧
     (∀ x, coachRun c s = .ok x → ¬paid x.s → ∃ t, exec (.stagecoachCompletion cl) s = .next t ∧ Leaves s t [] [] [.requests]) ∧
     (coachRun c s = .error .blocked → exec (.stagecoachCompletion cl) s = .next s) ∧
     ∀ s1 p, c.func = 8 → c.a.toNat % 8 = 0 → spaceOf c.a = 0 → coachAt s c true .atomic c.a.toNat = .ok (s1, p) → p.awaits k = false →
       (∀ w ∈ k.mem.wbuf, overlap w.loc w.n p.loc 8 = false) → s1.bad = [] → s1.refused p.loc 8 = false → (∀ x, coachRun c s = .ok x → paid x.s) →
       let n := c.b.toNat % 2 ^ 14
       let old := s1.bytes p.loc 8
       ∃ t, exec (.stagecoachCompletion cl) s = .next t ∧ BytesAre t p.loc 8 ((old + n) % 2 ^ 64) ∧ OnlyBytes s1 t p.loc 8 ∧
         (k.uid = c.uid → k.live = true → (t.core c.core).sc.lstat = (if c.b.toNat / 2 ^ 16 % 2 ^ 14 < old + n then 4 else 0) ∧
           (t.core c.core).sc.result = BitVec.ofNat 64 old)) ∧
  (∀ (ws : List Nat),
     let xs := ws.map (decodeVal .f32)
     (rankOrder xs).Perm (List.range xs.length) ∧
     ∀ (i j a b : Nat), i < j → (rankOrder xs)[i]? = some a → (rankOrder xs)[j]? = some b →
       let x := xs[a]?.getD (.nan false)
       let y := xs[b]?.getD (.nan false)
       ¬(isNan y = false ∧ (isNan x = true ∨ ltVal x y = true)) ∧ ((isNan x = true ∧ isNan y = true) ∨ eqVal x y = true → a < b))

/-- SCTOPK and SCCOLK over windows (R222 to R224): SCTOPK leaves in entry (t, j) the expert of token t's score of rank j, with VAL; SCCOLK lets each
expert choose its CAP best tokens, and leaves in a token's entries the experts that chose it, ascending, the rest 0, all with RESID where none did.
Nothing else in memory changes. SCROUTE.CNT and SCROUTE over windows, with the bases of a table (R222, R225, R226): entry i of the manifest with VAL
takes the next row of its expert, which is ROUT below CAP and DROP from CAP on; an expert number beyond NE is dropped with row 0; a token none of
whose entries is routed gets RESID in each; every dropped entry leaves a drop record, in order, and every expert its count. Nothing else in memory
changes. SCSEND and SCGATHER over windows (R228, R229): SCSEND copies token t's row to the row of each expert that an entry of t routes it to;
SCGATHER leaves in each output element the weighted sum of the token's routed rows, in FP32 in the order of its entries and rounded to the rows'
format under RMODE, and for a token with RESID its source element, or 0. Nothing else in memory changes. -/
def Obligations.StagecoachEffects : Prop :=
  (∀ (s : State) (c : CCmd) (l : List CCmd), (s.cluster (clusterOf c.core)).coach = c :: l → cfgOk s c.cfg = true →
     let f := cfgField c.cfg
     let ne := f 0 9
     let k := f 9 4
     let nt := f 16 14
     let cap := f 32 14
     let man := f 384 64
     let score := fun (t e : Nat) => decodeVal .f32 (winBytes s c.core (f 128 64 + (t * ne + e) * 4) 4)
     let entry := fun (u : State) (t j : Nat) => winBytes u c.core (man + (t * k + j) * 4) 4
     CoachWindows s c [(man, nt * k * 4), (f 128 64, nt * ne * 4)] →
     (c.func = 1 → ∃ u, CoachRan s u c [(man, nt * k * 4)] (nt * k) ∧
       ∀ t j, t < nt → j < k → entry u t j = 2 ^ 24 + (rankOrder ((List.range ne).map (score t)))[j]?.getD 0) ∧
     (c.func = 2 →
       let best := fun (e : Nat) => (rankOrder ((List.range nt).map (fun t => score t e))).take cap
       let by_ := fun (t : Nat) => (List.range ne).filter (fun e => (best e).contains t)
       let left := ((List.range nt).map (fun t => (by_ t).length - k)).sum
       ∃ u, CoachRan s u c [(man, nt * k * 4)] (((List.range nt).map (fun t => min (by_ t).length k)).sum + left * 2 ^ 32) ∧
         (∀ t j, t < nt → j < k → entry u t j = match (by_ t)[j]? with | some e => 2 ^ 24 + e | none => if by_ t = [] then 2 ^ 27 else 0) ∧
         ((s.core c.core).uid = c.uid → (s.core c.core).live = true → (u.core c.core).sc.discarded = left))) ∧
  (∀ (s : State) (c : CCmd) (l : List CCmd), (s.cluster (clusterOf c.core)).coach = c :: l → cfgOk s c.cfg = true →
     let f := cfgField c.cfg
     let ne := f 0 9
     let k := f 9 4
     let nt := f 16 14
     let man := f 384 64
     let cnt := f 448 64
     let old := fun (i : Nat) => winBytes s c.core (man + i * 4) 4
     let bits := fun (x lo n : Nat) => x / 2 ^ lo % 2 ^ n
     let val := fun (i : Nat) => decide (bits (old i) 24 1 = 1)
     let ex := fun (i : Nat) => bits (old i) 0 8
     let howMany := fun (n : Nat) (p : Nat → Bool) => ((List.range n).filter p).length
     let count := fun (n e : Nat) => howMany n (fun i => val i && decide (ex i = e))
     let counted := fun (u : State) => (∀ e, e < ne → winBytes u c.core (cnt + 4 * e) 4 = count (nt * k) e) ∧
       ((s.core c.core).uid = c.uid → (s.core c.core).live = true → ∀ e, e < ne → Sparse.get 0 (u.core c.core).sc.counts e = count (nt * k) e)
     (c.func = 4 → CoachWindows s c [(man, nt * k * 4), (cnt, ne * 4)] →
       ∃ u, CoachRan s u c [(cnt, ne * 4)] (howMany (nt * k) val) ∧ counted u) ∧
     (c.func = 3 → f 48 1 = 0 → CoachWindows s c [(man, nt * k * 4), (cnt, 1024 + nt * k * 4)] →
       let row := fun (i : Nat) => (c.table[ex i]?.getD 0).toNat + count i (ex i)
       let placed := fun (i : Nat) => val i && decide (ex i < ne) && decide (row i < f 32 14)
       let dropped := fun (i : Nat) => val i && !placed i
       let routed := fun (t : Nat) => (List.range k).any (fun j => placed (t * k + j))
       let new := fun (t i : Nat) => bits (old i) 28 4 * 2 ^ 28 + (if routed t then 0 else 2 ^ 27) + (if dropped i then 2 ^ 26 else 0) + (if placed i then 2 ^ 25 else 0) +
         (if val i then 2 ^ 24 else 0) + (if !val i then bits (old i) 8 16 else if ex i < ne then row i % 2 ^ 16 else 0) * 2 ^ 8 + ex i
       let drops := howMany (nt * k) dropped
       let record := fun (i : Nat) => cnt + 1024 + 4 * howMany i dropped
       ∃ u, CoachRan s u c [(man, nt * k * 4), (cnt, ne * 4), (cnt + 1024, 4 * drops)] (howMany (nt * k) placed + drops * 2 ^ 32) ∧ counted u ∧
         (∀ t j, t < nt → j < k → winBytes u c.core (man + (t * k + j) * 4) 4 = new t (t * k + j)) ∧
         (∀ t j, t < nt → j < k → dropped (t * k + j) = true →
           winBytes u c.core (record (t * k + j)) 4 = ex (t * k + j) * 2 ^ 16 + j * 2 ^ 13 + t) ∧
         ((s.core c.core).uid = c.uid → (s.core c.core).live = true → (u.core c.core).sc.routed = howMany (nt * k) placed ∧ (u.core c.core).sc.drops = drops ∧
           (u.core c.core).sc.resid = howMany nt (fun t => !routed t)))) ∧
  (∀ (s : State) (c : CCmd) (l : List CCmd), (s.cluster (clusterOf c.core)).coach = c :: l → cfgOk s c.cfg = true →
     let f := cfgField c.cfg
     let k := f 9 4
     let nt := f 16 14
     let rowb := f 64 16
     let man := f 384 64
     let entry := fun (t j : Nat) => winBytes s c.core (man + (t * k + j) * 4) 4
     let bits := fun (x lo n : Nat) => x / 2 ^ lo % 2 ^ n
     let routed := fun (t j : Nat) => decide (bits (entry t j) 25 1 = 1) && decide (bits (entry t j) 0 8 < f 0 9)
     let place := fun (t j : Nat) => (c.table[bits (entry t j) 0 8]?.getD 0).toNat + bits (entry t j) 8 16 * rowb
     let pairs := (List.range nt).flatMap (fun t => ((List.range k).filter (routed t)).map (fun j => (t, j)))
     (c.func = 5 → CoachWindows s c ([(man, nt * k * 4), (f 192 64, nt * rowb)] ++ pairs.map (fun p => (place p.1 p.2, rowb))) →
       ∃ u, CoachRan s u c (pairs.map (fun p => (place p.1 p.2, rowb))) pairs.length ∧
         ∀ t j b, (t, j) ∈ pairs → b < rowb → u.byte (windowLoc s c.core (place t j + b)) = s.byte (windowLoc s c.core (f 192 64 + t * rowb + b))) ∧
     (c.func = 6 → CoachWindows s c ([(man, nt * k * 4), (f 256 64, nt * k * 4), (c.a.toNat, nt * rowb)] ++ (if f 49 1 = 1 then [(f 192 64, nt * rowb)] else [])) →
       (∀ p ∈ pairs, CoachWindows s c [(c.a.toNat, nt * rowb), (place p.1 p.2, rowb)]) →
       let eb := if f 50 2 = 0 then 4 else 2
       let fmt := if f 50 2 = 0 then Fmt.f32 else if f 50 2 = 1 then .bf16 else .f16
       let n := rowb / eb
       let rm := modeOf (s.feature 5) c.rmode
       let sum := fun (t j : Nat) => ((List.range k).filter (routed t)).foldl (fun acc i => fp32 (fmaVal .rne
         (decodeVal .f32 (winBytes s c.core (f 256 64 + (t * k + i) * 4) 4)) (decodeVal fmt (winBytes s c.core (place t i + j * eb) eb)) (decodeVal .f32 acc)).1) 0
       let draw := fun (t j : Nat) => srDraw (if rm = .sr then srAdvance (t * n + j + 1) c.seed else c.seed)
       ∃ u, CoachRan s u c [(c.a.toNat, nt * rowb)] nt ∧ ∀ t j, t < nt → j < n → winBytes u c.core (c.a.toNat + t * rowb + j * eb) eb =
         if bits (entry t 0) 27 1 = 1 then (if f 49 1 = 1 then winBytes s c.core (f 192 64 + t * rowb + j * eb) eb else 0)
         else (roundVal fmt rm (satOf c.rmode) (draw t j) (decodeVal .f32 (sum t j))).1 % 2 ^ (8 * eb)))

/-! ### Means -/

/-- MSET, MACC, MMERGE and MFOLD (R234, R237, R238, R240, R244): MSET gives every lane the identity of its shape; MACC takes the active elements,
MMERGE merges every lane, MFOLD leaves the tree of R75 in lane 0 and identities in the others. Which lane the trap of a fold names is DEDUCED (log
29). The arithmetic of one lane (R234, R237 to R240): a lane takes the rounded sum of what its shape makes of a value and counts it, a square for p =
2, a reciprocal for p = -1, the larger or the smaller for an infinite p, a power through the tables TL and TE for another p; the mean is the rounded
quotient after the shape's exit; a NaN is condition 3; a fold counts what its lanes have counted. That a lane that is a NaN meets no domain condition
of p = -1 is DEDUCED (log 29). -/
def Obligations.MeanSteps : Prop :=
  (∀ (a : BitVec 6) (u m k : BitVec 3) (v : BitVec 5) (s : State),
     let x := s.getS a
     let p := x.toNat % 2 ^ 32
     let q := x.toNat / 2 ^ 32 % 4
     let bad := x.toNat / 2 ^ 41 ≠ 0 ∨ x.toNat / 2 ^ 34 % 64 ≠ 0 ∨ isNan (decodeVal .f32 p) = true ∨ (q ≠ 0 ∧ (p ≠ 0 ∨ Sparse.get none s.me.regs.pairs q = none))
     let acc := s.me.getM u.toNat
     let oth := s.me.getM m.toNat
     let ident := fun (c : Word) => { s := if c.toNat % 2 ^ 34 = 0x7F800000 then 0xFF800000 else if c.toNat % 2 ^ 34 = 0xFF800000 then 0x7F800000 else 0 : Lane }
     (bad → handled s = true → ∃ t, exec (.mset a u) s = .next t ∧ TakesTrap s t 1 x) ∧
     (¬bad → ∃ t, exec (.mset a u) s = .next t ∧ GoesOn s t [.means] [] ∧ MeanIs s t u.toNat x (fun _ => ident x)) ∧
     LaneSteps s (.macc v k u) u ((activeList (s.getK k) 32).map (fun i => (i, laneTake s.me (shapeOf acc.cfg) (acc.lane i) (elem (s.getV v) 32 i)))) []
       (fun t => t.pc = s.pc + 4) ∧
     ((∀ b, b < 64 → b ≠ 40 → acc.cfg.getLsbD b = oth.cfg.getLsbD b) →
       LaneSteps s (.mmerge m u) u ((List.range 128).map (fun i => (i, laneMerge (shapeOf acc.cfg) (acc.lane i) (oth.lane i)))) [] (fun t => t.pc = s.pc + 4)) ∧
     (∀ b, b < 64 → b ≠ 40 → acc.cfg.getLsbD b ≠ oth.cfg.getLsbD b → handled s = true →
       ∃ t, exec (.mmerge m u) s = .next t ∧ TakesTrap s t 10 (BitVec.ofNat 64 (u.toNat * 2 ^ 16 + 6))) ∧
     let r := foldLanes (shapeOf acc.cfg) 7 ((List.range 128).map acc.lane) none
     ((acc.fmode = false ∨ r.2 = none) → ∃ t, exec (.mfold u) s = .next t ∧ GoesOn s t [.means] [] ∧
       MeanIs s t u.toNat acc.cfg (fun i => if i = 0 then r.1 else ident acc.cfg)) ∧
     ∀ i, acc.fmode = true → r.2 = some i → handled s = true → ∃ t, exec (.mfold u) s = .next t ∧ TakesTrap s t 10 (BitVec.ofNat 64 (u.toNat * 2 ^ 16 + i * 2 ^ 8 + 5))) ∧
  (∀ (c : Core) (l : Lane),
     let room := l.n < 2 ^ 32 - 1
     let nan : BitVec 32 := 0x7FC00000
     (∀ (x : Nat), let y := fp32 (addVal .rne (f32 l.s.toNat) (f32 x)).1
       l.e = 0 → isNan (f32 x) = false → room → (y / 2 ^ 23 % 256 < 191 ∨ y / 2 ^ 23 % 256 = 255) →
         laneTake c .arith l x = ({ s := BitVec.ofNat 32 y, e := 0, n := l.n + 1 }, 0)) ∧
     (∀ (sh : MShape) (x : Nat), isNan (f32 x) = true → room → laneTake c sh l x = ({ s := nan, e := l.e, n := l.n + 1 }, 3)) ∧
     (∀ (x : Nat), isNan (f32 x) = false → laneTake c .quad l x = laneTake c .arith l (fp32 (mulVal (f32 x) (f32 x)).1)) ∧
     (∀ (x : Nat), isNan (f32 x) = false → room →
       (isZero (f32 x) = true → laneTake c .harm l x = ((laneTake c .arith l 0x7F800000).1, 2)) ∧
       (isZero (f32 x) = false → let v := f32 l.s.toNat
         (isNan v = true ∨ isZero v = true ∨ negOf v = negOf (f32 x) → laneTake c .harm l x = laneTake c .arith l (fp32 (divVal (valOfInt 1) (f32 x)).1)) ∧
         (isNan v = false ∧ isZero v = false ∧ negOf v ≠ negOf (f32 x) → laneTake c .harm l x = ({ s := nan, e := l.e, n := l.n + 1 }, 1)))) ∧
     (∀ (x : Nat), x < 2 ^ 32 → isNan (f32 x) = false → isNan (f32 l.s.toNat) = false → room →
       (ltVal (f32 l.s.toNat) (f32 x) = true → laneTake c .maxm l x = ({ s := BitVec.ofNat 32 x, e := l.e, n := l.n + 1 }, 0) ∧
         laneTake c .minm l x = ({ s := l.s, e := l.e, n := l.n + 1 }, 0)) ∧
       (ltVal (f32 x) (f32 l.s.toNat) = true → laneTake c .maxm l x = ({ s := l.s, e := l.e, n := l.n + 1 }, 0) ∧
         laneTake c .minm l x = ({ s := BitVec.ofNat 32 x, e := l.e, n := l.n + 1 }, 0))) ∧
     (∀ (p x : Nat), let v := f32 x
       (belowZero v = true → room → laneTake c (.pair0 p) l x = ({ s := nan, e := l.e, n := l.n + 1 }, 1)) ∧
       (isNan v = false → isZero v = false → isInf v = false → negOf v = false →
         (let y := log20 v
          isZero (f32 p) = true → isNan (f32 y) = false → laneTake c (.pair0 p) l x = laneTake c .arith l y) ∧
         (let y := exp20 (fp32 (mulVal (f32 p) (f32 (log20 v))).1)
          isZero (f32 p) = false → isNan (f32 y) = false → laneTake c (.pair0 p) l x = laneTake c .arith l y))) ∧
     (∀ (sh : MShape), l.n = 0 → laneMean c sh l = (0x7FC00000, 0)) ∧
     (l.n ≠ 0 → laneMean c .maxm l = (l.s.toNat, 0) ∧ laneMean c .minm l = (l.s.toNat, 0)) ∧
     (l.n ≠ 0 → l.e = 0 → let q := fp32 (divVal (f32 l.s.toNat) (valOfInt l.n)).1
       (isNan (f32 q) = true → ∀ sh ∈ [MShape.arith, .quad, .harm], laneMean c sh l = (0x7FC00000, 3)) ∧
       (isNan (f32 q) = false → laneMean c .arith l = (q, 0) ∧ laneMean c .quad l = (fp32 (sqrtVal (f32 q)).1, 0) ∧
         laneMean c .harm l = (fp32 (divVal (valOfInt 1) (f32 q)).1, 0) ∧
         ∀ (p : Nat), isZero (f32 q) = false → isInf (f32 q) = false → negOf (f32 q) = false →
           (isZero (f32 p) = true → laneMean c (.pair0 p) l = (exp20 q, 0)) ∧
           (isZero (f32 p) = false → laneMean c (.pair0 p) l = (exp20 (fp32 (divVal (f32 (log20 (f32 q))) (f32 p)).1), 0)))) ∧
     ∀ (sh : MShape) (n : Nat) (ls : List Lane), ls.length = 2 ^ n → (ls.map (fun x => x.n)).sum < 2 ^ 32 →
       (foldLanes sh n ls none).1.n = (ls.map (fun x => x.n)).sum ∧ (foldLanes sh n ls none).2 = none)

/-- MFIN, MSAVE, MLOAD and MTBL (R235, R239, R240, R242): MFIN writes the mean of each active lane; MSAVE enters one write of 8 bytes for each active
lane, its packed state, and traps first at a lane with an uncorrectable error (R264); MLOAD reads them; MTBL loads a pair whose two headers are in
order and else traps. That MLOAD and MTBL read at issue in one step is the model's choice (log 9), and so is the order in which the parts of a long
image are checked (log 30). MACCQ.V and MACCQ.S (R241): a count of 0 ends them; on an empty queue they wait, or end when a pre-emption request is
pending; else the oldest entry is applied whole, leaves the queue, and sD counts down, the instruction ending with the last; an entry of another core
is an acquire that empties the read cache, one of its own is not (R96). -/
def Obligations.MeanMoves : Prop :=
  (∀ (a : BitVec 6) (d : BitVec 5) (k u q : BitVec 3) (s s1 : State) (es : List VElem),
     let acc := s.me.getM u.toNat
     let sh := shapeOf acc.cfg
     let on := activeList (s.getK k) 32
     let mean := fun i => laneMean s.me sh (acc.lane i)
     let bad := on.filter (fun i => decide ((mean i).2 ≠ 0))
     let els := on.map (fun i => (i, BitVec.ofNat 64 ((s.base a).toNat + 8 * i)))
     let stuck := on.filter (fun i => decide (2 ^ 24 ≤ (acc.lane i).n ∨ 16320 < (acc.lane i).e))
     let upset := fun (i : Nat) => decide (128 + 128 * u.toNat + i ∈ s.me.regs.upset)
     ((acc.fmode = false ∨ bad = []) → ∃ t, exec (.mfin d k u) s = .next t ∧ GoesOn s t [.vectors] [] ∧
       ElemsAre s t d.toNat 32 (fun j => if active (s.getK k) 32 j then (mean j).1 % 2 ^ 32 else elem (s.getV d) 32 j)) ∧
     (∀ i l, acc.fmode = true → bad = i :: l → handled s = true → ∃ t, exec (.mfin d k u) s = .next t ∧
       TakesTrap s t 10 (BitVec.ofNat 64 (u.toNat * 2 ^ 16 + i * 2 ^ 8 + (mean i).2))) ∧
     (vectorPlaces s .store true (s.base a) 8 els = .ok (s1, es) → vectorStall s1 true 8 es = false →
       (∀ e ∈ es, s1.interlock s.cur e.addr.toNat (e.addr.toNat + 7) = .go) →
       (∀ i l, on.filter upset = i :: l → handled s = true → ∃ t, exec (.msave a k u) s = .next t ∧ t.me.csr.tcause = 11 ∧
         t.me.csr.tval = BitVec.ofNat 64 ((s.base a).toNat + 8 * i) ∧ t.pc = s.me.csr.tvec + 1408 ∧ t.me.mem.wbuf = s.me.mem.wbuf) ∧
       (∀ i l, on.filter upset = [] → stuck = i :: l → handled s = true → ∃ t, exec (.msave a k u) s = .next t ∧ t.me.csr.tcause = 10 ∧
         t.me.csr.tval = BitVec.ofNat 64 (u.toNat * 2 ^ 16 + i * 2 ^ 8 + 7) ∧ t.pc = s.me.csr.tvec + 1280 ∧ t.me.mem.wbuf = s.me.mem.wbuf) ∧
       (on.filter upset = [] → stuck = [] → ∃ t ws, exec (.msave a k u) s = .next t ∧ t.me.mem.wbuf = s.me.mem.wbuf ++ ws ∧
         ws.map (fun w => (w.loc, w.n, w.val, w.mask, w.rel)) = es.map (fun e => (e.place.loc, 8,
           BitVec.ofNat 64 ((acc.lane e.idx).s.toNat * 2 ^ 32 + (acc.lane e.idx).e / 64 * 2 ^ 24 + (acc.lane e.idx).n), 0xFF, false)) ∧
         t.pc = s.pc + 4 ∧ StepsWalker s t a ∧ Keeps s1 t s.cur [.pc, .walkers, .pending] [])) ∧
     (vectorPlaces s .load true (s.base a) 8 els = .ok (s1, es) → vectorStall s1 true 8 es = false →
       (∀ e ∈ es, s1.badNow e.place 8 = false ∧ s.me.readable e.place 8 = true) → (s1.chargeList (elemAsks s1 8 es)).isSome = true →
       ∃ t, exec (.mload a k u) s = .next t ∧ t.pc = s.pc + 4 ∧ StepsWalker s t a ∧ Keeps s1 t s.cur [.pc, .means, .walkers, .cache] [.partitions, .requests] ∧
         MeanIs s t u.toNat acc.cfg (fun j => match es.find? (fun e => e.idx == j) with
           | some e =>
             let x := s1.readNow e.place 8
             let y : Lane := { s := BitVec.ofNat 32 (x / 2 ^ 32), e := x / 2 ^ 24 % 256 * 64, n := x % 2 ^ 24 }
             if sh.picks = true then y else rescale y
           | none => acc.lane j)) ∧
     (BlockReads s s1 false (s.base a) 2064 es →
       let img : BitVec 132096 := BitVec.ofNat 132096 (blockValue s1 es)
       (headerOk img 0 = true → headerOk img 8256 = true → ∃ t, exec (.mtbl a q) s = .next t ∧ t.pc = s.pc + 4 ∧ StepsWalker s t a ∧
         (∀ r, Sparse.get none t.me.regs.pairs r = if r = q.toNat then some img else Sparse.get none s.me.regs.pairs r) ∧
         Keeps s1 t s.cur [.pc, .pairs, .walkers, .cache] [.partitions, .requests]) ∧
       ((headerOk img 0 = false ∨ headerOk img 8256 = false) → handled s = true → ∃ t, exec (.mtbl a q) s = .next t ∧
         t.me.csr.tcause = 1 ∧ t.me.csr.tval = s.base a ∧ t.pc = s.me.csr.tvec + 128 ∧ Keeps s1 t s.cur [.pc, .csrs, .cache, .task] [.partitions, .requests]))) ∧
  (∀ (d : BitVec 6) (u : BitVec 3) (s : State) (packed : Bool),
     let i := if packed = true then Instr.maccqS d u else .maccqV d u
     let n := s.getS d
     let acc := s.me.getM u.toNat
     (n = 0 → ∃ t, exec i s = .next t ∧ OnlyGoes s t (s.pc + 4)) ∧
     (n ≠ 0 → s.me.mail.rq = [] → s.me.sched.preempt = false → exec i s = .next s) ∧
     (n ≠ 0 → s.me.mail.rq = [] → s.me.sched.preempt = true → ∃ t, exec i s = .next t ∧ OnlyGoes s t (s.pc + 4)) ∧
     ∀ e l, n ≠ 0 → s.me.mail.rq = e :: l → acquireOk s = true →
       let x := fun (w j : Nat) => e.data.toNat / 2 ^ (w * j) % 2 ^ w
       let rows := if packed = true then (List.range 8).map (fun j => (j, laneMerge (shapeOf acc.cfg) (acc.lane j)
           { s := BitVec.ofNat 32 (x 64 j / 2 ^ 32), e := x 64 j / 2 ^ 24 % 256 * 64, n := x 64 j % 2 ^ 24 }))
         else (List.range 16).map (fun j => (j, laneTake s.me (shapeOf acc.cfg) (acc.lane j) (x 32 j)))
       LaneSteps s i u rows [.scalars, .mail, .cache] (fun t => ScalarIs s t d.toNat (n - 1) ∧ t.me.mail = { s.me.mail with rq := l } ∧
         t.me.mem.rcache = (if e.core = s.cur then s.me.mem.rcache else []) ∧ t.pc = if n = 1 then s.pc + 4 else s.pc))

/-! ### Exchange -/

/-- XSEND and XRECV (R112, R246 to R249): before the slot they wait; XSEND puts its vector in an empty port of the rank, and reports a rank outside
the caravan or a receiver that never looks; XRECV looks at its port once in a cycle, takes the message of its slot, reports another sender, slot or
rank, and waits on an empty port while some member can still send. Strict mode traps instead of reporting. Which members can still send is DEDUCED
(log 32). -/
def Obligations.TimedExchange : Prop :=
  ∀ (v : BitVec 5) (a : BitVec 6) (r : BitVec 4) (s : State) (car : Caravan), s.myCar = some car →
    let t := s.getS a
    let n := r.toNat
    let send := Instr.xsend v a r
    let recv := Instr.xrecv v a r
    let traps := fun (i : Instr) (x : Word) => handled s = true → ∃ u, exec i s = .next u ∧ TakesTrap s u 14 x
    let reports := fun (i : Instr) (code rank : Nat) => ∃ u, exec i s = .next u ∧ GoesOn s u [.csrs] [] ∧ Reports s u code rank
    (s.vcc.toNat < t.toNat → (∃ u, exec send s = .next u ∧ Pauses s u (.timed t false (some n))) ∧ ∃ u, exec recv s = .next u ∧ Pauses s u (.timed t false none)) ∧
    (t.toNat ≤ s.vcc.toNat → car.cores.length ≤ n → (s.strict = true → traps send (BitVec.ofNat 64 n)) ∧ (s.strict = false → reports send 4 n)) ∧
    (∀ g, t.toNat ≤ s.vcc.toNat → car.cores[n]? = some g →
      let p := (s.core g).mail.port
      let never := (s.core g).sched.run = .finished ∨ (p ≠ none ∧ g ≠ s.cur ∧ (s.core g).heldAbove t = true)
      let shut := p ≠ none ∨ (s.core g).mail.emptied = true ∨ s.me.vbusy v.toNat = true
      (never → s.strict = true → traps send (BitVec.ofNat 64 n)) ∧ (never → s.strict = false → reports send 5 n) ∧
      (¬never → sendConflict s t n p = true → (s.strict = true → traps send t) ∧
        (s.strict = false → ∃ u, exec send s = .next u ∧ Pauses s u (.due t false (some n)))) ∧
      (¬never → sendConflict s t n p = false → ¬shut → ∃ u, exec send s = .next u ∧ u.pc = s.pc + 4 ∧
        Leaves s u [s.cur, g] [.pc, .csrs, .mail] [] ∧ Reports s u 0 0 ∧ (∀ j, j ≠ g → (u.core j).mail = (s.core j).mail) ∧
        (u.core g).mail = { (s.core g).mail with port := some { data := s.getV v, slot := t, sender := s.myRank, fresh := true } }) ∧
      (¬never → sendConflict s t n p = false → shut → ∃ u, exec send s = .next u ∧ Pauses s u (.due t false (some n)))) ∧
    (t.toNat ≤ s.vcc.toNat →
      let late := match s.staleRank with | some x => (1, x) | none => (3, n)
      let waits := ∃ u, exec recv s = .next u ∧ Pauses s u (match s.staleRank with | some x => .stale t x | none => .due t false none)
      let emptied := { s.me.mail with port := none, emptied := true }
      (s.me.mail.emptied = true → waits) ∧
      (∀ m, s.me.mail.emptied = false → s.me.mail.port = some m →
        let bad : Word := BitVec.ofNat 64 (m.sender % 16 * 2 ^ 32 + m.slot.toNat % 2 ^ 32)
        (m.fresh = true → waits) ∧
        (m.fresh = false → car.cores.length ≤ n → (s.strict = true → traps recv (BitVec.ofNat 64 n)) ∧
          (s.strict = false → let e := match s.staleRank with | some x => (1, x) | none => (4, n)
            reports recv e.1 e.2)) ∧
        (m.fresh = false → n < car.cores.length →
          (m.slot = t → (m.sender = n ∨ s.strict = false) →
            let e := match s.staleRank with | some x => (1, x) | none => if m.sender = n then (0, 0) else (2, m.sender)
            ∃ u, exec recv s = .next u ∧ GoesOn s u [.csrs, .mail, .vectors] [] ∧ VectorIs s u v.toNat m.data ∧ Reports s u e.1 e.2 ∧ u.me.mail = emptied) ∧
          (m.slot.toNat < t.toNat → s.strict = false → ∃ u, exec recv s = .next u ∧ u.pc = s.pc ∧ Keeps s u s.cur [.pc, .mail] [] ∧
            u.me.mail = emptied ∧ u.hold = .stale t (s.staleRank.getD m.sender)) ∧
          (t.toNat < m.slot.toNat → s.strict = false → reports recv late.1 late.2) ∧
          (s.strict = true → (m.slot ≠ t ∨ m.sender ≠ n) → traps recv bad))) ∧
      (s.me.mail.emptied = false → s.me.mail.port = none →
        let all := ∀ g ∈ car.cores, g = s.cur ∨ (s.core g).sched.run = .finished ∨ (s.core g).heldAbove t = true
        (all → s.strict = true → traps recv t) ∧ (all → s.strict = false → reports recv late.1 late.2) ∧ (¬all → waits)))

/-- QPUT places 64 bytes in the receive queue of a logical core, or answers why not; QGET takes the oldest entry, or answers 0; an entry of another
core is an acquire that empties the read cache, one of its own is not (R96, R251, R252). When an entry gets there and what it counts for is the
model's choice (log 31). XCHK reads the flag as an acquire load of device scope and answers whether it has reached sB (R257). -/
def Obligations.ReceiveQueues : Prop :=
  (∀ (d b : BitVec 6) (v : BitVec 5) (s : State),
     let o := s.physOf s.myPart ((s.getS b).toNat % 1024)
     let put := Instr.qput d v b
     let answers := fun (st : Nat) => ∃ t, exec put s = .next t ∧ Answers s t d st [] []
     (o = none → answers 2) ∧
     (∀ g, o = some g →
       let c := s.core g
       let live := c.sched.run ∈ [Run.running, .done, .point] ∧ c.part = s.myPart
       (¬live → answers 3) ∧ (live → 16 ≤ c.mail.rq.length → answers 1) ∧
       (live → c.mail.rq.length < 16 → s.me.drained = false → exec put s = .next s) ∧
       (live → c.mail.rq.length < 16 → s.me.drained = true → (clusterOf g = clusterOf s.cur ∨ (s.charge (askOf s.atIssue s.cur s.myPart s.me.acct 2 64)).isSome = true) →
         ∃ t, exec put s = .next t ∧ t.pc = s.pc + 4 ∧ ScalarIs s t d.toNat 0 ∧ Leaves s t [s.cur, g] [.pc, .scalars, .mail] [.partitions, .requests] ∧
           (∀ j, j ≠ g → (t.core j).mail = (s.core j).mail) ∧ (t.core g).mail = { c.mail with rq := c.mail.rq ++
             [{ data := BitVec.ofNat 512 ((s.getV v).toNat % 2 ^ 512), sender := s.myLogical, core := s.cur, uid := s.me.uid }] })) ∧
     (s.me.mail.rq = [] → ∃ t, exec (.qget d v) s = .next t ∧ WritesScalar s t d.toNat 0 (s.pc + 4)) ∧
     ∀ e l, s.me.mail.rq = e :: l → acquireOk s = true → ∃ t, exec (.qget d v) s = .next t ∧ Answers s t d (2 ^ 16 + e.sender) [.mail, .cache, .vectors] [] ∧
       t.me.mail = { s.me.mail with rq := l } ∧ t.me.mem.rcache = (if e.core = s.cur then s.me.mem.rcache else []) ∧
       VectorIs s t v.toNat (BitVec.ofNat 4096 ((s.getV v).toNat / 2 ^ 512 * 2 ^ 512 + e.data.toNat))) ∧
  (∀ (d a b : BitVec 6) (s s1 : State) (p : Place),
     let x := s.base a
     x.toNat % 8 = 0 → locate s s.cur s.me.sup .load x = .ok (s1, p) → acquireOk s = true →
     let view := acquireView s1 p 8 3
     loadReady view x p 8 = true →
     ∃ t, exec (.xchk d a b) s = .next t ∧ t.pc = s.pc + 4 ∧ StepsWalker s t a ∧ t.me.mem.rcache = [] ∧
       ScalarIs s t d.toNat (if (s.getS b).toNat ≤ view.readNow p 8 then 1 else 0) ∧
       (s.me.mem.wbuf = [] → ScalarIs s t d.toNat (if (s.getS b).toNat ≤ s1.bytes p.loc 8 then 1 else 0)) ∧
       Keeps s1 t s.cur [.pc, .scalars, .walkers, .cache] [.partitions, .requests])

/-- LDRED and STMC (R254 to R256): the checks of the address; absence, then loss, at issue; LDRED reads each member in rank order, then reduces and
writes the results; STMC enters its writes to every member, 64 units of 8 bytes to each, and reports once each is performed or has failed, a member
lost by then among those that failed. That an LDRED stays at its instruction while it reads is DEDUCED (log 33). -/
def Obligations.Groups : Prop :=
  ∀ (v : BitVec 5) (a : BitVec 6) (o : BitVec 2) (sc ty : BitVec 3) (s : State),
    let x := s.base a
    let red := Instr.ldred v a o sc ty
    let mc := Instr.stmc v a o sc
    let acq := o.getLsbD 0
    let drops := acq = true ∧ sc ≠ 0
    let ends := fun (u t : State) (cs : List CorePart) (code rank : Nat) => t.pc = s.pc + 4 ∧ StepsWalker s t a ∧ Reports s t code rank ∧
      Keeps u t s.cur (.pc :: .csrs :: .walkers :: cs) []
    let key := fun (w : Write) => (w.loc, w.n, w.val, w.mask, w.member)
    let unit := fun (q : Piece) (first i : Nat) => (q.loc + 8 * i, BitVec.ofNat 64 (elem (s.getV v) 64 (first + i)))
    let fresh := s.hold = .free
    (fresh → (acq = true → acquireOk s = true) → (x.toNat % 64 ≠ 0 → handled s = true → ∃ t, exec red s = .next t ∧ TakesTrap s t 4 x) ∧
      (x.toNat % 64 = 0 → (spaceOf x ≠ 0 ∨ s.part s.myPart = none) → handled s = true → ∃ t, exec red s = .next t ∧ TakesTrap s t 2 x)) ∧
    (∀ gid g, fresh → GroupIs s x gid g →
      let off := x.toNat - g.base
      let owners := g.members.map (ownerOf s g)
      ((acq = true → acquireOk s = true) →
        (∀ s1 r, membersAt g .load off g.members.zipIdx s [] = .absent s1 r → ∃ t, exec red s = .next t ∧ ends s1 t [.cache] 7 r) ∧
        (∀ s1 c, membersAt g .load off g.members.zipIdx s [] = .trap s1 c → handled s = true → ∃ t, exec red s = .next t ∧
          t.me.csr.tcause = BitVec.ofNat 64 (c % 32) ∧ t.me.csr.tval = x ∧ t.pc = s.me.csr.tvec + BitVec.ofNat 64 (128 * (c % 32))) ∧
        ∀ s1 ps, membersAt g .load off g.members.zipIdx s [] = .all s1 ps →
          (∀ r, firstLost s gid owners = some r → ∃ t, exec red s = .next t ∧ ends s1 t [.cache] 8 r) ∧
          (firstLost s gid owners = none → ∃ t, exec red s = .next t ∧ t.pc = s.pc ∧ t.hold = .ldred gid ps owners [] 0 ∧ Keeps s1 t s.cur [.pc] [])) ∧
      ((o.getLsbD 1 = true → s.me.storesDone = true) →
        (∀ s1 r, membersAt g .store off g.members.zipIdx s [] = .absent s1 r → ∃ t, exec mc s = .next t ∧ ends s1 t [] 7 r) ∧
        ∀ s1 ps, membersAt g .store off g.members.zipIdx s [] = .all s1 ps →
          (∀ r, firstLost s gid owners = some r → ∃ t, exec mc s = .next t ∧ ends s1 t [] 8 r) ∧
          let lock := fun (m : Member) => s.interlock s.cur (m.base + off) (m.base + off + 511)
          (firstLost s gid owners = none → (∀ m ∈ g.members, lock m = .go) → (∀ m ∈ g.members, s1.interlock s.cur (m.base + off) (m.base + off + 511) = lock m) →
            ∃ t ws, exec mc s = .next t ∧ t.pc = s.pc ∧ t.hold = .stmc gid owners none ∧ Keeps s1 t s.cur [.pc, .pending] [] ∧
            t.me.mem.wbuf = s.me.mem.wbuf ++ ws ∧ ws.map key = (ps.zipIdx.flatMap (fun p => stmcWrites (s.getV v) x p.2 p.1)).map key)) ∧
      (∀ r q, q.n = 512 → (stmcWrites (s.getV v) x r [q]).map key = (List.range 64).map (fun i => ((unit q 0 i).1, 8, (unit q 0 i).2, 0xFF, some r))) ∧
      ∀ r q z, q.n % 8 = 0 → q.n + z.n = 512 → (stmcWrites (s.getV v) x r [q, z]).map key =
        (List.range (q.n / 8)).map (fun i => ((unit q 0 i).1, 8, (unit q 0 i).2, 0xFF, some r)) ++
          (List.range (z.n / 8)).map (fun i => ((unit z (q.n / 8) i).1, 8, (unit z (q.n / 8) i).2, 0xFF, some r))) ∧
    (∀ gid ms owners data n ps, s.hold = .ldred gid ms owners data n → ms[data.length]? = some ps → (∀ p ∈ ps, s.me.readable p.place p.n = true) →
      let view := pieceView s acq sc ps
      (∀ b, badPiece view ps = some b → x.toNat % 64 = 0 → handled s = true → ∃ t, exec red s = .next t ∧ TakesTrap s t 11 (x + BitVec.ofNat 64 (8 * b))) ∧
      (badPiece view ps = none → (s.chargeList (pieceAsks s ps)).isSome = true → ∃ t y, exec red s = .next t ∧ t.pc = s.pc ∧ n ≤ y ∧
        t.hold = .ldred gid ms owners (data ++ [readPieces view ps]) y ∧ Keeps s t s.cur [.pc, .cache] [.partitions, .requests])) ∧
    (∀ gid ms owners data n, s.hold = .ldred gid ms owners data n → ms.length = data.length →
      let el := fun (w r i : Nat) => (data[r]?.getD 0) / 2 ^ (w * i) % 2 ^ w
      let sum := fun (f : Fmt) (w i : Nat) => fp32 ((List.range (data.length - 1)).foldl (fun acc r => f32 (fp32 (addVal .rne acc (decodeVal f (el w (r + 1) i))).1))
        (decodeVal f (el w 0 i)))
      let cached := fun (t : State) => t.me.mem.rcache = if drops then [] else s.me.mem.rcache
      (∀ r, firstLost s gid owners = some r → ∃ t, exec red s = .next t ∧ ends s t [.cache] 8 r ∧ cached t) ∧
      (firstLost s gid owners = none → data ≠ [] →
        (ty = 0 → ∃ t, exec red s = .next t ∧ ends s t [.cache, .vectors] 0 0 ∧ cached t ∧ ElemsAre s t v.toNat 32 (fun i => sum .f32 32 i)) ∧
        (ty = 1 → ∃ t, exec red s = .next t ∧ ends s t [.cache, .vectors] 0 0 ∧ cached t ∧
          (∀ r, r ≠ v.toNat → r ≠ v.toNat + 1 → t.me.getV r = s.me.getV r) ∧
          ∀ i, i < 256 → elem (t.me.getV (v.toNat + i / 128)) 32 (i % 128) = sum .bf16 16 i) ∧
        (ty = 2 → (∀ i, i < 64 → (redLane data i).isSome = true) → ∃ t, exec red s = .next t ∧ ends s t [.cache, .vectors] 0 0 ∧ cached t ∧
          ElemsAre s t v.toNat 64 (fun i => (redLane data i).getD 0)) ∧
        ∀ i, ty = 2 → i < 64 → redLane data i = none → (∀ j, j < i → (redLane data j).isSome = true) → ∃ t, exec red s = .next t ∧ ends s t [.cache] 9 i)) ∧
    ∀ gid owners failed, s.hold = .stmc gid owners failed →
      ((∃ w ∈ s.me.mem.wbuf, w.member ≠ none) → exec mc s = .next s) ∧
      ((∀ w ∈ s.me.mem.wbuf, w.member = none) →
        let bad := fun (r : Nat) => failed = some r ∨ ∃ y, owners[r]? = some y ∧ memberLost s gid r y = true
        ((∀ r, ¬bad r) → ∃ t, exec mc s = .next t ∧ ends s t [] 0 0) ∧
        ∀ r, bad r → (∀ q, bad q → r ≤ q) → ∃ t, exec mc s = .next t ∧ ends s t [] 8 r)

/-! ### The distributor -/

/-- A selection step (R124, R125): among the queues whose account may run the head's next caravan, those below a floor first, then the highest
priority, then the first queue above the last one chosen at that priority, wrapping. With no such queue nothing changes. A packet leaves its queue
with the selection of its last caravan (log 57) and counts for its queue's owner of now (log 63). CARAVAN_BIND (R18, R53, R109, R111, R127): the
lowest cluster with enough free cores and wagons takes the oldest selected caravan; each member starts in the state of Table 06-1; a malformed window
table ends the binding of the launch; else the caravan waits. The slots that a bind fills follow their core's own events of the cycle (R38); logs 15
and 45 say what else the model chose. TASK_RETIRE (R53, R100, R114, R167): once everything that the task has issued has completed and its hand-overs
have resolved, its wagons are FREE with what they hold, its leases, mutexes and queues are given up, and the core waits for its caravan or is idle. A
retirement keeps its place among the events of the cycle (R199). -/
def Obligations.Distribution : Prop :=
  (∀ (s : State), Sparse.wf {} s.queues = true → (∀ e ∈ s.queues, e.1 < 256) →
     (∀ y, y ∈ choices s ↔ ∃ p x d, (s.queue y.q).owner = some p ∧ s.part p = some x ∧ s.head y.q = some (y.did, d) ∧ x.out = false ∧ x.killing = false ∧
       launchReady s d = true ∧ s.waiting p (s.queue y.q).cls = false ∧
       let lim := (x.accts[(s.queue y.q).cls]?).getD (0, 0)
       s.occ p (s.queue y.q).cls + d.pkt.size ≤ lim.2 ∧ y.floor = decide (s.occ p (s.queue y.q).cls < lim.1) ∧ y.prio = min (s.queue y.q).prio d.pkt.prio) ∧
     (choices s = [] → exec .distributorSelect s = .next s) ∧
     ∀ x d p, selectQueue s = some x → s.disp x.did = some d → (s.queue x.q).owner = some p →
       let back := fun (q : Nat) => (q + 512 - (Sparse.get 255 s.rr x.prio + 1) % 256) % 256
       let y := { d with nextC := d.nextC + 1, picks := d.picks ++ [{ num := d.nextC, own := p, acct := (s.queue x.q).cls }] }
       x ∈ choices s ∧ ((∃ z ∈ choices s, z.floor = true) → x.floor = true) ∧
       (∀ z ∈ choices s, (x.floor = true → z.floor = true) → z.prio ≤ x.prio ∧ (z.prio = x.prio → back x.q ≤ back z.q)) ∧
       ∃ t, exec .distributorSelect s = .next t ∧ Leaves s t [] [] [.launches, .queues, .other] ∧ LaunchIs s t x.did (some y) ∧
         (∀ p, Sparse.get 255 t.rr p = if p = x.prio then x.q else Sparse.get 255 s.rr p) ∧
         ∀ q, t.queue q = if q = x.q ∧ y.unselected = false then { s.queue q with pkts := (s.queue q).pkts.filter (· != x.did) } else s.queue q) ∧
  (∀ (s : State) (did cnum acct : Nat) (d : Dispatch) (x : Partition) (own : Nat), s.disp did = some d →
     d.picks.head? = some { num := cnum, own := own, acct := acct } → s.part d.pkt.part = some x →
     x.killing = false →
     let k := d.pkt
     let bind := exec (.caravanBind did) s
     (findCluster s k.part x k.size k.wagons = none → bind = .next s) ∧
     ∀ cl cores, findCluster s k.part x k.size k.wagons = some (cl, cores) →
       (cl < 48 ∧ cores.length = k.size ∧ (∀ g ∈ cores, clusterOf g = cl ∧ some g ∈ x.table ∧ coreFree s g = true) ∧ k.size * k.wagons ≤ (s.cluster cl).freeCount ∧
         ∀ c, c < cl → ((partCores x c).filter (coreFree s)).length < k.size ∨ (s.cluster c).freeCount < k.size * k.wagons ∨
           poolRoom s 1 (fun q => (s.cluster c).held q) k.part (k.size * k.wagons) = false) ∧
       ((∃ g n, g ∈ cores ∧ n < k.wagons ∧ yardMay s g n = false) → bind = .next s) ∧
       ((∀ g n, g ∈ cores → n < k.wagons → yardMay s g n = true) →
       (readWindows s k.part k.pwtab = none → ∃ t, bind = .next t ∧ ∀ y, t.disp did = some y → y.malformed = true ∧ y.picks = []) ∧
       ∀ w, readWindows s k.part k.pwtab = some w →
         ∃ t c, bind = .next t ∧ t.caravan s.nextId = some c ∧ c.cores = cores ∧ c.size = k.size ∧ c.disp = did ∧ c.num = cnum ∧ c.part = k.part ∧ c.own = own ∧ c.acct = acct ∧ c.vcc = 0 ∧
           c.bars = [] ∧ t.nextId = s.nextId + 1 + k.size ∧
           (∃ y, t.disp did = some y ∧ y.picks = d.picks.tail ∧ y.boundC = d.boundC + 1 ∧ y.pkt = k) ∧
           (∀ j, j ∉ cores → t.core j = s.core j) ∧
           ∀ r g, cores[r]? = some g →
             let e := t.core g
             let lin := cnum * k.size + r
             let v := fun (i : Nat) => match i with | 1 => lin % k.x | 2 => lin / k.x % k.y | 3 => lin / k.x / k.y | 4 => r | 5 => k.size | _ => 0
             (e.sched.run = .binding ∨ e.sched.run = .running) ∧
             e.sched.task = some { uid := s.nextId + 1 + r, disp := did, lin := lin, rank := r, car := s.nextId, part := k.part, acct := acct } ∧
             e.pc = k.entry ∧ e.sup = d.sup ∧ (∀ i, e.getS i = BitVec.ofNat 64 (v i)) ∧ (∀ i, e.getV i = 0) ∧ (∀ i, i ≠ 0 → e.getK i = 0) ∧
             e.csr = {} ∧ e.mail = {} ∧ e.wins = w ∧ e.sc = {} ∧
             ∀ n, (e.slot n).st = if n < k.wagons then .attached else .detached)) ∧
  (∀ (s : State) (g : Nat), (s.core g).sched.task.isSome = true →
     ((s.core g).sched.run ≠ .done ∨ issuedDone s g = false ∨ handsResolved s g = false ∨ mayWithdraw s g g = false → exec (.taskRetire g) s = .next s) ∧
     ((s.core g).sched.run = .done → issuedDone s g = true → handsResolved s g = true → mayWithdraw s g g = true → ∃ t, exec (.taskRetire g) s = .next t ∧
       ((t.core g).sched.run = .finished ∨ (t.core g).sched.run = .idle) ∧ (t.core g).hitch = [] ∧ (t.core g).mail = {} ∧ (t.core g).regs = (s.core g).regs ∧
       (∀ e ∈ (s.core g).hitch, e.2.st = .attached ∨ e.2.st = .arriving → ((t.cluster (clusterOf g)).wagon e.2.wagon).yard = .free ∧
         ((t.cluster (clusterOf g)).wagon e.2.wagon).prec = ((s.cluster (clusterOf g)).wagon e.2.wagon).prec) ∧
       (∀ i, i < 2 → (s.dray (clusterOf g) i).holder = some g → (t.dray (clusterOf g) i).holder = none) ∧
       ∀ c, c ≠ clusterOf g → c ≠ 0 → { t.cluster c with order := [] } = { s.cluster c with order := [] }))

/-- SWITCH_TICK, SAVE_DEADLINE, BUDGET_PERIOD and the configurations of queues and rotations (R123, R128, R130, R131, R268): at the tick the running
gang is switched out and its cores are asked to stop; a gang that has saved everything before the deadline hands over, one that misses goes on and
skips its next turn, and its third miss kills it: the next gang runs after the kill. What a queue holds stays in it when its owner changes (log 63),
and a rotation is refused while any launch of its partitions is live (log 64); both are the model's choices. -/
def Obligations.Rotations : Prop :=
  (∀ (s : State) (i : Nat) (r : Rotation), s.rot i = some r →
    let out := r.gang r.running
    let cars := gangCaravans s out
    let saved := ∀ c ∈ cars, c.2.st = .saved
    let members := cars.flatMap (fun c => c.2.cores)
    let alive := ∀ p ∈ out.parts, ∀ x, s.part p = some x → x.killing = false
    let handsOver := fun (t : State) (misses : Nat) =>
      (∃ y, t.rot i = some y ∧ y.running = r.into ∧ y.deadline = none ∧ y.ending = false ∧ (r.running < r.gangs.length → (y.gang r.running).misses = misses)) ∧
      ∀ p x, p ∈ (r.gang r.into).parts → s.part p = some x → ∃ y, t.part p = some y ∧ y.out = false
    (r.deadline = none → r.gangs ≠ [] → r.next.toNat ≤ s.time.toNat → ¬(saved ∧ alive) → ∃ t, exec (.switchTick i) s = .next t ∧
      (∃ y, t.rot i = some y ∧ y.running = r.running ∧ y.deadline = some (s.time + 200000) ∧ y.ending = false ∧ y.next = s.time + BitVec.ofNat 64 r.tick ∧
        y.tick = r.tick ∧ y.clusters = r.clusters ∧
        (r.gangs.length > 1 → (∀ j, j < r.gangs.length → (r.gang j).skip = false) → y.into = (r.running + 1) % r.gangs.length)) ∧
      (∀ p x, p ∈ out.parts → s.part p = some x → ∃ y, t.part p = some y ∧ y.out = true) ∧
      ∀ g, t.core g = if g ∈ members ∧ (s.core g).sched.run ≠ .finished ∧ (s.core g).sched.run ≠ .idle then
        { s.core g with sched := { (s.core g).sched with preempt := true } } else s.core g) ∧
    ((r.deadline ≠ none ∨ r.gangs = [] ∨ s.time.toNat < r.next.toNat) → exec (.switchTick i) s = .next s) ∧
    (∀ dl, r.deadline = some dl → r.ending = false → saved → alive → s.time.toNat < dl.toNat →
      ∃ t, exec (.saveDeadline i) s = .next t ∧ handsOver t 0 ∧ t.cores = s.cores) ∧
    (∀ dl, r.deadline = some dl → r.ending = false → ¬alive ∨ (¬saved ∧ s.time.toNat < dl.toNat) → exec (.saveDeadline i) s = .next s) ∧
    (∀ dl, r.deadline = some dl → r.ending = false → dl.toNat ≤ s.time.toNat → r.running < r.gangs.length → (∀ p ∈ out.parts, ∃ x, s.part p = some x ∧ x.killing = false) →
      ∃ t y, exec (.saveDeadline i) s = .next t ∧ t.rot i = some y ∧ (y.gang r.running).skip = true ∧ (y.gang r.running).misses = out.misses + 1 ∧
        y.running = r.running ∧
        (out.misses ≠ 2 → y.deadline = none ∧ (∀ p ∈ out.parts, ∃ x, t.part p = some x ∧ x.out = false ∧ x.killing = false) ∧
          ∀ g ∈ members, (s.core g).sched.run = .point → (t.core g).sched.run = .running ∧ (t.core g).sched.preempt = false) ∧
        (out.misses = 2 → y.deadline = some dl ∧ y.ending = true ∧ ∀ p ∈ out.parts, ∃ x, t.part p = some x ∧ x.out = true ∧ x.killing = true)) ∧
    ∀ dl, r.deadline = some dl → r.ending = true → (¬alive → exec (.saveDeadline i) s = .next s) ∧
      (alive → ∃ t, exec (.saveDeadline i) s = .next t ∧ handsOver t out.misses ∧ t.cores = s.cores)) ∧
  (∀ (s : State), ∃ t, exec .budgetPeriod s = .next t ∧ Leaves s t [] [] [.partitions] ∧ ∀ p, t.part p = (s.part p).map (fun x => { x with usage := [] })) ∧
  ∀ (s : State) (q : Nat) (c : QueueConf),
    let ok := q < 256 ∧ c.prio ≤ 7 ∧ 1 ≤ c.depth ∧ c.depth ≤ 256 ∧ c.cls ≤ 3 ∧ (c.sup = true → ∃ p x, c.owner = some p ∧ s.part p = some x ∧ x.supOk = true)
    (¬ok → ∃ t, exec (.queueConfiguration q c) s = .next t ∧ Leaves s t [] [] [.host] ∧ t.host.reply = .refused) ∧
    (ok → ∃ t, exec (.queueConfiguration q c) s = .next t ∧ Leaves s t [] [] [.host, .queues] ∧ t.host.reply = .accepted ∧
      ∀ j, t.queue j = if j = q then { s.queue q with owner := c.owner, prio := c.prio, depth := c.depth, cls := c.cls, sup := c.sup } else s.queue j) ∧
    ∀ (r : Nat) (k : RotConf),
      let parts := k.gangs.flatten ++ (match s.rot r with | some y => y.gangs.flatMap (fun g => g.parts) | none => [])
      let tick := if k.tick = 0 then 2000000 else k.tick
      ((∃ p ∈ parts, s.launches p ≠ []) → ∃ t, exec (.rotationConfiguration r k) s = .next t ∧ Leaves s t [] [] [.host] ∧ t.host.reply = .refused) ∧
      ((∀ p ∈ parts, s.launches p = []) → ∃ t, exec (.rotationConfiguration r k) s = .next t ∧ Leaves s t [] [] [.host, .partitions, .rotations] ∧
        t.host.reply = .accepted ∧ (∀ j, j ≠ r → t.rot j = s.rot j) ∧
        (let y : Rotation := { clusters := k.clusters, gangs := k.gangs.map (fun g => { parts := g }), tick := tick, next := s.time + BitVec.ofNat 64 tick }
         t.rot r = if k.gangs = [] then none else some y) ∧
        ∀ p x, p ∈ k.gangs.flatten → s.part p = some x → ∃ y, t.part p = some y ∧ y.out = !(k.gangs.headD []).contains p)

/-- CONTEXT_SAVE (R54, R115, R118, R267, R268): a caravan is saved whole once every member is ready, every table is well formed and every record is
written; its cores are then free, unless it wrote at the deadline or later, when it does not count as saved. What the model chose in saves and
restores is in logs 13, 25, 35 and 43. CARAVAN_RESTORE (R54, R118, R270): a saved caravan of a gang that runs receives fresh wagons, each to be
cleared; once they are clear, each member takes its state from its record, and what is not live reads zero. The context record (R269, Tables 15-5 and
15-6): which fields it has, at which offset, with how many bytes, of which value; nothing is written for a register or an accumulator that is not
live, or for a slot, an entry or a port that holds nothing. Writing it puts every field in its place and changes no other byte. The places that the
tables leave open are log 25. -/
def Obligations.SavesAndRestores : Prop :=
  (∀ (s : State) (n : Nat) (c : Caravan), s.caravan n = some c →
     let save := exec (.contextSave n) s
     let s1 := c.cores.foldl settlePoint s
     let gs := toSave s1 c
     (c.st ≠ .running → save = .next s) ∧
     (c.st = .running → (gs = [] ∨ ∃ g ∈ c.cores, memberReady s1 g = false) → save = .next s1) ∧
     (c.st = .running → gs ≠ [] → (∀ g ∈ c.cores, memberReady s1 g = true) →
       ((readLives s1 gs).2.2 = false → save = .next (readLives s1 gs).1) ∧
       ∀ u ls, readLives s1 gs = (u, ls, true) →
         (∀ v, writeRecords c ls u = .error v → save = .next v) ∧
         ∀ v, writeRecords c ls u = .ok v → c.cores.Nodup → ∃ t, save = .next t ∧ t.mem = v.mem ∧ (∀ g, g ∉ c.cores → t.core g = s.core g) ∧
           (∀ k, k ≠ n → t.caravan k = s.caravan k) ∧
           (lateNow v c.part = false → t.caravan n = some { c with st := .saved, saved := ls.filterMap (keptOf v) } ∧
             ∀ g, g ∈ gs → (t.core g).sched.run = .idle ∧ (t.core g).sched.task = none ∧ (t.core g).hitch = [] ∧ (t.core g).mail = {}) ∧
           (lateNow v c.part = true → t.caravan n = some { c with st := .late, saved := ls.filterMap (keptOf v) } ∧
             ∀ g, g ∈ gs → (t.core g).sched.run = .binding ∧ (t.core g).sched.task = (s.core g).sched.task ∧ (t.core g).hitch = []))) ∧
  (∀ (s : State) (n : Nat) (c : Caravan) (x : Partition), s.caravan n = some c → s.part c.part = some x →
     let restore := exec (.caravanRestore n) s
     let u := recordWalk s c
     let cl := clusterOf (c.cores.headD 0)
     let m := (c.kept.map (fun e => (slotsToFill u c.part e.1).length)).sum
     let stays := x.killing = true ∨ c.st = .starting ∨ c.st = .running ∨ (c.st = .saved ∧ x.out = true)
     (stays → restore = .next s) ∧
     (¬stays → recordsReadable u c = false → restore = .next u) ∧
     (¬stays → recordsReadable u c = true → c.st ≠ .restoring →
       (coresBack u c = false ∨ (u.cluster cl).freeCount < m ∨ poolRoom u 1 (fun q => (u.cluster cl).held q) c.part m = false → restore = .next u) ∧
       (coresBack u c = true → m ≤ (u.cluster cl).freeCount → poolRoom u 1 (fun q => (u.cluster cl).held q) c.part m = true → (c.kept.map (fun e => e.1)).Nodup →
         ∃ t, restore = .next t ∧ t.caravan n = some { c with st := .restoring } ∧ t.mem = u.mem ∧
           (∀ e ∈ c.kept, (t.core e.1).sched.run = .binding ∧ (t.core e.1).sched.task = some e.2.task ∧ (t.core e.1).mail = e.2.mail) ∧
           ∀ g, g ∉ c.cores → t.core g = u.core g)) ∧
     (¬stays → recordsReadable u c = true → c.st = .restoring → wagonsClear u c = false → restore = .next u) ∧
     (¬stays → recordsReadable u c = true → c.st = .restoring → wagonsClear u c = true → (c.kept.map (fun e => e.1)).Nodup →
       ∃ t y, restore = .next t ∧ t.caravan n = some y ∧ y.st = .running ∧ y.cores = c.cores ∧ y.saved = [] ∧
         y.vcc = BitVec.ofNat 64 (recordGet u c.part (c.cores.headD 0) 0x1040) ∧
         ∀ g k, (g, k) ∈ c.kept →
           let e := t.core g
           let get := recordGet u c.part g
           e.sched.run = .running ∧ e.mem.rcache = [] ∧ e.pc = BitVec.ofNat 64 (get 0) ∧ e.sup = (get 0x10).testBit 0 ∧ e.sched.triggered = (get 0x10).testBit 7 ∧
           (∀ i, e.getS i = if 1 ≤ i ∧ i < 64 ∧ k.live.s.getLsbD i = true then BitVec.ofNat 64 (get (0x140 + 8 * i)) else 0) ∧
           (∀ i, e.getV i = if i < 32 ∧ k.live.v.getLsbD i = true then BitVec.ofNat 4096 (recordWide u c.part g (0x12200 + 512 * i) 64) else 0) ∧
           (∀ i, i ≠ 0 → e.getK i = if i < 8 ∧ k.live.k.getLsbD i = true then BitVec.ofNat 512 (recordWide u c.part g (0x340 + 64 * i) 8) else 0) ∧
           ∀ i, i < 32 → ((e.slot i).st = slotState (get (0x740 + 16 * i)) ∧ (e.slot i).inb = false ∧ (e.slot i).etag = BitVec.ofNat 16 (get (0x740 + 16 * i) / 2 ^ 16)))) ∧
  ((∀ (s : State) (g : Nat) (l : Live) (c : Caravan), (s.core g).mail.inbox.length ≤ 64 → (s.core g).mail.rq.length ≤ 16 →
     let e := s.core g
     let fs := contextWords s g l c
     let has := fun (off n val : Nat) => (⟨off, n, val⟩ : RecField) ∈ fs
     let bare := fun (lo hi : Nat) => ∀ f ∈ fs, f.off + f.n ≤ lo ∨ hi ≤ f.off
     let csrs := [e.csr.rmode, e.csr.fflags, e.csr.srseed, e.csr.dzt, e.csr.tvec, e.csr.tcause, e.csr.tepc, e.csr.tval, e.csr.tword, e.csr.tstat, e.csr.tscr,
       e.csr.pwstat, e.csr.xstat, { s with cur := g }.scstat, e.csr.bwstat]
     has 0 8 e.pc.toNat ∧ has 8 8 (e.sched.lrt.getD 0).toNat ∧
     (∃ v, has 0x10 8 v ∧ v.testBit 0 = e.sup ∧ v.testBit 1 = true ∧ v.testBit 2 = e.sched.wantLease.contains 0 ∧ v.testBit 3 = e.sched.wantLease.contains 1 ∧
       v.testBit 7 = e.sched.triggered ∧ (∀ t, e.sched.task = some t → v / 2 ^ 8 % 2 ^ 8 = t.rank % 2 ^ 8) ∧ v / 2 ^ 16 % 2 ^ 8 = c.size % 2 ^ 8 ∧
       ∀ i, i < 16 → v.testBit (32 + i) = ((Sparse.get {} (s.cluster (clusterOf g)).mutexes (e.part * 16 + i)).holder == some g)) ∧
     (∀ i v, csrs[i]? = some v → has (0x40 + 8 * i) 8 v.toNat) ∧
     (∀ i, i < 8 → let w := Sparse.get {} e.wins i
       has (0xC0 + 16 * i) 8 w.base.toNat ∧ has (0xC8 + 16 * i) 8 (w.size.toNat + if w.bound = true then 2 ^ 32 else 0)) ∧
     (∀ i, i < 64 → if l.s.getLsbD i = true then has (0x140 + 8 * i) 8 (e.getS i).toNat else bare (0x140 + 8 * i) (0x148 + 8 * i)) ∧
     (∀ i j, i < 8 → j < 8 → if l.k.getLsbD i = true then has (0x340 + 64 * i + 8 * j) 8 (if i = 0 then 0 else (e.getK i).toNat / 2 ^ (64 * j) % 2 ^ 64)
       else bare (0x340 + 64 * i + 8 * j) (0x348 + 64 * i + 8 * j)) ∧
     (∀ i, i < 8 → let w := e.getW i
       let off := 0x540 + 64 * i
       has off 8 w.base.toNat ∧ has (off + 8) 8 (w.d0.cnt.toNat + w.d0.str.toNat * 2 ^ 32) ∧ has (off + 32) 8 (w.d3.cnt.toNat + w.d3.str.toNat * 2 ^ 32) ∧
       has (off + 40) 8 (w.d0.idx.toNat + w.d1.idx.toNat * 2 ^ 32) ∧ has (off + 48) 8 (w.d2.idx.toNat + w.d3.idx.toNat * 2 ^ 32) ∧ bare (off + 56) (off + 63) ∧
       ∃ v, has (off + 63) 1 v ∧ v.testBit 0 = w.d0.fin ∧ v.testBit 3 = w.d3.fin ∧ v.testBit 4 = w.bound) ∧
     (∀ i, i < 32 → let h := e.slot i
       let w := (s.cluster (clusterOf g)).wagon h.wagon
       let off := 0x740 + 16 * i
       has off 1 (h.st.code + if h.rvk = true then 16 else 0) ∧ has (off + 2) 2 h.etag.toNat ∧ bare (off + 10) (off + 16) ∧
       (h.st = .attached ∨ h.st = .arriving → has (off + 4) 4 w.livery.toNat ∧ has (off + 8) 2 w.tag.toNat) ∧
       (h.st ≠ .attached → h.st ≠ .arriving → bare (off + 4) (off + 16))) ∧
     (∀ i, i < 4 → (∀ j, j < 19 → has (0x940 + 192 * i + 8 * j) 8 ((e.chan i).sh j).toNat) ∧ has (0x9D8 + 192 * i) 2 (e.chan i).seq.toNat ∧
       bare (0x9DA + 192 * i) (0xA00 + 192 * i)) ∧
     (∀ i, i < 48 → has (0xCC0 + 8 * i) 8 (Sparse.get 0 e.obs i).toNat) ∧ (∀ i, i < 64 → has (0xE40 + 8 * i) 8 (Sparse.get 0 e.obs (64 + i)).toNat) ∧
     (∀ i m, e.mail.inbox[i]? = some m → has (0x1440 + 16 * i) 8 m.w0.toNat ∧ has (0x1448 + 16 * i) 8 m.w1.toNat) ∧
     (∀ i q j, e.mail.rq[i]? = some q → j < 8 → has (0x1840 + 64 * i + 8 * j) 8 (q.data.toNat / 2 ^ (64 * j) % 2 ^ 64)) ∧
     (∀ p, e.mail.port = some p → has 0x1E40 8 p.slot.toNat ∧ has 0x1E48 1 p.sender ∧ ∀ j, j < 64 → has (0x1C40 + 8 * j) 8 (p.data.toNat / 2 ^ (64 * j) % 2 ^ 64)) ∧
     (e.mail.port = none → bare 0x1C40 0x1E80) ∧
     (∀ i j, i < 32 → j < 64 → if l.v.getLsbD i = true then has (0x12200 + 512 * i + 8 * j) 8 ((e.getV i).toNat / 2 ^ (64 * j) % 2 ^ 64)
       else bare (0x12200 + 512 * i + 8 * j) (0x12208 + 512 * i + 8 * j)) ∧
     ∀ slot o k, l.ranges.head? = some (slot, o, k) → ∀ j, 8 * j + 8 ≤ k →
       has (0x16200 + 8 * j) 8 (s.bytes (locWagon (clusterOf g) (e.slot slot).wagon o + 8 * j) 8)) ∧
   ∀ (s : State) (p g base pa : Nat) (fs : List RecField),
     s.bad = [] → (∀ f ∈ fs, 1 ≤ f.n ∧ f.n ≤ 8 ∧ (base + f.off) / 2 ^ 56 = 0 ∧ pa + f.off + f.n ≤ 2 ^ 64 ∧ s.owns p (pa + f.off) = true) →
     fs.Pairwise (fun f h => f.off + f.n ≤ h.off ∨ h.off + h.n ≤ f.off) →
     (∀ f ∈ fs, ∀ m, ∃ x, translate { s with mem := m } (clusterOf g) p true .store (base + f.off) = .ok ({ s with mem := m }, x) ∧ x.region = 0 ∧ x.pa = pa + f.off) →
     ∃ u, writeRecord p g base fs s = .ok u ∧ (∀ f ∈ fs, BytesAre u (locHbm (pa + f.off)) f.n (f.val % 2 ^ (8 * f.n))) ∧
       ∀ loc, (∀ f ∈ fs, loc < pa + f.off ∨ pa + f.off + f.n ≤ loc) → inBitmap s loc = false → u.byte loc = s.byte loc)

/-! ### Driver and interface -/

/-- A kill (R271, R208): it stops the partition's cores, ends its transfers and commands wherever they are and marks its launches; once no write and
no transfer of it is left, KILL_QUIESCENCE frees its wagons, tables and queues, removes its caravans and gives its frames to the scrub queue. A
partition has the tag of its PSET (log 66); logs 36 and 43 say what else the model chose. Driver commands as they arrive and start (R273, R276, R277,
R28, R30, R102, R279, R282): a misaligned CADDR is refused; a command waits behind others of its partition; a locked interface gives status 3, a
partition above 63 status 1; else each has its effect and status. A partition goes by the tag of its PSET, before it by its number (log 66); logs 36
and 43 say what else the model chose. -/
def Obligations.DriverCommands : Prop :=
  (∀ (s : State) (p : Nat) (x : Partition), s.part p = some x →
     let gs := coresOf s p
     (∀ (q : Nat), q < 64 → s.tagOf q = p → s.host.tdisp = .unlocked ∨ s.host.tdisp = .run → (∀ c ∈ s.host.cmds, cmdPart c.pkt ≠ q) →
       let cmd : BitVec 512 := BitVec.ofNat 512 (4 + q * 2 ^ 8)
       ∃ t, exec (.kill cmd) s = .next t ∧
       (∃ y, t.part p = some y ∧ y.killing = true) ∧ t.mem = s.mem ∧ t.host.cmds = s.host.cmds ++ [{ pkt := cmd, started := true }] ∧ t.host.reply = .accepted ∧
       (∀ g ∈ gs, (t.core g).sched.run = .finished ∧ (t.core g).mem.late = [] ∧ (t.core g).mem.wbuf = (s.core g).mem.wbuf) ∧
       (∀ g, ∀ y ∈ (t.core g).xfers, y.part ≠ p) ∧ (∀ g, g ∉ gs → { t.core g with chans := [] } = { s.core g with chans := [] }) ∧
       ∀ k d, s.disp k = some d → d.pkt.part = p → ∃ y, t.disp k = some y ∧ y.killed = true ∧ y.picks = []) ∧
     (x.killing = false → exec (.killQuiescence p) s = .next s) ∧
     ((∃ g, (∃ w ∈ (s.core g).mem.wbuf, w.part = p) ∨ ∃ y ∈ (s.core g).xfers, y.part = p) → exec (.killQuiescence p) s = .next s) ∧
     (x.killing = true → (∀ e ∈ s.cores, (∀ w ∈ e.2.mem.wbuf, w.part ≠ p) ∧ ∀ y ∈ e.2.xfers, y.part ≠ p) → ∃ t, exec (.killQuiescence p) s = .next t ∧
       (∃ y, t.part p = some y ∧ y.killing = false) ∧
       (∀ g ∈ gs, (t.core g).hitch = [] ∧ (t.core g).sched = {} ∧ (t.core g).mail.rq = [] ∧ (t.core g).mail.port = none) ∧
       (∀ n c, t.caravan n = some c → c.part ≠ p) ∧ (∀ f, t.ownerOfFrame f ≠ some p) ∧
       ∀ f, s.ownerOfFrame f = some p → f ∉ s.frames.retired → inRuns t.frames.scrub f = true)) ∧
  (∀ (s : State) (k : BitVec 512),
     let q := cmdPart k
     let p := s.tagOf q
     let only := fun (i : Instr) (ds : List DevPart) (st : Nat) => ∃ t, exec i s = .next t ∧ Leaves s t [] [] ds ∧ Starts s t k st []
     (∀ op i, DriverForm op k i → cmdOp k = op →
       (cmdAddr k % 16 ≠ 0 → ∃ t, exec i s = .next t ∧ Leaves s t [] [] [.host] ∧ t.host = { s.host with reply := .retry }) ∧
       (cmdAddr k % 16 = 0 → (∃ c ∈ s.host.cmds, cmdPart c.pkt = q) → ∃ t, exec i s = .next t ∧ Leaves s t [] [] [.host] ∧
         t.host = { s.host with cmds := s.host.cmds ++ [{ pkt := k }], reply := .accepted }) ∧
       (cmdAddr k % 16 = 0 → (∀ c ∈ s.host.cmds, cmdPart c.pkt ≠ q) → s.host.tdisp = .locked ∨ s.host.tdisp = .error → only i [.host] 3) ∧
       (cmdAddr k % 16 = 0 → (∀ c ∈ s.host.cmds, cmdPart c.pkt ≠ q) → s.host.tdisp = .unlocked ∨ s.host.tdisp = .run → 64 ≤ q → only i [.host] 1)) ∧
     (runsNow s k →
       (cmdOp k = 1 →
         (s.host.featSet ≠ 3 ∨ s.launches p ≠ [] → only (.pset k) [.host] 2) ∧
         (s.host.featSet = 3 → s.launches p = [] → describe s (pktField k 64 64) q = none → only (.pset k) [.host] 1) ∧
         ∀ tag x, s.host.featSet = 3 → s.launches p = [] → describe s (pktField k 64 64) q = some (tag, x) → ∃ t, exec (.pset k) s = .next t ∧
           Leaves s t [] [] [.host, .partitions, .frames] ∧ Starts s t k 0 [] ∧ t.host.firstPset = true ∧
           (∀ j, t.part j = if j = tag then some x else if j = p ∧ p < 64 then none else s.part j) ∧ t.frames = { s.frames with owner := t.frames.owner } ∧
           ∀ f, t.ownerOfFrame f = if s.ownerOfFrame f = some p then some tag else s.ownerOfFrame f) ∧
       (cmdOp k = 2 → ∀ x, s.part p = some x → ∃ t, exec (.pclr k) s = .next t ∧ Starts s t k 0 [] ∧ (∃ y, t.part p = some y ∧ y.killing = true) ∧
         ∀ g ∈ coresOf s p, (t.core g).sched.run = .finished) ∧
       (cmdOp k = 3 → ∃ t, exec (.inval k) s = .next t ∧ Leaves s t [] [] [.host, .clusters, .walkCaches] ∧
         t.host = { s.host with cmds := s.host.cmds ++ [{ pkt := k, started := true, status := 0, wait := outstanding s p, readers := reading s p }], reply := .accepted } ∧
         let meets := fun (lo n : Nat) => pktField k 128 64 = 0 ∨ (lo < pktField k 64 64 + pktField k 128 64 ∧ pktField k 64 64 < lo + n)
         (∀ c, { t.cluster c with tlb := [] } = { s.cluster c with tlb := [] } ∧
           ∀ e, e ∈ (t.cluster c).tlb ↔ e ∈ (s.cluster c).tlb ∧ ¬(e.part = p ∧ meets e.base e.size)) ∧
         ∀ d e, e ∈ Sparse.get [] t.walks d ↔ e ∈ Sparse.get [] s.walks d ∧
           ¬(e.part = p ∧ meets (e.upper * 2 ^ (16 + 10 * e.level)) (2 ^ (16 + 10 * e.level)))) ∧
       (cmdOp k = 5 → let g := pktField k 16 10
         ∃ t, exec (.pfans k) s = .next t ∧ Leaves s t [g] [.channels] [.host] ∧ Starts s t k 0 [] ∧
           ChanIs s t g (pktField k 26 2) { (s.core g).chan (pktField k 26 2) with xfers := ((s.core g).chan (pktField k 26 2)).xfers.map (fun x =>
             if x.st = .stopped ∧ x.part = p ∧ x.id = pktField k 32 32 then
               (if pktField k 64 1 = 0 then { x with st := .running } else { x with st := .ended, status := 4, faddr := 0 }) else x) }) ∧
       (cmdOp k = 6 → (s.feature 7 = false → only (.dbswap k) [.host] 2) ∧
         (s.feature 7 = true → ∃ t, exec (.dbswap k) s = .next t ∧ Leaves s t [] [] [.host] ∧ Starts s t k 0 [] ∧ t.host.bar0 = { s.host.bar0 with dbSel := !s.host.bar0.dbSel })) ∧
       (cmdOp k = 7 → let n := pktField k 16 4
         (6 < n → only (.setw k) [.host] 1) ∧ (n ≤ 6 → s.dispatching = true → only (.setw k) [.host] 2) ∧
         (n ≤ 6 → s.dispatching = false → ∃ t, exec (.setw k) s = .next t ∧ Leaves s t [] [] [.host, .other] ∧ Starts s t k 0 [] ∧ t.w = 10 + n ∧ t.routes = s.routes ∧ t.rr = s.rr)) ∧
       (cmdOp k = 8 → let a := pktField k 64 64
         let n := pktField k 128 32
         (a % 65536 ≠ 0 ∨ 8789062 < a / 65536 + n → only (.free k) [.host] 1) ∧
         (a % 65536 = 0 → a / 65536 + n ≤ 8789062 → ∃ t, exec (.free k) s = .next t ∧ Leaves s t [] [] [.host, .frames] ∧ Starts s t k 0 [] ∧
           ∀ f, t.ownerOfFrame f = (if a / 65536 ≤ f ∧ f < a / 65536 + n ∧ s.ownerOfFrame f = some p then none else s.ownerOfFrame f) ∧
             (a / 65536 ≤ f → f < a / 65536 + n → s.ownerOfFrame f = some p → f ∉ s.frames.retired → inRuns t.frames.scrub f = true))) ∧
       (cmdOp k = 9 → only (.alloc k) [.host] 0)))

/-- DRIVER_COMMAND_COMPLETE (R273, R279): the oldest command of its partition that may finish writes its completion word and leaves; PCLR removes the
partition, ALLOC gives the lowest clean frames. FRAME_SCRUB zeroes the next queued frame, FAULT_QUEUE_WRITE writes the oldest held record into the
ring while it has room (R274, R279, R282). Logs 36 and 37 say what the model chose. -/
def Obligations.DriverSteps : Prop :=
  (∀ (s : State) (i : Nat) (c : DrvCmd), s.host.cmds[i]? = some c →
    let p := s.tagOf (cmdPart c.pkt)
    let a := locHost (cmdAddr c.pkt)
    let n := pktField c.pkt 128 32
    let list := locHost (pktField c.pkt 64 64)
    let quits := fun (t : State) => t.host = { s.host with cmds := s.host.cmds.eraseIdx i } ∧ BytesAre t a 8 c.status
    (oldest s i = false → exec (.driverCommandComplete i) s = .next s) ∧
    (oldest s i = true → c.started = true → cmdReady s c = false → exec (.driverCommandComplete i) s = .next s) ∧
    (oldest s i = true → c.started = true → cmdReady s c = true →
      ((c.status ≠ 0 ∨ cmdOp c.pkt ∉ [2, 9]) → ∃ t, exec (.driverCommandComplete i) s = .next t ∧ quits t ∧ OnlyBytes s t a 8 ∧ Leaves s t [] [] [.host, .memory]) ∧
      (c.status = 0 → cmdOp c.pkt = 2 → ∃ t, exec (.driverCommandComplete i) s = .next t ∧ quits t ∧ Leaves s t [] [] [.host, .memory, .partitions] ∧
        ∀ j, t.part j = if j = p then none else s.part j) ∧
      (c.status = 0 → cmdOp c.pkt = 9 → let fs := takeFrames n s.frames.clean
        ∃ t, exec (.driverCommandComplete i) s = .next t ∧ quits t ∧ Leaves s t [] [] [.host, .memory, .frames] ∧
          (∀ f, t.ownerOfFrame f = if f ∈ fs then some p else s.ownerOfFrame f) ∧
          (cmdAddr c.pkt + 8 ≤ pktField c.pkt 64 64 → ∀ j f, fs[j]? = some f → BytesAre t (list + 8 * j) 8 (f * 65536))))) ∧
  (∀ (s : State), (s.frames.scrub = [] → exec .frameScrub s = .next s) ∧
    ∀ f n l, s.frames.scrub = (f, n + 1) :: l → (∀ r ∈ l, f < r.1 ∨ r.1 + r.2 ≤ f) → Memory.wf s.mem = true → ∃ t, exec .frameScrub s = .next t ∧
      Leaves s t [] [] [.memory, .errors, .frames] ∧ (∀ j, f * 65536 ≤ j → j < (f + 1) * 65536 → inBitmap s j = false → t.byte j = 0) ∧
      (∀ j, j < f * 65536 ∨ (f + 1) * 65536 ≤ j → inBitmap s j = false → t.byte j = s.byte j) ∧ inRuns t.frames.scrub f = false ∧
      t.frames.owner = s.frames.owner ∧ t.frames.retired = s.frames.retired) ∧
  ∀ (s : State) (r : FRec) (l : List FRec), s.host.held = r :: l →
    let b := s.host.bar0
    let a := locHost (b.fqBase.toNat + b.fqTail.toNat % b.fqSize.toNat * 32)
    (b.fqSize = 0 ∨ b.fqTail - b.fqHead = b.fqSize → exec .faultQueueWrite s = .next s) ∧
    (b.fqSize ≠ 0 → b.fqTail - b.fqHead ≠ b.fqSize → ∃ t, exec .faultQueueWrite s = .next t ∧ Leaves s t [] [] [.memory, .host] ∧ OnlyBytes s t a 32 ∧
      t.host = { s.host with held := l, bar0 := { b with fqTail := b.fqTail + 1 } } ∧
      BytesAre t a 8 r.w0.toNat ∧ BytesAre t (a + 8) 8 r.w1.toNat ∧ BytesAre t (a + 16) 16 0)

/-- Registers, features and the interface (R272, R275, R276, Table 16-4): writes of frozen registers are performed while unlocked, enter ERROR from
LOCKED and RUN, and are ignored in ERROR; a feature bit that is not offered stays 0; a read gives the register, or zero where there is none; the three
requests move the interface or are answered with an error; ERROR kills every partition. The numbers of the registers outside BAR 0 are log 26; logs 37
and 38 say what else the model chose. -/
def Obligations.Interface : Prop :=
  ∀ (s : State),
    let h := s.host
    let b := h.bar0
    let errs := fun (i : Instr) => ∃ t, exec i s = .next t ∧ t.host.tdisp = .error ∧ t.host.bar0 = b ∧ t.host.frozen = h.frozen ∧ t.mem = s.mem ∧
      ∀ p x, s.part p = some x → ∃ y, t.part p = some y ∧ y.killing = true
    let host := fun (i : Instr) (x : HostSide) => ∃ t, exec i s = .next t ∧ Leaves s t [] [] [.host] ∧ t.host = x
    let reads := fun (off : Nat) (v : Word) => ∀ q, step { s with schedule := .hostRead off :: q } = .next { s with schedule := q, host := { h with reply := .data v } }
    let frozen := fun (i : Instr) (x : HostSide) => (h.tdisp = .unlocked → host i x) ∧ (h.tdisp = .locked ∨ h.tdisp = .run → errs i) ∧ (h.tdisp = .error → host i h)
    (∀ (v : Word), frozen (.registerWrite 0x20 v) { h with bar0 := { b with fqBase := v } } ∧ frozen (.registerWrite 0x28 v) { h with bar0 := { b with fqSize := v } } ∧
      frozen (.registerWrite 0x58 v) { h with bar0 := { b with dbBase0 := v } } ∧ frozen (.registerWrite 0x60 v) { h with bar0 := { b with dbBase1 := v } } ∧
      host (.registerWrite 0x30 v) { h with bar0 := { b with fqHead := v } } ∧
      (∀ i ∈ [Instr.registerWrite 0x10 v, .feataccWrite 0 v],
        frozen i (if h.firstPset = true then h else { h with bar0 := { b with featAcc0 := v &&& Config.featOff0 }, featSet := h.featSet ||| 1 })) ∧
      (∀ i ∈ [Instr.registerWrite 0x18 v, .feataccWrite 1 v],
        frozen i (if h.firstPset = true then h else { h with bar0 := { b with featAcc1 := v &&& Config.featOff1 }, featSet := h.featSet ||| 2 })) ∧
      (∀ i, i < 6 → frozen (.registerWrite (0x10000 + i) v) { h with frozen := Sparse.set 0 h.frozen i v, ide := if i = 5 then v.getLsbD 0 else h.ide }) ∧
      (∀ n, 0x30000 ≤ n → host (.registerWrite n v) { h with reply := .unsupported }) ∧
      ∀ n, n ∉ [0x10, 0x18, 0x20, 0x28, 0x30, 0x58, 0x60] → n < 0x10000 → host (.registerWrite n v) h) ∧
    (reads 0x00 Config.featOff0 ∧ reads 0x08 Config.featOff1 ∧ reads 0x10 b.featAcc0 ∧ reads 0x18 b.featAcc1 ∧ reads 0x20 b.fqBase ∧ reads 0x28 b.fqSize ∧
      reads 0x30 b.fqHead ∧ reads 0x38 b.fqTail ∧ reads 0x40 (BitVec.ofNat 64 (s.frames.clean.map (fun r => r.2)).sum) ∧ reads 0x50 (b.eoldays.setWidth 64) ∧
      reads 0x58 b.dbBase0 ∧ reads 0x60 b.dbBase1 ∧ reads 0x68 (if b.dbSel = true then 1 else 0) ∧ reads 0x70 (BitVec.ofNat 64 s.frames.retired.length) ∧
      (∀ i, i < 4 → reads (0x80 + 8 * i) (Sparse.get 0 b.age i)) ∧ (∀ i, i < 12 → reads (0xA0 + 8 * i) (Sparse.get 0 b.cecnt i)) ∧
      (∀ i, i < 28 → reads (0x100 + 8 * i) (Sparse.get 0 b.lretry i)) ∧ (∀ i, i < 256 → reads (0x1000 + 8 * i) (BitVec.ofNat 64 ((s.queue i).qstat % 256))) ∧
      ∀ n, n % 8 ≠ 0 ∨ n = 0x78 ∨ (0x1E0 ≤ n ∧ n < 0x1000) ∨ 0x1800 ≤ n → reads n 0) ∧
    host .lockInterface (if h.tdisp = .unlocked then { h with tdisp := .locked, reply := .accepted } else { h with reply := .errorResponse }) ∧
    host .startInterface (if h.tdisp = .locked then { h with tdisp := .run, reply := .accepted } else { h with reply := .errorResponse }) ∧
    (h.tdisp = .unlocked → host .stopInterface { h with reply := .accepted }) ∧
    (h.tdisp = .locked → host .stopInterface { h with tdisp := .unlocked, stopping := false, reply := .accepted }) ∧
    (h.tdisp = .run → h.stopping = false → ∃ t, exec .stopInterface s = .next t ∧ t.host = { h with stopping := true } ∧
      ∀ p x, s.part p = some x → ∃ y, t.part p = some y ∧ y.killing = true) ∧
    (h.tdisp = .run → h.stopping = true → if noKill s = true then host .stopInterface { h with tdisp := .unlocked, stopping := false, reply := .accepted }
      else exec .stopInterface s = .next s) ∧
    (h.tdisp = .error → host .stopInterface (if noKill s = true ∧ s.frames.scrub = [] then { h with tdisp := .unlocked, stopping := false, reply := .accepted }
      else { h with stopping := true })) ∧
    (h.tdisp = .locked ∨ h.tdisp = .run → errs .ideIntegrityFailure) ∧ (h.tdisp = .error → exec .ideIntegrityFailure s = .next s) ∧
    (h.tdisp = .unlocked → ∃ t r, exec .ideIntegrityFailure s = .next t ∧ Leaves s t [] [] [.host, .model] ∧ t.host = { h with held := h.held ++ [r] })

/-- Events of the device (R264, R266, R281, R283, R315): the timebase, failed routes, limits, the wear figure, the background scrubber, each with its
fault record. The numbers of the routes are Table 16-1's; logs 17, 34, 40 and 42 say what the model chose, log 67 the slew. DEVICE_RESET (R32, R139,
R272, R276, R279, R315): every core, queue, partition and register is as after reset, the wagons read zero, HBM and the memory outside keep their
bytes, and every frame but the retired ones is to be scrubbed. A period of the core clock (R102, R112, R131, R247, R249, R315): CYCLE counts it and
TIME takes its ticks, slewed by at most 100 parts per million towards the domain's time (log 67) and never backwards, unless a write is due by then;
the VCC of a running caravan advances, but for a throttled cluster or a member held at this slot; a message placed in a port in this period is there
from the next on. Logs 5 and 42 say what the model chose. -/
def Obligations.DeviceEvents : Prop :=
  (∀ (s : State),
     let h := s.host
     let rec_ := fun (type a : Nat) => ({ w0 := BitVec.ofNat 64 type, w1 := BitVec.ofNat 64 a } : FRec)
     (∀ d n, (s.feature 6 = false → exec (.timebaseLock d n) s = .next s) ∧
       (s.feature 6 = true → ∃ t, exec (.timebaseLock d n) s = .next t ∧ Leaves s t [] [] [.host, .clocks] ∧ t.host.bar0.tsync = true ∧ t.host.bar0.domain = d % 256 ∧
         t.host.everLocked = true ∧ t.cycle = s.cycle ∧
         (h.everLocked = false ∧ s.dispatching = false → t.time = BitVec.ofNat 64 n ∧ t.host.slew = 0) ∧
         (h.everLocked = true ∨ s.dispatching = true → t.time = s.time ∧ t.host.slew = ((n % 2 ^ 64 : Nat) : Int) - (s.time.toNat : Int)))) ∧
     ((h.bar0.tsync = false → exec .timebaseLockLost s = .next s) ∧ (h.bar0.tsync = true → ∃ t, exec .timebaseLockLost s = .next t ∧ Leaves s t [] [] [.host] ∧
       t.host = { h with bar0 := { h.bar0 with tsync := false }, slew := 0, credit := 0, held := h.held ++ [rec_ 7 0] })) ∧
     (∀ r, (r ∈ s.routes ∨ 28 ≤ r → exec (.routeFailed r) s = .next s) ∧ (r ∉ s.routes → r < 28 → ∃ t, exec (.routeFailed r) s = .next t ∧ Leaves s t [] [] [.host, .other] ∧
       t.routes = s.routes ++ [r] ∧ t.rr = s.rr ∧ t.w = s.w ∧ t.refuses = s.refuses ∧ t.host = { h with held := h.held ++ [rec_ 5 (if r < 4 then r else r - 4)] })) ∧
     (∃ t, exec .thermalLimit s = .next t ∧ Leaves s t [] [] [.host] ∧ t.host = { h with thermal := true, held := h.held ++ [rec_ 6 0] }) ∧
     (∀ d, ∃ t, exec (.eoldaysUpdate d) s = .next t ∧ Leaves s t [] [] [.host] ∧
       t.host = { h with hours := h.hours + 1, bar0 := { h.bar0 with eoldays := if h.hours + 1 < 24 then 0xFFFFFFFF else d } }) ∧
     ∀ loc, (Sparse.get false s.bad (granuleOf loc) = false → exec (.backgroundScrubber loc) s = .next s) ∧
       (Sparse.get false s.bad (granuleOf loc) = true → loc < 2 ^ 64 → loc / 65536 < 8789062 → loc / 65536 ∉ s.frames.retired →
         ∃ t, exec (.backgroundScrubber loc) s = .next t ∧ Leaves s t [] [] [.host, .frames] ∧ t.frames.retired = s.frames.retired ++ [loc / 65536] ∧
           (∀ f, inRuns t.frames.clean f = (inRuns s.frames.clean f && f != loc / 65536)) ∧ (∀ f, inRuns t.frames.scrub f = (inRuns s.frames.scrub f && f != loc / 65536)) ∧
           t.frames.owner = s.frames.owner ∧ ∃ w, t.host = { h with held := h.held ++ [⟨w, BitVec.ofNat 64 (loc / 65536 * 65536)⟩] } ∧ w.toNat % 256 = 2) ∧
       (Sparse.get false s.bad (granuleOf loc) = true → 2 ^ 64 ≤ loc → loc < 2 * 2 ^ 64 →
         let c := (loc - 2 ^ 64) / 2 ^ 25
         let n := (loc - 2 ^ 64) / 2 ^ 18 % 128
         ((s.cluster c).wagon n).retired = false → ∃ t w, exec (.backgroundScrubber loc) s = .next t ∧ Leaves s t [] [] [.host, .clusters] ∧
           WagonIs s t c n { (s.cluster c).wagon n with retired := true } ∧ t.host = { h with held := h.held ++ [⟨w, BitVec.ofNat 64 (loc - 2 ^ 64)⟩] } ∧ w.toNat % 256 = 4)) ∧
  (∀ (s : State), ∃ t, exec .deviceReset s = .next t ∧ t.cores = [] ∧ t.caravans = [] ∧ t.disps = [] ∧ t.clusters = [] ∧ t.queues = [] ∧ t.parts = [] ∧ t.rots = [] ∧
     t.cycle = 0 ∧ t.time = 0 ∧ t.w = 12 ∧ t.routes = [] ∧ t.rr = [] ∧ t.host = { State.reset.host with hours := s.host.hours } ∧ t.schedule = s.schedule ∧
     t.frames.retired = s.frames.retired ∧ t.frames.owner = [] ∧ t.frames.clean = [] ∧
     (∀ f, inRuns t.frames.scrub f = (decide (f < 8789062) && !s.frames.retired.contains f)) ∧
     (Memory.wf s.mem = true → ∀ j, t.byte j = if (2 ^ 64 ≤ j ∧ j < 2 * 2 ^ 64) ∨ (8789062 * 65536 ≤ j ∧ j < 576000000000) then 0 else s.byte j)) ∧
  (∀ (s : State) (n : Nat) (q : List Turn),
     let s1 := { s with schedule := .clock n :: q }
     let u := ticksDone { s with schedule := q }
     let m := min ((s.host.credit + n) / 10000) s.host.slew.natAbs
     let time := (((s.time.toNat + n : Nat) : Int) + if s.host.slew < 0 then -(m : Int) else (m : Int)).toNat
     (mayPass u time = false → step s1 = .next u) ∧
     (mayPass u time = true → s.time.toNat ≤ time ∧ time < 2 ^ 64) ∧
     (mayPass u time = true → ∃ t, step s1 = .next t ∧ t.cycle = s.cycle + 1 ∧ t.time = BitVec.ofNat 64 time ∧
       (∀ g, t.core g = { s.core g with mail := { (s.core g).mail with port := (s.core g).mail.port.map (fun p => { p with fresh := false }), emptied := false } }) ∧
       (∀ p, p ∉ [DevPart.clocks, .caravans, .host] → u.same t p) ∧ t.host = { s.host with slew := t.host.slew, credit := t.host.credit } ∧
       t.host.slew.natAbs = s.host.slew.natAbs - m ∧
       ∀ k, (s.caravan k = none → t.caravan k = none) ∧ ∀ c, s.caravan k = some c →
         let moves := c.st = .running ∧ (s.cluster (clusterOf (c.cores.headD 0))).throttled = false ∧ ∀ g ∈ c.cores, (s.core g).pauses c.vcc = false
         (moves → t.caravan k = some { c with vcc := c.vcc + 1 }) ∧ (¬moves → t.caravan k = some c)))

/-- CXL.mem and peers (R2, R25, R103, R278, R282): the host reaches every frame except outside an IDE stream in use and in ERROR; a peer reaches what
its pairing allows, with feature 2 alone, and a flag of it waits for the chunks that it covers. A read of the host that meets an error and the
privilege of a peer's walk are logs 4 and 39, its cluster log 60: the model's choices. -/
def Obligations.OutsideRequests : Prop :=
  ∀ (s : State),
    let h := s.host
    let answers := fun (i : Instr) (r : Reply) => ∃ t, exec i s = .next t ∧ Leaves s t [] [] [.host] ∧ t.host = { h with reply := r }
    (∀ (r : CxlReq),
      let no := h.tdisp = .error ∨ (h.ide = true ∧ r.ide = false) ∨ r.pa % 8 ≠ 0 ∨ 576000000000 < r.pa + 8
      (no → answers (.hostCxlMemAccess r) .unsupported) ∧
      (¬no → r.write = false → s.hasBad r.pa 8 = false → answers (.hostCxlMemAccess r) (.data (BitVec.ofNat 64 (s.bytes r.pa 8)))) ∧
      (¬no → r.write = false → s.hasBad r.pa 8 = true → ∃ t v, exec (.hostCxlMemAccess r) s = .next t ∧ Leaves s t [] [] [.host, .model] ∧ t.host = { h with reply := .data v }) ∧
      (¬no → r.write = true → s.bad = [] → ∃ t, exec (.hostCxlMemAccess r) s = .next t ∧ Leaves s t [] [] [.host, .memory] ∧ t.host = { h with reply := .accepted } ∧
        BytesAre t r.pa 8 r.val.toNat ∧ OnlyBytes s t r.pa 8)) ∧
    (∀ (r : PeerReq),
      let now := r.write = false ∨ flagReady s r = true
      (now → s.feature 2 = false ∨ r.addr % 8 ≠ 0 ∨ (r.wagon = false ∧ (paired s r.part r.port r.remote = false ∨ 2 ^ 56 ≤ r.addr)) ∨
        (r.wagon = true ∧ ∀ p, attachedTo s (r.addr / 2 ^ 25) (r.addr / 2 ^ 18 % 128) = some p → paired s p r.port r.remote = false) → h.flags = [] →
        answers (.peerRequest r) .refused) ∧
      (∀ u, peerPlace s r = .error u → r.write = false → exec (.peerRequest r) s = .next { u with host := { u.host with reply := .refused } }) ∧
      (flagReady s r = false → r.write = true → answers (.peerRequest r) .accepted ∨
        ∃ t, exec (.peerRequest r) s = .next t ∧ Leaves s t [] [] [.host] ∧ t.host = { h with flags := h.flags ++ [r], reply := .accepted }) ∧
      (flagReady s r = true ↔ ∀ x ns, r.flag = some (x, ns) → ∀ c n, ns[c]? = some n → n ≤ arrivedOf s r x c) ∧
      ∀ u loc p, peerPlace s r = .ok (u, loc, p) → u.bad = [] →
        (r.write = false → ∃ t, exec (.peerRequest r) s = .next t ∧ Leaves u t [] [] [.host] ∧ t.host = { u.host with reply := .data (BitVec.ofNat 64 (u.bytes loc 8)) }) ∧
        (r.write = true → flagReady s r = true → h.flags = [] → ∃ t, exec (.peerRequest r) s = .next t ∧ Leaves u t [] [] [.host, .memory] ∧ t.host.reply = .accepted ∧
          BytesAre t loc 8 r.val.toNat ∧ OnlyBytes u t loc 8 ∧ ∀ x c, r.chunk = some (x, c) → arrivedOf t r x c = arrivedOf s r x c + 8)) ∧
    (∀ p g r, let x := s.part p
      ∃ t, exec (.peerKillReport p g r) s = .next t ∧ Leaves s t [] [] [.partitions] ∧ (∀ j, j ≠ p → t.part j = s.part j) ∧
        ∀ y z, x = some y → Sparse.get none y.groups g = some z → ∃ u v, t.part p = some u ∧ Sparse.get none u.groups g = some v ∧ r ∈ v.lost ∧ v.members = z.members)

/-- The limits of the management controller's firmware (R280): IDE only while unlocked, power and clock clamped, host memory only through the windows
that the driver sets, which it cannot move, frames without an owner and the fault queue alone to read, no write of a frame's owner. The forms of its
requests are logs 26 and 41, the model's choices. -/
def Obligations.ManagementLimits : Prop :=
  ∀ (s : State),
    let h := s.host
    let run := fun (r : MgmtReq) (x : HostSide) => ∃ t, exec (.managementControllerRequest r) s = .next t ∧ Leaves s t [] [] [.host] ∧ t.host = x
    let drops := fun (r : MgmtReq) => run r { h with reply := .refused }
    (h.tdisp = .unlocked → run .clearIde { h with ide := false, reply := .accepted }) ∧ (h.tdisp ≠ .unlocked → drops .clearIde) ∧
    (h.tdisp = .unlocked → run .rekeyIde { h with reply := .accepted }) ∧ (h.tdisp ≠ .unlocked → drops .rekeyIde) ∧
    (∀ n, run (.setPower n) { h with power := min n 2700, reply := .accepted }) ∧ (∀ n, run (.setClock n) { h with clock := min n 1200, reply := .accepted }) ∧
    (∀ a v, (∀ e ∈ h.dma, ¬(e.2 ≤ a ∧ a < e.2 + 4096)) → drops (.writeHost a v)) ∧
    (∀ a v, (∃ e ∈ h.dma, e.2 ≤ a ∧ a < e.2 + 4096) → ∃ t, exec (.managementControllerRequest (.writeHost a v)) s = .next t ∧
      Leaves s t [] [] [.host, .memory] ∧ t.host = { h with reply := .accepted } ∧ ∀ j, t.byte j = if j = locHost a then v else s.byte j) ∧
    (∀ a, (∀ e ∈ h.dma, ¬(e.2 ≤ a ∧ a < e.2 + 4096)) → drops (.readHost a)) ∧
    (∀ a, (∃ e ∈ h.dma, e.2 ≤ a ∧ a < e.2 + 4096) → run (.readHost a) { h with reply := .data ((s.byte (locHost a)).setWidth 64) }) ∧
    (∀ a, a % 8 ≠ 0 → drops (.readFrame a)) ∧
    (∀ a, a % 8 = 0 → run (.readFrame a)
      { h with reply := .data (if a / 65536 < 8789062 ∧ s.ownerOfFrame (a / 65536) = none then BitVec.ofNat 64 (s.bytes a 8) else 0) }) ∧
    (∀ i f, h.held[i]? = some f → run (.readFaultQueue i) { h with reply := .data f.w0 }) ∧ ∀ f, drops (.writeFrameOwner f)

/-! ### The machine -/

/-- Four bytes in what a core's fetches see, at the location of its program counter, that decode to an instruction: a step of that core is the
instruction's, whatever mode admits its reserved fields, once no late read that it names is pending and no register that it reads holds an error (R84,
R87, R143, R147, R264). With an empty schedule the issuing core steps, else the turn's core; an event's step is its own, and a core that makes no step
leaves the state (logs 1 and 51). -/
def Obligations.StepRunsDecoded : Prop :=
  (∀ (s s1 : State) (loc : Nat) (i : Instr) (nz late : Bool),
    let c := s.me
    let b := fun (k : Nat) => Sparse.get 0 c.mem.imem (loc + k)
    let w := BitVec.ofNat 32 (Decode.leWord (b 0) (b 1) (b 2) (b 3))
    let u := { s1 with word := w, late := late }
    c.sched.run = .running → c.sched.wantLease = [] → c.asyncTrap = none → (∀ x y z, c.sched.hold ≠ .timed x y z) → fetchPlace s = .ok (s1, loc) →
    Decode.bytes [b 0, b 1, b 2, b 3] = .ok (⟨i, nz⟩, []) → (nz = true → u.strict = false) → u.me.busy i = false → u.me.upsetRead i = false →
    let stamp := (u.me.reads i).foldl (fun m k => max m (u.me.stamp k)) 0
    let v := u.setCore s1.cur { s1.me with mem := { s1.me.mem with now := stamp } }
    (s.schedule = [] → late = false → step s = exec i v) ∧
      (s.cur < 768 → step { s with schedule := .core s.cur late :: s.schedule } = exec i v)) ∧
  (∀ (s : State) (i : Instr) (q : List Turn), agentStep i = true → step { s with schedule := .event i :: q } = exec i { s with schedule := q }) ∧
  ∀ (s : State) (late : Bool) (q : List Turn), s.cur < 768 → s.me.sched.run ≠ .running → step { s with schedule := .core s.cur late :: q } = .next { s with schedule := q }

/-- After device reset (R32, R102, R123, R125, R139, R272, R276, R279, R315): no task, launch, partition or queue owner; every wagon FREE, its livery
and tag zero, with no partition; DZT 1, every other CSR 0; W 12; CYCLE and TIME 0; the interface unlocked; every frame to be scrubbed. Memory lists
nothing and is in its canonical form (log 3). The values that the spec does not give are log 2. -/
def Obligations.ResetState : Prop :=
  let s := State.reset
  (∀ g, (s.core g).sched.run = .idle ∧ (s.core g).sched.task = none ∧ (∀ r, (s.core g).getS r = 0) ∧ (s.core g).csr = { dzt := 1 } ∧ ∀ n, ((s.core g).slot n).st = .detached) ∧
  (∀ c n, ((s.cluster c).wagon n).yard = .free ∧ ((s.cluster c).wagon n).livery = 0 ∧ ((s.cluster c).wagon n).tag = 0 ∧ ((s.cluster c).wagon n).prec = none) ∧
  (∀ q, (s.queue q).owner = none) ∧ (∀ p, Sparse.get 255 s.rr p = 255) ∧ (∀ p, s.part p = none) ∧ (∀ d, s.disp d = none) ∧ s.w = 12 ∧ s.cycle = 0 ∧ s.time = 0 ∧
  s.host.tdisp = .unlocked ∧ s.host.bar0.featAcc0 = 0 ∧ s.host.bar0.eoldays = 0xFFFFFFFF ∧ (∀ f, f < 8789062 → inRuns s.frames.scrub f = true) ∧
  Memory.wf s.mem = true ∧ ∀ loc, s.byte loc = 0

/-- Words of the spec's own examples decode to their instructions, and words that are none are refused (R147, Tables 07-18, 07-19). -/
def Obligations.DecodeWords : Prop :=
  Decode.word 0xA0850000 = .ok ⟨.sccfg 8 20, false⟩ ∧ Decode.word 0xA0600001 = .ok ⟨.sctopk 6, false⟩ ∧ Decode.word 0xA0700003 = .ok ⟨.scroute 7 0, false⟩ ∧
  Decode.word 0xA0928007 = .ok ⟨.scmread 9 10, false⟩ ∧ Decode.word 0xA0C2C009 = .ok ⟨.scstat 12 11, false⟩ ∧ Decode.word 0xB8450B04 = .ok ⟨.ldred 4 20 1 3 0, false⟩ ∧
  Decode.word 0xF8000105 = .ok ⟨.hint 261, false⟩ ∧ Decode.word 0 = .error .unassigned ∧ Decode.word 0x18000000 = .error .unassigned ∧
  Decode.word 0x606110A0 = .error .badField

/-- Decoding the word of a well-formed instruction gives it back, with every operand, and no reserved field set (R143 to R147). -/
def Obligations.EncodeDecode : Prop :=
  ∀ (i : Instr) (w : Nat), Instr.wf i = true → Decode.encode i = some w → w < 2 ^ 32 ∧ Decode.word w = .ok ⟨i, false⟩ ∧ decodeTableWord 32 w = some i

/-- Every instruction and every event answers a next state in every state, and a step stops only at a turn that names no agent; turns and their
schedule are the model's (log 1). -/
def Obligations.EveryStepGoesOn : Prop :=
  (∀ (i : Instr) (s : State), ∃ t, exec i s = .next t) ∧
  ∀ (s : State), (∀ g l q, s.schedule = .core g l :: q → g < 768) → (∀ i q, s.schedule = .event i :: q → agentStep i = true) → ∃ t, step s = .next t

/-- A step keeps memory in its canonical form: locations rising, no byte listed that an unlisted location reads as (log 3). -/
def Obligations.MemoryForm : Prop :=
  ∀ (s t : State), Memory.wf s.mem = true → step s = .next t → Memory.wf t.mem = true
end

