-- ==== Sys2Proof/Laws/Sparse.lean ====
section
/-!
SUPPORT. The laws of sparse maps: a read after a write to the same key gives the value written, a write leaves every other key alone, and
every operation keeps the canonical form. The first two hold of every list.
-/

namespace Sys2Proof.Machine.Sparse

variable {α : Type} [DecidableEq α] (d : α)

theorem get_dropLE (l : Sparse α) (k j : Nat) (h : k < j) : get d (dropLE l k) j = get d l j := by
  induction l with
  | nil => rfl
  | cons e l ih =>
    obtain ⟨k', v⟩ := e
    simp only [dropLE]
    split
    · rw [ih, get, if_neg (by omega), if_neg (by omega)]
    · rfl

theorem get_dropLE_le (l : Sparse α) (k j : Nat) (h : j ≤ k) : get d (dropLE l k) j = d := by
  induction l with
  | nil => rfl
  | cons e l ih =>
    obtain ⟨k', v⟩ := e
    simp only [dropLE]
    split
    · exact ih
    · rw [get, if_pos (by omega)]

theorem get_front_same (l : Sparse α) (k : Nat) (v : α) (h : get d l k = d) : get d (front d k v l) k = v := by
  unfold front
  split
  · simp_all
  · rw [get, if_neg (by omega), if_pos rfl]

theorem get_front_gt (l : Sparse α) (k j : Nat) (v : α) (h : k < j) : get d (front d k v l) j = get d l j := by
  unfold front
  split
  · rfl
  · rw [get, if_neg (by omega), if_neg (by omega)]

theorem get_front_lt (l : Sparse α) (k j : Nat) (v : α) (h : j < k) (hl : get d l j = d) :
    get d (front d k v l) j = d := by
  unfold front
  split
  · exact hl
  · rw [get, if_pos h]

/-- A read after a write to the same key gives the value written. -/
@[simp] theorem get_set_same (l : Sparse α) (k : Nat) (v : α) : get d (set d l k v) k = v := by
  induction l with
  | nil => exact get_front_same d [] k v rfl
  | cons e l ih =>
    obtain ⟨k', v'⟩ := e
    simp only [set]
    split
    · exact get_front_same d _ k v (by rw [get, if_pos ‹_›])
    · split
      · exact get_front_same d _ k v (get_dropLE_le d l k k (Nat.le_refl k))
      · rw [get, if_neg ‹_›, if_neg ‹_›, ih]

/-- A write leaves every other key alone. -/
theorem get_set_ne (l : Sparse α) (k j : Nat) (v : α) (h : j ≠ k) : get d (set d l k v) j = get d l j := by
  induction l with
  | nil =>
    rcases Nat.lt_or_gt_of_ne h with h | h
    · rw [set, get_front_lt d _ _ _ _ h rfl]; rfl
    · rw [set, get_front_gt d _ _ _ _ h]
  | cons e l ih =>
    obtain ⟨k', v'⟩ := e
    simp only [set]
    split
    · rcases Nat.lt_or_gt_of_ne h with hj | hj
      · have hl : get d ((k', v') :: l) j = d := by rw [get, if_pos (by omega)]
        rw [get_front_lt d _ _ _ _ hj hl, hl]
      · exact get_front_gt d _ _ _ _ hj
    · split
      · subst ‹k = k'›
        rcases Nat.lt_or_gt_of_ne h with hj | hj
        · rw [get_front_lt d _ _ _ _ hj (get_dropLE_le d l k j (by omega)), get, if_pos hj]
        · rw [get_front_gt d _ _ _ _ hj, get_dropLE d l k j hj, get, if_neg (by omega), if_neg (by omega)]
      · rw [get, get]
        split
        · rfl
        · split
          · rfl
          · exact ih

@[simp] theorem get_set (l : Sparse α) (k j : Nat) (v : α) :
    get d (set d l k v) j = if j = k then v else get d l j := by
  split
  · subst ‹j = k›; exact get_set_same d l j v
  · exact get_set_ne d l k j v ‹_›

omit [DecidableEq α] in
theorem above_dropLE (l : Sparse α) (k b : Nat) (h : above b l = true) : above b (dropLE l k) = true := by
  induction l with
  | nil => rfl
  | cons e l ih =>
    simp only [above, List.all_cons, Bool.and_eq_true] at h
    simp only [dropLE]
    split
    · exact ih h.2
    · simp [above, h.1, h.2]

theorem wf_dropLE (l : Sparse α) (k : Nat) (h : wf d l = true) : wf d (dropLE l k) = true := by
  induction l with
  | nil => rfl
  | cons e l ih =>
    simp only [dropLE]
    split
    · simp only [wf, Bool.and_eq_true] at h; exact ih h.2
    · exact h

omit [DecidableEq α] in
theorem above_trans (l : Sparse α) (b c : Nat) (hbc : b ≤ c) (h : above c l = true) : above b l = true := by
  simp only [above, List.all_eq_true, decide_eq_true_eq] at h ⊢
  intro e he
  exact Nat.lt_of_le_of_lt hbc (h e he)

omit [DecidableEq α] in
theorem above_dropLE_self (l : Sparse α) (k : Nat) (h : ∀ v k' l', dropLE l k = (k', v) :: l' → above k' l' = true) :
    above k (dropLE l k) = true := by
  induction l with
  | nil => rfl
  | cons e l ih =>
    obtain ⟨k', v⟩ := e
    simp only [dropLE] at h ⊢
    split
    · exact ih (fun v k' l' hd => h v k' l' (by rw [if_pos ‹_›]; exact hd))
    · have := h v k' l (by rw [if_neg ‹_›])
      simp only [above, List.all_cons, Bool.and_eq_true, decide_eq_true_eq]
      exact ⟨by omega, above_trans l k k' (by omega) this⟩

theorem wf_front (l : Sparse α) (k : Nat) (v : α) (h : wf d l = true) (ha : above k l = true) :
    wf d (front d k v l) = true := by
  unfold front
  split
  · exact h
  · simp [wf, ha, h, ‹v ≠ d›]

theorem above_set (l : Sparse α) (k b : Nat) (v : α) (h : above b l = true) (hb : b < k) :
    above b (set d l k v) = true := by
  induction l with
  | nil => unfold set front; split <;> simp [above, hb]
  | cons e l ih =>
    obtain ⟨k', v'⟩ := e
    have h' := h
    simp only [above, List.all_cons, Bool.and_eq_true] at h
    simp only [set]
    split
    · unfold front; split
      · exact h'
      · simp only [above, List.all_cons, Bool.and_eq_true]
        exact ⟨by simp [hb], h⟩
    · split
      · have hd := above_dropLE l k b h.2
        unfold front; split
        · exact hd
        · simp only [above, List.all_cons, Bool.and_eq_true]
          exact ⟨by simp [hb], hd⟩
      · simp only [above, List.all_cons, Bool.and_eq_true]
        exact ⟨h.1, ih h.2⟩

/-- A write keeps the canonical form. -/
theorem wf_set (l : Sparse α) (k : Nat) (v : α) (h : wf d l = true) : wf d (set d l k v) = true := by
  induction l with
  | nil => exact wf_front d [] k v rfl rfl
  | cons e l ih =>
    obtain ⟨k', v'⟩ := e
    have h0 := h
    simp only [wf, Bool.and_eq_true, decide_eq_true_eq] at h
    obtain ⟨⟨hv, ha⟩, hl⟩ := h
    simp only [set]
    split
    · refine wf_front d _ k v h0 ?_
      simp only [above, List.all_cons, Bool.and_eq_true, decide_eq_true_eq]
      exact ⟨‹k < k'›, above_trans l k k' (by omega) ha⟩
    · split
      · refine wf_front d _ k v (wf_dropLE d l k hl) (above_dropLE_self l k ?_)
        intro v1 k1 l1 hd
        have := wf_dropLE d l k hl
        rw [hd] at this
        simp only [wf, Bool.and_eq_true] at this
        exact this.1.2
      · simp only [wf, Bool.and_eq_true, decide_eq_true_eq]
        exact ⟨⟨hv, above_set d l k k' v ha (by omega)⟩, ih hl⟩

theorem wf_modify (l : Sparse α) (k : Nat) (f : α → α) (h : wf d l = true) : wf d (modify d l k f) = true :=
  wf_set d l k _ h

theorem wf_setMany (es : List (Nat × α)) (l : Sparse α) (h : wf d l = true) : wf d (setMany d l es) = true := by
  unfold setMany
  induction es generalizing l with
  | nil => exact h
  | cons e es ih => exact ih _ (wf_set d l e.1 e.2 h)

/-- Writes to other keys leave a key alone. -/
theorem get_setMany_other (es : List (Nat × α)) (l : Sparse α) (k : Nat) (h : ∀ e ∈ es, e.1 ≠ k) :
    get d (setMany d l es) k = get d l k := by
  unfold setMany
  induction es generalizing l with
  | nil => rfl
  | cons e es ih =>
    simp only [List.foldl_cons]
    rw [ih _ (fun x hx => h x (List.mem_cons_of_mem _ hx)), get_set_ne d l e.1 k e.2 (Ne.symm (h e (by simp)))]

end Sys2Proof.Machine.Sparse
end

