-- ==== Sys2Proof/Laws/State.lean ====
section
/-!
SUPPORT. Reads after updates of the state: one lemma for each field and each update, and the reads of cores and registers after a write.
-/

namespace Sys2Proof.Machine

/-! ### setCore -/

@[simp] theorem State.setCore_caravans (s : State) (g : Nat) (c : Core) : (s.setCore g c).caravans = s.caravans := rfl
@[simp] theorem State.setCore_disps (s : State) (g : Nat) (c : Core) : (s.setCore g c).disps = s.disps := rfl
@[simp] theorem State.setCore_clusters (s : State) (g : Nat) (c : Core) : (s.setCore g c).clusters = s.clusters := rfl
@[simp] theorem State.setCore_queues (s : State) (g : Nat) (c : Core) : (s.setCore g c).queues = s.queues := rfl
@[simp] theorem State.setCore_rr (s : State) (g : Nat) (c : Core) : (s.setCore g c).rr = s.rr := rfl
@[simp] theorem State.setCore_parts (s : State) (g : Nat) (c : Core) : (s.setCore g c).parts = s.parts := rfl
@[simp] theorem State.setCore_rots (s : State) (g : Nat) (c : Core) : (s.setCore g c).rots = s.rots := rfl
@[simp] theorem State.setCore_mem (s : State) (g : Nat) (c : Core) : (s.setCore g c).mem = s.mem := rfl
@[simp] theorem State.setCore_bad (s : State) (g : Nat) (c : Core) : (s.setCore g c).bad = s.bad := rfl
@[simp] theorem State.setCore_frames (s : State) (g : Nat) (c : Core) : (s.setCore g c).frames = s.frames := rfl
@[simp] theorem State.setCore_host (s : State) (g : Nat) (c : Core) : (s.setCore g c).host = s.host := rfl
@[simp] theorem State.setCore_routes (s : State) (g : Nat) (c : Core) : (s.setCore g c).routes = s.routes := rfl
@[simp] theorem State.setCore_walks (s : State) (g : Nat) (c : Core) : (s.setCore g c).walks = s.walks := rfl
@[simp] theorem State.setCore_refuses (s : State) (g : Nat) (c : Core) : (s.setCore g c).refuses = s.refuses := rfl
@[simp] theorem State.setCore_asks (s : State) (g : Nat) (c : Core) : (s.setCore g c).asks = s.asks := rfl
@[simp] theorem State.setCore_cycle (s : State) (g : Nat) (c : Core) : (s.setCore g c).cycle = s.cycle := rfl
@[simp] theorem State.setCore_time (s : State) (g : Nat) (c : Core) : (s.setCore g c).time = s.time := rfl
@[simp] theorem State.setCore_w (s : State) (g : Nat) (c : Core) : (s.setCore g c).w = s.w := rfl
@[simp] theorem State.setCore_nextId (s : State) (g : Nat) (c : Core) : (s.setCore g c).nextId = s.nextId := rfl
@[simp] theorem State.setCore_cur (s : State) (g : Nat) (c : Core) : (s.setCore g c).cur = s.cur := rfl
@[simp] theorem State.setCore_word (s : State) (g : Nat) (c : Core) : (s.setCore g c).word = s.word := rfl
@[simp] theorem State.setCore_late (s : State) (g : Nat) (c : Core) : (s.setCore g c).late = s.late := rfl
@[simp] theorem State.setCore_free (s : State) (g : Nat) (c : Core) : (s.setCore g c).free = s.free := rfl
@[simp] theorem State.setCore_schedule (s : State) (g : Nat) (c : Core) : (s.setCore g c).schedule = s.schedule := rfl

/-! ### updCore -/

@[simp] theorem State.updCore_caravans (s : State) (g : Nat) (f : Core → Core) : (s.updCore g f).caravans = s.caravans := rfl
@[simp] theorem State.updCore_disps (s : State) (g : Nat) (f : Core → Core) : (s.updCore g f).disps = s.disps := rfl
@[simp] theorem State.updCore_clusters (s : State) (g : Nat) (f : Core → Core) : (s.updCore g f).clusters = s.clusters := rfl
@[simp] theorem State.updCore_queues (s : State) (g : Nat) (f : Core → Core) : (s.updCore g f).queues = s.queues := rfl
@[simp] theorem State.updCore_rr (s : State) (g : Nat) (f : Core → Core) : (s.updCore g f).rr = s.rr := rfl
@[simp] theorem State.updCore_parts (s : State) (g : Nat) (f : Core → Core) : (s.updCore g f).parts = s.parts := rfl
@[simp] theorem State.updCore_rots (s : State) (g : Nat) (f : Core → Core) : (s.updCore g f).rots = s.rots := rfl
@[simp] theorem State.updCore_mem (s : State) (g : Nat) (f : Core → Core) : (s.updCore g f).mem = s.mem := rfl
@[simp] theorem State.updCore_bad (s : State) (g : Nat) (f : Core → Core) : (s.updCore g f).bad = s.bad := rfl
@[simp] theorem State.updCore_frames (s : State) (g : Nat) (f : Core → Core) : (s.updCore g f).frames = s.frames := rfl
@[simp] theorem State.updCore_host (s : State) (g : Nat) (f : Core → Core) : (s.updCore g f).host = s.host := rfl
@[simp] theorem State.updCore_routes (s : State) (g : Nat) (f : Core → Core) : (s.updCore g f).routes = s.routes := rfl
@[simp] theorem State.updCore_walks (s : State) (g : Nat) (f : Core → Core) : (s.updCore g f).walks = s.walks := rfl
@[simp] theorem State.updCore_refuses (s : State) (g : Nat) (f : Core → Core) : (s.updCore g f).refuses = s.refuses := rfl
@[simp] theorem State.updCore_asks (s : State) (g : Nat) (f : Core → Core) : (s.updCore g f).asks = s.asks := rfl
@[simp] theorem State.updCore_cycle (s : State) (g : Nat) (f : Core → Core) : (s.updCore g f).cycle = s.cycle := rfl
@[simp] theorem State.updCore_time (s : State) (g : Nat) (f : Core → Core) : (s.updCore g f).time = s.time := rfl
@[simp] theorem State.updCore_w (s : State) (g : Nat) (f : Core → Core) : (s.updCore g f).w = s.w := rfl
@[simp] theorem State.updCore_nextId (s : State) (g : Nat) (f : Core → Core) : (s.updCore g f).nextId = s.nextId := rfl
@[simp] theorem State.updCore_cur (s : State) (g : Nat) (f : Core → Core) : (s.updCore g f).cur = s.cur := rfl
@[simp] theorem State.updCore_word (s : State) (g : Nat) (f : Core → Core) : (s.updCore g f).word = s.word := rfl
@[simp] theorem State.updCore_late (s : State) (g : Nat) (f : Core → Core) : (s.updCore g f).late = s.late := rfl
@[simp] theorem State.updCore_free (s : State) (g : Nat) (f : Core → Core) : (s.updCore g f).free = s.free := rfl
@[simp] theorem State.updCore_schedule (s : State) (g : Nat) (f : Core → Core) : (s.updCore g f).schedule = s.schedule := rfl

/-! ### upd -/

@[simp] theorem State.upd_caravans (s : State) (f : Core → Core) : (s.upd f).caravans = s.caravans := rfl
@[simp] theorem State.upd_disps (s : State) (f : Core → Core) : (s.upd f).disps = s.disps := rfl
@[simp] theorem State.upd_clusters (s : State) (f : Core → Core) : (s.upd f).clusters = s.clusters := rfl
@[simp] theorem State.upd_queues (s : State) (f : Core → Core) : (s.upd f).queues = s.queues := rfl
@[simp] theorem State.upd_rr (s : State) (f : Core → Core) : (s.upd f).rr = s.rr := rfl
@[simp] theorem State.upd_parts (s : State) (f : Core → Core) : (s.upd f).parts = s.parts := rfl
@[simp] theorem State.upd_rots (s : State) (f : Core → Core) : (s.upd f).rots = s.rots := rfl
@[simp] theorem State.upd_mem (s : State) (f : Core → Core) : (s.upd f).mem = s.mem := rfl
@[simp] theorem State.upd_bad (s : State) (f : Core → Core) : (s.upd f).bad = s.bad := rfl
@[simp] theorem State.upd_frames (s : State) (f : Core → Core) : (s.upd f).frames = s.frames := rfl
@[simp] theorem State.upd_host (s : State) (f : Core → Core) : (s.upd f).host = s.host := rfl
@[simp] theorem State.upd_routes (s : State) (f : Core → Core) : (s.upd f).routes = s.routes := rfl
@[simp] theorem State.upd_walks (s : State) (f : Core → Core) : (s.upd f).walks = s.walks := rfl
@[simp] theorem State.upd_refuses (s : State) (f : Core → Core) : (s.upd f).refuses = s.refuses := rfl
@[simp] theorem State.upd_asks (s : State) (f : Core → Core) : (s.upd f).asks = s.asks := rfl
@[simp] theorem State.upd_cycle (s : State) (f : Core → Core) : (s.upd f).cycle = s.cycle := rfl
@[simp] theorem State.upd_time (s : State) (f : Core → Core) : (s.upd f).time = s.time := rfl
@[simp] theorem State.upd_w (s : State) (f : Core → Core) : (s.upd f).w = s.w := rfl
@[simp] theorem State.upd_nextId (s : State) (f : Core → Core) : (s.upd f).nextId = s.nextId := rfl
@[simp] theorem State.upd_cur (s : State) (f : Core → Core) : (s.upd f).cur = s.cur := rfl
@[simp] theorem State.upd_word (s : State) (f : Core → Core) : (s.upd f).word = s.word := rfl
@[simp] theorem State.upd_late (s : State) (f : Core → Core) : (s.upd f).late = s.late := rfl
@[simp] theorem State.upd_free (s : State) (f : Core → Core) : (s.upd f).free = s.free := rfl
@[simp] theorem State.upd_schedule (s : State) (f : Core → Core) : (s.upd f).schedule = s.schedule := rfl

/-! ### setS -/

@[simp] theorem State.setS_caravans (s : State) {n : Nat} (d : BitVec n) (v : Word) : (s.setS d v).caravans = s.caravans := rfl
@[simp] theorem State.setS_disps (s : State) {n : Nat} (d : BitVec n) (v : Word) : (s.setS d v).disps = s.disps := rfl
@[simp] theorem State.setS_clusters (s : State) {n : Nat} (d : BitVec n) (v : Word) : (s.setS d v).clusters = s.clusters := rfl
@[simp] theorem State.setS_queues (s : State) {n : Nat} (d : BitVec n) (v : Word) : (s.setS d v).queues = s.queues := rfl
@[simp] theorem State.setS_rr (s : State) {n : Nat} (d : BitVec n) (v : Word) : (s.setS d v).rr = s.rr := rfl
@[simp] theorem State.setS_parts (s : State) {n : Nat} (d : BitVec n) (v : Word) : (s.setS d v).parts = s.parts := rfl
@[simp] theorem State.setS_rots (s : State) {n : Nat} (d : BitVec n) (v : Word) : (s.setS d v).rots = s.rots := rfl
@[simp] theorem State.setS_mem (s : State) {n : Nat} (d : BitVec n) (v : Word) : (s.setS d v).mem = s.mem := rfl
@[simp] theorem State.setS_bad (s : State) {n : Nat} (d : BitVec n) (v : Word) : (s.setS d v).bad = s.bad := rfl
@[simp] theorem State.setS_frames (s : State) {n : Nat} (d : BitVec n) (v : Word) : (s.setS d v).frames = s.frames := rfl
@[simp] theorem State.setS_host (s : State) {n : Nat} (d : BitVec n) (v : Word) : (s.setS d v).host = s.host := rfl
@[simp] theorem State.setS_routes (s : State) {n : Nat} (d : BitVec n) (v : Word) : (s.setS d v).routes = s.routes := rfl
@[simp] theorem State.setS_walks (s : State) {n : Nat} (d : BitVec n) (v : Word) : (s.setS d v).walks = s.walks := rfl
@[simp] theorem State.setS_refuses (s : State) {n : Nat} (d : BitVec n) (v : Word) : (s.setS d v).refuses = s.refuses := rfl
@[simp] theorem State.setS_asks (s : State) {n : Nat} (d : BitVec n) (v : Word) : (s.setS d v).asks = s.asks := rfl
@[simp] theorem State.setS_cycle (s : State) {n : Nat} (d : BitVec n) (v : Word) : (s.setS d v).cycle = s.cycle := rfl
@[simp] theorem State.setS_time (s : State) {n : Nat} (d : BitVec n) (v : Word) : (s.setS d v).time = s.time := rfl
@[simp] theorem State.setS_w (s : State) {n : Nat} (d : BitVec n) (v : Word) : (s.setS d v).w = s.w := rfl
@[simp] theorem State.setS_nextId (s : State) {n : Nat} (d : BitVec n) (v : Word) : (s.setS d v).nextId = s.nextId := rfl
@[simp] theorem State.setS_cur (s : State) {n : Nat} (d : BitVec n) (v : Word) : (s.setS d v).cur = s.cur := rfl
@[simp] theorem State.setS_word (s : State) {n : Nat} (d : BitVec n) (v : Word) : (s.setS d v).word = s.word := rfl
@[simp] theorem State.setS_late (s : State) {n : Nat} (d : BitVec n) (v : Word) : (s.setS d v).late = s.late := rfl
@[simp] theorem State.setS_free (s : State) {n : Nat} (d : BitVec n) (v : Word) : (s.setS d v).free = s.free := rfl
@[simp] theorem State.setS_schedule (s : State) {n : Nat} (d : BitVec n) (v : Word) : (s.setS d v).schedule = s.schedule := rfl

/-! ### setV -/

@[simp] theorem State.setV_caravans (s : State) {n : Nat} (d : BitVec n) (v : VReg) : (s.setV d v).caravans = s.caravans := rfl
@[simp] theorem State.setV_disps (s : State) {n : Nat} (d : BitVec n) (v : VReg) : (s.setV d v).disps = s.disps := rfl
@[simp] theorem State.setV_clusters (s : State) {n : Nat} (d : BitVec n) (v : VReg) : (s.setV d v).clusters = s.clusters := rfl
@[simp] theorem State.setV_queues (s : State) {n : Nat} (d : BitVec n) (v : VReg) : (s.setV d v).queues = s.queues := rfl
@[simp] theorem State.setV_rr (s : State) {n : Nat} (d : BitVec n) (v : VReg) : (s.setV d v).rr = s.rr := rfl
@[simp] theorem State.setV_parts (s : State) {n : Nat} (d : BitVec n) (v : VReg) : (s.setV d v).parts = s.parts := rfl
@[simp] theorem State.setV_rots (s : State) {n : Nat} (d : BitVec n) (v : VReg) : (s.setV d v).rots = s.rots := rfl
@[simp] theorem State.setV_mem (s : State) {n : Nat} (d : BitVec n) (v : VReg) : (s.setV d v).mem = s.mem := rfl
@[simp] theorem State.setV_bad (s : State) {n : Nat} (d : BitVec n) (v : VReg) : (s.setV d v).bad = s.bad := rfl
@[simp] theorem State.setV_frames (s : State) {n : Nat} (d : BitVec n) (v : VReg) : (s.setV d v).frames = s.frames := rfl
@[simp] theorem State.setV_host (s : State) {n : Nat} (d : BitVec n) (v : VReg) : (s.setV d v).host = s.host := rfl
@[simp] theorem State.setV_routes (s : State) {n : Nat} (d : BitVec n) (v : VReg) : (s.setV d v).routes = s.routes := rfl
@[simp] theorem State.setV_walks (s : State) {n : Nat} (d : BitVec n) (v : VReg) : (s.setV d v).walks = s.walks := rfl
@[simp] theorem State.setV_refuses (s : State) {n : Nat} (d : BitVec n) (v : VReg) : (s.setV d v).refuses = s.refuses := rfl
@[simp] theorem State.setV_asks (s : State) {n : Nat} (d : BitVec n) (v : VReg) : (s.setV d v).asks = s.asks := rfl
@[simp] theorem State.setV_cycle (s : State) {n : Nat} (d : BitVec n) (v : VReg) : (s.setV d v).cycle = s.cycle := rfl
@[simp] theorem State.setV_time (s : State) {n : Nat} (d : BitVec n) (v : VReg) : (s.setV d v).time = s.time := rfl
@[simp] theorem State.setV_w (s : State) {n : Nat} (d : BitVec n) (v : VReg) : (s.setV d v).w = s.w := rfl
@[simp] theorem State.setV_nextId (s : State) {n : Nat} (d : BitVec n) (v : VReg) : (s.setV d v).nextId = s.nextId := rfl
@[simp] theorem State.setV_cur (s : State) {n : Nat} (d : BitVec n) (v : VReg) : (s.setV d v).cur = s.cur := rfl
@[simp] theorem State.setV_word (s : State) {n : Nat} (d : BitVec n) (v : VReg) : (s.setV d v).word = s.word := rfl
@[simp] theorem State.setV_late (s : State) {n : Nat} (d : BitVec n) (v : VReg) : (s.setV d v).late = s.late := rfl
@[simp] theorem State.setV_free (s : State) {n : Nat} (d : BitVec n) (v : VReg) : (s.setV d v).free = s.free := rfl
@[simp] theorem State.setV_schedule (s : State) {n : Nat} (d : BitVec n) (v : VReg) : (s.setV d v).schedule = s.schedule := rfl

/-! ### setK -/

@[simp] theorem State.setK_caravans (s : State) {n : Nat} (d : BitVec n) (v : KReg) : (s.setK d v).caravans = s.caravans := rfl
@[simp] theorem State.setK_disps (s : State) {n : Nat} (d : BitVec n) (v : KReg) : (s.setK d v).disps = s.disps := rfl
@[simp] theorem State.setK_clusters (s : State) {n : Nat} (d : BitVec n) (v : KReg) : (s.setK d v).clusters = s.clusters := rfl
@[simp] theorem State.setK_queues (s : State) {n : Nat} (d : BitVec n) (v : KReg) : (s.setK d v).queues = s.queues := rfl
@[simp] theorem State.setK_rr (s : State) {n : Nat} (d : BitVec n) (v : KReg) : (s.setK d v).rr = s.rr := rfl
@[simp] theorem State.setK_parts (s : State) {n : Nat} (d : BitVec n) (v : KReg) : (s.setK d v).parts = s.parts := rfl
@[simp] theorem State.setK_rots (s : State) {n : Nat} (d : BitVec n) (v : KReg) : (s.setK d v).rots = s.rots := rfl
@[simp] theorem State.setK_mem (s : State) {n : Nat} (d : BitVec n) (v : KReg) : (s.setK d v).mem = s.mem := rfl
@[simp] theorem State.setK_bad (s : State) {n : Nat} (d : BitVec n) (v : KReg) : (s.setK d v).bad = s.bad := rfl
@[simp] theorem State.setK_frames (s : State) {n : Nat} (d : BitVec n) (v : KReg) : (s.setK d v).frames = s.frames := rfl
@[simp] theorem State.setK_host (s : State) {n : Nat} (d : BitVec n) (v : KReg) : (s.setK d v).host = s.host := rfl
@[simp] theorem State.setK_routes (s : State) {n : Nat} (d : BitVec n) (v : KReg) : (s.setK d v).routes = s.routes := rfl
@[simp] theorem State.setK_walks (s : State) {n : Nat} (d : BitVec n) (v : KReg) : (s.setK d v).walks = s.walks := rfl
@[simp] theorem State.setK_refuses (s : State) {n : Nat} (d : BitVec n) (v : KReg) : (s.setK d v).refuses = s.refuses := rfl
@[simp] theorem State.setK_asks (s : State) {n : Nat} (d : BitVec n) (v : KReg) : (s.setK d v).asks = s.asks := rfl
@[simp] theorem State.setK_cycle (s : State) {n : Nat} (d : BitVec n) (v : KReg) : (s.setK d v).cycle = s.cycle := rfl
@[simp] theorem State.setK_time (s : State) {n : Nat} (d : BitVec n) (v : KReg) : (s.setK d v).time = s.time := rfl
@[simp] theorem State.setK_w (s : State) {n : Nat} (d : BitVec n) (v : KReg) : (s.setK d v).w = s.w := rfl
@[simp] theorem State.setK_nextId (s : State) {n : Nat} (d : BitVec n) (v : KReg) : (s.setK d v).nextId = s.nextId := rfl
@[simp] theorem State.setK_cur (s : State) {n : Nat} (d : BitVec n) (v : KReg) : (s.setK d v).cur = s.cur := rfl
@[simp] theorem State.setK_word (s : State) {n : Nat} (d : BitVec n) (v : KReg) : (s.setK d v).word = s.word := rfl
@[simp] theorem State.setK_late (s : State) {n : Nat} (d : BitVec n) (v : KReg) : (s.setK d v).late = s.late := rfl
@[simp] theorem State.setK_free (s : State) {n : Nat} (d : BitVec n) (v : KReg) : (s.setK d v).free = s.free := rfl
@[simp] theorem State.setK_schedule (s : State) {n : Nat} (d : BitVec n) (v : KReg) : (s.setK d v).schedule = s.schedule := rfl

/-! ### goto -/

@[simp] theorem State.goto_caravans (s : State) (a : Word) : (s.goto a).caravans = s.caravans := rfl
@[simp] theorem State.goto_disps (s : State) (a : Word) : (s.goto a).disps = s.disps := rfl
@[simp] theorem State.goto_clusters (s : State) (a : Word) : (s.goto a).clusters = s.clusters := rfl
@[simp] theorem State.goto_queues (s : State) (a : Word) : (s.goto a).queues = s.queues := rfl
@[simp] theorem State.goto_rr (s : State) (a : Word) : (s.goto a).rr = s.rr := rfl
@[simp] theorem State.goto_parts (s : State) (a : Word) : (s.goto a).parts = s.parts := rfl
@[simp] theorem State.goto_rots (s : State) (a : Word) : (s.goto a).rots = s.rots := rfl
@[simp] theorem State.goto_mem (s : State) (a : Word) : (s.goto a).mem = s.mem := rfl
@[simp] theorem State.goto_bad (s : State) (a : Word) : (s.goto a).bad = s.bad := rfl
@[simp] theorem State.goto_frames (s : State) (a : Word) : (s.goto a).frames = s.frames := rfl
@[simp] theorem State.goto_host (s : State) (a : Word) : (s.goto a).host = s.host := rfl
@[simp] theorem State.goto_routes (s : State) (a : Word) : (s.goto a).routes = s.routes := rfl
@[simp] theorem State.goto_walks (s : State) (a : Word) : (s.goto a).walks = s.walks := rfl
@[simp] theorem State.goto_refuses (s : State) (a : Word) : (s.goto a).refuses = s.refuses := rfl
@[simp] theorem State.goto_asks (s : State) (a : Word) : (s.goto a).asks = s.asks := rfl
@[simp] theorem State.goto_cycle (s : State) (a : Word) : (s.goto a).cycle = s.cycle := rfl
@[simp] theorem State.goto_time (s : State) (a : Word) : (s.goto a).time = s.time := rfl
@[simp] theorem State.goto_w (s : State) (a : Word) : (s.goto a).w = s.w := rfl
@[simp] theorem State.goto_nextId (s : State) (a : Word) : (s.goto a).nextId = s.nextId := rfl
@[simp] theorem State.goto_cur (s : State) (a : Word) : (s.goto a).cur = s.cur := rfl
@[simp] theorem State.goto_word (s : State) (a : Word) : (s.goto a).word = s.word := rfl
@[simp] theorem State.goto_late (s : State) (a : Word) : (s.goto a).late = s.late := rfl
@[simp] theorem State.goto_free (s : State) (a : Word) : (s.goto a).free = s.free := rfl
@[simp] theorem State.goto_schedule (s : State) (a : Word) : (s.goto a).schedule = s.schedule := rfl

/-! ### advance -/

@[simp] theorem State.advance_caravans (s : State)  : (s.advance).caravans = s.caravans := rfl
@[simp] theorem State.advance_disps (s : State)  : (s.advance).disps = s.disps := rfl
@[simp] theorem State.advance_clusters (s : State)  : (s.advance).clusters = s.clusters := rfl
@[simp] theorem State.advance_queues (s : State)  : (s.advance).queues = s.queues := rfl
@[simp] theorem State.advance_rr (s : State)  : (s.advance).rr = s.rr := rfl
@[simp] theorem State.advance_parts (s : State)  : (s.advance).parts = s.parts := rfl
@[simp] theorem State.advance_rots (s : State)  : (s.advance).rots = s.rots := rfl
@[simp] theorem State.advance_mem (s : State)  : (s.advance).mem = s.mem := rfl
@[simp] theorem State.advance_bad (s : State)  : (s.advance).bad = s.bad := rfl
@[simp] theorem State.advance_frames (s : State)  : (s.advance).frames = s.frames := rfl
@[simp] theorem State.advance_host (s : State)  : (s.advance).host = s.host := rfl
@[simp] theorem State.advance_routes (s : State)  : (s.advance).routes = s.routes := rfl
@[simp] theorem State.advance_walks (s : State)  : (s.advance).walks = s.walks := rfl
@[simp] theorem State.advance_refuses (s : State)  : (s.advance).refuses = s.refuses := rfl
@[simp] theorem State.advance_asks (s : State)  : (s.advance).asks = s.asks := rfl
@[simp] theorem State.advance_cycle (s : State)  : (s.advance).cycle = s.cycle := rfl
@[simp] theorem State.advance_time (s : State)  : (s.advance).time = s.time := rfl
@[simp] theorem State.advance_w (s : State)  : (s.advance).w = s.w := rfl
@[simp] theorem State.advance_nextId (s : State)  : (s.advance).nextId = s.nextId := rfl
@[simp] theorem State.advance_cur (s : State)  : (s.advance).cur = s.cur := rfl
@[simp] theorem State.advance_word (s : State)  : (s.advance).word = s.word := rfl
@[simp] theorem State.advance_late (s : State)  : (s.advance).late = s.late := rfl
@[simp] theorem State.advance_free (s : State)  : (s.advance).free = s.free := rfl
@[simp] theorem State.advance_schedule (s : State)  : (s.advance).schedule = s.schedule := rfl

/-! ### setHold -/

@[simp] theorem State.setHold_caravans (s : State) (h : Hold) : (s.setHold h).caravans = s.caravans := rfl
@[simp] theorem State.setHold_disps (s : State) (h : Hold) : (s.setHold h).disps = s.disps := rfl
@[simp] theorem State.setHold_clusters (s : State) (h : Hold) : (s.setHold h).clusters = s.clusters := rfl
@[simp] theorem State.setHold_queues (s : State) (h : Hold) : (s.setHold h).queues = s.queues := rfl
@[simp] theorem State.setHold_rr (s : State) (h : Hold) : (s.setHold h).rr = s.rr := rfl
@[simp] theorem State.setHold_parts (s : State) (h : Hold) : (s.setHold h).parts = s.parts := rfl
@[simp] theorem State.setHold_rots (s : State) (h : Hold) : (s.setHold h).rots = s.rots := rfl
@[simp] theorem State.setHold_mem (s : State) (h : Hold) : (s.setHold h).mem = s.mem := rfl
@[simp] theorem State.setHold_bad (s : State) (h : Hold) : (s.setHold h).bad = s.bad := rfl
@[simp] theorem State.setHold_frames (s : State) (h : Hold) : (s.setHold h).frames = s.frames := rfl
@[simp] theorem State.setHold_host (s : State) (h : Hold) : (s.setHold h).host = s.host := rfl
@[simp] theorem State.setHold_routes (s : State) (h : Hold) : (s.setHold h).routes = s.routes := rfl
@[simp] theorem State.setHold_walks (s : State) (h : Hold) : (s.setHold h).walks = s.walks := rfl
@[simp] theorem State.setHold_refuses (s : State) (h : Hold) : (s.setHold h).refuses = s.refuses := rfl
@[simp] theorem State.setHold_asks (s : State) (h : Hold) : (s.setHold h).asks = s.asks := rfl
@[simp] theorem State.setHold_cycle (s : State) (h : Hold) : (s.setHold h).cycle = s.cycle := rfl
@[simp] theorem State.setHold_time (s : State) (h : Hold) : (s.setHold h).time = s.time := rfl
@[simp] theorem State.setHold_w (s : State) (h : Hold) : (s.setHold h).w = s.w := rfl
@[simp] theorem State.setHold_nextId (s : State) (h : Hold) : (s.setHold h).nextId = s.nextId := rfl
@[simp] theorem State.setHold_cur (s : State) (h : Hold) : (s.setHold h).cur = s.cur := rfl
@[simp] theorem State.setHold_word (s : State) (h : Hold) : (s.setHold h).word = s.word := rfl
@[simp] theorem State.setHold_late (s : State) (h : Hold) : (s.setHold h).late = s.late := rfl
@[simp] theorem State.setHold_free (s : State) (h : Hold) : (s.setHold h).free = s.free := rfl
@[simp] theorem State.setHold_schedule (s : State) (h : Hold) : (s.setHold h).schedule = s.schedule := rfl

/-! ### raise -/

@[simp] theorem State.raise_caravans (s : State) (x : Nat) : (s.raise x).caravans = s.caravans := rfl
@[simp] theorem State.raise_disps (s : State) (x : Nat) : (s.raise x).disps = s.disps := rfl
@[simp] theorem State.raise_clusters (s : State) (x : Nat) : (s.raise x).clusters = s.clusters := rfl
@[simp] theorem State.raise_queues (s : State) (x : Nat) : (s.raise x).queues = s.queues := rfl
@[simp] theorem State.raise_rr (s : State) (x : Nat) : (s.raise x).rr = s.rr := rfl
@[simp] theorem State.raise_parts (s : State) (x : Nat) : (s.raise x).parts = s.parts := rfl
@[simp] theorem State.raise_rots (s : State) (x : Nat) : (s.raise x).rots = s.rots := rfl
@[simp] theorem State.raise_mem (s : State) (x : Nat) : (s.raise x).mem = s.mem := rfl
@[simp] theorem State.raise_bad (s : State) (x : Nat) : (s.raise x).bad = s.bad := rfl
@[simp] theorem State.raise_frames (s : State) (x : Nat) : (s.raise x).frames = s.frames := rfl
@[simp] theorem State.raise_host (s : State) (x : Nat) : (s.raise x).host = s.host := rfl
@[simp] theorem State.raise_routes (s : State) (x : Nat) : (s.raise x).routes = s.routes := rfl
@[simp] theorem State.raise_walks (s : State) (x : Nat) : (s.raise x).walks = s.walks := rfl
@[simp] theorem State.raise_refuses (s : State) (x : Nat) : (s.raise x).refuses = s.refuses := rfl
@[simp] theorem State.raise_asks (s : State) (x : Nat) : (s.raise x).asks = s.asks := rfl
@[simp] theorem State.raise_cycle (s : State) (x : Nat) : (s.raise x).cycle = s.cycle := rfl
@[simp] theorem State.raise_time (s : State) (x : Nat) : (s.raise x).time = s.time := rfl
@[simp] theorem State.raise_w (s : State) (x : Nat) : (s.raise x).w = s.w := rfl
@[simp] theorem State.raise_nextId (s : State) (x : Nat) : (s.raise x).nextId = s.nextId := rfl
@[simp] theorem State.raise_cur (s : State) (x : Nat) : (s.raise x).cur = s.cur := rfl
@[simp] theorem State.raise_word (s : State) (x : Nat) : (s.raise x).word = s.word := rfl
@[simp] theorem State.raise_late (s : State) (x : Nat) : (s.raise x).late = s.late := rfl
@[simp] theorem State.raise_free (s : State) (x : Nat) : (s.raise x).free = s.free := rfl
@[simp] theorem State.raise_schedule (s : State) (x : Nat) : (s.raise x).schedule = s.schedule := rfl

/-! ### setSeed -/

@[simp] theorem State.setSeed_caravans (s : State) (x : Word) : (s.setSeed x).caravans = s.caravans := rfl
@[simp] theorem State.setSeed_disps (s : State) (x : Word) : (s.setSeed x).disps = s.disps := rfl
@[simp] theorem State.setSeed_clusters (s : State) (x : Word) : (s.setSeed x).clusters = s.clusters := rfl
@[simp] theorem State.setSeed_queues (s : State) (x : Word) : (s.setSeed x).queues = s.queues := rfl
@[simp] theorem State.setSeed_rr (s : State) (x : Word) : (s.setSeed x).rr = s.rr := rfl
@[simp] theorem State.setSeed_parts (s : State) (x : Word) : (s.setSeed x).parts = s.parts := rfl
@[simp] theorem State.setSeed_rots (s : State) (x : Word) : (s.setSeed x).rots = s.rots := rfl
@[simp] theorem State.setSeed_mem (s : State) (x : Word) : (s.setSeed x).mem = s.mem := rfl
@[simp] theorem State.setSeed_bad (s : State) (x : Word) : (s.setSeed x).bad = s.bad := rfl
@[simp] theorem State.setSeed_frames (s : State) (x : Word) : (s.setSeed x).frames = s.frames := rfl
@[simp] theorem State.setSeed_host (s : State) (x : Word) : (s.setSeed x).host = s.host := rfl
@[simp] theorem State.setSeed_routes (s : State) (x : Word) : (s.setSeed x).routes = s.routes := rfl
@[simp] theorem State.setSeed_walks (s : State) (x : Word) : (s.setSeed x).walks = s.walks := rfl
@[simp] theorem State.setSeed_refuses (s : State) (x : Word) : (s.setSeed x).refuses = s.refuses := rfl
@[simp] theorem State.setSeed_asks (s : State) (x : Word) : (s.setSeed x).asks = s.asks := rfl
@[simp] theorem State.setSeed_cycle (s : State) (x : Word) : (s.setSeed x).cycle = s.cycle := rfl
@[simp] theorem State.setSeed_time (s : State) (x : Word) : (s.setSeed x).time = s.time := rfl
@[simp] theorem State.setSeed_w (s : State) (x : Word) : (s.setSeed x).w = s.w := rfl
@[simp] theorem State.setSeed_nextId (s : State) (x : Word) : (s.setSeed x).nextId = s.nextId := rfl
@[simp] theorem State.setSeed_cur (s : State) (x : Word) : (s.setSeed x).cur = s.cur := rfl
@[simp] theorem State.setSeed_word (s : State) (x : Word) : (s.setSeed x).word = s.word := rfl
@[simp] theorem State.setSeed_late (s : State) (x : Word) : (s.setSeed x).late = s.late := rfl
@[simp] theorem State.setSeed_free (s : State) (x : Word) : (s.setSeed x).free = s.free := rfl
@[simp] theorem State.setSeed_schedule (s : State) (x : Word) : (s.setSeed x).schedule = s.schedule := rfl

/-! ### setCluster -/

@[simp] theorem State.setCluster_cores (s : State) (c : Nat) (x : Cluster) : (s.setCluster c x).cores = s.cores := rfl
@[simp] theorem State.setCluster_caravans (s : State) (c : Nat) (x : Cluster) : (s.setCluster c x).caravans = s.caravans := rfl
@[simp] theorem State.setCluster_disps (s : State) (c : Nat) (x : Cluster) : (s.setCluster c x).disps = s.disps := rfl
@[simp] theorem State.setCluster_queues (s : State) (c : Nat) (x : Cluster) : (s.setCluster c x).queues = s.queues := rfl
@[simp] theorem State.setCluster_rr (s : State) (c : Nat) (x : Cluster) : (s.setCluster c x).rr = s.rr := rfl
@[simp] theorem State.setCluster_parts (s : State) (c : Nat) (x : Cluster) : (s.setCluster c x).parts = s.parts := rfl
@[simp] theorem State.setCluster_rots (s : State) (c : Nat) (x : Cluster) : (s.setCluster c x).rots = s.rots := rfl
@[simp] theorem State.setCluster_mem (s : State) (c : Nat) (x : Cluster) : (s.setCluster c x).mem = s.mem := rfl
@[simp] theorem State.setCluster_bad (s : State) (c : Nat) (x : Cluster) : (s.setCluster c x).bad = s.bad := rfl
@[simp] theorem State.setCluster_frames (s : State) (c : Nat) (x : Cluster) : (s.setCluster c x).frames = s.frames := rfl
@[simp] theorem State.setCluster_host (s : State) (c : Nat) (x : Cluster) : (s.setCluster c x).host = s.host := rfl
@[simp] theorem State.setCluster_routes (s : State) (c : Nat) (x : Cluster) : (s.setCluster c x).routes = s.routes := rfl
@[simp] theorem State.setCluster_walks (s : State) (c : Nat) (x : Cluster) : (s.setCluster c x).walks = s.walks := rfl
@[simp] theorem State.setCluster_refuses (s : State) (c : Nat) (x : Cluster) : (s.setCluster c x).refuses = s.refuses := rfl
@[simp] theorem State.setCluster_asks (s : State) (c : Nat) (x : Cluster) : (s.setCluster c x).asks = s.asks := rfl
@[simp] theorem State.setCluster_cycle (s : State) (c : Nat) (x : Cluster) : (s.setCluster c x).cycle = s.cycle := rfl
@[simp] theorem State.setCluster_time (s : State) (c : Nat) (x : Cluster) : (s.setCluster c x).time = s.time := rfl
@[simp] theorem State.setCluster_w (s : State) (c : Nat) (x : Cluster) : (s.setCluster c x).w = s.w := rfl
@[simp] theorem State.setCluster_nextId (s : State) (c : Nat) (x : Cluster) : (s.setCluster c x).nextId = s.nextId := rfl
@[simp] theorem State.setCluster_cur (s : State) (c : Nat) (x : Cluster) : (s.setCluster c x).cur = s.cur := rfl
@[simp] theorem State.setCluster_word (s : State) (c : Nat) (x : Cluster) : (s.setCluster c x).word = s.word := rfl
@[simp] theorem State.setCluster_late (s : State) (c : Nat) (x : Cluster) : (s.setCluster c x).late = s.late := rfl
@[simp] theorem State.setCluster_free (s : State) (c : Nat) (x : Cluster) : (s.setCluster c x).free = s.free := rfl
@[simp] theorem State.setCluster_schedule (s : State) (c : Nat) (x : Cluster) : (s.setCluster c x).schedule = s.schedule := rfl

/-! ### updCluster -/

@[simp] theorem State.updCluster_cores (s : State) (c : Nat) (f : Cluster → Cluster) : (s.updCluster c f).cores = s.cores := rfl
@[simp] theorem State.updCluster_caravans (s : State) (c : Nat) (f : Cluster → Cluster) : (s.updCluster c f).caravans = s.caravans := rfl
@[simp] theorem State.updCluster_disps (s : State) (c : Nat) (f : Cluster → Cluster) : (s.updCluster c f).disps = s.disps := rfl
@[simp] theorem State.updCluster_queues (s : State) (c : Nat) (f : Cluster → Cluster) : (s.updCluster c f).queues = s.queues := rfl
@[simp] theorem State.updCluster_rr (s : State) (c : Nat) (f : Cluster → Cluster) : (s.updCluster c f).rr = s.rr := rfl
@[simp] theorem State.updCluster_parts (s : State) (c : Nat) (f : Cluster → Cluster) : (s.updCluster c f).parts = s.parts := rfl
@[simp] theorem State.updCluster_rots (s : State) (c : Nat) (f : Cluster → Cluster) : (s.updCluster c f).rots = s.rots := rfl
@[simp] theorem State.updCluster_mem (s : State) (c : Nat) (f : Cluster → Cluster) : (s.updCluster c f).mem = s.mem := rfl
@[simp] theorem State.updCluster_bad (s : State) (c : Nat) (f : Cluster → Cluster) : (s.updCluster c f).bad = s.bad := rfl
@[simp] theorem State.updCluster_frames (s : State) (c : Nat) (f : Cluster → Cluster) : (s.updCluster c f).frames = s.frames := rfl
@[simp] theorem State.updCluster_host (s : State) (c : Nat) (f : Cluster → Cluster) : (s.updCluster c f).host = s.host := rfl
@[simp] theorem State.updCluster_routes (s : State) (c : Nat) (f : Cluster → Cluster) : (s.updCluster c f).routes = s.routes := rfl
@[simp] theorem State.updCluster_walks (s : State) (c : Nat) (f : Cluster → Cluster) : (s.updCluster c f).walks = s.walks := rfl
@[simp] theorem State.updCluster_refuses (s : State) (c : Nat) (f : Cluster → Cluster) : (s.updCluster c f).refuses = s.refuses := rfl
@[simp] theorem State.updCluster_asks (s : State) (c : Nat) (f : Cluster → Cluster) : (s.updCluster c f).asks = s.asks := rfl
@[simp] theorem State.updCluster_cycle (s : State) (c : Nat) (f : Cluster → Cluster) : (s.updCluster c f).cycle = s.cycle := rfl
@[simp] theorem State.updCluster_time (s : State) (c : Nat) (f : Cluster → Cluster) : (s.updCluster c f).time = s.time := rfl
@[simp] theorem State.updCluster_w (s : State) (c : Nat) (f : Cluster → Cluster) : (s.updCluster c f).w = s.w := rfl
@[simp] theorem State.updCluster_nextId (s : State) (c : Nat) (f : Cluster → Cluster) : (s.updCluster c f).nextId = s.nextId := rfl
@[simp] theorem State.updCluster_cur (s : State) (c : Nat) (f : Cluster → Cluster) : (s.updCluster c f).cur = s.cur := rfl
@[simp] theorem State.updCluster_word (s : State) (c : Nat) (f : Cluster → Cluster) : (s.updCluster c f).word = s.word := rfl
@[simp] theorem State.updCluster_late (s : State) (c : Nat) (f : Cluster → Cluster) : (s.updCluster c f).late = s.late := rfl
@[simp] theorem State.updCluster_free (s : State) (c : Nat) (f : Cluster → Cluster) : (s.updCluster c f).free = s.free := rfl
@[simp] theorem State.updCluster_schedule (s : State) (c : Nat) (f : Cluster → Cluster) : (s.updCluster c f).schedule = s.schedule := rfl

/-! ### updMyCluster -/

@[simp] theorem State.updMyCluster_cores (s : State) (f : Cluster → Cluster) : (s.updMyCluster f).cores = s.cores := rfl
@[simp] theorem State.updMyCluster_caravans (s : State) (f : Cluster → Cluster) : (s.updMyCluster f).caravans = s.caravans := rfl
@[simp] theorem State.updMyCluster_disps (s : State) (f : Cluster → Cluster) : (s.updMyCluster f).disps = s.disps := rfl
@[simp] theorem State.updMyCluster_queues (s : State) (f : Cluster → Cluster) : (s.updMyCluster f).queues = s.queues := rfl
@[simp] theorem State.updMyCluster_rr (s : State) (f : Cluster → Cluster) : (s.updMyCluster f).rr = s.rr := rfl
@[simp] theorem State.updMyCluster_parts (s : State) (f : Cluster → Cluster) : (s.updMyCluster f).parts = s.parts := rfl
@[simp] theorem State.updMyCluster_rots (s : State) (f : Cluster → Cluster) : (s.updMyCluster f).rots = s.rots := rfl
@[simp] theorem State.updMyCluster_mem (s : State) (f : Cluster → Cluster) : (s.updMyCluster f).mem = s.mem := rfl
@[simp] theorem State.updMyCluster_bad (s : State) (f : Cluster → Cluster) : (s.updMyCluster f).bad = s.bad := rfl
@[simp] theorem State.updMyCluster_frames (s : State) (f : Cluster → Cluster) : (s.updMyCluster f).frames = s.frames := rfl
@[simp] theorem State.updMyCluster_host (s : State) (f : Cluster → Cluster) : (s.updMyCluster f).host = s.host := rfl
@[simp] theorem State.updMyCluster_routes (s : State) (f : Cluster → Cluster) : (s.updMyCluster f).routes = s.routes := rfl
@[simp] theorem State.updMyCluster_walks (s : State) (f : Cluster → Cluster) : (s.updMyCluster f).walks = s.walks := rfl
@[simp] theorem State.updMyCluster_refuses (s : State) (f : Cluster → Cluster) : (s.updMyCluster f).refuses = s.refuses := rfl
@[simp] theorem State.updMyCluster_asks (s : State) (f : Cluster → Cluster) : (s.updMyCluster f).asks = s.asks := rfl
@[simp] theorem State.updMyCluster_cycle (s : State) (f : Cluster → Cluster) : (s.updMyCluster f).cycle = s.cycle := rfl
@[simp] theorem State.updMyCluster_time (s : State) (f : Cluster → Cluster) : (s.updMyCluster f).time = s.time := rfl
@[simp] theorem State.updMyCluster_w (s : State) (f : Cluster → Cluster) : (s.updMyCluster f).w = s.w := rfl
@[simp] theorem State.updMyCluster_nextId (s : State) (f : Cluster → Cluster) : (s.updMyCluster f).nextId = s.nextId := rfl
@[simp] theorem State.updMyCluster_cur (s : State) (f : Cluster → Cluster) : (s.updMyCluster f).cur = s.cur := rfl
@[simp] theorem State.updMyCluster_word (s : State) (f : Cluster → Cluster) : (s.updMyCluster f).word = s.word := rfl
@[simp] theorem State.updMyCluster_late (s : State) (f : Cluster → Cluster) : (s.updMyCluster f).late = s.late := rfl
@[simp] theorem State.updMyCluster_free (s : State) (f : Cluster → Cluster) : (s.updMyCluster f).free = s.free := rfl
@[simp] theorem State.updMyCluster_schedule (s : State) (f : Cluster → Cluster) : (s.updMyCluster f).schedule = s.schedule := rfl

/-! ### setCaravan -/

@[simp] theorem State.setCaravan_cores (s : State) (i : Nat) (c : Option Caravan) : (s.setCaravan i c).cores = s.cores := rfl
@[simp] theorem State.setCaravan_disps (s : State) (i : Nat) (c : Option Caravan) : (s.setCaravan i c).disps = s.disps := rfl
@[simp] theorem State.setCaravan_clusters (s : State) (i : Nat) (c : Option Caravan) : (s.setCaravan i c).clusters = s.clusters := rfl
@[simp] theorem State.setCaravan_queues (s : State) (i : Nat) (c : Option Caravan) : (s.setCaravan i c).queues = s.queues := rfl
@[simp] theorem State.setCaravan_rr (s : State) (i : Nat) (c : Option Caravan) : (s.setCaravan i c).rr = s.rr := rfl
@[simp] theorem State.setCaravan_parts (s : State) (i : Nat) (c : Option Caravan) : (s.setCaravan i c).parts = s.parts := rfl
@[simp] theorem State.setCaravan_rots (s : State) (i : Nat) (c : Option Caravan) : (s.setCaravan i c).rots = s.rots := rfl
@[simp] theorem State.setCaravan_mem (s : State) (i : Nat) (c : Option Caravan) : (s.setCaravan i c).mem = s.mem := rfl
@[simp] theorem State.setCaravan_bad (s : State) (i : Nat) (c : Option Caravan) : (s.setCaravan i c).bad = s.bad := rfl
@[simp] theorem State.setCaravan_frames (s : State) (i : Nat) (c : Option Caravan) : (s.setCaravan i c).frames = s.frames := rfl
@[simp] theorem State.setCaravan_host (s : State) (i : Nat) (c : Option Caravan) : (s.setCaravan i c).host = s.host := rfl
@[simp] theorem State.setCaravan_routes (s : State) (i : Nat) (c : Option Caravan) : (s.setCaravan i c).routes = s.routes := rfl
@[simp] theorem State.setCaravan_walks (s : State) (i : Nat) (c : Option Caravan) : (s.setCaravan i c).walks = s.walks := rfl
@[simp] theorem State.setCaravan_refuses (s : State) (i : Nat) (c : Option Caravan) : (s.setCaravan i c).refuses = s.refuses := rfl
@[simp] theorem State.setCaravan_asks (s : State) (i : Nat) (c : Option Caravan) : (s.setCaravan i c).asks = s.asks := rfl
@[simp] theorem State.setCaravan_cycle (s : State) (i : Nat) (c : Option Caravan) : (s.setCaravan i c).cycle = s.cycle := rfl
@[simp] theorem State.setCaravan_time (s : State) (i : Nat) (c : Option Caravan) : (s.setCaravan i c).time = s.time := rfl
@[simp] theorem State.setCaravan_w (s : State) (i : Nat) (c : Option Caravan) : (s.setCaravan i c).w = s.w := rfl
@[simp] theorem State.setCaravan_nextId (s : State) (i : Nat) (c : Option Caravan) : (s.setCaravan i c).nextId = s.nextId := rfl
@[simp] theorem State.setCaravan_cur (s : State) (i : Nat) (c : Option Caravan) : (s.setCaravan i c).cur = s.cur := rfl
@[simp] theorem State.setCaravan_word (s : State) (i : Nat) (c : Option Caravan) : (s.setCaravan i c).word = s.word := rfl
@[simp] theorem State.setCaravan_late (s : State) (i : Nat) (c : Option Caravan) : (s.setCaravan i c).late = s.late := rfl
@[simp] theorem State.setCaravan_free (s : State) (i : Nat) (c : Option Caravan) : (s.setCaravan i c).free = s.free := rfl
@[simp] theorem State.setCaravan_schedule (s : State) (i : Nat) (c : Option Caravan) : (s.setCaravan i c).schedule = s.schedule := rfl

/-! ### setDisp -/

@[simp] theorem State.setDisp_cores (s : State) (i : Nat) (d : Option Dispatch) : (s.setDisp i d).cores = s.cores := rfl
@[simp] theorem State.setDisp_caravans (s : State) (i : Nat) (d : Option Dispatch) : (s.setDisp i d).caravans = s.caravans := rfl
@[simp] theorem State.setDisp_clusters (s : State) (i : Nat) (d : Option Dispatch) : (s.setDisp i d).clusters = s.clusters := rfl
@[simp] theorem State.setDisp_queues (s : State) (i : Nat) (d : Option Dispatch) : (s.setDisp i d).queues = s.queues := rfl
@[simp] theorem State.setDisp_rr (s : State) (i : Nat) (d : Option Dispatch) : (s.setDisp i d).rr = s.rr := rfl
@[simp] theorem State.setDisp_parts (s : State) (i : Nat) (d : Option Dispatch) : (s.setDisp i d).parts = s.parts := rfl
@[simp] theorem State.setDisp_rots (s : State) (i : Nat) (d : Option Dispatch) : (s.setDisp i d).rots = s.rots := rfl
@[simp] theorem State.setDisp_mem (s : State) (i : Nat) (d : Option Dispatch) : (s.setDisp i d).mem = s.mem := rfl
@[simp] theorem State.setDisp_bad (s : State) (i : Nat) (d : Option Dispatch) : (s.setDisp i d).bad = s.bad := rfl
@[simp] theorem State.setDisp_frames (s : State) (i : Nat) (d : Option Dispatch) : (s.setDisp i d).frames = s.frames := rfl
@[simp] theorem State.setDisp_host (s : State) (i : Nat) (d : Option Dispatch) : (s.setDisp i d).host = s.host := rfl
@[simp] theorem State.setDisp_routes (s : State) (i : Nat) (d : Option Dispatch) : (s.setDisp i d).routes = s.routes := rfl
@[simp] theorem State.setDisp_walks (s : State) (i : Nat) (d : Option Dispatch) : (s.setDisp i d).walks = s.walks := rfl
@[simp] theorem State.setDisp_refuses (s : State) (i : Nat) (d : Option Dispatch) : (s.setDisp i d).refuses = s.refuses := rfl
@[simp] theorem State.setDisp_asks (s : State) (i : Nat) (d : Option Dispatch) : (s.setDisp i d).asks = s.asks := rfl
@[simp] theorem State.setDisp_cycle (s : State) (i : Nat) (d : Option Dispatch) : (s.setDisp i d).cycle = s.cycle := rfl
@[simp] theorem State.setDisp_time (s : State) (i : Nat) (d : Option Dispatch) : (s.setDisp i d).time = s.time := rfl
@[simp] theorem State.setDisp_w (s : State) (i : Nat) (d : Option Dispatch) : (s.setDisp i d).w = s.w := rfl
@[simp] theorem State.setDisp_nextId (s : State) (i : Nat) (d : Option Dispatch) : (s.setDisp i d).nextId = s.nextId := rfl
@[simp] theorem State.setDisp_cur (s : State) (i : Nat) (d : Option Dispatch) : (s.setDisp i d).cur = s.cur := rfl
@[simp] theorem State.setDisp_word (s : State) (i : Nat) (d : Option Dispatch) : (s.setDisp i d).word = s.word := rfl
@[simp] theorem State.setDisp_late (s : State) (i : Nat) (d : Option Dispatch) : (s.setDisp i d).late = s.late := rfl
@[simp] theorem State.setDisp_free (s : State) (i : Nat) (d : Option Dispatch) : (s.setDisp i d).free = s.free := rfl
@[simp] theorem State.setDisp_schedule (s : State) (i : Nat) (d : Option Dispatch) : (s.setDisp i d).schedule = s.schedule := rfl

/-! ### setQueue -/

@[simp] theorem State.setQueue_cores (s : State) (q : Nat) (x : Queue) : (s.setQueue q x).cores = s.cores := rfl
@[simp] theorem State.setQueue_caravans (s : State) (q : Nat) (x : Queue) : (s.setQueue q x).caravans = s.caravans := rfl
@[simp] theorem State.setQueue_disps (s : State) (q : Nat) (x : Queue) : (s.setQueue q x).disps = s.disps := rfl
@[simp] theorem State.setQueue_clusters (s : State) (q : Nat) (x : Queue) : (s.setQueue q x).clusters = s.clusters := rfl
@[simp] theorem State.setQueue_rr (s : State) (q : Nat) (x : Queue) : (s.setQueue q x).rr = s.rr := rfl
@[simp] theorem State.setQueue_parts (s : State) (q : Nat) (x : Queue) : (s.setQueue q x).parts = s.parts := rfl
@[simp] theorem State.setQueue_rots (s : State) (q : Nat) (x : Queue) : (s.setQueue q x).rots = s.rots := rfl
@[simp] theorem State.setQueue_mem (s : State) (q : Nat) (x : Queue) : (s.setQueue q x).mem = s.mem := rfl
@[simp] theorem State.setQueue_bad (s : State) (q : Nat) (x : Queue) : (s.setQueue q x).bad = s.bad := rfl
@[simp] theorem State.setQueue_frames (s : State) (q : Nat) (x : Queue) : (s.setQueue q x).frames = s.frames := rfl
@[simp] theorem State.setQueue_host (s : State) (q : Nat) (x : Queue) : (s.setQueue q x).host = s.host := rfl
@[simp] theorem State.setQueue_routes (s : State) (q : Nat) (x : Queue) : (s.setQueue q x).routes = s.routes := rfl
@[simp] theorem State.setQueue_walks (s : State) (q : Nat) (x : Queue) : (s.setQueue q x).walks = s.walks := rfl
@[simp] theorem State.setQueue_refuses (s : State) (q : Nat) (x : Queue) : (s.setQueue q x).refuses = s.refuses := rfl
@[simp] theorem State.setQueue_asks (s : State) (q : Nat) (x : Queue) : (s.setQueue q x).asks = s.asks := rfl
@[simp] theorem State.setQueue_cycle (s : State) (q : Nat) (x : Queue) : (s.setQueue q x).cycle = s.cycle := rfl
@[simp] theorem State.setQueue_time (s : State) (q : Nat) (x : Queue) : (s.setQueue q x).time = s.time := rfl
@[simp] theorem State.setQueue_w (s : State) (q : Nat) (x : Queue) : (s.setQueue q x).w = s.w := rfl
@[simp] theorem State.setQueue_nextId (s : State) (q : Nat) (x : Queue) : (s.setQueue q x).nextId = s.nextId := rfl
@[simp] theorem State.setQueue_cur (s : State) (q : Nat) (x : Queue) : (s.setQueue q x).cur = s.cur := rfl
@[simp] theorem State.setQueue_word (s : State) (q : Nat) (x : Queue) : (s.setQueue q x).word = s.word := rfl
@[simp] theorem State.setQueue_late (s : State) (q : Nat) (x : Queue) : (s.setQueue q x).late = s.late := rfl
@[simp] theorem State.setQueue_free (s : State) (q : Nat) (x : Queue) : (s.setQueue q x).free = s.free := rfl
@[simp] theorem State.setQueue_schedule (s : State) (q : Nat) (x : Queue) : (s.setQueue q x).schedule = s.schedule := rfl

/-! ### setPart -/

@[simp] theorem State.setPart_cores (s : State) (p : Nat) (x : Option Partition) : (s.setPart p x).cores = s.cores := rfl
@[simp] theorem State.setPart_caravans (s : State) (p : Nat) (x : Option Partition) : (s.setPart p x).caravans = s.caravans := rfl
@[simp] theorem State.setPart_disps (s : State) (p : Nat) (x : Option Partition) : (s.setPart p x).disps = s.disps := rfl
@[simp] theorem State.setPart_clusters (s : State) (p : Nat) (x : Option Partition) : (s.setPart p x).clusters = s.clusters := rfl
@[simp] theorem State.setPart_queues (s : State) (p : Nat) (x : Option Partition) : (s.setPart p x).queues = s.queues := rfl
@[simp] theorem State.setPart_rr (s : State) (p : Nat) (x : Option Partition) : (s.setPart p x).rr = s.rr := rfl
@[simp] theorem State.setPart_rots (s : State) (p : Nat) (x : Option Partition) : (s.setPart p x).rots = s.rots := rfl
@[simp] theorem State.setPart_mem (s : State) (p : Nat) (x : Option Partition) : (s.setPart p x).mem = s.mem := rfl
@[simp] theorem State.setPart_bad (s : State) (p : Nat) (x : Option Partition) : (s.setPart p x).bad = s.bad := rfl
@[simp] theorem State.setPart_frames (s : State) (p : Nat) (x : Option Partition) : (s.setPart p x).frames = s.frames := rfl
@[simp] theorem State.setPart_host (s : State) (p : Nat) (x : Option Partition) : (s.setPart p x).host = s.host := rfl
@[simp] theorem State.setPart_routes (s : State) (p : Nat) (x : Option Partition) : (s.setPart p x).routes = s.routes := rfl
@[simp] theorem State.setPart_walks (s : State) (p : Nat) (x : Option Partition) : (s.setPart p x).walks = s.walks := rfl
@[simp] theorem State.setPart_refuses (s : State) (p : Nat) (x : Option Partition) : (s.setPart p x).refuses = s.refuses := rfl
@[simp] theorem State.setPart_asks (s : State) (p : Nat) (x : Option Partition) : (s.setPart p x).asks = s.asks := rfl
@[simp] theorem State.setPart_cycle (s : State) (p : Nat) (x : Option Partition) : (s.setPart p x).cycle = s.cycle := rfl
@[simp] theorem State.setPart_time (s : State) (p : Nat) (x : Option Partition) : (s.setPart p x).time = s.time := rfl
@[simp] theorem State.setPart_w (s : State) (p : Nat) (x : Option Partition) : (s.setPart p x).w = s.w := rfl
@[simp] theorem State.setPart_nextId (s : State) (p : Nat) (x : Option Partition) : (s.setPart p x).nextId = s.nextId := rfl
@[simp] theorem State.setPart_cur (s : State) (p : Nat) (x : Option Partition) : (s.setPart p x).cur = s.cur := rfl
@[simp] theorem State.setPart_word (s : State) (p : Nat) (x : Option Partition) : (s.setPart p x).word = s.word := rfl
@[simp] theorem State.setPart_late (s : State) (p : Nat) (x : Option Partition) : (s.setPart p x).late = s.late := rfl
@[simp] theorem State.setPart_free (s : State) (p : Nat) (x : Option Partition) : (s.setPart p x).free = s.free := rfl
@[simp] theorem State.setPart_schedule (s : State) (p : Nat) (x : Option Partition) : (s.setPart p x).schedule = s.schedule := rfl

/-! ### putBytes -/

@[simp] theorem State.putBytes_cores (s : State) (es : List (Nat × Byte)) : (s.putBytes es).cores = s.cores := rfl
@[simp] theorem State.putBytes_caravans (s : State) (es : List (Nat × Byte)) : (s.putBytes es).caravans = s.caravans := rfl
@[simp] theorem State.putBytes_disps (s : State) (es : List (Nat × Byte)) : (s.putBytes es).disps = s.disps := rfl
@[simp] theorem State.putBytes_clusters (s : State) (es : List (Nat × Byte)) : (s.putBytes es).clusters = s.clusters := rfl
@[simp] theorem State.putBytes_queues (s : State) (es : List (Nat × Byte)) : (s.putBytes es).queues = s.queues := rfl
@[simp] theorem State.putBytes_rr (s : State) (es : List (Nat × Byte)) : (s.putBytes es).rr = s.rr := rfl
@[simp] theorem State.putBytes_parts (s : State) (es : List (Nat × Byte)) : (s.putBytes es).parts = s.parts := rfl
@[simp] theorem State.putBytes_rots (s : State) (es : List (Nat × Byte)) : (s.putBytes es).rots = s.rots := rfl
@[simp] theorem State.putBytes_bad (s : State) (es : List (Nat × Byte)) : (s.putBytes es).bad = s.bad := rfl
@[simp] theorem State.putBytes_frames (s : State) (es : List (Nat × Byte)) : (s.putBytes es).frames = s.frames := rfl
@[simp] theorem State.putBytes_host (s : State) (es : List (Nat × Byte)) : (s.putBytes es).host = s.host := rfl
@[simp] theorem State.putBytes_routes (s : State) (es : List (Nat × Byte)) : (s.putBytes es).routes = s.routes := rfl
@[simp] theorem State.putBytes_walks (s : State) (es : List (Nat × Byte)) : (s.putBytes es).walks = s.walks := rfl
@[simp] theorem State.putBytes_refuses (s : State) (es : List (Nat × Byte)) : (s.putBytes es).refuses = s.refuses := rfl
@[simp] theorem State.putBytes_asks (s : State) (es : List (Nat × Byte)) : (s.putBytes es).asks = s.asks := rfl
@[simp] theorem State.putBytes_cycle (s : State) (es : List (Nat × Byte)) : (s.putBytes es).cycle = s.cycle := rfl
@[simp] theorem State.putBytes_time (s : State) (es : List (Nat × Byte)) : (s.putBytes es).time = s.time := rfl
@[simp] theorem State.putBytes_w (s : State) (es : List (Nat × Byte)) : (s.putBytes es).w = s.w := rfl
@[simp] theorem State.putBytes_nextId (s : State) (es : List (Nat × Byte)) : (s.putBytes es).nextId = s.nextId := rfl
@[simp] theorem State.putBytes_cur (s : State) (es : List (Nat × Byte)) : (s.putBytes es).cur = s.cur := rfl
@[simp] theorem State.putBytes_word (s : State) (es : List (Nat × Byte)) : (s.putBytes es).word = s.word := rfl
@[simp] theorem State.putBytes_late (s : State) (es : List (Nat × Byte)) : (s.putBytes es).late = s.late := rfl
@[simp] theorem State.putBytes_free (s : State) (es : List (Nat × Byte)) : (s.putBytes es).free = s.free := rfl
@[simp] theorem State.putBytes_schedule (s : State) (es : List (Nat × Byte)) : (s.putBytes es).schedule = s.schedule := rfl

/-! ### fqPush -/

@[simp] theorem State.fqPush_cores (s : State) (a b : Nat) : (s.fqPush a b).cores = s.cores := rfl
@[simp] theorem State.fqPush_caravans (s : State) (a b : Nat) : (s.fqPush a b).caravans = s.caravans := rfl
@[simp] theorem State.fqPush_disps (s : State) (a b : Nat) : (s.fqPush a b).disps = s.disps := rfl
@[simp] theorem State.fqPush_clusters (s : State) (a b : Nat) : (s.fqPush a b).clusters = s.clusters := rfl
@[simp] theorem State.fqPush_queues (s : State) (a b : Nat) : (s.fqPush a b).queues = s.queues := rfl
@[simp] theorem State.fqPush_rr (s : State) (a b : Nat) : (s.fqPush a b).rr = s.rr := rfl
@[simp] theorem State.fqPush_parts (s : State) (a b : Nat) : (s.fqPush a b).parts = s.parts := rfl
@[simp] theorem State.fqPush_rots (s : State) (a b : Nat) : (s.fqPush a b).rots = s.rots := rfl
@[simp] theorem State.fqPush_mem (s : State) (a b : Nat) : (s.fqPush a b).mem = s.mem := rfl
@[simp] theorem State.fqPush_bad (s : State) (a b : Nat) : (s.fqPush a b).bad = s.bad := rfl
@[simp] theorem State.fqPush_frames (s : State) (a b : Nat) : (s.fqPush a b).frames = s.frames := rfl
@[simp] theorem State.fqPush_routes (s : State) (a b : Nat) : (s.fqPush a b).routes = s.routes := rfl
@[simp] theorem State.fqPush_walks (s : State) (a b : Nat) : (s.fqPush a b).walks = s.walks := rfl
@[simp] theorem State.fqPush_refuses (s : State) (a b : Nat) : (s.fqPush a b).refuses = s.refuses := rfl
@[simp] theorem State.fqPush_asks (s : State) (a b : Nat) : (s.fqPush a b).asks = s.asks := rfl
@[simp] theorem State.fqPush_cycle (s : State) (a b : Nat) : (s.fqPush a b).cycle = s.cycle := rfl
@[simp] theorem State.fqPush_time (s : State) (a b : Nat) : (s.fqPush a b).time = s.time := rfl
@[simp] theorem State.fqPush_w (s : State) (a b : Nat) : (s.fqPush a b).w = s.w := rfl
@[simp] theorem State.fqPush_nextId (s : State) (a b : Nat) : (s.fqPush a b).nextId = s.nextId := rfl
@[simp] theorem State.fqPush_cur (s : State) (a b : Nat) : (s.fqPush a b).cur = s.cur := rfl
@[simp] theorem State.fqPush_word (s : State) (a b : Nat) : (s.fqPush a b).word = s.word := rfl
@[simp] theorem State.fqPush_late (s : State) (a b : Nat) : (s.fqPush a b).late = s.late := rfl
@[simp] theorem State.fqPush_free (s : State) (a b : Nat) : (s.fqPush a b).free = s.free := rfl
@[simp] theorem State.fqPush_schedule (s : State) (a b : Nat) : (s.fqPush a b).schedule = s.schedule := rfl

/-! ### updDisp -/

@[simp] theorem State.updDisp_cores (s : State) (i : Nat) (f : Dispatch → Dispatch) : (s.updDisp i f).cores = s.cores := by unfold State.updDisp; split <;> rfl
@[simp] theorem State.updDisp_caravans (s : State) (i : Nat) (f : Dispatch → Dispatch) : (s.updDisp i f).caravans = s.caravans := by unfold State.updDisp; split <;> rfl
@[simp] theorem State.updDisp_clusters (s : State) (i : Nat) (f : Dispatch → Dispatch) : (s.updDisp i f).clusters = s.clusters := by unfold State.updDisp; split <;> rfl
@[simp] theorem State.updDisp_queues (s : State) (i : Nat) (f : Dispatch → Dispatch) : (s.updDisp i f).queues = s.queues := by unfold State.updDisp; split <;> rfl
@[simp] theorem State.updDisp_rr (s : State) (i : Nat) (f : Dispatch → Dispatch) : (s.updDisp i f).rr = s.rr := by unfold State.updDisp; split <;> rfl
@[simp] theorem State.updDisp_parts (s : State) (i : Nat) (f : Dispatch → Dispatch) : (s.updDisp i f).parts = s.parts := by unfold State.updDisp; split <;> rfl
@[simp] theorem State.updDisp_rots (s : State) (i : Nat) (f : Dispatch → Dispatch) : (s.updDisp i f).rots = s.rots := by unfold State.updDisp; split <;> rfl
@[simp] theorem State.updDisp_mem (s : State) (i : Nat) (f : Dispatch → Dispatch) : (s.updDisp i f).mem = s.mem := by unfold State.updDisp; split <;> rfl
@[simp] theorem State.updDisp_bad (s : State) (i : Nat) (f : Dispatch → Dispatch) : (s.updDisp i f).bad = s.bad := by unfold State.updDisp; split <;> rfl
@[simp] theorem State.updDisp_frames (s : State) (i : Nat) (f : Dispatch → Dispatch) : (s.updDisp i f).frames = s.frames := by unfold State.updDisp; split <;> rfl
@[simp] theorem State.updDisp_host (s : State) (i : Nat) (f : Dispatch → Dispatch) : (s.updDisp i f).host = s.host := by unfold State.updDisp; split <;> rfl
@[simp] theorem State.updDisp_routes (s : State) (i : Nat) (f : Dispatch → Dispatch) : (s.updDisp i f).routes = s.routes := by unfold State.updDisp; split <;> rfl
@[simp] theorem State.updDisp_walks (s : State) (i : Nat) (f : Dispatch → Dispatch) : (s.updDisp i f).walks = s.walks := by unfold State.updDisp; split <;> rfl
@[simp] theorem State.updDisp_refuses (s : State) (i : Nat) (f : Dispatch → Dispatch) : (s.updDisp i f).refuses = s.refuses := by unfold State.updDisp; split <;> rfl
@[simp] theorem State.updDisp_asks (s : State) (i : Nat) (f : Dispatch → Dispatch) : (s.updDisp i f).asks = s.asks := by unfold State.updDisp; split <;> rfl
@[simp] theorem State.updDisp_cycle (s : State) (i : Nat) (f : Dispatch → Dispatch) : (s.updDisp i f).cycle = s.cycle := by unfold State.updDisp; split <;> rfl
@[simp] theorem State.updDisp_time (s : State) (i : Nat) (f : Dispatch → Dispatch) : (s.updDisp i f).time = s.time := by unfold State.updDisp; split <;> rfl
@[simp] theorem State.updDisp_w (s : State) (i : Nat) (f : Dispatch → Dispatch) : (s.updDisp i f).w = s.w := by unfold State.updDisp; split <;> rfl
@[simp] theorem State.updDisp_nextId (s : State) (i : Nat) (f : Dispatch → Dispatch) : (s.updDisp i f).nextId = s.nextId := by unfold State.updDisp; split <;> rfl
@[simp] theorem State.updDisp_cur (s : State) (i : Nat) (f : Dispatch → Dispatch) : (s.updDisp i f).cur = s.cur := by unfold State.updDisp; split <;> rfl
@[simp] theorem State.updDisp_word (s : State) (i : Nat) (f : Dispatch → Dispatch) : (s.updDisp i f).word = s.word := by unfold State.updDisp; split <;> rfl
@[simp] theorem State.updDisp_late (s : State) (i : Nat) (f : Dispatch → Dispatch) : (s.updDisp i f).late = s.late := by unfold State.updDisp; split <;> rfl
@[simp] theorem State.updDisp_free (s : State) (i : Nat) (f : Dispatch → Dispatch) : (s.updDisp i f).free = s.free := by unfold State.updDisp; split <;> rfl
@[simp] theorem State.updDisp_schedule (s : State) (i : Nat) (f : Dispatch → Dispatch) : (s.updDisp i f).schedule = s.schedule := by unfold State.updDisp; split <;> rfl

/-! ### updPart -/

@[simp] theorem State.updPart_cores (s : State) (i : Nat) (f : Partition → Partition) : (s.updPart i f).cores = s.cores := by unfold State.updPart; split <;> rfl
@[simp] theorem State.updPart_caravans (s : State) (i : Nat) (f : Partition → Partition) : (s.updPart i f).caravans = s.caravans := by unfold State.updPart; split <;> rfl
@[simp] theorem State.updPart_disps (s : State) (i : Nat) (f : Partition → Partition) : (s.updPart i f).disps = s.disps := by unfold State.updPart; split <;> rfl
@[simp] theorem State.updPart_clusters (s : State) (i : Nat) (f : Partition → Partition) : (s.updPart i f).clusters = s.clusters := by unfold State.updPart; split <;> rfl
@[simp] theorem State.updPart_queues (s : State) (i : Nat) (f : Partition → Partition) : (s.updPart i f).queues = s.queues := by unfold State.updPart; split <;> rfl
@[simp] theorem State.updPart_rr (s : State) (i : Nat) (f : Partition → Partition) : (s.updPart i f).rr = s.rr := by unfold State.updPart; split <;> rfl
@[simp] theorem State.updPart_rots (s : State) (i : Nat) (f : Partition → Partition) : (s.updPart i f).rots = s.rots := by unfold State.updPart; split <;> rfl
@[simp] theorem State.updPart_mem (s : State) (i : Nat) (f : Partition → Partition) : (s.updPart i f).mem = s.mem := by unfold State.updPart; split <;> rfl
@[simp] theorem State.updPart_bad (s : State) (i : Nat) (f : Partition → Partition) : (s.updPart i f).bad = s.bad := by unfold State.updPart; split <;> rfl
@[simp] theorem State.updPart_frames (s : State) (i : Nat) (f : Partition → Partition) : (s.updPart i f).frames = s.frames := by unfold State.updPart; split <;> rfl
@[simp] theorem State.updPart_host (s : State) (i : Nat) (f : Partition → Partition) : (s.updPart i f).host = s.host := by unfold State.updPart; split <;> rfl
@[simp] theorem State.updPart_routes (s : State) (i : Nat) (f : Partition → Partition) : (s.updPart i f).routes = s.routes := by unfold State.updPart; split <;> rfl
@[simp] theorem State.updPart_walks (s : State) (i : Nat) (f : Partition → Partition) : (s.updPart i f).walks = s.walks := by unfold State.updPart; split <;> rfl
@[simp] theorem State.updPart_refuses (s : State) (i : Nat) (f : Partition → Partition) : (s.updPart i f).refuses = s.refuses := by unfold State.updPart; split <;> rfl
@[simp] theorem State.updPart_asks (s : State) (i : Nat) (f : Partition → Partition) : (s.updPart i f).asks = s.asks := by unfold State.updPart; split <;> rfl
@[simp] theorem State.updPart_cycle (s : State) (i : Nat) (f : Partition → Partition) : (s.updPart i f).cycle = s.cycle := by unfold State.updPart; split <;> rfl
@[simp] theorem State.updPart_time (s : State) (i : Nat) (f : Partition → Partition) : (s.updPart i f).time = s.time := by unfold State.updPart; split <;> rfl
@[simp] theorem State.updPart_w (s : State) (i : Nat) (f : Partition → Partition) : (s.updPart i f).w = s.w := by unfold State.updPart; split <;> rfl
@[simp] theorem State.updPart_nextId (s : State) (i : Nat) (f : Partition → Partition) : (s.updPart i f).nextId = s.nextId := by unfold State.updPart; split <;> rfl
@[simp] theorem State.updPart_cur (s : State) (i : Nat) (f : Partition → Partition) : (s.updPart i f).cur = s.cur := by unfold State.updPart; split <;> rfl
@[simp] theorem State.updPart_word (s : State) (i : Nat) (f : Partition → Partition) : (s.updPart i f).word = s.word := by unfold State.updPart; split <;> rfl
@[simp] theorem State.updPart_late (s : State) (i : Nat) (f : Partition → Partition) : (s.updPart i f).late = s.late := by unfold State.updPart; split <;> rfl
@[simp] theorem State.updPart_free (s : State) (i : Nat) (f : Partition → Partition) : (s.updPart i f).free = s.free := by unfold State.updPart; split <;> rfl
@[simp] theorem State.updPart_schedule (s : State) (i : Nat) (f : Partition → Partition) : (s.updPart i f).schedule = s.schedule := by unfold State.updPart; split <;> rfl

/-! ### markDirty -/

@[simp] theorem State.markDirty_cores (s : State) (loc : Nat) : (s.markDirty loc).cores = s.cores := by unfold State.markDirty; split <;> rfl
@[simp] theorem State.markDirty_caravans (s : State) (loc : Nat) : (s.markDirty loc).caravans = s.caravans := by unfold State.markDirty; split <;> rfl
@[simp] theorem State.markDirty_disps (s : State) (loc : Nat) : (s.markDirty loc).disps = s.disps := by unfold State.markDirty; split <;> rfl
@[simp] theorem State.markDirty_clusters (s : State) (loc : Nat) : (s.markDirty loc).clusters = s.clusters := by unfold State.markDirty; split <;> rfl
@[simp] theorem State.markDirty_queues (s : State) (loc : Nat) : (s.markDirty loc).queues = s.queues := by unfold State.markDirty; split <;> rfl
@[simp] theorem State.markDirty_rr (s : State) (loc : Nat) : (s.markDirty loc).rr = s.rr := by unfold State.markDirty; split <;> rfl
@[simp] theorem State.markDirty_parts (s : State) (loc : Nat) : (s.markDirty loc).parts = s.parts := by unfold State.markDirty; split <;> rfl
@[simp] theorem State.markDirty_rots (s : State) (loc : Nat) : (s.markDirty loc).rots = s.rots := by unfold State.markDirty; split <;> rfl
@[simp] theorem State.markDirty_bad (s : State) (loc : Nat) : (s.markDirty loc).bad = s.bad := by unfold State.markDirty; split <;> rfl
@[simp] theorem State.markDirty_frames (s : State) (loc : Nat) : (s.markDirty loc).frames = s.frames := by unfold State.markDirty; split <;> rfl
@[simp] theorem State.markDirty_host (s : State) (loc : Nat) : (s.markDirty loc).host = s.host := by unfold State.markDirty; split <;> rfl
@[simp] theorem State.markDirty_routes (s : State) (loc : Nat) : (s.markDirty loc).routes = s.routes := by unfold State.markDirty; split <;> rfl
@[simp] theorem State.markDirty_walks (s : State) (loc : Nat) : (s.markDirty loc).walks = s.walks := by unfold State.markDirty; split <;> rfl
@[simp] theorem State.markDirty_refuses (s : State) (loc : Nat) : (s.markDirty loc).refuses = s.refuses := by unfold State.markDirty; split <;> rfl
@[simp] theorem State.markDirty_asks (s : State) (loc : Nat) : (s.markDirty loc).asks = s.asks := by unfold State.markDirty; split <;> rfl
@[simp] theorem State.markDirty_cycle (s : State) (loc : Nat) : (s.markDirty loc).cycle = s.cycle := by unfold State.markDirty; split <;> rfl
@[simp] theorem State.markDirty_time (s : State) (loc : Nat) : (s.markDirty loc).time = s.time := by unfold State.markDirty; split <;> rfl
@[simp] theorem State.markDirty_w (s : State) (loc : Nat) : (s.markDirty loc).w = s.w := by unfold State.markDirty; split <;> rfl
@[simp] theorem State.markDirty_nextId (s : State) (loc : Nat) : (s.markDirty loc).nextId = s.nextId := by unfold State.markDirty; split <;> rfl
@[simp] theorem State.markDirty_cur (s : State) (loc : Nat) : (s.markDirty loc).cur = s.cur := by unfold State.markDirty; split <;> rfl
@[simp] theorem State.markDirty_word (s : State) (loc : Nat) : (s.markDirty loc).word = s.word := by unfold State.markDirty; split <;> rfl
@[simp] theorem State.markDirty_late (s : State) (loc : Nat) : (s.markDirty loc).late = s.late := by unfold State.markDirty; split <;> rfl
@[simp] theorem State.markDirty_free (s : State) (loc : Nat) : (s.markDirty loc).free = s.free := by unfold State.markDirty; split <;> rfl
@[simp] theorem State.markDirty_schedule (s : State) (loc : Nat) : (s.markDirty loc).schedule = s.schedule := by unfold State.markDirty; split <;> rfl

/-! ### Cores -/

@[simp] theorem State.core_setCore (s : State) (g j : Nat) (c : Core) : (s.setCore g c).core j = if j = g then c else s.core j :=
  Sparse.get_set _ _ _ _ _
@[simp] theorem State.core_updCore (s : State) (g j : Nat) (f : Core → Core) :
    (s.updCore g f).core j = if j = g then f (s.core g) else s.core j := Sparse.get_set _ _ _ _ _
@[simp] theorem State.core_upd (s : State) (j : Nat) (f : Core → Core) : (s.upd f).core j = if j = s.cur then f s.me else s.core j :=
  Sparse.get_set _ _ _ _ _
@[simp] theorem State.me_upd (s : State) (f : Core → Core) : (s.upd f).me = f s.me := Sparse.get_set_same _ _ _ _
@[simp] theorem State.core_cur (s : State) : s.core s.cur = s.me := rfl

@[simp] theorem State.core_setCluster (s : State) (j : Nat) (c : Nat) (x : Cluster) : (s.setCluster c x).core j = s.core j := rfl
@[simp] theorem State.me_setCluster (s : State) (c : Nat) (x : Cluster) : (s.setCluster c x).me = s.me := rfl
@[simp] theorem State.core_updCluster (s : State) (j : Nat) (c : Nat) (f : Cluster → Cluster) : (s.updCluster c f).core j = s.core j := rfl
@[simp] theorem State.me_updCluster (s : State) (c : Nat) (f : Cluster → Cluster) : (s.updCluster c f).me = s.me := rfl
@[simp] theorem State.core_updMyCluster (s : State) (j : Nat) (f : Cluster → Cluster) : (s.updMyCluster f).core j = s.core j := rfl
@[simp] theorem State.me_updMyCluster (s : State) (f : Cluster → Cluster) : (s.updMyCluster f).me = s.me := rfl
@[simp] theorem State.core_setCaravan (s : State) (j : Nat) (i : Nat) (c : Option Caravan) : (s.setCaravan i c).core j = s.core j := rfl
@[simp] theorem State.me_setCaravan (s : State) (i : Nat) (c : Option Caravan) : (s.setCaravan i c).me = s.me := rfl
@[simp] theorem State.core_setDisp (s : State) (j : Nat) (i : Nat) (d : Option Dispatch) : (s.setDisp i d).core j = s.core j := rfl
@[simp] theorem State.me_setDisp (s : State) (i : Nat) (d : Option Dispatch) : (s.setDisp i d).me = s.me := rfl
@[simp] theorem State.core_setQueue (s : State) (j : Nat) (q : Nat) (x : Queue) : (s.setQueue q x).core j = s.core j := rfl
@[simp] theorem State.me_setQueue (s : State) (q : Nat) (x : Queue) : (s.setQueue q x).me = s.me := rfl
@[simp] theorem State.core_setPart (s : State) (j : Nat) (p : Nat) (x : Option Partition) : (s.setPart p x).core j = s.core j := rfl
@[simp] theorem State.me_setPart (s : State) (p : Nat) (x : Option Partition) : (s.setPart p x).me = s.me := rfl
@[simp] theorem State.core_putBytes (s : State) (j : Nat) (es : List (Nat × Byte)) : (s.putBytes es).core j = s.core j := rfl
@[simp] theorem State.me_putBytes (s : State) (es : List (Nat × Byte)) : (s.putBytes es).me = s.me := rfl
@[simp] theorem State.core_fqPush (s : State) (j : Nat) (a b : Nat) : (s.fqPush a b).core j = s.core j := rfl
@[simp] theorem State.me_fqPush (s : State) (a b : Nat) : (s.fqPush a b).me = s.me := rfl
@[simp] theorem State.core_updDisp (s : State) (j : Nat) (i : Nat) (f : Dispatch → Dispatch) : (s.updDisp i f).core j = s.core j := by unfold State.updDisp; split <;> rfl
@[simp] theorem State.me_updDisp (s : State) (i : Nat) (f : Dispatch → Dispatch) : (s.updDisp i f).me = s.me := by unfold State.updDisp; split <;> rfl
@[simp] theorem State.core_updPart (s : State) (j : Nat) (i : Nat) (f : Partition → Partition) : (s.updPart i f).core j = s.core j := by unfold State.updPart; split <;> rfl
@[simp] theorem State.me_updPart (s : State) (i : Nat) (f : Partition → Partition) : (s.updPart i f).me = s.me := by unfold State.updPart; split <;> rfl
@[simp] theorem State.core_markDirty (s : State) (j : Nat) (loc : Nat) : (s.markDirty loc).core j = s.core j := by unfold State.markDirty; split <;> rfl
@[simp] theorem State.me_markDirty (s : State) (loc : Nat) : (s.markDirty loc).me = s.me := by unfold State.markDirty; split <;> rfl

@[simp] theorem State.me_setS (s : State) {n : Nat} (d : BitVec n) (v : Word) : (s.setS d v).me = s.me.setS d.toNat v := State.me_upd _ _
@[simp] theorem State.core_setS (s : State) (j : Nat) {n : Nat} (d : BitVec n) (v : Word) : (s.setS d v).core j = if j = s.cur then s.me.setS d.toNat v else s.core j := State.core_upd _ _ _
@[simp] theorem State.me_setV (s : State) {n : Nat} (d : BitVec n) (v : VReg) : (s.setV d v).me = s.me.setV d.toNat v := State.me_upd _ _
@[simp] theorem State.core_setV (s : State) (j : Nat) {n : Nat} (d : BitVec n) (v : VReg) : (s.setV d v).core j = if j = s.cur then s.me.setV d.toNat v else s.core j := State.core_upd _ _ _
@[simp] theorem State.me_setK (s : State) {n : Nat} (d : BitVec n) (v : KReg) : (s.setK d v).me = s.me.setK d.toNat v := State.me_upd _ _
@[simp] theorem State.core_setK (s : State) (j : Nat) {n : Nat} (d : BitVec n) (v : KReg) : (s.setK d v).core j = if j = s.cur then s.me.setK d.toNat v else s.core j := State.core_upd _ _ _
@[simp] theorem State.me_goto (s : State) (a : Word) : (s.goto a).me = s.me.goto a := State.me_upd _ _
@[simp] theorem State.core_goto (s : State) (j : Nat) (a : Word) : (s.goto a).core j = if j = s.cur then s.me.goto a else s.core j := State.core_upd _ _ _
@[simp] theorem State.me_advance (s : State)  : (s.advance).me = s.me.goto (s.pc + 4) := State.me_upd _ _
@[simp] theorem State.core_advance (s : State) (j : Nat)  : (s.advance).core j = if j = s.cur then s.me.goto (s.pc + 4) else s.core j := State.core_upd _ _ _
@[simp] theorem State.me_setHold (s : State) (h : Hold) : (s.setHold h).me = s.me.sch (fun x => { x with hold := h }) := State.me_upd _ _
@[simp] theorem State.core_setHold (s : State) (j : Nat) (h : Hold) : (s.setHold h).core j = if j = s.cur then s.me.sch (fun x => { x with hold := h }) else s.core j := State.core_upd _ _ _
@[simp] theorem State.me_setSeed (s : State) (x : Word) : (s.setSeed x).me = s.me.updCsr (fun c => { c with srseed := x }) := State.me_upd _ _
@[simp] theorem State.core_setSeed (s : State) (j : Nat) (x : Word) : (s.setSeed x).core j = if j = s.cur then s.me.updCsr (fun c => { c with srseed := x }) else s.core j := State.core_upd _ _ _
@[simp] theorem State.me_raise (s : State) (x : Nat) : (s.raise x).me = s.me.updCsr (fun c => { c with fflags := c.fflags ||| BitVec.ofNat 64 (x % 32) }) := State.me_upd _ _
@[simp] theorem State.core_raise (s : State) (j : Nat) (x : Nat) : (s.raise x).core j = if j = s.cur then s.me.updCsr (fun c => { c with fflags := c.fflags ||| BitVec.ofNat 64 (x % 32) }) else s.core j := State.core_upd _ _ _

/-! ### Fields of a core -/

@[simp] theorem Core.goto_sup (c : Core) (a : Word) : (c.goto a).sup = c.sup := rfl
@[simp] theorem Core.goto_regs (c : Core) (a : Word) : (c.goto a).regs = c.regs := rfl
@[simp] theorem Core.goto_csr (c : Core) (a : Word) : (c.goto a).csr = c.csr := rfl
@[simp] theorem Core.goto_hitch (c : Core) (a : Word) : (c.goto a).hitch = c.hitch := rfl
@[simp] theorem Core.goto_wins (c : Core) (a : Word) : (c.goto a).wins = c.wins := rfl
@[simp] theorem Core.goto_mail (c : Core) (a : Word) : (c.goto a).mail = c.mail := rfl
@[simp] theorem Core.goto_chans (c : Core) (a : Word) : (c.goto a).chans = c.chans := rfl
@[simp] theorem Core.goto_sc (c : Core) (a : Word) : (c.goto a).sc = c.sc := rfl
@[simp] theorem Core.goto_obs (c : Core) (a : Word) : (c.goto a).obs = c.obs := rfl
@[simp] theorem Core.goto_mem (c : Core) (a : Word) : (c.goto a).mem = c.mem := rfl
@[simp] theorem Core.setV_pc (c : Core) (i : Nat) (v : VReg) : (c.setV i v).pc = c.pc := rfl
@[simp] theorem Core.setV_sup (c : Core) (i : Nat) (v : VReg) : (c.setV i v).sup = c.sup := rfl
@[simp] theorem Core.setV_csr (c : Core) (i : Nat) (v : VReg) : (c.setV i v).csr = c.csr := rfl
@[simp] theorem Core.setV_hitch (c : Core) (i : Nat) (v : VReg) : (c.setV i v).hitch = c.hitch := rfl
@[simp] theorem Core.setV_wins (c : Core) (i : Nat) (v : VReg) : (c.setV i v).wins = c.wins := rfl
@[simp] theorem Core.setV_mail (c : Core) (i : Nat) (v : VReg) : (c.setV i v).mail = c.mail := rfl
@[simp] theorem Core.setV_chans (c : Core) (i : Nat) (v : VReg) : (c.setV i v).chans = c.chans := rfl
@[simp] theorem Core.setV_sc (c : Core) (i : Nat) (v : VReg) : (c.setV i v).sc = c.sc := rfl
@[simp] theorem Core.setV_obs (c : Core) (i : Nat) (v : VReg) : (c.setV i v).obs = c.obs := rfl
@[simp] theorem Core.setV_mem (c : Core) (i : Nat) (v : VReg) : (c.setV i v).mem = c.mem := rfl
@[simp] theorem Core.setV_sched (c : Core) (i : Nat) (v : VReg) : (c.setV i v).sched = c.sched := rfl
@[simp] theorem Core.setW_pc (c : Core) (i : Nat) (v : Walker) : (c.setW i v).pc = c.pc := rfl
@[simp] theorem Core.bindW_pc (c : Core) (i : Nat) (v : Walker) : (c.bindW i v).pc = c.pc := rfl
@[simp] theorem Core.setW_sup (c : Core) (i : Nat) (v : Walker) : (c.setW i v).sup = c.sup := rfl
@[simp] theorem Core.bindW_sup (c : Core) (i : Nat) (v : Walker) : (c.bindW i v).sup = c.sup := rfl
@[simp] theorem Core.setW_csr (c : Core) (i : Nat) (v : Walker) : (c.setW i v).csr = c.csr := rfl
@[simp] theorem Core.bindW_csr (c : Core) (i : Nat) (v : Walker) : (c.bindW i v).csr = c.csr := rfl
@[simp] theorem Core.setW_hitch (c : Core) (i : Nat) (v : Walker) : (c.setW i v).hitch = c.hitch := rfl
@[simp] theorem Core.bindW_hitch (c : Core) (i : Nat) (v : Walker) : (c.bindW i v).hitch = c.hitch := rfl
@[simp] theorem Core.setW_wins (c : Core) (i : Nat) (v : Walker) : (c.setW i v).wins = c.wins := rfl
@[simp] theorem Core.bindW_wins (c : Core) (i : Nat) (v : Walker) : (c.bindW i v).wins = c.wins := rfl
@[simp] theorem Core.setW_mail (c : Core) (i : Nat) (v : Walker) : (c.setW i v).mail = c.mail := rfl
@[simp] theorem Core.bindW_mail (c : Core) (i : Nat) (v : Walker) : (c.bindW i v).mail = c.mail := rfl
@[simp] theorem Core.setW_chans (c : Core) (i : Nat) (v : Walker) : (c.setW i v).chans = c.chans := rfl
@[simp] theorem Core.bindW_chans (c : Core) (i : Nat) (v : Walker) : (c.bindW i v).chans = c.chans := rfl
@[simp] theorem Core.setW_sc (c : Core) (i : Nat) (v : Walker) : (c.setW i v).sc = c.sc := rfl
@[simp] theorem Core.bindW_sc (c : Core) (i : Nat) (v : Walker) : (c.bindW i v).sc = c.sc := rfl
@[simp] theorem Core.setW_obs (c : Core) (i : Nat) (v : Walker) : (c.setW i v).obs = c.obs := rfl
@[simp] theorem Core.bindW_obs (c : Core) (i : Nat) (v : Walker) : (c.bindW i v).obs = c.obs := rfl
@[simp] theorem Core.setW_mem (c : Core) (i : Nat) (v : Walker) : (c.setW i v).mem = c.mem := rfl
@[simp] theorem Core.bindW_mem (c : Core) (i : Nat) (v : Walker) : (c.bindW i v).mem = c.mem := rfl
@[simp] theorem Core.setW_sched (c : Core) (i : Nat) (v : Walker) : (c.setW i v).sched = c.sched := rfl
@[simp] theorem Core.bindW_sched (c : Core) (i : Nat) (v : Walker) : (c.bindW i v).sched = c.sched := rfl
@[simp] theorem Core.setM_pc (c : Core) (i : Nat) (v : MAcc) (on : List Nat) : (c.setM i v on).pc = c.pc := rfl
@[simp] theorem Core.setM_sup (c : Core) (i : Nat) (v : MAcc) (on : List Nat) : (c.setM i v on).sup = c.sup := rfl
@[simp] theorem Core.setM_csr (c : Core) (i : Nat) (v : MAcc) (on : List Nat) : (c.setM i v on).csr = c.csr := rfl
@[simp] theorem Core.setM_hitch (c : Core) (i : Nat) (v : MAcc) (on : List Nat) : (c.setM i v on).hitch = c.hitch := rfl
@[simp] theorem Core.setM_wins (c : Core) (i : Nat) (v : MAcc) (on : List Nat) : (c.setM i v on).wins = c.wins := rfl
@[simp] theorem Core.setM_mail (c : Core) (i : Nat) (v : MAcc) (on : List Nat) : (c.setM i v on).mail = c.mail := rfl
@[simp] theorem Core.setM_chans (c : Core) (i : Nat) (v : MAcc) (on : List Nat) : (c.setM i v on).chans = c.chans := rfl
@[simp] theorem Core.setM_sc (c : Core) (i : Nat) (v : MAcc) (on : List Nat) : (c.setM i v on).sc = c.sc := rfl
@[simp] theorem Core.setM_obs (c : Core) (i : Nat) (v : MAcc) (on : List Nat) : (c.setM i v on).obs = c.obs := rfl
@[simp] theorem Core.setM_mem (c : Core) (i : Nat) (v : MAcc) (on : List Nat) : (c.setM i v on).mem = c.mem := rfl
@[simp] theorem Core.setM_sched (c : Core) (i : Nat) (v : MAcc) (on : List Nat) : (c.setM i v on).sched = c.sched := rfl
@[simp] theorem Core.holdV_pc (c : Core) (i : Nat) : (c.holdV i).pc = c.pc := rfl
@[simp] theorem Core.holdV_sup (c : Core) (i : Nat) : (c.holdV i).sup = c.sup := rfl
@[simp] theorem Core.holdV_csr (c : Core) (i : Nat) : (c.holdV i).csr = c.csr := rfl
@[simp] theorem Core.holdV_hitch (c : Core) (i : Nat) : (c.holdV i).hitch = c.hitch := rfl
@[simp] theorem Core.holdV_wins (c : Core) (i : Nat) : (c.holdV i).wins = c.wins := rfl
@[simp] theorem Core.holdV_mail (c : Core) (i : Nat) : (c.holdV i).mail = c.mail := rfl
@[simp] theorem Core.holdV_chans (c : Core) (i : Nat) : (c.holdV i).chans = c.chans := rfl
@[simp] theorem Core.holdV_sc (c : Core) (i : Nat) : (c.holdV i).sc = c.sc := rfl
@[simp] theorem Core.holdV_obs (c : Core) (i : Nat) : (c.holdV i).obs = c.obs := rfl
@[simp] theorem Core.holdV_sched (c : Core) (i : Nat) : (c.holdV i).sched = c.sched := rfl
@[simp] theorem Core.holdV_regs (c : Core) (i : Nat) : (c.holdV i).regs = c.regs := rfl
@[simp] theorem Core.holdV_mem_rcache (c : Core) (i : Nat) : (c.holdV i).mem.rcache = c.mem.rcache := rfl
@[simp] theorem Core.holdV_mem_wbuf (c : Core) (i : Nat) : (c.holdV i).mem.wbuf = c.mem.wbuf := rfl
@[simp] theorem Core.holdV_mem_late (c : Core) (i : Nat) : (c.holdV i).mem.late = c.mem.late := rfl
@[simp] theorem Core.holdV_mem_seq (c : Core) (i : Nat) : (c.holdV i).mem.seq = c.mem.seq := rfl
@[simp] theorem Core.holdV_mem_imem (c : Core) (i : Nat) : (c.holdV i).mem.imem = c.mem.imem := rfl
@[simp] theorem Core.holdV_mem_tick (c : Core) (i : Nat) : (c.holdV i).mem.tick = c.mem.tick := rfl
@[simp] theorem Core.holdV_mem_timed (c : Core) (i : Nat) : (c.holdV i).mem.timed = c.mem.timed := rfl
@[simp] theorem Core.setSlot_pc (c : Core) (i : Nat) (v : Hitch) : (c.setSlot i v).pc = c.pc := rfl
@[simp] theorem Core.setSlot_sup (c : Core) (i : Nat) (v : Hitch) : (c.setSlot i v).sup = c.sup := rfl
@[simp] theorem Core.setSlot_regs (c : Core) (i : Nat) (v : Hitch) : (c.setSlot i v).regs = c.regs := rfl
@[simp] theorem Core.setSlot_csr (c : Core) (i : Nat) (v : Hitch) : (c.setSlot i v).csr = c.csr := rfl
@[simp] theorem Core.setSlot_wins (c : Core) (i : Nat) (v : Hitch) : (c.setSlot i v).wins = c.wins := rfl
@[simp] theorem Core.setSlot_mail (c : Core) (i : Nat) (v : Hitch) : (c.setSlot i v).mail = c.mail := rfl
@[simp] theorem Core.setSlot_chans (c : Core) (i : Nat) (v : Hitch) : (c.setSlot i v).chans = c.chans := rfl
@[simp] theorem Core.setSlot_sc (c : Core) (i : Nat) (v : Hitch) : (c.setSlot i v).sc = c.sc := rfl
@[simp] theorem Core.setSlot_obs (c : Core) (i : Nat) (v : Hitch) : (c.setSlot i v).obs = c.obs := rfl
@[simp] theorem Core.setSlot_mem (c : Core) (i : Nat) (v : Hitch) : (c.setSlot i v).mem = c.mem := rfl
@[simp] theorem Core.setSlot_sched (c : Core) (i : Nat) (v : Hitch) : (c.setSlot i v).sched = c.sched := rfl
@[simp] theorem Core.setChan_pc (c : Core) (i : Nat) (v : Chan) : (c.setChan i v).pc = c.pc := rfl
@[simp] theorem Core.setChan_sup (c : Core) (i : Nat) (v : Chan) : (c.setChan i v).sup = c.sup := rfl
@[simp] theorem Core.setChan_regs (c : Core) (i : Nat) (v : Chan) : (c.setChan i v).regs = c.regs := rfl
@[simp] theorem Core.setChan_csr (c : Core) (i : Nat) (v : Chan) : (c.setChan i v).csr = c.csr := rfl
@[simp] theorem Core.setChan_hitch (c : Core) (i : Nat) (v : Chan) : (c.setChan i v).hitch = c.hitch := rfl
@[simp] theorem Core.setChan_wins (c : Core) (i : Nat) (v : Chan) : (c.setChan i v).wins = c.wins := rfl
@[simp] theorem Core.setChan_mail (c : Core) (i : Nat) (v : Chan) : (c.setChan i v).mail = c.mail := rfl
@[simp] theorem Core.setChan_sc (c : Core) (i : Nat) (v : Chan) : (c.setChan i v).sc = c.sc := rfl
@[simp] theorem Core.setChan_obs (c : Core) (i : Nat) (v : Chan) : (c.setChan i v).obs = c.obs := rfl
@[simp] theorem Core.setChan_mem (c : Core) (i : Nat) (v : Chan) : (c.setChan i v).mem = c.mem := rfl
@[simp] theorem Core.setChan_sched (c : Core) (i : Nat) (v : Chan) : (c.setChan i v).sched = c.sched := rfl
@[simp] theorem Core.sch_pc (c : Core) (f : Sched → Sched) : (c.sch f).pc = c.pc := rfl
@[simp] theorem Core.sch_sup (c : Core) (f : Sched → Sched) : (c.sch f).sup = c.sup := rfl
@[simp] theorem Core.sch_regs (c : Core) (f : Sched → Sched) : (c.sch f).regs = c.regs := rfl
@[simp] theorem Core.sch_csr (c : Core) (f : Sched → Sched) : (c.sch f).csr = c.csr := rfl
@[simp] theorem Core.sch_hitch (c : Core) (f : Sched → Sched) : (c.sch f).hitch = c.hitch := rfl
@[simp] theorem Core.sch_wins (c : Core) (f : Sched → Sched) : (c.sch f).wins = c.wins := rfl
@[simp] theorem Core.sch_mail (c : Core) (f : Sched → Sched) : (c.sch f).mail = c.mail := rfl
@[simp] theorem Core.sch_chans (c : Core) (f : Sched → Sched) : (c.sch f).chans = c.chans := rfl
@[simp] theorem Core.sch_sc (c : Core) (f : Sched → Sched) : (c.sch f).sc = c.sc := rfl
@[simp] theorem Core.sch_obs (c : Core) (f : Sched → Sched) : (c.sch f).obs = c.obs := rfl
@[simp] theorem Core.sch_mem (c : Core) (f : Sched → Sched) : (c.sch f).mem = c.mem := rfl
@[simp] theorem Core.updCsr_pc (c : Core) (f : Csrs → Csrs) : (c.updCsr f).pc = c.pc := rfl
@[simp] theorem Core.updCsr_sup (c : Core) (f : Csrs → Csrs) : (c.updCsr f).sup = c.sup := rfl
@[simp] theorem Core.updCsr_regs (c : Core) (f : Csrs → Csrs) : (c.updCsr f).regs = c.regs := rfl
@[simp] theorem Core.updCsr_hitch (c : Core) (f : Csrs → Csrs) : (c.updCsr f).hitch = c.hitch := rfl
@[simp] theorem Core.updCsr_wins (c : Core) (f : Csrs → Csrs) : (c.updCsr f).wins = c.wins := rfl
@[simp] theorem Core.updCsr_mail (c : Core) (f : Csrs → Csrs) : (c.updCsr f).mail = c.mail := rfl
@[simp] theorem Core.updCsr_chans (c : Core) (f : Csrs → Csrs) : (c.updCsr f).chans = c.chans := rfl
@[simp] theorem Core.updCsr_sc (c : Core) (f : Csrs → Csrs) : (c.updCsr f).sc = c.sc := rfl
@[simp] theorem Core.updCsr_obs (c : Core) (f : Csrs → Csrs) : (c.updCsr f).obs = c.obs := rfl
@[simp] theorem Core.updCsr_mem (c : Core) (f : Csrs → Csrs) : (c.updCsr f).mem = c.mem := rfl
@[simp] theorem Core.updCsr_sched (c : Core) (f : Csrs → Csrs) : (c.updCsr f).sched = c.sched := rfl
@[simp] theorem Core.setS_pc (c : Core) (i : Nat) (v : Word) : (c.setS i v).pc = c.pc := by unfold Core.setS; split <;> rfl
@[simp] theorem Core.setS_sup (c : Core) (i : Nat) (v : Word) : (c.setS i v).sup = c.sup := by unfold Core.setS; split <;> rfl
@[simp] theorem Core.setS_csr (c : Core) (i : Nat) (v : Word) : (c.setS i v).csr = c.csr := by unfold Core.setS; split <;> rfl
@[simp] theorem Core.setS_hitch (c : Core) (i : Nat) (v : Word) : (c.setS i v).hitch = c.hitch := by unfold Core.setS; split <;> rfl
@[simp] theorem Core.setS_wins (c : Core) (i : Nat) (v : Word) : (c.setS i v).wins = c.wins := by unfold Core.setS; split <;> rfl
@[simp] theorem Core.setS_mail (c : Core) (i : Nat) (v : Word) : (c.setS i v).mail = c.mail := by unfold Core.setS; split <;> rfl
@[simp] theorem Core.setS_chans (c : Core) (i : Nat) (v : Word) : (c.setS i v).chans = c.chans := by unfold Core.setS; split <;> rfl
@[simp] theorem Core.setS_sc (c : Core) (i : Nat) (v : Word) : (c.setS i v).sc = c.sc := by unfold Core.setS; split <;> rfl
@[simp] theorem Core.setS_obs (c : Core) (i : Nat) (v : Word) : (c.setS i v).obs = c.obs := by unfold Core.setS; split <;> rfl
@[simp] theorem Core.setS_mem (c : Core) (i : Nat) (v : Word) : (c.setS i v).mem = c.mem := by unfold Core.setS; split <;> rfl
@[simp] theorem Core.setS_sched (c : Core) (i : Nat) (v : Word) : (c.setS i v).sched = c.sched := by unfold Core.setS; split <;> rfl
@[simp] theorem Core.setK_pc (c : Core) (i : Nat) (v : KReg) : (c.setK i v).pc = c.pc := by unfold Core.setK; split <;> rfl
@[simp] theorem Core.setK_sup (c : Core) (i : Nat) (v : KReg) : (c.setK i v).sup = c.sup := by unfold Core.setK; split <;> rfl
@[simp] theorem Core.setK_csr (c : Core) (i : Nat) (v : KReg) : (c.setK i v).csr = c.csr := by unfold Core.setK; split <;> rfl
@[simp] theorem Core.setK_hitch (c : Core) (i : Nat) (v : KReg) : (c.setK i v).hitch = c.hitch := by unfold Core.setK; split <;> rfl
@[simp] theorem Core.setK_wins (c : Core) (i : Nat) (v : KReg) : (c.setK i v).wins = c.wins := by unfold Core.setK; split <;> rfl
@[simp] theorem Core.setK_mail (c : Core) (i : Nat) (v : KReg) : (c.setK i v).mail = c.mail := by unfold Core.setK; split <;> rfl
@[simp] theorem Core.setK_chans (c : Core) (i : Nat) (v : KReg) : (c.setK i v).chans = c.chans := by unfold Core.setK; split <;> rfl
@[simp] theorem Core.setK_sc (c : Core) (i : Nat) (v : KReg) : (c.setK i v).sc = c.sc := by unfold Core.setK; split <;> rfl
@[simp] theorem Core.setK_obs (c : Core) (i : Nat) (v : KReg) : (c.setK i v).obs = c.obs := by unfold Core.setK; split <;> rfl
@[simp] theorem Core.setK_mem (c : Core) (i : Nat) (v : KReg) : (c.setK i v).mem = c.mem := by unfold Core.setK; split <;> rfl
@[simp] theorem Core.setK_sched (c : Core) (i : Nat) (v : KReg) : (c.setK i v).sched = c.sched := by unfold Core.setK; split <;> rfl
@[simp] theorem Core.goto_pc (c : Core) (a : Word) : (c.goto a).pc = a := rfl
@[simp] theorem Core.goto_sched (c : Core) (a : Word) : (c.goto a).sched = { c.sched with hold := .free } := rfl
@[simp] theorem Core.updCsr_csr (c : Core) (f : Csrs → Csrs) : (c.updCsr f).csr = f c.csr := rfl
@[simp] theorem Core.sch_sched (c : Core) (f : Sched → Sched) : (c.sch f).sched = f c.sched := rfl
@[simp] theorem Core.setS_regs_v (c : Core) (i : Nat) (v : Word) : (c.setS i v).regs.v = c.regs.v := by unfold Core.setS; split <;> rfl
@[simp] theorem Core.setS_regs_k (c : Core) (i : Nat) (v : Word) : (c.setS i v).regs.k = c.regs.k := by unfold Core.setS; split <;> rfl
@[simp] theorem Core.setS_regs_w (c : Core) (i : Nat) (v : Word) : (c.setS i v).regs.w = c.regs.w := by unfold Core.setS; split <;> rfl
@[simp] theorem Core.setS_regs_m (c : Core) (i : Nat) (v : Word) : (c.setS i v).regs.m = c.regs.m := by unfold Core.setS; split <;> rfl
@[simp] theorem Core.setS_regs_pairs (c : Core) (i : Nat) (v : Word) : (c.setS i v).regs.pairs = c.regs.pairs := by unfold Core.setS; split <;> rfl
@[simp] theorem Core.setK_regs_s (c : Core) (i : Nat) (v : KReg) : (c.setK i v).regs.s = c.regs.s := by unfold Core.setK; split <;> rfl
@[simp] theorem Core.setK_regs_v (c : Core) (i : Nat) (v : KReg) : (c.setK i v).regs.v = c.regs.v := by unfold Core.setK; split <;> rfl
@[simp] theorem Core.setK_regs_w (c : Core) (i : Nat) (v : KReg) : (c.setK i v).regs.w = c.regs.w := by unfold Core.setK; split <;> rfl
@[simp] theorem Core.setK_regs_m (c : Core) (i : Nat) (v : KReg) : (c.setK i v).regs.m = c.regs.m := by unfold Core.setK; split <;> rfl
@[simp] theorem Core.setK_regs_pairs (c : Core) (i : Nat) (v : KReg) : (c.setK i v).regs.pairs = c.regs.pairs := by unfold Core.setK; split <;> rfl
@[simp] theorem Core.setV_regs_s (c : Core) (i : Nat) (v : VReg) : (c.setV i v).regs.s = c.regs.s := rfl
@[simp] theorem Core.setV_regs_k (c : Core) (i : Nat) (v : VReg) : (c.setV i v).regs.k = c.regs.k := rfl
@[simp] theorem Core.setV_regs_w (c : Core) (i : Nat) (v : VReg) : (c.setV i v).regs.w = c.regs.w := rfl
@[simp] theorem Core.setV_regs_m (c : Core) (i : Nat) (v : VReg) : (c.setV i v).regs.m = c.regs.m := rfl
@[simp] theorem Core.setV_regs_pairs (c : Core) (i : Nat) (v : VReg) : (c.setV i v).regs.pairs = c.regs.pairs := rfl
@[simp] theorem Core.setW_regs_s (c : Core) (i : Nat) (v : Walker) : (c.setW i v).regs.s = c.regs.s := rfl
@[simp] theorem Core.bindW_regs_s (c : Core) (i : Nat) (v : Walker) : (c.bindW i v).regs.s = c.regs.s := rfl
@[simp] theorem Core.setW_regs_v (c : Core) (i : Nat) (v : Walker) : (c.setW i v).regs.v = c.regs.v := rfl
@[simp] theorem Core.bindW_regs_v (c : Core) (i : Nat) (v : Walker) : (c.bindW i v).regs.v = c.regs.v := rfl
@[simp] theorem Core.setW_regs_k (c : Core) (i : Nat) (v : Walker) : (c.setW i v).regs.k = c.regs.k := rfl
@[simp] theorem Core.bindW_regs_k (c : Core) (i : Nat) (v : Walker) : (c.bindW i v).regs.k = c.regs.k := rfl
@[simp] theorem Core.setW_regs_m (c : Core) (i : Nat) (v : Walker) : (c.setW i v).regs.m = c.regs.m := rfl
@[simp] theorem Core.bindW_regs_m (c : Core) (i : Nat) (v : Walker) : (c.bindW i v).regs.m = c.regs.m := rfl
@[simp] theorem Core.setW_regs_pairs (c : Core) (i : Nat) (v : Walker) : (c.setW i v).regs.pairs = c.regs.pairs := rfl
@[simp] theorem Core.bindW_regs_pairs (c : Core) (i : Nat) (v : Walker) : (c.bindW i v).regs.pairs = c.regs.pairs := rfl
@[simp] theorem Core.setM_regs_s (c : Core) (i : Nat) (v : MAcc) (on : List Nat) : (c.setM i v on).regs.s = c.regs.s := rfl
@[simp] theorem Core.setM_regs_v (c : Core) (i : Nat) (v : MAcc) (on : List Nat) : (c.setM i v on).regs.v = c.regs.v := rfl
@[simp] theorem Core.setM_regs_k (c : Core) (i : Nat) (v : MAcc) (on : List Nat) : (c.setM i v on).regs.k = c.regs.k := rfl
@[simp] theorem Core.setM_regs_w (c : Core) (i : Nat) (v : MAcc) (on : List Nat) : (c.setM i v on).regs.w = c.regs.w := rfl
@[simp] theorem Core.setM_regs_pairs (c : Core) (i : Nat) (v : MAcc) (on : List Nat) : (c.setM i v on).regs.pairs = c.regs.pairs := rfl

/-! ### Registers -/

@[simp] theorem Core.getS_zero (c : Core) : c.getS 0 = 0 := rfl
@[simp] theorem Core.getK_zero (c : Core) : c.getK 0 = BitVec.allOnes 512 := rfl
@[simp] theorem Core.getS_setS (c : Core) (i j : Nat) (v : Word) :
    (c.setS i v).getS j = if j = i ∧ i ≠ 0 then v else c.getS j := by
  unfold Core.setS Core.getS
  by_cases hi : i = 0 <;> by_cases hj : j = 0 <;> simp [hi, hj] <;> omega
@[simp] theorem Core.getK_setK (c : Core) (i j : Nat) (v : KReg) :
    (c.setK i v).getK j = if j = i ∧ i ≠ 0 then v else c.getK j := by
  unfold Core.setK Core.getK
  by_cases hi : i = 0 <;> by_cases hj : j = 0 <;> simp [hi, hj] <;> omega
@[simp] theorem Core.getV_setV (c : Core) (i j : Nat) (v : VReg) : (c.setV i v).getV j = if j = i then v else c.getV j := Sparse.get_set _ _ _ _ _
@[simp] theorem Core.getW_setW (c : Core) (i j : Nat) (v : Walker) : (c.setW i v).getW j = if j = i then v else c.getW j := Sparse.get_set _ _ _ _ _
@[simp] theorem Core.getW_bindW (c : Core) (i j : Nat) (v : Walker) : (c.bindW i v).getW j = if j = i then v else c.getW j := Sparse.get_set _ _ _ _ _
@[simp] theorem Core.getM_setM (c : Core) (i j : Nat) (v : MAcc) (on : List Nat) : (c.setM i v on).getM j = if j = i then v else c.getM j := Sparse.get_set _ _ _ _ _
@[simp] theorem Core.slot_setSlot (c : Core) (i j : Nat) (v : Hitch) : (c.setSlot i v).slot j = if j = i then v else c.slot j := Sparse.get_set _ _ _ _ _
@[simp] theorem Core.chan_setChan (c : Core) (i j : Nat) (v : Chan) : (c.setChan i v).chan j = if j = i then v else c.chan j := Sparse.get_set _ _ _ _ _

/-! ### Registers of one file after a write to another -/

@[simp] theorem Core.getS_goto (c : Core) (a : Word) (j : Nat) : (c.goto a).getS j = c.getS j := rfl
@[simp] theorem Core.getS_setV (c : Core) (i : Nat) (v : VReg) (j : Nat) : (c.setV i v).getS j = c.getS j := rfl
@[simp] theorem Core.getS_setW (c : Core) (i : Nat) (v : Walker) (j : Nat) : (c.setW i v).getS j = c.getS j := rfl
@[simp] theorem Core.getS_bindW (c : Core) (i : Nat) (v : Walker) (j : Nat) : (c.bindW i v).getS j = c.getS j := rfl
@[simp] theorem Core.getS_setM (c : Core) (i : Nat) (v : MAcc) (on : List Nat) (j : Nat) : (c.setM i v on).getS j = c.getS j := rfl
@[simp] theorem Core.getS_setSlot (c : Core) (i : Nat) (v : Hitch) (j : Nat) : (c.setSlot i v).getS j = c.getS j := rfl
@[simp] theorem Core.getS_setChan (c : Core) (i : Nat) (v : Chan) (j : Nat) : (c.setChan i v).getS j = c.getS j := rfl
@[simp] theorem Core.getS_sch (c : Core) (f : Sched → Sched) (j : Nat) : (c.sch f).getS j = c.getS j := rfl
@[simp] theorem Core.getS_updCsr (c : Core) (f : Csrs → Csrs) (j : Nat) : (c.updCsr f).getS j = c.getS j := rfl
@[simp] theorem Core.getS_setK (c : Core) (i : Nat) (v : KReg) (j : Nat) : (c.setK i v).getS j = c.getS j := by unfold Core.setK; split <;> rfl
@[simp] theorem Core.getV_goto (c : Core) (a : Word) (j : Nat) : (c.goto a).getV j = c.getV j := rfl
@[simp] theorem Core.getV_setW (c : Core) (i : Nat) (v : Walker) (j : Nat) : (c.setW i v).getV j = c.getV j := rfl
@[simp] theorem Core.getV_bindW (c : Core) (i : Nat) (v : Walker) (j : Nat) : (c.bindW i v).getV j = c.getV j := rfl
@[simp] theorem Core.getV_setM (c : Core) (i : Nat) (v : MAcc) (on : List Nat) (j : Nat) : (c.setM i v on).getV j = c.getV j := rfl
@[simp] theorem Core.getV_setSlot (c : Core) (i : Nat) (v : Hitch) (j : Nat) : (c.setSlot i v).getV j = c.getV j := rfl
@[simp] theorem Core.getV_setChan (c : Core) (i : Nat) (v : Chan) (j : Nat) : (c.setChan i v).getV j = c.getV j := rfl
@[simp] theorem Core.getV_sch (c : Core) (f : Sched → Sched) (j : Nat) : (c.sch f).getV j = c.getV j := rfl
@[simp] theorem Core.getV_updCsr (c : Core) (f : Csrs → Csrs) (j : Nat) : (c.updCsr f).getV j = c.getV j := rfl
@[simp] theorem Core.getV_setS (c : Core) (i : Nat) (v : Word) (j : Nat) : (c.setS i v).getV j = c.getV j := by unfold Core.setS; split <;> rfl
@[simp] theorem Core.getV_setK (c : Core) (i : Nat) (v : KReg) (j : Nat) : (c.setK i v).getV j = c.getV j := by unfold Core.setK; split <;> rfl
@[simp] theorem Core.getK_goto (c : Core) (a : Word) (j : Nat) : (c.goto a).getK j = c.getK j := rfl
@[simp] theorem Core.getK_setV (c : Core) (i : Nat) (v : VReg) (j : Nat) : (c.setV i v).getK j = c.getK j := rfl
@[simp] theorem Core.getK_setW (c : Core) (i : Nat) (v : Walker) (j : Nat) : (c.setW i v).getK j = c.getK j := rfl
@[simp] theorem Core.getK_bindW (c : Core) (i : Nat) (v : Walker) (j : Nat) : (c.bindW i v).getK j = c.getK j := rfl
@[simp] theorem Core.getK_setM (c : Core) (i : Nat) (v : MAcc) (on : List Nat) (j : Nat) : (c.setM i v on).getK j = c.getK j := rfl
@[simp] theorem Core.getK_setSlot (c : Core) (i : Nat) (v : Hitch) (j : Nat) : (c.setSlot i v).getK j = c.getK j := rfl
@[simp] theorem Core.getK_setChan (c : Core) (i : Nat) (v : Chan) (j : Nat) : (c.setChan i v).getK j = c.getK j := rfl
@[simp] theorem Core.getK_sch (c : Core) (f : Sched → Sched) (j : Nat) : (c.sch f).getK j = c.getK j := rfl
@[simp] theorem Core.getK_updCsr (c : Core) (f : Csrs → Csrs) (j : Nat) : (c.updCsr f).getK j = c.getK j := rfl
@[simp] theorem Core.getK_setS (c : Core) (i : Nat) (v : Word) (j : Nat) : (c.setS i v).getK j = c.getK j := by unfold Core.setS; split <;> rfl
@[simp] theorem Core.getW_goto (c : Core) (a : Word) (j : Nat) : (c.goto a).getW j = c.getW j := rfl
@[simp] theorem Core.getW_setV (c : Core) (i : Nat) (v : VReg) (j : Nat) : (c.setV i v).getW j = c.getW j := rfl
@[simp] theorem Core.getW_setM (c : Core) (i : Nat) (v : MAcc) (on : List Nat) (j : Nat) : (c.setM i v on).getW j = c.getW j := rfl
@[simp] theorem Core.getW_setSlot (c : Core) (i : Nat) (v : Hitch) (j : Nat) : (c.setSlot i v).getW j = c.getW j := rfl
@[simp] theorem Core.getW_setChan (c : Core) (i : Nat) (v : Chan) (j : Nat) : (c.setChan i v).getW j = c.getW j := rfl
@[simp] theorem Core.getW_sch (c : Core) (f : Sched → Sched) (j : Nat) : (c.sch f).getW j = c.getW j := rfl
@[simp] theorem Core.getW_updCsr (c : Core) (f : Csrs → Csrs) (j : Nat) : (c.updCsr f).getW j = c.getW j := rfl
@[simp] theorem Core.getW_setS (c : Core) (i : Nat) (v : Word) (j : Nat) : (c.setS i v).getW j = c.getW j := by unfold Core.setS; split <;> rfl
@[simp] theorem Core.getW_setK (c : Core) (i : Nat) (v : KReg) (j : Nat) : (c.setK i v).getW j = c.getW j := by unfold Core.setK; split <;> rfl
@[simp] theorem Core.getM_goto (c : Core) (a : Word) (j : Nat) : (c.goto a).getM j = c.getM j := rfl
@[simp] theorem Core.getM_setV (c : Core) (i : Nat) (v : VReg) (j : Nat) : (c.setV i v).getM j = c.getM j := rfl
@[simp] theorem Core.getM_setW (c : Core) (i : Nat) (v : Walker) (j : Nat) : (c.setW i v).getM j = c.getM j := rfl
@[simp] theorem Core.getM_bindW (c : Core) (i : Nat) (v : Walker) (j : Nat) : (c.bindW i v).getM j = c.getM j := rfl
@[simp] theorem Core.getM_setSlot (c : Core) (i : Nat) (v : Hitch) (j : Nat) : (c.setSlot i v).getM j = c.getM j := rfl
@[simp] theorem Core.getM_setChan (c : Core) (i : Nat) (v : Chan) (j : Nat) : (c.setChan i v).getM j = c.getM j := rfl
@[simp] theorem Core.getM_sch (c : Core) (f : Sched → Sched) (j : Nat) : (c.sch f).getM j = c.getM j := rfl
@[simp] theorem Core.getM_updCsr (c : Core) (f : Csrs → Csrs) (j : Nat) : (c.updCsr f).getM j = c.getM j := rfl
@[simp] theorem Core.getM_setS (c : Core) (i : Nat) (v : Word) (j : Nat) : (c.setS i v).getM j = c.getM j := by unfold Core.setS; split <;> rfl
@[simp] theorem Core.getM_setK (c : Core) (i : Nat) (v : KReg) (j : Nat) : (c.setK i v).getM j = c.getM j := by unfold Core.setK; split <;> rfl
@[simp] theorem Core.slot_goto (c : Core) (a : Word) (j : Nat) : (c.goto a).slot j = c.slot j := rfl
@[simp] theorem Core.chan_goto (c : Core) (a : Word) (j : Nat) : (c.goto a).chan j = c.chan j := rfl
@[simp] theorem Core.slot_setV (c : Core) (i : Nat) (v : VReg) (j : Nat) : (c.setV i v).slot j = c.slot j := rfl
@[simp] theorem Core.chan_setV (c : Core) (i : Nat) (v : VReg) (j : Nat) : (c.setV i v).chan j = c.chan j := rfl
@[simp] theorem Core.slot_setW (c : Core) (i : Nat) (v : Walker) (j : Nat) : (c.setW i v).slot j = c.slot j := rfl
@[simp] theorem Core.slot_bindW (c : Core) (i : Nat) (v : Walker) (j : Nat) : (c.bindW i v).slot j = c.slot j := rfl
@[simp] theorem Core.chan_setW (c : Core) (i : Nat) (v : Walker) (j : Nat) : (c.setW i v).chan j = c.chan j := rfl
@[simp] theorem Core.chan_bindW (c : Core) (i : Nat) (v : Walker) (j : Nat) : (c.bindW i v).chan j = c.chan j := rfl
@[simp] theorem Core.slot_setM (c : Core) (i : Nat) (v : MAcc) (on : List Nat) (j : Nat) : (c.setM i v on).slot j = c.slot j := rfl
@[simp] theorem Core.chan_setM (c : Core) (i : Nat) (v : MAcc) (on : List Nat) (j : Nat) : (c.setM i v on).chan j = c.chan j := rfl
@[simp] theorem Core.chan_setSlot (c : Core) (i : Nat) (v : Hitch) (j : Nat) : (c.setSlot i v).chan j = c.chan j := rfl
@[simp] theorem Core.slot_setChan (c : Core) (i : Nat) (v : Chan) (j : Nat) : (c.setChan i v).slot j = c.slot j := rfl
@[simp] theorem Core.slot_sch (c : Core) (f : Sched → Sched) (j : Nat) : (c.sch f).slot j = c.slot j := rfl
@[simp] theorem Core.chan_sch (c : Core) (f : Sched → Sched) (j : Nat) : (c.sch f).chan j = c.chan j := rfl
@[simp] theorem Core.slot_updCsr (c : Core) (f : Csrs → Csrs) (j : Nat) : (c.updCsr f).slot j = c.slot j := rfl
@[simp] theorem Core.chan_updCsr (c : Core) (f : Csrs → Csrs) (j : Nat) : (c.updCsr f).chan j = c.chan j := rfl
@[simp] theorem Core.slot_setS (c : Core) (i : Nat) (v : Word) (j : Nat) : (c.setS i v).slot j = c.slot j := by unfold Core.setS; split <;> rfl
@[simp] theorem Core.chan_setS (c : Core) (i : Nat) (v : Word) (j : Nat) : (c.setS i v).chan j = c.chan j := by unfold Core.setS; split <;> rfl
@[simp] theorem Core.slot_setK (c : Core) (i : Nat) (v : KReg) (j : Nat) : (c.setK i v).slot j = c.slot j := by unfold Core.setK; split <;> rfl
@[simp] theorem Core.chan_setK (c : Core) (i : Nat) (v : KReg) (j : Nat) : (c.setK i v).chan j = c.chan j := by unfold Core.setK; split <;> rfl

/-! ### Clusters, caravans, launches, queues, partitions -/

@[simp] theorem State.cluster_setCluster (s : State) (c j : Nat) (x : Cluster) :
    (s.setCluster c x).cluster j = if j = c then x else s.cluster j := Sparse.get_set _ _ _ _ _
@[simp] theorem State.cluster_updCluster (s : State) (c j : Nat) (f : Cluster → Cluster) :
    (s.updCluster c f).cluster j = if j = c then f (s.cluster c) else s.cluster j := Sparse.get_set _ _ _ _ _
@[simp] theorem State.cluster_updMyCluster (s : State) (j : Nat) (f : Cluster → Cluster) :
    (s.updMyCluster f).cluster j = if j = clusterOf s.cur then f (s.cluster (clusterOf s.cur)) else s.cluster j := Sparse.get_set _ _ _ _ _
@[simp] theorem State.caravan_setCaravan (s : State) (i j : Nat) (c : Option Caravan) :
    (s.setCaravan i c).caravan j = if j = i then c else s.caravan j := Sparse.get_set _ _ _ _ _
@[simp] theorem State.disp_setDisp (s : State) (i j : Nat) (d : Option Dispatch) :
    (s.setDisp i d).disp j = if j = i then d else s.disp j := Sparse.get_set _ _ _ _ _
@[simp] theorem State.queue_setQueue (s : State) (i j : Nat) (x : Queue) :
    (s.setQueue i x).queue j = if j = i then x else s.queue j := Sparse.get_set _ _ _ _ _
@[simp] theorem State.part_setPart (s : State) (i j : Nat) (x : Option Partition) :
    (s.setPart i x).part j = if j = i then x else s.part j := Sparse.get_set _ _ _ _ _
@[simp] theorem State.disp_updDisp (s : State) (i j : Nat) (f : Dispatch → Dispatch) :
    (s.updDisp i f).disp j = if j = i then (s.disp i).map f else s.disp j := by
  unfold State.updDisp
  cases h : s.disp i with
  | none => simp only [Option.map_none]; split <;> simp_all
  | some d => simp only [Option.map_some]; exact State.disp_setDisp _ _ _ _
@[simp] theorem State.part_updPart (s : State) (i j : Nat) (f : Partition → Partition) :
    (s.updPart i f).part j = if j = i then (s.part i).map f else s.part j := by
  unfold State.updPart
  cases h : s.part i with
  | none => simp only [Option.map_none]; split <;> simp_all
  | some d => simp only [Option.map_some]; exact State.part_setPart _ _ _ _

/-! ### Reads of the other parts after a change of the cores -/

@[simp] theorem State.cluster_setCore (s : State) (j : Nat) (g : Nat) (c : Core) : (s.setCore g c).cluster j = s.cluster j := rfl
@[simp] theorem State.caravan_setCore (s : State) (j : Nat) (g : Nat) (c : Core) : (s.setCore g c).caravan j = s.caravan j := rfl
@[simp] theorem State.disp_setCore (s : State) (j : Nat) (g : Nat) (c : Core) : (s.setCore g c).disp j = s.disp j := rfl
@[simp] theorem State.queue_setCore (s : State) (j : Nat) (g : Nat) (c : Core) : (s.setCore g c).queue j = s.queue j := rfl
@[simp] theorem State.part_setCore (s : State) (j : Nat) (g : Nat) (c : Core) : (s.setCore g c).part j = s.part j := rfl
@[simp] theorem State.byte_setCore (s : State) (j : Nat) (g : Nat) (c : Core) : (s.setCore g c).byte j = s.byte j := rfl
@[simp] theorem State.cluster_updCore (s : State) (j : Nat) (g : Nat) (f : Core → Core) : (s.updCore g f).cluster j = s.cluster j := rfl
@[simp] theorem State.caravan_updCore (s : State) (j : Nat) (g : Nat) (f : Core → Core) : (s.updCore g f).caravan j = s.caravan j := rfl
@[simp] theorem State.disp_updCore (s : State) (j : Nat) (g : Nat) (f : Core → Core) : (s.updCore g f).disp j = s.disp j := rfl
@[simp] theorem State.queue_updCore (s : State) (j : Nat) (g : Nat) (f : Core → Core) : (s.updCore g f).queue j = s.queue j := rfl
@[simp] theorem State.part_updCore (s : State) (j : Nat) (g : Nat) (f : Core → Core) : (s.updCore g f).part j = s.part j := rfl
@[simp] theorem State.byte_updCore (s : State) (j : Nat) (g : Nat) (f : Core → Core) : (s.updCore g f).byte j = s.byte j := rfl
@[simp] theorem State.cluster_upd (s : State) (j : Nat) (f : Core → Core) : (s.upd f).cluster j = s.cluster j := rfl
@[simp] theorem State.caravan_upd (s : State) (j : Nat) (f : Core → Core) : (s.upd f).caravan j = s.caravan j := rfl
@[simp] theorem State.disp_upd (s : State) (j : Nat) (f : Core → Core) : (s.upd f).disp j = s.disp j := rfl
@[simp] theorem State.queue_upd (s : State) (j : Nat) (f : Core → Core) : (s.upd f).queue j = s.queue j := rfl
@[simp] theorem State.part_upd (s : State) (j : Nat) (f : Core → Core) : (s.upd f).part j = s.part j := rfl
@[simp] theorem State.byte_upd (s : State) (j : Nat) (f : Core → Core) : (s.upd f).byte j = s.byte j := rfl
@[simp] theorem State.cluster_setS (s : State) (j : Nat) {n : Nat} (d : BitVec n) (v : Word) : (s.setS d v).cluster j = s.cluster j := rfl
@[simp] theorem State.caravan_setS (s : State) (j : Nat) {n : Nat} (d : BitVec n) (v : Word) : (s.setS d v).caravan j = s.caravan j := rfl
@[simp] theorem State.disp_setS (s : State) (j : Nat) {n : Nat} (d : BitVec n) (v : Word) : (s.setS d v).disp j = s.disp j := rfl
@[simp] theorem State.queue_setS (s : State) (j : Nat) {n : Nat} (d : BitVec n) (v : Word) : (s.setS d v).queue j = s.queue j := rfl
@[simp] theorem State.part_setS (s : State) (j : Nat) {n : Nat} (d : BitVec n) (v : Word) : (s.setS d v).part j = s.part j := rfl
@[simp] theorem State.byte_setS (s : State) (j : Nat) {n : Nat} (d : BitVec n) (v : Word) : (s.setS d v).byte j = s.byte j := rfl
@[simp] theorem State.cluster_setV (s : State) (j : Nat) {n : Nat} (d : BitVec n) (v : VReg) : (s.setV d v).cluster j = s.cluster j := rfl
@[simp] theorem State.caravan_setV (s : State) (j : Nat) {n : Nat} (d : BitVec n) (v : VReg) : (s.setV d v).caravan j = s.caravan j := rfl
@[simp] theorem State.disp_setV (s : State) (j : Nat) {n : Nat} (d : BitVec n) (v : VReg) : (s.setV d v).disp j = s.disp j := rfl
@[simp] theorem State.queue_setV (s : State) (j : Nat) {n : Nat} (d : BitVec n) (v : VReg) : (s.setV d v).queue j = s.queue j := rfl
@[simp] theorem State.part_setV (s : State) (j : Nat) {n : Nat} (d : BitVec n) (v : VReg) : (s.setV d v).part j = s.part j := rfl
@[simp] theorem State.byte_setV (s : State) (j : Nat) {n : Nat} (d : BitVec n) (v : VReg) : (s.setV d v).byte j = s.byte j := rfl
@[simp] theorem State.cluster_setK (s : State) (j : Nat) {n : Nat} (d : BitVec n) (v : KReg) : (s.setK d v).cluster j = s.cluster j := rfl
@[simp] theorem State.caravan_setK (s : State) (j : Nat) {n : Nat} (d : BitVec n) (v : KReg) : (s.setK d v).caravan j = s.caravan j := rfl
@[simp] theorem State.disp_setK (s : State) (j : Nat) {n : Nat} (d : BitVec n) (v : KReg) : (s.setK d v).disp j = s.disp j := rfl
@[simp] theorem State.queue_setK (s : State) (j : Nat) {n : Nat} (d : BitVec n) (v : KReg) : (s.setK d v).queue j = s.queue j := rfl
@[simp] theorem State.part_setK (s : State) (j : Nat) {n : Nat} (d : BitVec n) (v : KReg) : (s.setK d v).part j = s.part j := rfl
@[simp] theorem State.byte_setK (s : State) (j : Nat) {n : Nat} (d : BitVec n) (v : KReg) : (s.setK d v).byte j = s.byte j := rfl
@[simp] theorem State.cluster_goto (s : State) (j : Nat) (a : Word) : (s.goto a).cluster j = s.cluster j := rfl
@[simp] theorem State.caravan_goto (s : State) (j : Nat) (a : Word) : (s.goto a).caravan j = s.caravan j := rfl
@[simp] theorem State.disp_goto (s : State) (j : Nat) (a : Word) : (s.goto a).disp j = s.disp j := rfl
@[simp] theorem State.queue_goto (s : State) (j : Nat) (a : Word) : (s.goto a).queue j = s.queue j := rfl
@[simp] theorem State.part_goto (s : State) (j : Nat) (a : Word) : (s.goto a).part j = s.part j := rfl
@[simp] theorem State.byte_goto (s : State) (j : Nat) (a : Word) : (s.goto a).byte j = s.byte j := rfl
@[simp] theorem State.cluster_advance (s : State) (j : Nat)  : (s.advance).cluster j = s.cluster j := rfl
@[simp] theorem State.caravan_advance (s : State) (j : Nat)  : (s.advance).caravan j = s.caravan j := rfl
@[simp] theorem State.disp_advance (s : State) (j : Nat)  : (s.advance).disp j = s.disp j := rfl
@[simp] theorem State.queue_advance (s : State) (j : Nat)  : (s.advance).queue j = s.queue j := rfl
@[simp] theorem State.part_advance (s : State) (j : Nat)  : (s.advance).part j = s.part j := rfl
@[simp] theorem State.byte_advance (s : State) (j : Nat)  : (s.advance).byte j = s.byte j := rfl
@[simp] theorem State.cluster_setHold (s : State) (j : Nat) (h : Hold) : (s.setHold h).cluster j = s.cluster j := rfl
@[simp] theorem State.caravan_setHold (s : State) (j : Nat) (h : Hold) : (s.setHold h).caravan j = s.caravan j := rfl
@[simp] theorem State.disp_setHold (s : State) (j : Nat) (h : Hold) : (s.setHold h).disp j = s.disp j := rfl
@[simp] theorem State.queue_setHold (s : State) (j : Nat) (h : Hold) : (s.setHold h).queue j = s.queue j := rfl
@[simp] theorem State.part_setHold (s : State) (j : Nat) (h : Hold) : (s.setHold h).part j = s.part j := rfl
@[simp] theorem State.byte_setHold (s : State) (j : Nat) (h : Hold) : (s.setHold h).byte j = s.byte j := rfl
@[simp] theorem State.cluster_raise (s : State) (j : Nat) (x : Nat) : (s.raise x).cluster j = s.cluster j := rfl
@[simp] theorem State.caravan_raise (s : State) (j : Nat) (x : Nat) : (s.raise x).caravan j = s.caravan j := rfl
@[simp] theorem State.disp_raise (s : State) (j : Nat) (x : Nat) : (s.raise x).disp j = s.disp j := rfl
@[simp] theorem State.queue_raise (s : State) (j : Nat) (x : Nat) : (s.raise x).queue j = s.queue j := rfl
@[simp] theorem State.part_raise (s : State) (j : Nat) (x : Nat) : (s.raise x).part j = s.part j := rfl
@[simp] theorem State.byte_raise (s : State) (j : Nat) (x : Nat) : (s.raise x).byte j = s.byte j := rfl
@[simp] theorem State.cluster_setSeed (s : State) (j : Nat) (x : Word) : (s.setSeed x).cluster j = s.cluster j := rfl
@[simp] theorem State.caravan_setSeed (s : State) (j : Nat) (x : Word) : (s.setSeed x).caravan j = s.caravan j := rfl
@[simp] theorem State.disp_setSeed (s : State) (j : Nat) (x : Word) : (s.setSeed x).disp j = s.disp j := rfl
@[simp] theorem State.queue_setSeed (s : State) (j : Nat) (x : Word) : (s.setSeed x).queue j = s.queue j := rfl
@[simp] theorem State.part_setSeed (s : State) (j : Nat) (x : Word) : (s.setSeed x).part j = s.part j := rfl
@[simp] theorem State.byte_setSeed (s : State) (j : Nat) (x : Word) : (s.setSeed x).byte j = s.byte j := rfl
@[simp] theorem State.byte_setCluster (s : State) (j : Nat) (c : Nat) (x : Cluster) : (s.setCluster c x).byte j = s.byte j := rfl
@[simp] theorem State.byte_updCluster (s : State) (j : Nat) (c : Nat) (f : Cluster → Cluster) : (s.updCluster c f).byte j = s.byte j := rfl
@[simp] theorem State.byte_updMyCluster (s : State) (j : Nat) (f : Cluster → Cluster) : (s.updMyCluster f).byte j = s.byte j := rfl
@[simp] theorem State.byte_setCaravan (s : State) (j : Nat) (i : Nat) (c : Option Caravan) : (s.setCaravan i c).byte j = s.byte j := rfl
@[simp] theorem State.byte_setDisp (s : State) (j : Nat) (i : Nat) (d : Option Dispatch) : (s.setDisp i d).byte j = s.byte j := rfl
@[simp] theorem State.byte_setQueue (s : State) (j : Nat) (q : Nat) (x : Queue) : (s.setQueue q x).byte j = s.byte j := rfl
@[simp] theorem State.byte_setPart (s : State) (j : Nat) (p : Nat) (x : Option Partition) : (s.setPart p x).byte j = s.byte j := rfl

/-! ### Registers of the issuing core -/

@[simp] theorem State.getS_zero (s : State) {n : Nat} : s.getS (0 : BitVec n) = 0 := by simp [State.getS]
@[simp] theorem State.getS_setS (s : State) {n m : Nat} (d : BitVec n) (r : BitVec m) (v : Word) :
    (s.setS d v).getS r = if r.toNat = d.toNat ∧ d.toNat ≠ 0 then v else s.getS r := by simp [State.getS]
@[simp] theorem State.getV_setV (s : State) {n m : Nat} (d : BitVec n) (r : BitVec m) (v : VReg) :
    (s.setV d v).getV r = if r.toNat = d.toNat then v else s.getV r := by simp [State.getV]
@[simp] theorem State.getK_setK (s : State) {n m : Nat} (d : BitVec n) (r : BitVec m) (v : KReg) :
    (s.setK d v).getK r = if r.toNat = d.toNat ∧ d.toNat ≠ 0 then v else s.getK r := by simp [State.getK]
@[simp] theorem State.pc_goto (s : State) (a : Word) : (s.goto a).pc = a := by simp [State.pc]
@[simp] theorem State.pc_advance (s : State) : s.advance.pc = s.pc + 4 := by simp [State.pc]
@[simp] theorem State.pc_setS (s : State) {n : Nat} (d : BitVec n) (v : Word) : (s.setS d v).pc = s.pc := by simp [State.pc]
@[simp] theorem State.pc_setV (s : State) {n : Nat} (d : BitVec n) (v : VReg) : (s.setV d v).pc = s.pc := by simp [State.pc]
@[simp] theorem State.pc_setK (s : State) {n : Nat} (d : BitVec n) (v : KReg) : (s.setK d v).pc = s.pc := by simp [State.pc]

@[simp] theorem State.pc_setCluster (s : State) (c : Nat) (x : Cluster) : (s.setCluster c x).pc = s.pc := rfl
@[simp] theorem State.pc_updCluster (s : State) (c : Nat) (f : Cluster → Cluster) : (s.updCluster c f).pc = s.pc := rfl
@[simp] theorem State.pc_updMyCluster (s : State) (f : Cluster → Cluster) : (s.updMyCluster f).pc = s.pc := rfl
@[simp] theorem State.pc_setCaravan (s : State) (i : Nat) (c : Option Caravan) : (s.setCaravan i c).pc = s.pc := rfl
@[simp] theorem State.pc_setDisp (s : State) (i : Nat) (d : Option Dispatch) : (s.setDisp i d).pc = s.pc := rfl
@[simp] theorem State.pc_setQueue (s : State) (q : Nat) (x : Queue) : (s.setQueue q x).pc = s.pc := rfl
@[simp] theorem State.pc_setPart (s : State) (p : Nat) (x : Option Partition) : (s.setPart p x).pc = s.pc := rfl

end Sys2Proof.Machine
end

