-- ==== Sys2Proof/Laws/Frame.lean ====
section
/-!
SUPPORT. Frames of the shared updates: what a change of the issuing core, of its program counter or of one of its registers keeps.
-/

namespace Sys2Proof.Machine

/-! ### Stamps and errors of registers -/

@[simp] theorem Core.sameKeys_refl (c : Core) (lo hi : Nat) : c.sameKeys c lo hi := fun _ _ _ => ⟨rfl, rfl⟩
theorem Core.sameKeys_of {c e : Core} (h : c.regs.dep = e.regs.dep) (k : c.regs.upset = e.regs.upset) (lo hi : Nat) : c.sameKeys e lo hi :=
  fun _ _ _ => ⟨by unfold Core.stamp; rw [h], by rw [k]⟩
theorem Core.sameKeys_trans {c d e : Core} {lo hi : Nat} (h : c.sameKeys d lo hi) (k : d.sameKeys e lo hi) : c.sameKeys e lo hi :=
  fun i hl hh => ⟨(h i hl hh).1.trans (k i hl hh).1, (h i hl hh).2.trans (k i hl hh).2⟩
/-- A register write changes the stamp and the error of its own key alone (R84, R264). -/
theorem Core.sameKeys_key {c e : Core} {key lo hi : Nat} (h : e.regs.dep = c.mark key) (k : e.regs.upset = c.heal key) (hk : key < lo ∨ hi ≤ key) :
    c.sameKeys e lo hi := by
  refine fun i hl hh => ⟨?_, ?_⟩
  · unfold Core.stamp; rw [h]; unfold Core.mark; rw [Sparse.get_set, if_neg (by omega)]
  · have hne : i ≠ key := by omega
    rw [k]; unfold Core.heal; rw [Bool.eq_iff_iff]; simp [hne]
@[simp] theorem Core.sameKeys_with (c : Core) (pc : Word) (sup : Bool) (csr : Csrs) (hitch : Sparse Hitch) (wins : Sparse Window) (mail : Mail)
    (chans : Sparse Chan) (sc : SCore) (obs : Sparse Word) (mem : CoreMem) (sched : Sched) (lo hi : Nat) :
    c.sameKeys ⟨pc, sup, c.regs, csr, hitch, wins, mail, chans, sc, obs, mem, sched⟩ lo hi := Core.sameKeys_of rfl rfl lo hi
@[simp] theorem Core.sameKeys_goto (c : Core) (a : Word) (lo hi : Nat) : c.sameKeys (c.goto a) lo hi := Core.sameKeys_of rfl rfl lo hi
@[simp] theorem Core.sameKeys_sch (c : Core) (f : Sched → Sched) (lo hi : Nat) : c.sameKeys (c.sch f) lo hi := Core.sameKeys_of rfl rfl lo hi
@[simp] theorem Core.sameKeys_updCsr (c : Core) (f : Csrs → Csrs) (lo hi : Nat) : c.sameKeys (c.updCsr f) lo hi := Core.sameKeys_of rfl rfl lo hi
@[simp] theorem Core.sameKeys_setSlot (c : Core) (n : Nat) (h : Hitch) (lo hi : Nat) : c.sameKeys (c.setSlot n h) lo hi := Core.sameKeys_of rfl rfl lo hi
@[simp] theorem Core.sameKeys_setChan (c : Core) (n : Nat) (h : Chan) (lo hi : Nat) : c.sameKeys (c.setChan n h) lo hi := Core.sameKeys_of rfl rfl lo hi
theorem Core.sameKeys_setS (c : Core) (i : Nat) (v : Word) (lo hi : Nat) (h : i < lo ∨ hi ≤ i) : c.sameKeys (c.setS i v) lo hi := by
  unfold Core.setS
  split
  · exact c.sameKeys_refl lo hi
  · exact Core.sameKeys_key rfl rfl h
theorem Core.sameKeys_setV (c : Core) (i : Nat) (v : VReg) (lo hi : Nat) (h : 64 + i < lo ∨ hi ≤ 64 + i) : c.sameKeys (c.setV i v) lo hi :=
  Core.sameKeys_key rfl rfl h
theorem Core.sameKeys_setK (c : Core) (i : Nat) (v : KReg) (lo hi : Nat) (h : 96 + i < lo ∨ hi ≤ 96 + i) : c.sameKeys (c.setK i v) lo hi := by
  unfold Core.setK
  split
  · exact c.sameKeys_refl lo hi
  · exact Core.sameKeys_key rfl rfl h
theorem Core.sameKeys_setW (c : Core) (i : Nat) (v : Walker) (lo hi : Nat) (h : 104 + i < lo ∨ hi ≤ 104 + i) : c.sameKeys (c.setW i v) lo hi := by
  refine fun k hl hh => ⟨rfl, ?_⟩
  have hne : k ≠ 104 + i := by omega
  rw [Bool.eq_iff_iff]; simp [Core.setW, Core.heal, hne]
theorem Core.sameKeys_bindW (c : Core) (i : Nat) (v : Walker) (lo hi : Nat) (h : 104 + i < lo ∨ hi ≤ 104 + i) : c.sameKeys (c.bindW i v) lo hi :=
  Core.sameKeys_key rfl rfl h
theorem Core.sameKeys_setM (c : Core) (i : Nat) (v : MAcc) (on : List Nat) (lo hi : Nat) (hi' : hi ≤ 112) : c.sameKeys (c.setM i v on) lo hi := by
  refine fun k hl hh => ⟨?_, ?_⟩
  · unfold Core.stamp Core.setM; dsimp only; rw [Sparse.get_set, if_neg (by omega)]
  · rw [Bool.eq_iff_iff]; simp [Core.setM]; omega

theorem Core.same_refl (c : Core) (p : CorePart) : c.same c p := by cases p <;> simp [Core.same]
theorem State.same_refl (s : State) (p : DevPart) : s.same s p := by cases p <;> simp [State.same]
theorem Core.same_trans {c d e : Core} {p : CorePart} (h : c.same d p) (k : d.same e p) : c.same e p := by
  cases p <;> simp only [Core.same] at h k ⊢ <;>
    first
    | exact ⟨h.1.trans k.1, Core.sameKeys_trans h.2 k.2⟩
    | simp_all
theorem State.same_trans {s t u : State} {p : DevPart} (h : s.same t p) (k : t.same u p) : s.same u p := by
  cases p <;> simp only [State.same] at h k ⊢ <;> simp_all

theorem keeps_refl (s : State) (g : Nat) (cs : List CorePart) (ds : List DevPart) : Keeps s s g cs ds :=
  ⟨fun p _ => s.same_refl p, fun _ _ => rfl, fun p _ => (s.core g).same_refl p, fun _ _ => rfl⟩

/-- Two changes after each other keep what both keep. -/
theorem Keeps.trans {s t u : State} {g : Nat} {cs cs' : List CorePart} {ds ds' : List DevPart} (h : Keeps s t g cs ds)
    (k : Keeps t u g cs' ds') : Keeps s u g (cs ++ cs') (ds ++ ds') :=
  ⟨fun p hp => State.same_trans (h.device p (fun x => hp (by simp [x]))) (k.device p (fun x => hp (by simp [x]))),
   fun j hj => (k.others j hj).trans (h.others j hj),
   fun p hp => Core.same_trans (h.core p (fun x => hp (by simp [x]))) (k.core p (fun x => hp (by simp [x]))),
   fun hp loc => (k.memory (fun x => hp (by simp [x])) loc).trans (h.memory (fun x => hp (by simp [x])) loc)⟩

/-- A change that keeps more keeps less. -/
theorem Keeps.weaken {s t : State} {g : Nat} {cs cs' : List CorePart} {ds ds' : List DevPart} (h : Keeps s t g cs ds)
    (hc : ∀ p ∈ cs, p ∈ cs') (hd : ∀ p ∈ ds, p ∈ ds') : Keeps s t g cs' ds' :=
  ⟨fun p hp => h.device p (fun x => hp (hd p x)), h.others, fun p hp => h.core p (fun x => hp (hc p x)),
   fun hp => h.memory (fun x => hp (hd _ x))⟩

/-- A change of one core keeps all that the change itself keeps. -/
theorem keeps_updCore (s : State) (g : Nat) (f : Core → Core) (cs : List CorePart)
    (h : ∀ p, p ∉ cs → (s.core g).same (f (s.core g)) p) : Keeps s (s.updCore g f) g cs [] :=
  ⟨fun p _ => by cases p <;> simp [State.same], fun j hj => by simp [hj], fun p hp => by simpa using h p hp, fun _ _ => rfl⟩

/-- A change of the issuing core keeps all that the change itself keeps. -/
theorem keeps_upd (s : State) (f : Core → Core) (cs : List CorePart) (h : ∀ p, p ∉ cs → s.me.same (f s.me) p) :
    Keeps s (s.upd f) s.cur cs [] := keeps_updCore s s.cur f cs h

theorem keeps_goto (s : State) (a : Word) : Keeps s (s.goto a) s.cur [.pc] [] :=
  keeps_upd s _ _ (fun p hp => by cases p <;> simp_all [Core.same])
theorem keeps_advance (s : State) : Keeps s s.advance s.cur [.pc] [] := keeps_goto s _
theorem keeps_setS (s : State) {n : Nat} (d : BitVec n) (v : Word) (h : d.toNat < 64 := by omega) : Keeps s (s.setS d v) s.cur [.scalars] [] :=
  keeps_upd s _ _ (fun p hp => by
    cases p <;> simp_all [Core.same] <;> exact Core.sameKeys_setS _ _ _ _ _ (by omega))
theorem keeps_setV (s : State) {n : Nat} (d : BitVec n) (v : VReg) (h : d.toNat < 32 := by omega) : Keeps s (s.setV d v) s.cur [.vectors] [] :=
  keeps_upd s _ _ (fun p hp => by
    cases p <;> simp_all [Core.same] <;> exact Core.sameKeys_setV _ _ _ _ _ (by omega))
theorem keeps_setK (s : State) {n : Nat} (d : BitVec n) (v : KReg) (h : d.toNat < 8 := by omega) : Keeps s (s.setK d v) s.cur [.masks] [] :=
  keeps_upd s _ _ (fun p hp => by
    cases p <;> simp_all [Core.same] <;> exact Core.sameKeys_setK _ _ _ _ _ (by omega))
theorem keeps_setW (s : State) (i : Nat) (v : Walker) (h : i < 8) : Keeps s (s.upd (fun c => c.setW i v)) s.cur [.walkers] [] :=
  keeps_upd s _ _ (fun p hp => by
    cases p <;> simp_all [Core.same] <;> exact Core.sameKeys_setW _ _ _ _ _ (by omega))
theorem keeps_bindW (s : State) (i : Nat) (v : Walker) (h : i < 8) : Keeps s (s.upd (fun c => c.bindW i v)) s.cur [.walkers] [] :=
  keeps_upd s _ _ (fun p hp => by
    cases p <;> simp_all [Core.same] <;> exact Core.sameKeys_bindW _ _ _ _ _ (by omega))
theorem keeps_setM (s : State) (i : Nat) (v : MAcc) (on : List Nat) : Keeps s (s.upd (fun c => c.setM i v on)) s.cur [.means] [] :=
  keeps_upd s _ _ (fun p hp => by
    cases p <;> simp_all [Core.same] <;> exact Core.sameKeys_setM _ _ _ _ _ _ (by omega))
/-- A change of a core outside its registers keeps their stamps and errors. -/
theorem sameKeys_regs {c e : Core} (h : c.regs = e.regs) (lo hi : Nat) : c.sameKeys e lo hi := Core.sameKeys_of (by rw [h]) (by rw [h]) lo hi

/-- Going to an address changes the program counter alone. -/
theorem goes_goto (s : State) (a : Word) : OnlyGoes s (s.goto a) a := ⟨by simp, keeps_goto s a⟩

/-- The result of an integer instruction is its whole effect (R150). -/
theorem writes_result (s : State) {n : Nat} (d : BitVec n) (v : Word) (h : d.toNat < 64 := by omega) : WritesScalar s ((s.setS d v).advance) d.toNat v (s.pc + 4) :=
  ⟨fun r => by simp, by simp, ((keeps_setS s d v h).trans (keeps_advance _)).weaken (by simp) (by simp)⟩

end Sys2Proof.Machine
end

