-- ==== Sys2Proof/Laws/Mem.lean ====
section
/-!
SUPPORT. Memory: what a write of bytes, a group, a unit and a walk can change, and that each keeps the canonical form.
-/

namespace Sys2Proof.Machine

namespace State

theorem setMany_append {α : Type} [DecidableEq α] (d : α) (l : Sparse α) (xs ys : List (Nat × α)) :
    Sparse.setMany d l (xs ++ ys) = Sparse.setMany d (Sparse.setMany d l xs) ys := by simp [Sparse.setMany]

/-! ### The canonical form -/

theorem putBytes_wf (s : State) (es : List (Nat × Byte)) (h : Memory.wf s.mem = true) : Memory.wf (s.putBytes es).mem = true :=
  Sparse.wf_setMany 0 es s.mem h

theorem markDirty_wf (s : State) (loc : Nat) (h : Memory.wf s.mem = true) : Memory.wf (s.markDirty loc).mem = true := by
  unfold markDirty
  split
  · exact Sparse.wf_set 0 s.mem _ _ h
  · exact h

theorem markFrames_wf (fs : List Nat) (s : State) (h : Memory.wf s.mem = true) : Memory.wf (s.markFrames fs).mem = true := by
  unfold markFrames
  induction fs generalizing s with
  | nil => exact h
  | cons f fs ih => exact ih _ (markDirty_wf s _ h)

@[simp] theorem repair_mem (s : State) (es : List (Nat × Byte)) : (s.repair es).mem = s.mem := by unfold repair; split <;> rfl
@[simp] theorem repair_host (s : State) (es : List (Nat × Byte)) : (s.repair es).host = s.host := by unfold repair; split <;> rfl
@[simp] theorem lostRecord_mem (s : State) (p g : Nat) (e : Option (Nat × Byte)) : (s.lostRecord p g e).mem = s.mem := by cases e <;> rfl
@[simp] theorem lostRecord_bar (s : State) (p g : Nat) (e : Option (Nat × Byte)) : (s.lostRecord p g e).host.bar0 = s.host.bar0 := by
  cases e <;> rfl

theorem writeGroup_wf (s : State) (part g : Nat) (es : List (Nat × Byte)) (h : Memory.wf s.mem = true) :
    Memory.wf (s.writeGroup part g es).mem = true :=
  markFrames_wf _ _ (putBytes_wf _ _ (by simpa using h))

theorem writeUnit_wf (s : State) (part g loc n : Nat) (val : Word) (mask : BitVec 8) (whole : Bool) (h : Memory.wf s.mem = true) :
    Memory.wf (s.writeUnit part g loc n val mask whole).mem = true := by
  unfold writeUnit
  apply writeGroup_wf
  split <;> simpa using h

/-! ### The bytes after a write -/

theorem byte_putBytes_other (s : State) (es : List (Nat × Byte)) (j : Nat) (h : ∀ e ∈ es, e.1 ≠ j) : (s.putBytes es).byte j = s.byte j :=
  Sparse.get_setMany_other 0 es s.mem j h

theorem mem_maskedBytes {loc n : Nat} {val : Word} {mask : BitVec 8} {e : Nat × Byte} (h : e ∈ maskedBytes loc n val mask) :
    ∃ i, i < n ∧ mask.getLsbD i = true ∧ e = (loc + i, byteOf val.toNat i) := by
  simp only [maskedBytes, List.mem_filterMap, List.mem_range] at h
  obtain ⟨i, hi, h⟩ := h
  split at h
  · exact ⟨i, hi, ‹_›, (Option.some.inj h).symm⟩
  · cases h

/-- A masked write puts the bytes of the mask and no other. -/
theorem byte_putMasked (s : State) (loc n : Nat) (val : Word) (mask : BitVec 8) (j : Nat) :
    (s.putBytes (maskedBytes loc n val mask)).byte j =
      if loc ≤ j ∧ j < loc + n ∧ mask.getLsbD (j - loc) = true then byteOf val.toNat (j - loc) else s.byte j := by
  induction n with
  | zero => rw [if_neg (by omega)]; rfl
  | succ n ih =>
    have e : maskedBytes loc (n + 1) val mask =
        maskedBytes loc n val mask ++ (if mask.getLsbD n then [(loc + n, byteOf val.toNat n)] else []) := by
      unfold maskedBytes; rw [List.range_succ, List.filterMap_append]; by_cases hm : mask.getLsbD n <;> simp [hm]
    have e2 : (s.putBytes (maskedBytes loc (n + 1) val mask)).mem =
        Sparse.setMany 0 (s.putBytes (maskedBytes loc n val mask)).mem (if mask.getLsbD n then [(loc + n, byteOf val.toNat n)] else []) := by
      rw [e]; exact setMany_append _ _ _ _
    show Sparse.get 0 _ j = _
    rw [e2]
    by_cases hm : mask.getLsbD n = true
    · rw [if_pos hm]
      show Sparse.get 0 (Sparse.set 0 _ (loc + n) _) j = _
      rw [Sparse.get_set]
      by_cases hj : j = loc + n
      · subst hj; rw [if_pos rfl, if_pos ⟨by omega, by omega, by simpa using hm⟩]; simp
      · rw [if_neg hj]
        show (s.putBytes (maskedBytes loc n val mask)).byte j = _
        rw [ih]; congr 1; exact propext ⟨fun h => ⟨h.1, by omega, h.2.2⟩, fun h => ⟨h.1, by omega, h.2.2⟩⟩
    · rw [if_neg hm]
      show (s.putBytes (maskedBytes loc n val mask)).byte j = _
      rw [ih]
      by_cases hj : j = loc + n
      · subst hj; rw [if_neg (by omega), if_neg]; rintro ⟨_, _, h⟩; exact hm (by simpa using h)
      · congr 1; exact propext ⟨fun h => ⟨h.1, by omega, h.2.2⟩, fun h => ⟨h.1, by omega, h.2.2⟩⟩

theorem inBitmap_of_bar {s t : State} (h : t.host.bar0 = s.host.bar0) (j : Nat) : inBitmap t j = inBitmap s j := by
  unfold inBitmap State.feature State.dirtyBase; rw [h]

theorem byte_markDirty (s : State) (loc j : Nat) (h : inBitmap s j = false) : (s.markDirty loc).byte j = s.byte j := by
  unfold markDirty
  split
  · rename_i hc
    apply Sparse.get_set_ne
    intro he
    subst he
    simp only [inBitmap, hc.1, Bool.true_and, Bool.and_eq_false_iff, decide_eq_false_iff_not] at h
    have : Config.hbmBytes = 576000000000 := by decide
    have : Config.frames = 8789062 := by decide
    omega
  · rfl

theorem byte_markFrames (fs : List Nat) (s : State) (j : Nat) (h : inBitmap s j = false) : (s.markFrames fs).byte j = s.byte j := by
  unfold markFrames
  induction fs generalizing s with
  | nil => rfl
  | cons f fs ih =>
    rw [List.foldl_cons, ih _ ((inBitmap_of_bar (congrArg HostSide.bar0 (State.markDirty_host s _)) j).trans h), byte_markDirty s _ j h]

theorem byte_congr {s t : State} (h : t.mem = s.mem) (j : Nat) : t.byte j = s.byte j := by unfold byte; rw [h]

/-- A write of a group of bytes leaves every other byte outside the dirty bitmap. -/
theorem byte_writeGroup_other (s : State) (part g : Nat) (es : List (Nat × Byte)) (j : Nat) (h : inBitmap s j = false) (hj : ∀ e ∈ es, e.1 ≠ j) :
    (s.writeGroup part g es).byte j = s.byte j := by
  unfold writeGroup
  rw [byte_markFrames _ _ _ ((inBitmap_of_bar (by simp) j).trans h), byte_putBytes_other _ _ _ (fun e he => hj e (List.mem_filter.1 he).1)]
  exact byte_congr (by simp) j

theorem badAt_of_hasBad {s : State} {loc n : Nat} (h : s.hasBad loc n = false) (i : Nat) (hi : i < n) : s.badAt (loc + i) = false := by
  rw [Bool.eq_false_iff]
  intro hg
  have hg := (Bool.and_eq_true _ _ ▸ hg : _ ∧ _).2
  have : ∃ e ∈ s.bad, e.1 = granuleOf (loc + i) ∧ e.2 = true := by
    generalize granuleOf (loc + i) = k at hg
    generalize s.bad = l at hg ⊢
    induction l with
    | nil => cases hg
    | cons e l ih =>
      obtain ⟨k', v⟩ := e
      rw [Sparse.get] at hg
      split at hg
      · cases hg
      · split at hg
        · exact ⟨(k', v), by simp, by simp [*], hg⟩
        · obtain ⟨e, he, h1⟩ := ih hg; exact ⟨e, by simp [he], h1⟩
  obtain ⟨e, he, h1, h2⟩ := this
  have hb : (s.hasBad loc n) = true := by
    simp only [State.hasBad, List.any_eq_true]
    refine ⟨e, he, ?_⟩
    have : granuleOf (loc + i) ≤ loc + i ∧ loc + i < granuleOf (loc + i) + granuleSize (granuleOf (loc + i)) := by
      unfold granuleOf granuleSize
      by_cases hl : loc + i < 2 ^ 64
      · rw [if_pos hl, if_pos (by omega)]; omega
      · rw [if_neg hl, if_neg (by omega)]; omega
    rw [h1, h2]; simp; omega
  rw [h] at hb; cases hb

theorem badAt_repair {s : State} {loc : Nat} (es : List (Nat × Byte)) (h : s.badAt loc = false) : (s.repair es).badAt loc = false := by
  unfold repair
  split
  · exact h
  · rename_i hb
    simp only [badAt, Bool.and_eq_false_iff, Bool.not_eq_false'] at h ⊢
    right
    have h : Sparse.get false s.bad (granuleOf loc) = false := by simpa [hb] using h
    generalize s.bad = b at h ⊢
    clear hb
    induction es generalizing b with
    | nil => exact h
    | cons e es ih =>
      refine ih _ ?_
      rw [Sparse.get_set]; split
      · rfl
      · exact h

theorem byte_writeGroup' (s : State) (part g loc n : Nat) (val : Word) (mask : BitVec 8) (j : Nat) (h : inBitmap s j = false)
    (hb : ∀ i, i < n → s.badAt (loc + i) = false) :
    (s.writeGroup part g (maskedBytes loc n val mask)).byte j =
      if loc ≤ j ∧ j < loc + n ∧ mask.getLsbD (j - loc) = true then byteOf val.toNat (j - loc) else s.byte j := by
  have hd : ∀ e ∈ maskedBytes loc n val mask, s.discarded (maskedBytes loc n val mask) e = false := by
    intro e he
    obtain ⟨i, hi, _, rfl⟩ := mem_maskedBytes he
    simp [discarded, hb i hi]
  have hk : (maskedBytes loc n val mask).filter (fun e => !s.discarded (maskedBytes loc n val mask) e) = maskedBytes loc n val mask := by
    rw [List.filter_eq_self]; intro e he; simp [hd e he]
  unfold writeGroup
  simp only [hk]
  rw [byte_markFrames _ _ _ ((inBitmap_of_bar (by simp) j).trans h), byte_putMasked]
  split
  · rfl
  · exact byte_congr (by simp) j

/-- A write of a group none of whose bytes meets an error puts all of them and no other. -/
theorem byte_writeGroup (s : State) (part g loc n : Nat) (val : Word) (mask : BitVec 8) (j : Nat) (h : inBitmap s j = false)
    (hb : s.hasBad loc n = false) :
    (s.writeGroup part g (maskedBytes loc n val mask)).byte j =
      if loc ≤ j ∧ j < loc + n ∧ mask.getLsbD (j - loc) = true then byteOf val.toNat (j - loc) else s.byte j :=
  byte_writeGroup' s part g loc n val mask j h (badAt_of_hasBad hb)

/-- The same of a unit. -/
theorem byte_writeUnit (s : State) (part g loc n : Nat) (val : Word) (mask : BitVec 8) (whole : Bool) (j : Nat) (h : inBitmap s j = false)
    (hb : s.hasBad loc n = false) :
    (s.writeUnit part g loc n val mask whole).byte j =
      if loc ≤ j ∧ j < loc + n ∧ mask.getLsbD (j - loc) = true then byteOf val.toNat (j - loc) else s.byte j := by
  unfold writeUnit
  split
  · rw [byte_writeGroup' _ _ _ _ _ _ _ _ ((inBitmap_of_bar (by simp) j).trans h) (fun i hi => badAt_repair _ (badAt_of_hasBad hb i hi))]
    split
    · rfl
    · exact byte_congr (by simp) j
  · exact byte_writeGroup s part g loc n val mask j h hb

theorem keeps_markDirty (s : State) (loc c : Nat) : Keeps s (s.markDirty loc) c [] [.memory] :=
  ⟨fun p hp => by cases p <;> simp_all [State.same], fun _ _ => by simp, fun p _ => by simp [Core.same_refl], fun hp => absurd (by simp) hp⟩

theorem keeps_markFrames (fs : List Nat) (s : State) (c : Nat) : Keeps s (s.markFrames fs) c [] [.memory] := by
  unfold markFrames
  induction fs generalizing s with
  | nil => exact keeps_refl _ _ _ _
  | cons f fs ih => exact ((keeps_markDirty s _ c).trans (ih _)).weaken (by simp) (by simp)

theorem keeps_putBytes (s : State) (es : List (Nat × Byte)) (c : Nat) : Keeps s (s.putBytes es) c [] [.memory] :=
  ⟨fun p hp => by cases p <;> simp_all [State.same], fun _ _ => rfl, fun _ _ => Core.same_refl _ _, fun hp => absurd (by simp) hp⟩

theorem keeps_repair (s : State) (es : List (Nat × Byte)) (c : Nat) : Keeps s (s.repair es) c [] [.errors] := by
  unfold repair; split
  · exact keeps_refl _ _ _ _
  · exact ⟨fun p hp => by cases p <;> simp_all [State.same], fun _ _ => rfl, fun _ _ => Core.same_refl _ _, fun _ _ => rfl⟩

theorem keeps_fqPush (s : State) (a b c : Nat) : Keeps s (s.fqPush a b) c [] [.host] :=
  ⟨fun p hp => by cases p <;> simp_all [State.same], fun _ _ => rfl, fun _ _ => Core.same_refl _ _, fun _ _ => rfl⟩

/-- What a write of a group leaves the same. -/
theorem keeps_writeGroup (s : State) (part g c : Nat) (es : List (Nat × Byte)) : Keeps s (s.writeGroup part g es) c [] [.errors, .host, .memory] := by
  unfold writeGroup
  have h2 : ∀ (t : State) (e : Option (Nat × Byte)), Keeps t (t.lostRecord part g e) c [] [.host] := by
    intro t e; cases e
    · exact keeps_refl _ _ _ _
    · exact keeps_fqPush _ _ _ _
  exact ((((keeps_repair s _ c).trans (h2 _ _)).trans (keeps_putBytes _ _ c)).trans (keeps_markFrames _ _ c)).weaken (by simp) (by simp)

/-- A write of a unit none of whose bytes meets an error leaves no record. -/
theorem keeps_writeUnit (s : State) (part g c loc n : Nat) (val : Word) (mask : BitVec 8) (whole : Bool) (hb : s.hasBad loc n = false) :
    Keeps s (s.writeUnit part g loc n val mask whole) c [] [.errors, .memory] := by
  have key : ∀ t : State, (∀ i, i < n → t.badAt (loc + i) = false) →
      Keeps t (t.writeGroup part g (maskedBytes loc n val mask)) c [] [.errors, .memory] := by
    intro t ht
    have hf : (maskedBytes loc n val mask).find? (t.discarded (maskedBytes loc n val mask)) = none := by
      rw [List.find?_eq_none]
      intro e he
      obtain ⟨i, hi, _, rfl⟩ := mem_maskedBytes he
      simp [discarded, ht i hi]
    unfold writeGroup
    rw [hf]
    exact (((keeps_repair t _ c).trans (keeps_putBytes _ _ c)).trans (keeps_markFrames _ _ c)).weaken (by simp) (by simp)
  unfold writeUnit
  split
  · exact ((keeps_repair s _ c).trans (key _ (fun i hi => badAt_repair _ (badAt_of_hasBad hb i hi)))).weaken (by simp) (by simp)
  · exact key s (badAt_of_hasBad hb)

end State

/-! ### Walks -/

theorem keeps_updCluster (s : State) (cl c : Nat) (f : Cluster → Cluster) : Keeps s (s.updCluster cl f) c [] [.clusters] :=
  ⟨fun p hp => by cases p <;> simp_all [State.same], fun _ _ => rfl, fun _ _ => Core.same_refl _ _, fun _ _ => rfl⟩

theorem OnlyBytes.refl (s : State) (loc n : Nat) : OnlyBytes s s loc n := fun _ _ _ => rfl

theorem keeps_cacheLeaf (s : State) (cl g : Nat) (e : TlbEntry) : Keeps s (cacheLeaf s cl e) g [] [.clusters] := keeps_updCluster _ _ _ _

theorem keeps_cacheTables (s : State) (die part va g : Nat) (ts : List WalkEntry) : Keeps s (cacheTables s die part va ts) g [] [.walkCaches] := by
  unfold cacheTables; split
  · exact keeps_refl _ _ _ _
  · exact ⟨fun p hp => by cases p <;> simp_all [State.same], fun _ _ => rfl, fun _ _ => Core.same_refl _ _, fun _ _ => rfl⟩

theorem keeps_setLeaf (s : State) (part at_ e e2 g : Nat) : Keeps s (setLeaf s part at_ e e2) g [] [.memory, .errors, .host] := by
  unfold setLeaf; split
  · exact keeps_refl _ _ _ _
  · exact (State.keeps_writeGroup s part 0 g _).weaken (by simp) (by simp)

theorem bytes_setLeaf (s : State) (part at_ e e2 : Nat) : OnlyBytes s (setLeaf s part at_ e e2) at_ 8 := by
  unfold setLeaf; split
  · exact OnlyBytes.refl _ _ _
  · exact fun j hj hb => State.byte_writeGroup_other s part 0 _ j hb (fun e he => by
      obtain ⟨i, hi, _, rfl⟩ := State.mem_maskedBytes he; show at_ + i ≠ j; omega)

/-- What a walk leaves behind (R23, R27): A and D set in the leaf, the leaf in the cluster's cache, the tables in the die's. -/
def walked (s : State) (cl part : Nat) (k : Access) (va root e at_ level : Nat) : State :=
  let w := walkStart s (dieOf cl) part va root
  cacheTables (cacheLeaf (setLeaf s part at_ e (e ||| walkBits k)) cl
    { part := part, base := va / 2 ^ (6 + 10 * level) * 2 ^ (6 + 10 * level), size := 2 ^ (6 + 10 * level),
      leaf := BitVec.ofNat 64 (e ||| walkBits k), entry := at_ }) (dieOf cl) part va (walkTables s part va w.1 w.2)

/-- A translation changes nothing, by a cached entry, or walks the tables from where the die's walk caches begin (R23, R27). -/
theorem translate_cases {s s1 : State} {cl part : Nat} {sup : Bool} {k : Access} {va : Nat} {x : Xl} (h : translate s cl part sup k va = .ok (s1, x)) :
    s1 = s ∨ ∃ (p : Partition) (e at_ level : Nat), s.part part = some p ∧
      walkFrom s part va (walkStart s (dieOf cl) part va p.root).1 (walkStart s (dieOf cl) part va p.root).2 = .ok (e, at_, level) ∧
      s1 = walked s cl part k va p.root e at_ level := by
  unfold translate at h
  simp only at h
  split at h
  · left
    cases hl : leafUse s part k sup (BitVec.toNat _) _ va with
    | error e => rw [hl] at h; cases h
    | ok y => rw [hl] at h; cases h; rfl
  · split at h
    · cases h
    · rename_i p hp
      split at h
      · cases h
      · rename_i e at_ level hw
        split at h
        · cases h
        · cases h
          exact .inr ⟨p, e, at_, level, hp, hw, rfl⟩

theorem keeps_walked (s : State) (cl part : Nat) (k : Access) (va root e at_ level g : Nat) :
    Keeps s (walked s cl part k va root e at_ level) g [] [.clusters, .memory, .errors, .host, .walkCaches] :=
  (((keeps_setLeaf s part at_ e _ g).trans (keeps_cacheLeaf _ cl g _)).trans (keeps_cacheTables _ (dieOf cl) part va g _)).weaken (by simp) (by
    intro p hp; simp only [List.cons_append, List.nil_append, List.mem_cons, List.not_mem_nil, or_false] at hp ⊢
    rcases hp with h | h | h | h | h <;> simp [h])

theorem bytes_walked (s : State) (cl part : Nat) (k : Access) (va root e at_ level : Nat) :
    OnlyBytes s (walked s cl part k va root e at_ level) at_ 8 := fun j hj hb => by
  unfold walked
  rw [(keeps_cacheTables _ (dieOf cl) part va 0 _).memory (by simp), (keeps_cacheLeaf _ cl 0 _).memory (by simp)]
  exact bytes_setLeaf s part at_ e _ j hj hb

theorem keeps_translate {s s1 : State} {cl part : Nat} {sup : Bool} {k : Access} {va : Nat} {x : Xl} (h : translate s cl part sup k va = .ok (s1, x))
    (g : Nat) : Keeps s s1 g [] [.clusters, .memory, .errors, .host, .walkCaches] := by
  rcases translate_cases h with rfl | ⟨p, e, a, l, _, _, rfl⟩
  · exact keeps_refl _ _ _ _
  · exact keeps_walked _ _ _ _ _ _ _ _ _ _

theorem bytes_translate {s s1 : State} {cl part : Nat} {sup : Bool} {k : Access} {va : Nat} {x : Xl} (h : translate s cl part sup k va = .ok (s1, x)) :
    ∃ e, OnlyBytes s s1 e 8 := by
  rcases translate_cases h with rfl | ⟨p, e, a, l, _, _, rfl⟩
  · exact ⟨0, OnlyBytes.refl _ _ _⟩
  · exact ⟨a, bytes_walked _ _ _ _ _ _ _ _ _⟩

theorem walked_wf (s : State) (cl part : Nat) (k : Access) (va root e at_ level : Nat) (hw : Memory.wf s.mem = true) :
    Memory.wf (walked s cl part k va root e at_ level).mem = true := by
  have h1 : (walked s cl part k va root e at_ level).mem = (setLeaf s part at_ e (e ||| walkBits k)).mem := by
    unfold walked cacheTables; simp only; split <;> rfl
  rw [h1]; unfold setLeaf; split
  · exact hw
  · exact State.writeGroup_wf s part 0 _ hw

theorem translate_wf {s s1 : State} {cl part : Nat} {sup : Bool} {k : Access} {va : Nat} {x : Xl} (h : translate s cl part sup k va = .ok (s1, x))
    (hw : Memory.wf s.mem = true) : Memory.wf s1.mem = true := by
  rcases translate_cases h with rfl | ⟨p, e, a, l, _, _, rfl⟩
  · exact hw
  · exact walked_wf _ _ _ _ _ _ _ _ _ hw

/-- Where an access lands: a window access changes nothing, a global one is a walk. -/
theorem locate_cases {s s1 : State} {g : Nat} {sup : Bool} {k : Access} {a : Word} {p : Place} (h : locate s g sup k a = .ok (s1, p)) :
    (spaceOf a = 0xE0 ∧ s1 = s ∧ ((s.core g).slot (a.toNat / 2 ^ 18 % 32)).st = .attached ∧
      p = { loc := locWagon (clusterOf g) ((s.core g).slot (a.toNat / 2 ^ 18 % 32)).wagon (a.toNat % 2 ^ 18), mtype := 0,
            slot := some (a.toNat / 2 ^ 18 % 32) }) ∨
    (spaceOf a = 0 ∧ p.slot = none ∧ ∃ x, translate s (clusterOf g) (s.core g).part sup k a.toNat = .ok (s1, x) ∧ x.region = 0 ∧
      p.loc = locHbm x.pa ∧ p.mtype = x.mtype) := by
  unfold locate at h
  simp only at h
  split at h
  · split at h
    · cases h
    · split at h
      · cases h
      · rename_i h1 _ h3
        left; cases h; exact ⟨h1, rfl, by simpa using h3, rfl⟩
  · split at h
    · rename_i h1
      right
      split at h
      · cases h
      · rename_i s2 x ht
        split at h
        · cases h
        · split at h
          · cases h
          · rename_i h2 _
            cases h; exact ⟨h1, rfl, x, ht, by simpa using h2, rfl, rfl⟩
    · cases h

/-- Walks for their A bits keep all but what a walk writes (R22, R23). -/
theorem keeps_walkAll (cl part : Nat) (sup : Bool) (k : Access) (as : List Nat) (s : State) (g : Nat) :
    Keeps s (walkAll s cl part sup k as) g [] [.clusters, .memory, .errors, .host, .walkCaches] := by
  induction as generalizing s with
  | nil => exact keeps_refl _ _ _ _
  | cons a as ih =>
    show Keeps s (walkAll (match translate s cl part sup k a with | .ok (t1, _) => t1 | .error _ => s) cl part sup k as) g _ _
    cases h : translate s cl part sup k a with
    | error c => exact ih s
    | ok r => exact ((keeps_translate h g).trans (ih r.1)).weaken (by simp) (by simp)

theorem keeps_locate {s s1 : State} {g : Nat} {sup : Bool} {k : Access} {a : Word} {p : Place} (h : locate s g sup k a = .ok (s1, p)) (c : Nat) :
    Keeps s s1 c [] [.clusters, .memory, .errors, .host, .walkCaches] := by
  rcases locate_cases h with ⟨_, rfl, _⟩ | ⟨_, _, x, ht, _⟩
  · exact keeps_refl _ _ _ _
  · exact keeps_translate ht c

theorem locate_wf {s s1 : State} {g : Nat} {sup : Bool} {k : Access} {a : Word} {p : Place} (h : locate s g sup k a = .ok (s1, p))
    (hw : Memory.wf s.mem = true) : Memory.wf s1.mem = true := by
  rcases locate_cases h with ⟨_, rfl, _⟩ | ⟨_, _, x, ht, _⟩
  · exact hw
  · exact translate_wf ht hw

/-- A walk changes no core and not which core issues. -/
theorem locate_core {s s1 : State} {g : Nat} {sup : Bool} {k : Access} {a : Word} {p : Place} (h : locate s g sup k a = .ok (s1, p)) (c : Nat) :
    s1.core c = s.core c := (keeps_locate h (c + 1)).others c (by omega)
theorem locate_cur {s s1 : State} {g : Nat} {sup : Bool} {k : Access} {a : Word} {p : Place} (h : locate s g sup k a = .ok (s1, p)) :
    s1.cur = s.cur := ((keeps_locate h 0).device .model (by simp)).1.symm
theorem locate_me {s s1 : State} {g : Nat} {sup : Bool} {k : Access} {a : Word} {p : Place} (h : locate s g sup k a = .ok (s1, p)) :
    s1.me = s.me := by unfold State.me; rw [locate_cur h, locate_core h]
theorem locate_parts {s s1 : State} {g : Nat} {sup : Bool} {k : Access} {a : Word} {p : Place} (h : locate s g sup k a = .ok (s1, p)) :
    s1.parts = s.parts := ((keeps_locate h 0).device .partitions (by simp)).symm

end Sys2Proof.Machine
end

