-- ==== Sys2Proof/Laws/Scalar.lean ====
section
/-!
SUPPORT. The arithmetic of the integer instructions in the words of Tables 08-2 to 08-5: each operation of the model as a number.
-/

namespace Sys2Proof.Machine
open Sys2Proof

theorem wordOf_toInt (x : Word) : wordOf x.toInt = x := by simp [wordOf]
theorem wordOf_sext {n : Nat} (x : BitVec n) : wordOf x.toInt = x.signExtend 64 := rfl
theorem slt_eq (x y : Word) : x.slt y = decide (x.toInt < y.toInt) := by simp [BitVec.slt]
theorem ult_eq (x y : Word) : x.ult y = decide (x.toNat < y.toNat) := by simp [BitVec.ult]

theorem add_val (x y : Word) : aluAdd x y = BitVec.ofNat 64 (x.toNat + y.toNat) := by simp [aluAdd, BitVec.ofNat_add]
theorem sub_val (x y : Word) : aluSub x y = wordOf (x.toInt - y.toInt) := by
  apply BitVec.eq_of_toInt_eq; simp [aluSub, wordOf, BitVec.toInt_sub]
theorem shl_val (x y : Word) : aluShl x y = BitVec.ofNat 64 (x.toNat * 2 ^ (y.toNat % 64)) := by
  simp [aluShl, ← BitVec.toNat_inj, Nat.shiftLeft_eq]
theorem ushr_val (x : Word) (n : Nat) : x >>> n = BitVec.ofNat 64 (x.toNat / 2 ^ n) := by
  apply BitVec.eq_of_toNat_eq
  simp only [BitVec.toNat_ushiftRight, Nat.shiftRight_eq_div_pow, BitVec.toNat_ofNat]
  exact (Nat.mod_eq_of_lt (Nat.lt_of_le_of_lt (Nat.div_le_self _ _) (BitVec.isLt _))).symm
theorem shr_val (x y : Word) : aluShr x y = BitVec.ofNat 64 (x.toNat / 2 ^ (y.toNat % 64)) := ushr_val _ _
theorem shra_val (x y : Word) : aluShra x y = wordOf (x.toInt / 2 ^ (y.toNat % 64)) := by
  simp only [aluShra, wordOf, BitVec.sshiftRight, Int.shiftRight_eq_div_pow]; rfl
theorem ror_nat (x : Word) (n : Nat) (h : n < 64) : x.rotateRight n = BitVec.ofNat 64 (x.toNat / 2 ^ n + x.toNat * 2 ^ (64 - n)) := by
  rw [BitVec.rotateRight_eq_rotateRightAux_of_lt h, BitVec.rotateRightAux]
  rw [← BitVec.add_eq_or_of_and_eq_zero, ushr_val, BitVec.ofNat_add]
  · congr 1; simp [← BitVec.toNat_inj, Nat.shiftLeft_eq]
  · apply BitVec.eq_of_getLsbD_eq; intro i hi
    simp only [BitVec.getLsbD_and, BitVec.getLsbD_ushiftRight, BitVec.getLsbD_shiftLeft, BitVec.getLsbD_zero, hi, decide_true, Bool.true_and]
    by_cases h1 : i < 64 - n
    · simp [h1]
    · rw [BitVec.getLsbD_of_ge x (n + i) (by omega)]; rfl
theorem ror_val (x y : Word) : aluRor x y = BitVec.ofNat 64 (x.toNat / 2 ^ (y.toNat % 64) + x.toNat * 2 ^ (64 - y.toNat % 64)) :=
  ror_nat _ _ (Nat.mod_lt _ (by decide))
theorem min_val (x y : Word) : aluMinS x y = wordOf (min x.toInt y.toInt) := by
  simp only [aluMinS, slt_eq, Int.min_def, decide_eq_true_eq]
  split
  · rw [if_pos (by omega), wordOf_toInt]
  · split
    · rw [wordOf_toInt]; exact BitVec.eq_of_toInt_eq (by omega)
    · rw [wordOf_toInt]
theorem max_val (x y : Word) : aluMaxS x y = wordOf (max x.toInt y.toInt) := by
  simp only [aluMaxS, slt_eq, Int.max_def, decide_eq_true_eq]
  split
  · rw [if_pos (by omega), wordOf_toInt]
  · split
    · rw [wordOf_toInt]; exact BitVec.eq_of_toInt_eq (by omega)
    · rw [wordOf_toInt]
theorem minu_val (x y : Word) : aluMinu x y = BitVec.ofNat 64 (min x.toNat y.toNat) := by
  simp only [aluMinu, ult_eq, Nat.min_def, decide_eq_true_eq]
  apply BitVec.eq_of_toNat_eq; split <;> split <;> simp <;> omega
theorem maxu_val (x y : Word) : aluMaxu x y = BitVec.ofNat 64 (max x.toNat y.toNat) := by
  simp only [aluMaxu, ult_eq, Nat.max_def, decide_eq_true_eq]
  apply BitVec.eq_of_toNat_eq; split <;> split <;> simp <;> omega
theorem slt_val (x y : Word) : aluSlt x y = if decide (x.toInt < y.toInt) then 1 else 0 := by
  simp only [aluSlt, slt_eq]; rfl
theorem sltu_val (x y : Word) : aluSltu x y = if decide (x.toNat < y.toNat) then 1 else 0 := by
  simp only [aluSltu, ult_eq]; rfl
theorem seq_val (x y : Word) : aluSeq x y = if decide (x.toNat = y.toNat) then 1 else 0 := by
  simp only [aluSeq, Word.ofBool, beq_iff_eq, decide_eq_true_eq, BitVec.toNat_inj]; rfl
theorem addi_val {n : Nat} (x : Word) (i : BitVec n) : aluAdd x (i.signExtend 64) = wordOf (x.toInt + i.toInt) := by
  unfold aluAdd wordOf; rw [BitVec.ofInt_add, BitVec.ofInt_toInt]; rfl
theorem sltui_val {n : Nat} (x : Word) (i : BitVec n) :
    aluSltu x (i.signExtend 64) = if decide (x.toNat < (wordOf i.toInt).toNat) then 1 else 0 := sltu_val _ _
theorem slti_val {n : Nat} (x : Word) (i : BitVec n) (h : n ≤ 64) :
    aluSlt x (i.signExtend 64) = if decide (x.toInt < i.toInt) then 1 else 0 := by
  rw [slt_val, BitVec.toInt_signExtend_of_le h]
theorem upper_val (i : BitVec 19) : upperImm i = wordOf (i.toInt * 2 ^ 13) := by
  unfold upperImm wordOf
  rw [BitVec.ofInt_mul, ← wordOf_sext, wordOf, BitVec.shiftLeft_eq_mul_twoPow]; rfl
theorem addpc_val (p : Word) (i : BitVec 19) : p + upperImm i = wordOf (p.toNat + i.toInt * 2 ^ 13) := by
  rw [upper_val]; unfold wordOf; rw [BitVec.ofInt_add]; simp
theorem mul_val (x y : Word) : x * y = BitVec.ofNat 64 (x.toNat * y.toNat) := by simp [BitVec.ofNat_mul]
theorem madd_val (x y z : Word) : x * y + z = BitVec.ofNat 64 (x.toNat * y.toNat + z.toNat) := by simp [BitVec.ofNat_mul, BitVec.ofNat_add]

theorem lead_val (x : Word) (n : Nat) :
    leadZeros x n = ((List.range n).takeWhile (fun k => !x.getLsbD (n - 1 - k))).length := by
  induction n with
  | zero => rfl
  | succ n ih =>
    rw [leadZeros, List.range_succ_eq_map, List.takeWhile_cons]
    by_cases h : x.getLsbD n
    · simp [h]
    · simp only [h, Bool.false_eq_true, if_false, ih]
      simp only [Nat.add_sub_cancel, Nat.sub_zero, h, Bool.not_false, if_true, List.length_cons, List.takeWhile_map, List.length_map]
      congr 3; funext k; simp only [Function.comp, Nat.succ_eq_add_one]; congr 2; omega
theorem trail_val (x : Word) : trailZeros x = ((List.range 64).takeWhile (fun k => !x.getLsbD k)).length := by
  unfold trailZeros; rw [lead_val]
  suffices h : ∀ l : List Nat, (∀ k ∈ l, k < 64) →
      (l.takeWhile (fun k => !x.reverse.getLsbD (64 - 1 - k))) = l.takeWhile (fun k => !x.getLsbD k) from
    congrArg List.length (h _ (fun k hk => List.mem_range.1 hk))
  intro l hl
  induction l with
  | nil => rfl
  | cons k l ih =>
    have hk := hl k (by simp)
    have hx : x.reverse.getLsbD (64 - 1 - k) = x.getLsbD k := by
      rw [BitVec.getLsbD_reverse, BitVec.getMsbD]; simp only [show 64 - 1 - (64 - 1 - k) = k by omega, show 64 - 1 - k < 64 by omega]; simp
    rw [List.takeWhile_cons, List.takeWhile_cons, hx, ih (fun j hj => hl j (by simp [hj]))]
theorem ones_val (x : Word) (n : Nat) : onesBelow x n = ((List.range n).filter x.getLsbD).length := by
  induction n with
  | zero => rfl
  | succ n ih => rw [onesBelow, List.range_succ, List.filter_append, List.length_append, ih]; by_cases h : x.getLsbD n <;> simp [h]
theorem sext_val (n : Nat) (x : Word) : Word.sext n x = wordOf (x.setWidth n).toInt := rfl
theorem bfx_val (x : Word) (p n : Nat) : (bitField x p n).signExtend 64 = wordOf (x.extractLsb' p n).toInt := rfl
theorem bfxu_val (x : Word) (p n : Nat) : (bitField x p n).setWidth 64 = BitVec.ofNat 64 (x.toNat / 2 ^ p % 2 ^ n) := by
  apply BitVec.eq_of_toNat_eq; simp [bitField, BitVec.extractLsb'_toNat, Nat.shiftRight_eq_div_pow]
theorem bfi_val (d a : Word) (p n : Nat) (h : n ≤ 64) :
    insertField d a p n = BitVec.ofNat 64 (d.toNat / 2 ^ (p + n) * 2 ^ (p + n) + a.toNat % 2 ^ n * 2 ^ p + d.toNat % 2 ^ p) := by
  apply BitVec.eq_of_getLsbD_eq
  intro i hi
  have e : d.toNat / 2 ^ (p + n) * 2 ^ (p + n) + a.toNat % 2 ^ n * 2 ^ p + d.toNat % 2 ^ p
      = 2 ^ p * (2 ^ n * (d.toNat / 2 ^ (p + n)) + a.toNat % 2 ^ n) + d.toNat % 2 ^ p := by rw [Nat.pow_add]; ring
  simp only [insertField, BitVec.getLsbD_or, BitVec.getLsbD_and, BitVec.getLsbD_not, BitVec.getLsbD_shiftLeft, BitVec.getLsbD_setWidth,
    BitVec.getLsbD_allOnes, BitVec.getLsbD_ofNat, e]
  rw [Nat.testBit_two_pow_mul_add _ (Nat.mod_lt _ (Nat.two_pow_pos p))]
  simp only [hi, decide_true, Bool.true_and]
  split
  · simp [*, Nat.testBit_mod_two_pow, BitVec.getLsbD]
  · rw [Nat.testBit_two_pow_mul_add _ (Nat.mod_lt _ (Nat.two_pow_pos n))]
    split
    · simp only [Nat.testBit_mod_two_pow]; simp [*, BitVec.getLsbD, show i - p < n by omega, show i - p < 64 by omega]
    · rw [← Nat.shiftRight_eq_div_pow, Nat.testBit_shiftRight]; simp [*, BitVec.getLsbD]
      rw [show p + n + (i - p - n) = i by omega]
end Sys2Proof.Machine
end

