-- ==== Sys2Proof/Laws/Trap.lean ====
section
/-!
SUPPORT. How an issue ends, and what taking a trap does when its handler can run.
-/

namespace Sys2Proof.Machine

@[simp] theorem finish_ok (s t : State) : finish s (.ok t) = .next t := rfl
@[simp] theorem finish_stay (s t : State) : finish s (.stay t) = .next t := rfl
@[simp] theorem finish_wait (s : State) : finish s .wait = .next s := rfl
@[simp] theorem Issue.bind_ok {α β : Type} (a : α) (f : α → Issue β) : (Issue.ok a).bind f = f a := rfl
@[simp] theorem Issue.bind_trap {α β : Type} (c : Nat) (v : Word) (f : α → Issue β) : (Issue.trap c v).bind f = .trap c v := rfl
@[simp] theorem Issue.bind_trapAt {α β : Type} (s : State) (c : Nat) (v : Word) (f : α → Issue β) : (Issue.trapAt s c v).bind f = .trapAt s c v := rfl
@[simp] theorem Issue.bind_stay {α β : Type} (s : State) (f : α → Issue β) : (Issue.stay s).bind f = .stay s := rfl
@[simp] theorem Issue.bind_wait {α β : Type} (f : α → Issue β) : (Issue.wait).bind f = .wait := rfl

/-- An issue always ends in a next state. -/
theorem finish_next (s : State) (x : Issue State) : ∃ t, finish s x = .next t := by cases x <;> exact ⟨_, rfl⟩

/-- A trap whose handler can run is taken there, and changes nothing but the trap CSRs and the program counter (R259). -/
theorem takesTrap (s : State) (c : Nat) (v : Word) (h : handled s = true) (hc : c < 32) (hv : c = 11 → v ≠ BitVec.allOnes 64 := by simp) :
    TakesTrap s (trapEntry s c v) c v := by
  simp only [handled, Bool.and_eq_true, Bool.not_eq_true', bne_iff_ne, ne_eq] at h
  obtain ⟨h1, h2⟩ := h
  have hf : trapFatal s.me c v = false := by
    unfold trapFatal; rw [h1]
    have h4 : ((c == 11) && v == BitVec.allOnes 64) = false := by
      rw [Bool.and_eq_false_iff, beq_eq_false_iff_ne, beq_eq_false_iff_ne]
      by_cases h5 : c = 11
      · exact .inr (hv h5)
      · exact .inl h5
    rw [h4]; simp; exact h2
  have e : trapEntry s c v = (s.upd (fun x => { x with csr := trapCsrs s.me c v s.word, sched := { x.sched with hold := .free } })).goto
      (s.me.csr.tvec + BitVec.ofNat 64 (128 * c)) := by
    unfold trapEntry
    simp [hf, Nat.mod_eq_of_lt hc]
  rw [e]
  refine ⟨?_, ?_, ?_, ?_, ?_, ?_, ?_, ?_, ?_⟩
  · simp [trapCsrs, Nat.mod_eq_of_lt hc]
  · simp [trapCsrs]
  · simp [trapCsrs]; rfl
  · simp [trapCsrs]
  · simp only [State.me_goto, State.me_upd, Core.goto_csr, trapCsrs]; cases s.me.sup <;> rfl
  · simp
  · simp [trapCsrs]
  · simp
  · refine ((keeps_upd s _ [.csrs, .pc] ?_).trans (keeps_goto _ _)).weaken ?_ ?_
    · intro p hp; cases p <;> simp_all [Core.same] <;> exact sameKeys_regs rfl _ _
    · simp
    · simp

/-- An instruction that raises a trap with a handler takes it; TCAUSE 15 leaves a fault record besides (R259, R278). -/
theorem finish_trap (s : State) (c : Nat) (v : Word) (h : handled s = true) (hc : c < 15)
    (hv : c = 11 → v ≠ BitVec.allOnes 64 := by simp) : ∃ t, finish s (.trap c v) = .next t ∧ TakesTrap s t c v := by
  refine ⟨_, rfl, ?_⟩
  have : discardRecord s c v = s := by simp [discardRecord]; omega
  rw [this]; exact takesTrap s c v h (by omega) hv

end Sys2Proof.Machine
end

