-- ==== Sys2Proof/Laws/Access.lean ====
section
/-!
SUPPORT. The shared parts of loads and stores: budgets, the walker's step, the end of an access, a scalar load performed at once.
-/

namespace Sys2Proof.Machine

theorem Keeps.symm_cur {s t : State} {g : Nat} {cs : List CorePart} {ds : List DevPart} (h : Keeps s t g cs ds) (hm : DevPart.model ∉ ds) : t.cur = s.cur := (h.device .model hm).1.symm

theorem keeps_updPart (s : State) (p g : Nat) (f : Partition → Partition) : Keeps s (s.updPart p f) g [] [.partitions] := by
  unfold State.updPart; split
  · exact keeps_refl _ _ _ _
  · exact ⟨fun p hp => by cases p <;> simp_all [State.same], fun _ _ => rfl, fun _ _ => Core.same_refl _ _, fun _ _ => rfl⟩

theorem keeps_charge {s t : State} {a : Ask} (h : s.charge a = some t) (g : Nat) : Keeps s t g [] [.partitions, .requests] := by
  unfold State.charge at h
  split at h
  · cases h; exact keeps_refl _ _ _ _
  · split at h
    · cases h
    · cases h
      have e : Keeps s { s with asks := s.asks.filter (fun x => x.by_ != a.by_ || x.act != a.act) } g [] [.requests] :=
        ⟨fun p hp => by cases p <;> simp_all [State.same], fun _ _ => rfl, fun _ _ => Core.same_refl _ _, fun _ _ => rfl⟩
      exact (e.trans (keeps_updPart _ _ g _)).weaken (by simp) (by simp)

/-- Served requests count in their accounts and wait no longer, and nothing else changes (R128). -/
theorem keeps_chargeList {l : List Ask} {s t : State} (h : s.chargeList l = some t) (g : Nat) : Keeps s t g [] [.partitions, .requests] := by
  induction l generalizing s with
  | nil => cases h; exact keeps_refl _ _ _ _
  | cons a l ih =>
    simp only [State.chargeList, Option.bind_eq_some_iff] at h
    obtain ⟨u, hu, ht⟩ := h
    exact ((keeps_charge hu g).trans (ih ht)).weaken (by simp) (by simp)

theorem Keeps.core_eq {s t : State} {ds : List DevPart} (h : ∀ c, Keeps s t c [] ds) (j : Nat) : t.core j = s.core j := (h (j+1)).others j (by omega)

/-- What a read does to its core's read cache and stamp (R79, R84). -/
theorem keeps_noteRead (s : State) (p : Place) (n : Nat) : Keeps s (s.noteRead p n) s.cur [.cache] [] := by
  refine keeps_upd s _ _ (fun q hq => ?_)
  cases q <;> simp_all [Core.same, CoreMem.afterRead] <;> exact sameKeys_regs rfl _ _

theorem keeps_stepBase (s : State) {n : Nat} (a : BitVec n) : Keeps s (s.stepBase a) s.cur [.walkers] [] := by
  unfold State.stepBase; split
  · rename_i h
    simp only [Core.walks, Bool.and_eq_true, decide_eq_true_eq] at h
    exact keeps_upd s _ _ (fun p hp => by
      cases p <;> simp_all [Core.same] <;> exact Core.sameKeys_setW _ _ _ _ _ (by omega))
  · exact keeps_refl _ _ _ _

theorem me_noteRead (s : State) (p : Place) (n : Nat) :
    (s.noteRead p n).me.regs = s.me.regs ∧ (s.noteRead p n).me.pc = s.me.pc ∧ (s.noteRead p n).cur = s.cur := by
  simp [State.noteRead]

theorem walks_congr {c d : Core} (h : c.regs.w = d.regs.w) (i : Nat) : c.walks i = d.walks i := by unfold Core.walks Core.getW; rw [h]

theorem getW_congr {c d : Core} (h : c.regs.w = d.regs.w) (i : Nat) : c.getW i = d.getW i := by unfold Core.getW; rw [h]

theorem getS_congr {c d : Core} (h : c.regs.s = d.regs.s) (i : Nat) : c.getS i = d.getS i := by unfold Core.getS; rw [h]

theorem stepBase_steps (s : State) (a : BitVec 6) : StepsWalker s (s.stepBase a) a := by
  intro j; unfold State.stepBase
  by_cases h : s.me.walks a.toNat = true
  · simp only [h, if_true, State.me_upd, Core.getW_setW, true_and]
    by_cases hj : j = a.toNat - 48
    · subst hj; simp
    · simp [hj]
  · simp [h]

theorem stepBase_getS (s : State) {n : Nat} (a : BitVec n) (r : Nat) : (s.stepBase a).me.getS r = s.me.getS r := by
  unfold State.stepBase; split <;> simp

theorem stepBase_pc (s : State) {n : Nat} (a : BitVec n) : (s.stepBase a).pc = s.pc := by
  unfold State.stepBase; split <;> simp [State.pc]

theorem stepBase_cur (s : State) {n : Nat} (a : BitVec n) : (s.stepBase a).cur = s.cur := by unfold State.stepBase; split <;> rfl

theorem stepBase_csr (s : State) {n : Nat} (a : BitVec n) : (s.stepBase a).me.csr = s.me.csr := by unfold State.stepBase; split <;> simp

theorem stepBase_mem (s : State) {n : Nat} (a : BitVec n) : (s.stepBase a).me.mem = s.me.mem := by unfold State.stepBase; split <;> simp

theorem stepBase_byte (s : State) {n : Nat} (a : BitVec n) (j : Nat) : (s.stepBase a).byte j = s.byte j := by unfold State.stepBase; split <;> rfl

/-- the end of an access: walker and pc; u has the walkers of s -/
theorem access_end {s u : State} (a : BitVec 6) (hw : u.me.regs.w = s.me.regs.w) (hp : u.pc = s.pc) :
   ((u.stepBase a).advance).pc = s.pc + 4 ∧ StepsWalker s ((u.stepBase a).advance) a := by
  refine ⟨by rw [State.pc_advance, stepBase_pc, hp], fun j => ?_⟩
  rw [← getW_congr hw j, ← walks_congr hw]
  have := stepBase_steps u a j
  simpa using this

theorem keeps_end (u : State) (a : BitVec 6) : Keeps u ((u.stepBase a).advance) u.cur [.pc, .walkers] [] := by
  have h := keeps_advance (u.stepBase a)
  rw [stepBase_cur] at h
  exact ((keeps_stepBase u a).trans h).weaken (by simp) (by simp)

/-- A load that is ready completes at once (R161): sD takes the bytes that its core reads now. -/
theorem loadAt_now {s : State} {d : BitVec 6} {a : Word} {p : Place} {w : Nat} {sg : Bool} (h : loadReady s a p w = true) :
    ∃ t, loadAt s d a p w sg false = .ok t ∧ Keeps s t s.cur [.scalars, .cache] [.partitions, .requests] ∧ t.cur = s.cur ∧
     (∀ r, t.me.getS r = if r = d.toNat ∧ d.toNat ≠ 0 then loaded w sg (s.readNow p w) else s.me.getS r) := by
  simp only [loadReady, unheld, Bool.and_eq_true, Bool.not_eq_true', Option.isSome_iff_exists] at h
  obtain ⟨⟨⟨⟨h1, h2⟩, h3⟩, h4⟩, s1, h5⟩ := h
  have hc : ∀ c, s1.core c = s.core c := fun c =>
    (keeps_chargeList h5 (c + 1)).others c (by omega)
  have hcur : s1.cur = s.cur := Keeps.symm_cur (keeps_chargeList h5 0) (by simp)
  have hme : s1.me = s.me := by unfold State.me; rw [hcur, hc]
  unfold loadAt served
  rw [h1, h2, h3, h4, h5]
  refine ⟨_, rfl, ?_, ?_, ?_⟩
  · have e1 := keeps_noteRead s1 p w
    have e2 := keeps_setS (s1.noteRead p w) d (loaded w sg (s.readNow p w))
    rw [(me_noteRead _ _ _).2.2, hcur] at e2; rw [hcur] at e1
    exact (((keeps_chargeList h5 s.cur).trans e1).trans e2).weaken (by simp) (by simp)
  · rw [State.setS_cur, (me_noteRead _ _ _).2.2]; exact hcur
  · intro r
    have := getS_congr (c := (s1.noteRead p w).me) (d := s.me) (by rw [(me_noteRead _ _ _).1, hme]) r
    simp [this]

theorem loadedWord_eq (w : Nat) (sg : Bool) (v : Nat) (hw : 8 * w ≤ 64) : loaded w sg v = loadedWord w sg v := by
  unfold loaded loadedWord Word.sext
  split
  · rw [wordOf_sext]; congr 1
    apply BitVec.eq_of_toNat_eq; simp
    exact Nat.mod_mod_of_dvd _ (Nat.pow_dvd_pow 2 hw)
  · rfl

theorem dispAddr_nat {n : Nat} (s : State) (a : BitVec 6) (i : BitVec n) (w : Nat) :
    dispAddr s a i w = BitVec.ofNat 64 ((s.base a).toNat + w * i.toNat) := by
  unfold dispAddr
  apply BitVec.eq_of_toNat_eq
  simp [Nat.mul_comm]

end Sys2Proof.Machine
end

