-- ==== Sys2Proof/Laws/Effects.lean ====
section
/-!
SUPPORT. What an instruction that answers a status or goes on has changed, and changes of several cores, from the frames of their parts.
-/

namespace Sys2Proof.Machine

theorem Keeps.cur_eq {s u : State} {g cs ds} (h : Keeps s u g cs ds) (hm : DevPart.model ∉ ds) : u.cur = s.cur := (h.device .model hm).1.symm

theorem answers_of {s u : State} {cs ds} (d : BitVec 6) (n : Nat) (h : Keeps s u s.cur cs ds) (hm : DevPart.model ∉ ds)
    (hp : CorePart.pc ∉ cs) (hs : CorePart.scalars ∉ cs) : Answers s ((u.setS d (BitVec.ofNat 64 n)).advance) d n cs ds := by
  have hc := h.cur_eq hm
  have k1 := (h.core .pc hp); have k2 := h.core .scalars hs
  simp only [Core.same] at k1 k2
  have e1 : u.pc = s.pc := by show (u.core u.cur).pc = _; rw [hc]; exact k1.1.symm
  have e2 : u.me.regs.s = s.me.regs.s := by show (u.core u.cur).regs.s = _; rw [hc]; exact k2.1.symm
  refine ⟨?_, ?_, ?_⟩
  · intro r
    have : u.me.getS r = s.me.getS r := getS_congr e2 r
    simp [this]
  · simp [e1]
  · have := (h.trans (hc ▸ keeps_setS u d (BitVec.ofNat 64 n))).trans (by have := keeps_advance (u.setS d (BitVec.ofNat 64 n)); rwa [State.setS_cur, hc] at this)
    refine this.weaken ?_ ?_ <;> intro p hp <;> simp only [List.append_nil, List.mem_append, List.mem_cons, List.not_mem_nil, or_false] at hp ⊢
    · rcases hp with (h1|h1)|h1 <;> simp [h1]
    · exact hp

theorem goesOn_of {s u : State} {cs ds} (h : Keeps s u s.cur cs ds) (hm : DevPart.model ∉ ds) (hp : CorePart.pc ∉ cs) : GoesOn s u.advance cs ds := by
  have hc := h.cur_eq hm
  have k1 := (h.core .pc hp); simp only [Core.same] at k1
  have e1 : u.pc = s.pc := by show (u.core u.cur).pc = _; rw [hc]; exact k1.1.symm
  refine ⟨by simp [e1], ?_⟩
  have := (h.trans (hc ▸ keeps_advance u))
  refine this.weaken ?_ ?_ <;> intro p hp <;> simp only [List.append_nil, List.mem_append, List.mem_cons, List.not_mem_nil, or_false] at hp ⊢
  · rcases hp with h1|h1 <;> simp [h1]
  · exact hp

theorem answers_refl (s : State) (d : BitVec 6) (n : Nat) : Answers s ((s.setS d (BitVec.ofNat 64 n)).advance) d n [] [] :=
  answers_of d n (keeps_refl s s.cur [] []) (by simp) (by simp) (by simp)

/-- An acquire with no release of its core pending goes on (R85, R97). -/
theorem acquireWait_ok {s : State} (h : acquireOk s = true) (k : Issue State) : acquireWait s k = k := by
  unfold acquireWait; rw [if_neg (by simpa [acquireOk] using h)]
theorem keeps_acquired (s : State) : Keeps s s.acquired s.cur [.cache] [] := by
  refine keeps_upd s _ _ (fun p hp => ?_)
  cases p <;> simp_all [Core.same, Core.dropCache] <;> exact sameKeys_regs rfl _ _

theorem keeps_setSlot (s : State) (g n : Nat) (h : Core → Hitch) : Keeps s (s.updCore g (fun c => c.setSlot n (h c))) g [.hitch] [] :=
  keeps_updCore s g _ _ (fun p hp => by cases p <;> simp_all [Core.same, Core.setSlot] <;> exact sameKeys_regs rfl _ _)
theorem keeps_setSlot' (s : State) (n : Nat) (h : Core → Hitch) : Keeps s (s.upd (fun c => c.setSlot n (h c))) s.cur [.hitch] [] := keeps_setSlot s s.cur n h

@[simp] theorem slot_setSlot (c : Core) (n j : Nat) (h : Hitch) : (c.setSlot n h).slot j = if j = n then h else c.slot j := by
  simp [Core.slot, Core.setSlot, Sparse.get_set]
@[simp] theorem slot_setS (c : Core) (d j : Nat) (v : Word) : (c.setS d v).slot j = c.slot j := by unfold Core.setS; split <;> rfl
@[simp] theorem slot_goto (c : Core) (a : Word) (j : Nat) : (c.goto a).slot j = c.slot j := rfl
@[simp] theorem slot_drop (c : Core) (j : Nat) : (c.dropCache).slot j = c.slot j := rfl

theorem Keeps.weaken_cons {s t : State} {g : Nat} {cs cs' : List CorePart} {ds ds' : List DevPart} (h : Keeps s t g cs ds)
    (hc : cs ⊆ cs') (hd : ds ⊆ ds') : Keeps s t g cs' ds' := h.weaken (fun p hp => hc hp) (fun p hp => hd hp)

theorem leaves_of_keeps {s t : State} {g : Nat} {cs ds} (h : Keeps s t g cs ds) : Leaves s t [g] cs ds :=
  ⟨h.device, fun j hj => h.others j (by simpa using hj), fun j p hp => by
    by_cases e : j = g
    · subst e; exact h.core p hp
    · rw [h.others j e]; exact Core.same_refl _ _, h.memory⟩

theorem Leaves.refl (s : State) (gs cs ds) : Leaves s s gs cs ds := ⟨fun p _ => s.same_refl p, fun _ _ => rfl, fun _ p _ => Core.same_refl _ p, fun _ _ => rfl⟩

theorem Leaves.trans {s t u : State} {gs gs' : List Nat} {cs cs' ds ds'} (h : Leaves s t gs cs ds) (k : Leaves t u gs' cs' ds') :
    Leaves s u (gs ++ gs') (cs ++ cs') (ds ++ ds') :=
  ⟨fun p hp => State.same_trans (h.device p (fun x => hp (by simp [x]))) (k.device p (fun x => hp (by simp [x]))),
   fun j hj => (k.others j (fun x => hj (by simp [x]))).trans (h.others j (fun x => hj (by simp [x]))),
   fun j p hp => Core.same_trans (h.core j p (fun x => hp (by simp [x]))) (k.core j p (fun x => hp (by simp [x]))),
   fun hp loc => (k.memory (fun x => hp (by simp [x])) loc).trans (h.memory (fun x => hp (by simp [x])) loc)⟩

theorem Leaves.weaken {s t : State} {gs gs' cs cs' ds ds'} (h : Leaves s t gs cs ds) (hg : gs ⊆ gs') (hc : cs ⊆ cs') (hd : ds ⊆ ds') :
    Leaves s t gs' cs' ds' :=
  ⟨fun p hp => h.device p (fun x => hp (hd x)), fun j hj => h.others j (fun x => hj (hg x)), fun j p hp => h.core j p (fun x => hp (hc x)),
   fun hp => h.memory (fun x => hp (hd x))⟩
/-- device-only change -/
theorem leaves_dev {s t : State} {ds} (h : ∀ g, Keeps s t g [] ds) : Leaves s t [] [] ds :=
  ⟨(h 0).device, fun j _ => (h (j+1)).others j (by omega), fun j p _ => by rw [(h (j+1)).others j (by omega)]; exact Core.same_refl _ _, (h 0).memory⟩

@[simp] theorem State.me_updCore (s : State) (g : Nat) (f : Core → Core) : (s.updCore g f).me = if s.cur = g then f (s.core g) else s.me := by
  show (s.updCore g f).core s.cur = _; rw [State.core_updCore]; rfl

theorem leaves_advance (s : State) : Leaves s s.advance [s.cur] [.pc] [] := leaves_of_keeps (keeps_advance s)
theorem leaves_setS (s : State) {n : Nat} (d : BitVec n) (v : Word) (h : d.toNat < 64 := by omega) : Leaves s (s.setS d v) [s.cur] [.scalars] [] := leaves_of_keeps (keeps_setS s d v h)
theorem leaves_setSlot (s : State) (g n : Nat) (h : Core → Hitch) : Leaves s (s.updCore g (fun c => c.setSlot n (h c))) [g] [.hitch] [] :=
  leaves_of_keeps (keeps_setSlot s g n h)
theorem leaves_setSlot' (s : State) (n : Nat) (h : Core → Hitch) : Leaves s (s.upd (fun c => c.setSlot n (h c))) [s.cur] [.hitch] [] := leaves_setSlot s s.cur n h
theorem leaves_updCluster (s : State) (cl : Nat) (f : Cluster → Cluster) : Leaves s (s.updCluster cl f) [] [] [.clusters] :=
  leaves_dev (fun g => keeps_updCluster s cl g f)

@[simp] theorem wagon_updWagon (c : Cluster) (w j : Nat) (f : Wagon → Wagon) : (c.updWagon w f).wagon j = if j = w then f (c.wagon w) else c.wagon j := by
  simp [Cluster.wagon, Cluster.updWagon, Sparse.modify]
@[simp] theorem wagon_zeroing (c : Cluster) (l : List (Nat × Option Nat)) (j : Nat) : ({ c with zeroing := l } : Cluster).wagon j = c.wagon j := rfl
@[simp] theorem wagon_impounds (c : Cluster) (l : List Impound) (j : Nat) : ({ c with impounds := l } : Cluster).wagon j = c.wagon j := rfl
@[simp] theorem updWagon_zeroing (c : Cluster) (w : Nat) (f : Wagon → Wagon) : (c.updWagon w f).zeroing = c.zeroing := rfl
@[simp] theorem updWagon_impounds (c : Cluster) (w : Nat) (f : Wagon → Wagon) : (c.updWagon w f).impounds = c.impounds := rfl
@[simp] theorem setSlot_sched (c : Core) (n : Nat) (h : Hitch) : (c.setSlot n h).sched = c.sched := rfl
@[simp] theorem setSlot_pc (c : Core) (n : Nat) (h : Hitch) : (c.setSlot n h).pc = c.pc := rfl
@[simp] theorem setSlot_mail (c : Core) (n : Nat) (h : Hitch) : (c.setSlot n h).mail = c.mail := rfl
@[simp] theorem setSlot_mem (c : Core) (n : Nat) (h : Hitch) : (c.setSlot n h).mem = c.mem := rfl
@[simp] theorem setSlot_regs (c : Core) (n : Nat) (h : Hitch) : (c.setSlot n h).regs = c.regs := rfl
@[simp] theorem setSlot_csr (c : Core) (n : Nat) (h : Hitch) : (c.setSlot n h).csr = c.csr := rfl
@[simp] theorem setSlot_sup (c : Core) (n : Nat) (h : Hitch) : (c.setSlot n h).sup = c.sup := rfl

@[simp] theorem slot_post (c : Core) (k : Nat) (m : Msg) (j : Nat) : (c.post k m).slot j = c.slot j := by unfold Core.post; split <;> rfl
@[simp] theorem post_sched (c : Core) (k : Nat) (m : Msg) : (c.post k m).sched = c.sched := by unfold Core.post; split <;> rfl
@[simp] theorem post_pc (c : Core) (k : Nat) (m : Msg) : (c.post k m).pc = c.pc := by unfold Core.post; split <;> rfl
@[simp] theorem post_regs (c : Core) (k : Nat) (m : Msg) : (c.post k m).regs = c.regs := by unfold Core.post; split <;> rfl
@[simp] theorem post_csr (c : Core) (k : Nat) (m : Msg) : (c.post k m).csr = c.csr := by unfold Core.post; split <;> rfl
theorem post_same (c : Core) (k : Nat) (m : Msg) (p : CorePart) (h : p ≠ .mail) : c.same (c.post k m) p := by
  unfold Core.post; split <;> cases p <;> simp_all [Core.same] <;> exact sameKeys_regs rfl _ _
/-- A message enters the inbox when nothing is held and a credit is left (R44, R129). -/
theorem post_room (c : Core) (k : Nat) (m : Msg) (h : c.mail.held = []) (j : c.mail.inbox.length < k) :
    c.post k m = { c with mail := { c.mail with inbox := c.mail.inbox ++ [m] } } := by
  unfold Core.post; rw [if_pos ⟨h, j⟩]

theorem keeps_setHold (s : State) (h : Hold) : Keeps s (s.setHold h) s.cur [.pc] [] :=
  keeps_upd s _ _ (fun p hp => by cases p <;> simp_all [Core.same])
@[simp] theorem acquired_cluster (s : State) (j : Nat) : s.acquired.cluster j = s.cluster j := rfl
@[simp] theorem acquired_cur (s : State) : s.acquired.cur = s.cur := rfl
@[simp] theorem acquired_me (s : State) : s.acquired.me = s.me.dropCache := by simp [State.acquired]
theorem keeps_setCaravan (s : State) (k : Nat) (c : Option Caravan) (g : Nat) : Keeps s (s.setCaravan k c) g [] [.caravans] :=
  ⟨fun p hp => by cases p <;> simp_all [State.same, State.setCaravan], fun _ _ => rfl, fun p _ => Core.same_refl _ p, fun _ _ => rfl⟩
theorem keeps_setDisp (s : State) (k : Nat) (c : Option Dispatch) (g : Nat) : Keeps s (s.setDisp k c) g [] [.launches] :=
  ⟨fun p hp => by cases p <;> simp_all [State.same, State.setDisp], fun _ _ => rfl, fun p _ => Core.same_refl _ p, fun _ _ => rfl⟩
theorem keeps_setPart (s : State) (k : Nat) (c : Option Partition) (g : Nat) : Keeps s (s.setPart k c) g [] [.partitions] :=
  ⟨fun p hp => by cases p <;> simp_all [State.same, State.setPart], fun _ _ => rfl, fun p _ => Core.same_refl _ p, fun _ _ => rfl⟩
@[simp] theorem caravan_setCaravan (s : State) (k j : Nat) (c : Option Caravan) : (s.setCaravan k c).caravan j = if j = k then c else s.caravan j := by
  simp [State.caravan, State.setCaravan]
@[simp] theorem disp_setDisp (s : State) (k j : Nat) (c : Option Dispatch) : (s.setDisp k c).disp j = if j = k then c else s.disp j := by
  simp [State.disp, State.setDisp]
@[simp] theorem bar_setBar (c : Caravan) (n j : Nat) (b : Bar) : (c.setBar n b).bar j = if j = n then b else c.bar j := by simp [Caravan.bar, Caravan.setBar]

/-! ### The order of one cycle (R38, R199, R216) -/

@[simp] theorem reached_core (s : State) (cl key place j : Nat) : (s.reached cl key place).core j = s.core j := rfl
@[simp] theorem reached_cur (s : State) (cl key place : Nat) : (s.reached cl key place).cur = s.cur := rfl
@[simp] theorem reached_me (s : State) (cl key place : Nat) : (s.reached cl key place).me = s.me := rfl
@[simp] theorem reached_pc (s : State) (cl key place : Nat) : (s.reached cl key place).pc = s.pc := rfl
@[simp] theorem reached_caravan (s : State) (cl key place j : Nat) : (s.reached cl key place).caravan j = s.caravan j := rfl
@[simp] theorem reached_disp (s : State) (cl key place j : Nat) : (s.reached cl key place).disp j = s.disp j := rfl
@[simp] theorem reached_byte (s : State) (cl key place j : Nat) : (s.reached cl key place).byte j = s.byte j := rfl
/-- Reaching a unit changes the order of its cluster alone. -/
theorem reached_cluster (s : State) (cl key place j : Nat) :
    (s.reached cl key place).cluster j = if j = cl then { s.cluster cl with order := Sparse.set (0, 0) (s.cluster cl).order key (s.cycle.toNat + 1, place) }
      else s.cluster j := by simp [State.reached]
@[simp] theorem reached_wagon (s : State) (cl key place j w : Nat) : ((s.reached cl key place).cluster j).wagon w = (s.cluster j).wagon w := by
  rw [reached_cluster]; split
  · next h => subst h; rfl
  · rfl
theorem keeps_reached (s : State) (cl key place g : Nat) : Keeps s (s.reached cl key place) g [] [.clusters] := keeps_updCluster s cl g _
theorem leaves_reached (s : State) (cl key place : Nat) : Leaves s (s.reached cl key place) [] [] [.clusters] := leaves_updCluster s cl _
theorem onlyOrder_reached (s : State) (cl key place : Nat) : OnlyOrder s (s.reached cl key place) := by
  intro j; rw [reached_cluster]; split
  · next h => subst h; rfl
  · rfl
theorem onlyOrder_of_cluster {s t u : State} (h : OnlyOrder s t) (k : ∀ j, u.cluster j = t.cluster j) : OnlyOrder s u := by
  intro j; rw [k j]; exact h j
/-- An event in its turn reaches the unit and has its effect. -/
theorem inOrder_turn {s : State} {cl key place : Nat} (h : s.mayReach cl key place = true) (k : State → Issue State) :
    inOrder s cl key place k = k (s.reached cl key place) := by unfold inOrder; rw [if_pos h]
/-- An event out of turn waits for the next cycle. -/
theorem inOrder_late {s : State} {cl key place : Nat} (h : ¬ s.mayReach cl key place = true) (k : State → Issue State) :
    inOrder s cl key place k = .wait := by unfold inOrder; rw [if_neg h]
/-- What may reach a unit after an event of place `place` has reached `key`: nothing earlier at that unit, as before elsewhere. -/
theorem mayReach_reached (s : State) (cl key place c2 k2 p2 : Nat) : (s.reached cl key place).mayReach c2 k2 p2 =
    if c2 = cl ∧ k2 = key then decide (place ≤ p2) else s.mayReach c2 k2 p2 := by
  unfold State.mayReach
  rw [reached_cluster]
  by_cases h : c2 = cl
  · subst h
    simp only [if_true, true_and, Sparse.get_set]
    by_cases e : k2 = key
    · simp [e, State.reached, State.updCluster]
    · simp [e]; rfl
  · simp [h]; rfl

end Sys2Proof.Machine
end

