-- ==== Sys2Proof/Laws/Vector.lean ====
section
/-!
SUPPORT. Vector registers as elements: reading an element of a register built from elements, and the results of a list of lanes.
-/

namespace Sys2Proof.Machine

theorem packElems_lt (w : Nat) (l : List Nat) : packElems w l < 2 ^ (w * l.length) := by
  induction l with
  | nil => simp [packElems]
  | cons x l ih =>
    have h : x % 2 ^ w < 2 ^ w := Nat.mod_lt _ (Nat.two_pow_pos w)
    simp only [packElems, List.length_cons, Nat.mul_succ, Nat.pow_add]
    calc x % 2 ^ w + 2 ^ w * packElems w l < 2 ^ w + 2 ^ w * packElems w l := by omega
      _ = 2 ^ w * (packElems w l + 1) := by ring
      _ ≤ 2 ^ w * 2 ^ (w * l.length) := Nat.mul_le_mul_left _ ih
      _ = _ := Nat.mul_comm _ _

/-- Element j of packed elements (R135). -/
theorem packElems_get (w : Nat) (l : List Nat) (j : Nat) : packElems w l / 2 ^ (w * j) % 2 ^ w = l[j]?.getD 0 % 2 ^ w := by
  induction l generalizing j with
  | nil => simp [packElems]
  | cons x l ih =>
    have hp := Nat.two_pow_pos w
    cases j with
    | zero => simp [packElems]
    | succ j =>
      have e : (x % 2 ^ w + 2 ^ w * packElems w l) / 2 ^ (w * (j + 1)) = packElems w l / 2 ^ (w * j) := by
        rw [Nat.mul_succ, Nat.add_comm (w * j) w, Nat.pow_add, ← Nat.div_div_eq_div_mul, Nat.add_mul_div_left _ _ hp,
          Nat.div_eq_of_lt (Nat.mod_lt _ hp), Nat.zero_add]
      simp only [packElems, e, ih]; simp

theorem elem_lt (x : VReg) (w j : Nat) : elem x w j < 2 ^ w := (x.extractLsb' (w * j) w).isLt

theorem elem_eq (x : VReg) (w j : Nat) : elem x w j = x.toNat / 2 ^ (w * j) % 2 ^ w := by
  simp [elem, BitVec.extractLsb'_toNat, Nat.shiftRight_eq_div_pow]

/-- The elements fill the register (Table 07-2). -/
theorem type_fills (t : BitVec 4) : typeWidth t * elemCount (typeWidth t) = 4096 := by revert t; decide

theorem type_pos (t : BitVec 4) : 4 ≤ typeWidth t ∧ typeWidth t ≤ 64 := by revert t; decide

theorem elem_ofElems {w : Nat} {l : List Nat} (h : w * l.length ≤ 4096) (j : Nat) : elem (ofElems w l) w j = l[j]?.getD 0 % 2 ^ w := by
  have h1 := packElems_lt w l
  have h2 : 2 ^ (w * l.length) ≤ 2 ^ 4096 := Nat.pow_le_pow_right (by omega) h
  rw [elem_eq, ofElems, BitVec.toNat_ofNat, Nat.mod_eq_of_lt (a := packElems w l) (Nat.lt_of_lt_of_le h1 h2), packElems_get]

/-- Element j of a register written element-wise (R170). -/
theorem elem_mapElems {w : Nat} (hw : w * elemCount w = 4096) (k : KReg) (x : VReg) (f : Nat → Nat) {j : Nat} (hj : j < elemCount w) :
    elem (mapElems w k x f) w j = if active k w j then f j % 2 ^ w else elem x w j := by
  unfold mapElems
  rw [elem_ofElems (by simp [hw])]
  simp only [List.getElem?_map, List.getElem?_range hj, Option.map_some, Option.getD_some]
  split
  · rfl
  · exact Nat.mod_eq_of_lt (elem_lt _ _ _)

theorem elem_setElem {w : Nat} (hw : w * elemCount w = 4096) (x : VReg) (i y : Nat) {j : Nat} (hj : j < elemCount w) :
    elem (setElem w x i y) w j = if j = i then y % 2 ^ w else elem x w j := by
  unfold setElem
  rw [elem_ofElems (by simp [hw])]
  simp only [List.getElem?_map, List.getElem?_range hj, Option.map_some, Option.getD_some]
  split
  · rfl
  · exact Nat.mod_eq_of_lt (elem_lt _ _ _)

/-- The results of lanes: each active one with the draw after one step for each active lane up to it (R68, R171). -/
theorem lanes_get (draws : Bool) (act : Nat → Bool) (old : Nat → Nat) (f : Nat → Nat → Nat × Nat) (l : List Nat) (g : Word) (n : Nat) (h : n < l.length) :
    (lanes draws act old f l g).1[n]? = some (if act l[n] then
      (f l[n] (srDraw (if draws then srAdvance ((l.take (n + 1)).filter act).length g else g))).1 else old l[n]) := by
  induction l generalizing g n with
  | nil => simp at h
  | cons i l ih =>
    have sd : ∀ m (g : Word), srAdvance (m + 1) g = srAdvance m (srNext g) := fun _ _ => rfl
    unfold lanes
    by_cases hi : act i = true
    · simp only [hi, if_true]
      cases n with
      | zero => cases draws <;> simp [hi, srAdvance]
      | succ n =>
        have h' : n < l.length := by simpa using h
        simp only [List.getElem?_cons_succ, ih _ _ h', List.getElem_cons_succ, List.take_succ_cons, List.filter_cons, hi, if_true, List.length_cons]
        cases draws <;> simp [sd]
    · simp only [hi, if_false, Bool.false_eq_true]
      cases n with
      | zero => simp [hi]
      | succ n =>
        have h' : n < l.length := by simpa using h
        simp only [List.getElem?_cons_succ, ih _ _ h', List.getElem_cons_succ, List.take_succ_cons, List.filter_cons, hi]
        simp

theorem lanes_length (draws : Bool) (act : Nat → Bool) (old : Nat → Nat) (f : Nat → Nat → Nat × Nat) (l : List Nat) (g : Word) :
    (lanes draws act old f l g).1.length = l.length := by
  induction l generalizing g with
  | nil => rfl
  | cons i l ih => unfold lanes; split <;> simp [ih]

theorem lanes_seed (draws : Bool) (act : Nat → Bool) (old : Nat → Nat) (f : Nat → Nat → Nat × Nat) (l : List Nat) (g : Word) :
    (lanes draws act old f l g).2.2 = if draws then srAdvance (l.filter act).length g else g := by
  induction l generalizing g with
  | nil => cases draws <;> simp [lanes, srAdvance]
  | cons i l ih =>
    unfold lanes
    by_cases hi : act i = true
    · simp only [hi, if_true, ih, List.filter_cons, List.length_cons]; cases draws <;> simp [srAdvance]
    · simp only [hi, if_false, Bool.false_eq_true, ih, List.filter_cons]

theorem foldl_or {α : Type} (f : α → Nat) (l : List α) (a : Nat) : l.foldl (fun a j => a ||| f j) a = a ||| l.foldl (fun a j => a ||| f j) 0 := by
  induction l generalizing a with
  | nil => simp
  | cons x l ih => simp only [List.foldl_cons, Nat.zero_or]; rw [ih (a ||| f x), ih (f x), Nat.or_assoc]

/-- The flags of lanes: those of the active ones, each with its draw (R172). -/
theorem lanes_flags (draws : Bool) (act : Nat → Bool) (old : Nat → Nat) (f : Nat → Nat → Nat × Nat) (m n : Nat) (g : Word) :
    (lanes draws act old f (List.range' m n) g).2.1 = ((List.range' m n).filter act).foldl (fun a j => a |||
      (f j (srDraw (if draws then srAdvance ((List.range' m (j + 1 - m)).filter act).length g else g))).2) 0 := by
  induction n generalizing m g with
  | zero => rfl
  | succ n ih =>
    rw [List.range'_succ]
    unfold lanes
    by_cases hi : act m = true
    · simp only [hi, if_true, List.filter_cons, List.foldl_cons, Nat.zero_or]
      rw [foldl_or, ih]
      congr 1
      · cases draws <;> simp [hi, srAdvance]
      · apply List.foldl_ext
        intro a j hj
        have hj' := (List.mem_filter.1 hj).1
        rw [List.mem_range'_1] at hj'
        rw [show j + 1 - m = (j + 1 - (m + 1)) + 1 by omega, List.range'_succ]
        cases draws <;> simp [hi, srAdvance]
    · simp only [hi, if_false, Bool.false_eq_true, List.filter_cons]
      rw [ih]
      apply List.foldl_ext
      intro a j hj
      have hj' := (List.mem_filter.1 hj).1
      rw [List.mem_range'_1] at hj'
      rw [show j + 1 - m = (j + 1 - (m + 1)) + 1 by omega, List.range'_succ]
      simp [hi]

end Sys2Proof.Machine
end

