-- ==== Sys2Proof/Tests/Slice0.lean ====
section
/-!
SUPPORT. Tests: ill-formed terms, words of each major opcode, single steps on small states, and a witness for the hypotheses of each
statement. Expected values are the spec's worked examples and tables, or calculations from them by hand.
-/

open Sys2Proof Sys2Proof.Machine

/-! ### Ill-formed terms: one for each check of WellFormed -/

theorem test_wf_fields : ∀ i ∈ [Instr.bfx 1 2 60 5, .bfxu 1 2 63 1, .bfi 1 2 33 32, .ldp 1 2 0 3 1 0, .wbind 0 1 61, .wstat 1 0 6, .inbox 5, .inpeek 63,
    .hint 0, .hint 64, .hint 192], i.wf = false := by decide
theorem test_wf_orders : ∀ i ∈ [Instr.aadd 1 2 3 1 5, .aand 1 2 3 0 1, .aor 1 2 3 2 7, .axor 1 2 3 3 6, .amin 1 2 3 1 5, .amax 1 2 3 0 4, .aminu 1 2 3 2 5,
    .amaxu 1 2 3 3 5, .aswp 1 2 3 0 2, .acas 1 2 3 0 3, .afadd 1 2 3 1 5, .fence 0 1 0, .fence 1 0 0, .fence 3 3 5, .ldAcq 1 2 0 2 5, .ldAcq 1 2 1 3 0,
    .stRel 1 2 3 5, .ldred 0 1 2 0 0, .ldred 0 1 0 1 0, .ldred 0 1 1 5 0, .ldred 0 1 1 0 3, .ldred 1 1 1 0 1, .stmc 0 1 1 0, .stmc 0 1 0 2, .stmc 0 1 2 5],
    i.wf = false := by decide
theorem test_wf_float_types : ∀ i ∈ [Instr.vadd 0 1 2 0 3, .vsub 0 1 2 0 5, .vmul 0 1 2 0 4, .vfma 0 1 2 0 9, .vfms 0 1 2 0 3, .vfnma 0 1 2 0 3, .vdiv 0 1 2 0 6,
    .vsqrt 0 1 0 3, .vrcp 0 1 0 10, .vmin 0 1 2 0 3, .vmax 0 1 2 0 8, .vabs 0 1 0 3, .vneg 0 1 0 5, .vexp2 0 1 0 3, .vlog2 0 1 0 15], i.wf = false := by decide
theorem test_wf_int_types : ∀ i ∈ [Instr.viadd 0 1 2 0 0, .visub 0 1 2 0 1, .vimul 0 1 2 0 2, .vimad 0 1 2 0 3, .vimin 0 1 2 0 4, .vimax 0 1 2 0 0, .viminu 0 1 2 0 0,
    .vimaxu 0 1 2 0 10, .vishl 0 1 2 0 0, .vishr 0 1 2 0 4, .vishra 0 1 2 0 0, .viadds 0 1 2 0 12], i.wf = false := by decide
theorem test_wf_types : ∀ i ∈ [Instr.vand 0 1 2 0 10, .vor 0 1 2 0 11, .vxor 0 1 2 0 12, .vnot 0 1 0 13, .vperm 0 1 2 0 8, .vperm 0 1 2 0 0, .vslide 0 1 2 0 14,
    .vbcast 0 1 2 0 15, .vsel 0 1 2 0 10, .vcmpEq 0 1 2 0 10, .vcmpNe 0 1 2 0 10, .vcmpLt 0 1 2 0 10, .vcmpLe 0 1 2 0 10, .vcmpLtu 0 1 2 0 0, .vcmpLeu 0 1 2 0 3,
    .vcmpUn 0 1 2 0 5, .kpopc 0 1 10, .kfirst 0 1 10, .kfrom 0 1 10, .vget 0 1 2 10, .vput 0 1 2 10, .vmov 0 1 0 10, .vmovS 0 1 0 10], i.wf = false := by decide
theorem test_wf_conversions : ∀ i ∈ [Instr.vcvt 0 1 0 0 0, .vcvt 0 1 0 0 1, .vcvt 0 1 10 0 0, .vwiden 1 2 1 0 0, .vwiden 2 3 3 0 0, .vwiden 0 2 5 0 0, .vwiden 0 1 10 0 0,
    .vnarrow 0 1 0 0 1, .vnarrow 0 2 0 0 3, .vnarrow 0 2 3 0 0], i.wf = false := by decide
theorem test_wf_vectors : ∀ i ∈ [Instr.vld 0 1 2 0 4, .vst 0 1 2 0 5, .vlds 0 1 2 0 6, .vsts 0 1 2 0 7, .vldx 0 1 2 0 3, .vrsum 0 1 0 3, .vrmax 0 1 0 4,
    .vrmin 0 1 0 10, .vscan 0 1 0 15], i.wf = false := by decide
theorem test_wf_numbers : ∀ i ∈ [Instr.binit 1 48 2, .barr 1 48, .bwait 1 63, .barrw 1 48, .bwdr 1 50 2, .mlock 1 16, .munlock 63, .cpset 1 19 0, .cpget 1 63 0,
    .mma 1 2 63 0, .mmac 1 2 63, .mtbl 1 0, .mtbl 1 4], i.wf = false := by decide
/-- A range's last admitted value passes. -/
theorem test_wf_limits : ∀ i ∈ [Instr.bfx 1 2 59 4, .wbind 0 1 60, .wstat 1 0 5, .hint 63, .hint 193, .barr 1 47, .mlock 1 15, .cpset 1 18 0, .mma 1 2 62 0, .mtbl 1 3,
    .vwiden 4 1 3 0 0, .ldred 2 1 1 4 1], i.wf = true := by decide

/-! ### Words written out from the tables of the spec, by major opcode -/

theorem test_decode_01 : Decode.word 0b00000100010111111010000100000000 = .ok ⟨.add 5 62 33, false⟩ ∧
    Decode.word 0b00000111111100000100000000011010 = .ok ⟨.seq 63 1 0, false⟩ := by decide
theorem test_decode_02 : Decode.word 0b00001000100100101001111111111111 = .ok ⟨.addi 9 10 8191, false⟩ ∧
    Decode.word 0b00001000000100001011111100111111 = .ok ⟨.rori 1 2 63, false⟩ ∧
    Decode.word 0b00001000001100010011101101010101 = .ok ⟨.sltui 3 4 341, false⟩ := by decide
theorem test_decode_03 : Decode.word 0b00001100110001000000000000000001 = .ok ⟨.lui 12 262145, false⟩ ∧
    Decode.word 0b00001100110111111111111111111111 = .ok ⟨.addpc 13 524287, false⟩ := by decide
theorem test_decode_04 : Decode.word 0b00010000011100100000100100000010 = .ok ⟨.mulhu 7 8 9, false⟩ ∧
    Decode.word 0b00010000000100001100010100001000 = .ok ⟨.madd 1 3 5, false⟩ := by decide
theorem test_decode_05 : Decode.word 0b00010110100010100110101000000000 = .ok ⟨.sel 40 41 42, false⟩ ∧
    Decode.word 0b00010101000101000001110010000011 = .ok ⟨.bfxu 17 16 28 3, false⟩ ∧
    Decode.word 0b00010100001000001100000000000111 = .ok ⟨.sextw 2 3, false⟩ := by decide
theorem test_decode_08 : Decode.word 0b00100000011000011110110000000000 = .ok ⟨.brGeu 6 7 1024, false⟩ ∧
    Decode.word 0b00100000000100001000000000000011 = .ok ⟨.brEq 1 2 3, false⟩ := by decide
theorem test_decode_09 : Decode.word 0b00100101111111111111111111111111 = .ok ⟨.jmp 33554431, false⟩ ∧
    Decode.word 0b00100110000000000000000000000010 = .ok ⟨.call 2, false⟩ := by decide
theorem test_decode_0a : Decode.word 0b00101000000011111100000000000000 = .ok ⟨.jr 63, false⟩ ∧
    Decode.word 0b00101000000001010000000000000001 = .ok ⟨.callr 20, false⟩ := by decide
theorem test_decode_0b : Decode.word 0b00101100010100001000011111111101 = .ok ⟨.wloop 5 2 2045, false⟩ := by decide
theorem test_decode_0c : Decode.word 0b00110000000111000000011111111111 = .ok ⟨.ldb 1 48 2047, false⟩ ∧
    Decode.word 0b00110001010101011011000000000001 = .ok ⟨.ldd 21 22 1, false⟩ ∧
    Decode.word 0b00110000010000010111111010110001 = .ok ⟨.ldp 4 5 6 2 1 17, false⟩ := by decide
theorem test_decode_0d : Decode.word 0b00110101111001111111101010111100 = .ok ⟨.std 30 31 2748, false⟩ ∧
    Decode.word 0b00110100000000000101000000000001 = .ok ⟨.sth 0 1 1, false⟩ := by decide
theorem test_decode_0e : Decode.word 0b00111000001000001100010000001010 = .ok ⟨.aadd 2 3 4 1 2, false⟩ ∧
    Decode.word 0b00111000100100100010011100111100 = .ok ⟨.acas 9 8 7 3 4, false⟩ ∧
    Decode.word 0b00111000000100001011111101000000 = .ok ⟨.afadd 1 2 31 0 0, false⟩ := by decide
theorem test_decode_0f : Decode.word 0b00111100000000000000000001001011 = .ok ⟨.fence 2 1 3, false⟩ ∧
    Decode.word 0b00111100000000000000000010000000 = .ok ⟨.ifence, false⟩ ∧
    Decode.word 0b00111100001100010000000110110001 = .ok ⟨.ldAcq 3 4 1 2 1, false⟩ ∧
    Decode.word 0b00111100010100011000000011011100 = .ok ⟨.stRel 5 6 3 4, false⟩ := by decide
theorem test_decode_10 : Decode.word 0b01000000011100101011110000000000 = .ok ⟨.wbind 7 10 60, false⟩ ∧
    Decode.word 0b01000000101100001100010100000010 = .ok ⟨.wstat 11 3 5, false⟩ := by decide
theorem test_decode_14 : Decode.word 0b01010000000101111100000000000000 = .ok ⟨.hitch 1 31, false⟩ ∧
    Decode.word 0b01010000001000001100010000000001 = .ok ⟨.hand 2 3 4, false⟩ ∧
    Decode.word 0b01010000010100011000000000000011 = .ok ⟨.takeT 5 6, false⟩ := by decide
theorem test_decode_15 : Decode.word 0b01010100000110111000001000000000 = .ok ⟨.binit 1 46 2, false⟩ ∧
    Decode.word 0b01010100001110111100000000000011 = .ok ⟨.barrw 3 47, false⟩ ∧
    Decode.word 0b01010100010011111100000000000110 = .ok ⟨.evsig 4 63, false⟩ ∧
    Decode.word 0b01010100000000111100000000001000 = .ok ⟨.munlock 15, false⟩ := by decide
theorem test_decode_16 : Decode.word 0b01011000000000000000000000000000 = .ok ⟨.trig, false⟩ ∧
    Decode.word 0b01011000100000100101111000000011 = .ok ⟨.submit 8 9 30, false⟩ := by decide
theorem test_decode_18 : Decode.word 0b01100000001000100001110000100011 = .ok ⟨.vfma 1 2 3 4 2, false⟩ ∧
    Decode.word 0b01100011111111100000011100001110 = .ok ⟨.vlog2 31 30 7 0, false⟩ := by decide
theorem test_decode_19 : Decode.word 0b01100100100001010011000110001011 = .ok ⟨.viadds 4 5 6 1 8, false⟩ ∧
    Decode.word 0b01100100001000100001100010011010 = .ok ⟨.vishra 1 2 3 0 9, false⟩ := by decide
theorem test_decode_1a : Decode.word 0b01101000001000100001101001010100 = .ok ⟨.vperm 1 2 3 2 5, false⟩ ∧
    Decode.word 0b01101000011001000010100100111110 = .ok ⟨.vcmpUn 3 4 5 1 3, false⟩ ∧
    Decode.word 0b01101000110001111111100001000101 = .ok ⟨.vslide 6 7 31 0 4, false⟩ := by decide
theorem test_decode_1b : Decode.word 0b01101101000000010001100000000001 = .ok ⟨.vwiden 8 1 3 0 0, false⟩ ∧
    Decode.word 0b01101100001010000000001001110010 = .ok ⟨.vnarrow 1 8 0 2 7, false⟩ := by decide
theorem test_decode_1c : Decode.word 0b01110000011110010000010001000011 = .ok ⟨.vld 3 50 2 1 3, false⟩ ∧
    Decode.word 0b01110000100000101000110111101011 = .ok ⟨.vstg 4 5 6 7 1, false⟩ ∧
    Decode.word 0b01110000001000010000011000110010 = .ok ⟨.vldx 1 2 3 0 2, false⟩ := by decide
theorem test_decode_1d : Decode.word 0b01110100001000100000001100010000 = .ok ⟨.vrsum 1 2 3 1, false⟩ ∧
    Decode.word 0b01110100100001010000011001110011 = .ok ⟨.vscan 4 5 6 7, false⟩ := by decide
theorem test_decode_1e : Decode.word 0b01111000001000100001100000000010 = .ok ⟨.kxor 1 2 3, false⟩ ∧
    Decode.word 0b01111000111101010000000000110110 = .ok ⟨.kfrom 7 21 3, false⟩ ∧
    Decode.word 0b01111010100001010000000000000100 = .ok ⟨.kpopc 20 5 0, false⟩ := by decide
theorem test_decode_1f : Decode.word 0b01111100001000101000010001010000 = .ok ⟨.vget 1 2 33 5, false⟩ ∧
    Decode.word 0b01111100011000001010001001100011 = .ok ⟨.vmovS 3 40 2 6, false⟩ := by decide
theorem test_decode_20 : Decode.word 0b10000000000000010101001001100000 = .ok ⟨.cpset 5 18 3, false⟩ ∧
    Decode.word 0b10000000000100001000000000000100 = .ok ⟨.cpabort 1 2, false⟩ := by decide
theorem test_decode_24 : Decode.word 0b10010000000100001011111000100100 = .ok ⟨.mma 1 2 62 1, false⟩ ∧
    Decode.word 0b10010000100100001100000000000111 = .ok ⟨.accrdV 9 3 0, false⟩ ∧
    Decode.word 0b10010000000000000000000000100000 = .ok ⟨.dlease 1, false⟩ := by decide
theorem test_decode_28 : Decode.word 0b10100000011000000000000000000001 = .ok ⟨.sctopk 6, false⟩ ∧
    Decode.word 0b10100000011100100000100100001000 = .ok ⟨.scclaim 7 8 9, false⟩ := by decide
theorem test_decode_2c : Decode.word 0b10110000000000010100001001100010 = .ok ⟨.macc 5 2 3, false⟩ ∧
    Decode.word 0b10110000000000010000000001100001 = .ok ⟨.mtbl 4 3, false⟩ ∧
    Decode.word 0b10110000011100000000000111000111 = .ok ⟨.mfin 7 1 6, false⟩ := by decide
theorem test_decode_2e : Decode.word 0b10111000010100011000111100000001 = .ok ⟨.xrecv 5 6 15, false⟩ ∧
    Decode.word 0b10111000001000001101010000000101 = .ok ⟨.stmc 2 3 2 4, false⟩ ∧
    Decode.word 0b10111000000100001000001100000010 = .ok ⟨.qput 1 2 3, false⟩ := by decide
theorem test_decode_30 : Decode.word 0b11000000000100001000000011000111 = .ok ⟨.csrc 1 2 49, false⟩ ∧
    Decode.word 0b11000000001100000000000110000000 = .ok ⟨.csrr 3 96, false⟩ := by decide
theorem test_decode_31 : Decode.word 0b11000100000011111111111100000000 = .ok ⟨.syscall 4095, false⟩ ∧
    Decode.word 0b11000100000000000000000000000011 = .ok ⟨.doneT, false⟩ := by decide
theorem test_decode_33 : Decode.word 0b11001111111000000000000000000000 = .ok ⟨.inbox 62, false⟩ := by decide
theorem test_decode_3e : Decode.word 0b11111000000000000000000000000000 = .ok ⟨.nop, false⟩ ∧
    Decode.word 0b11111000000000000000000001100001 = .ok ⟨.hintPf 33, false⟩ := by decide
/-- BWDR of barrier 47 has B reserved (Table 10-4), BWDR of barrier 46 reads it. -/
theorem test_decode_bwdr : Decode.word 0b01010100010110111100001100000100 = .ok ⟨.bwdr 5 47 0, true⟩ ∧
    Decode.word 0b01010100010110111000001100000100 = .ok ⟨.bwdr 5 46 3, false⟩ := by decide

section
-- One theorem after the other: each kernel evaluation takes memory of its own.
set_option Elab.async false

/-! ### A small state: core 0 runs task 1 of launch 7 in caravan 3, partition 1, with a handler and one wagon -/

/-- The task of core 0. -/
def task0 : Task := { uid := 1, disp := 7, lin := 0, rank := 0, car := 3, part := 1, acct := 0 }
/-- Core 0 at 0x1000: s1 to s9 hold small values and addresses, slot 0 holds wagon 5. -/
def core0 : Core :=
  { pc := 0x1000, csr := { tvec := 0x8000 }, hitch := [(0, { st := .attached, wagon := 5 })], sched := { run := .running, task := some task0 },
    regs := { s := [(1, 5), (2, 7), (4, 0xE000000000000010), (5, 4), (6, 0xE000000000000012), (8, 0xFFFFFFFFFFFFFFFB)] } }
/-- Partition 1: cores 0 to 3 as logical indices 0 to 3. -/
def part1 : Partition :=
  { num := 1, root := 0, csave := 0, table := [some 0, some 1, some 2, some 3], strict := false, supOk := true, peer := [], accts := [], budget := [], resv := [],
    poolB := 0, poolS := 0 }
/-- The packet of the launch: partition 1, four cores in caravans of one. -/
def pkt7 : Packet :=
  { entry := 0x1000, pwtab := 0, crec := 0, lid := 9, pred0 := 0, pred1 := 0, x := 4, y := 1, z := 1, csize := 0, wagons := 0, prio := 0, inben := false,
    itgt := 0, part := 1 }
/-- The small state. -/
def small : State :=
  { State.reset with
    cores := [(0, core0)]
    caravans := [(3, some { disp := 7, num := 0, size := 1, part := 1, own := 1, acct := 0, cores := [0] })]
    disps := [(7, some { pkt := pkt7, queue := 0, sup := false })]
    clusters := [(0, { wagons := [(5, { prec := some 1, yard := .hitched })] })]
    parts := [(1, some part1)] }
/-- The small state with a change of core 0. -/
def smallWith (f : Core → Core) : State := small.upd f
/-- Core 0 with other CSRs. -/
def withCsr (f : Csrs → Csrs) : State := smallWith (fun c => c.updCsr f)
/-- Core 0 with other task-side state. -/
def withSched (f : Sched → Sched) : State := smallWith (fun c => c.sch f)
/-- Core 0 with a value in a scalar register. -/
def withS (r : Nat) (v : Word) : State := smallWith (fun c => c.setS r v)
/-- A message in the inbox of core 0. -/
def inboxed : State := smallWith (fun c => { c with mail := { c.mail with inbox := [⟨5, 0⟩] } })
/-- The small state in strict mode. -/
def smallStrict : State := small.setPart 1 (some { part1 with strict := true })
/-- The place of s4 in the window of slot 0. -/
def place0 : Place := { loc := locWagon 0 5 16, mtype := 0, slot := some 0 }

/-! ### Witnesses: the hypotheses of each clause are met, at a boundary value where there is a range -/

theorem witness_ScalarResults : scalarResult small (.add 3 1 2) = some (3, 12) ∧ scalarResult small (.shl 0 1 2) = some (0, 640) ∧
    scalarResult small (.mulhu 63 8 8) = some (63, 0xFFFFFFFFFFFFFFF6) := by decide +kernel
theorem witness_DivisionResults : small.getS (2 : BitVec 6) ≠ 0 ∧ (withCsr (fun c => { c with dzt := 0 })).getS (0 : BitVec 6) = 0 ∧
    (withCsr (fun c => { c with dzt := 0 })).me.csr.dzt.getLsbD 0 = false := by decide +kernel
theorem witness_DivisionTraps : Instr.rem 3 1 0 ∈ [Instr.div 3 1 0, .divu 3 1 0, .rem 3 1 0, .remu 3 1 0] ∧ small.getS (0 : BitVec 6) = 0 ∧
    small.me.csr.dzt.getLsbD 0 = true ∧ handled small = true := by decide +kernel
theorem witness_Branches : branchOf small (.brLt 8 1 1024) = some (true, 1024) ∧ branchOf small (.brLtu 8 1 1023) = some (false, 1023) := by decide +kernel
theorem witness_Jumps : (small.getS (5 : BitVec 6)).toNat % 4 = 0 := by decide +kernel
theorem witness_UnalignedJumps : Instr.callr 1 ∈ [Instr.jr 1, .callr 1] ∧ (small.getS (1 : BitVec 6)).toNat % 4 ≠ 0 ∧ handled small = true := by decide +kernel
/-- An unbound walker, and a bound one whose dimension 0 does not end, or does. -/
theorem witness_WalkerInstructions : (60 : BitVec 6).toNat ≤ 60 ∧ (5 : BitVec 6).toNat ≤ 5 ∧ (small.me.getW 7).bound = false ∧
    ({ bound := true } : Walker).ends 0 = false ∧ ({ bound := true, d0 := { fin := true } } : Walker).ends 0 = true := by decide +kernel

theorem witness_CsrReads : 0x080 ∈ csrListed ∧ (0x041 ∈ csrListed ∧ (smallWith (fun c => { c with sup := true })).me.sup = true) := by decide +kernel
theorem witness_CsrWrites : (((0x031 : BitVec 12)).toNat, (0x803F00FF : Word)) ∈ csrBits ∧ csrRead small (0x031 : BitVec 12).toNat = some 0 := by decide +kernel
theorem witness_BwstatClears : (Instr.csrc 1 2 0x033, (0 : Word)) ∈
    [(Instr.csrw 1 2 0x033, small.getS (2 : BitVec 6)), (.csrs 1 2 0x033, small.getS (2 : BitVec 6)), (.csrc 1 2 0x033, 0)] := by decide +kernel
/-- An unlisted index, PTAG at task privilege, a fixed CSR, MODE at task privilege. -/
theorem witness_CsrTraps : handled small = true ∧ (0xFFF : BitVec 12).toNat ∉ csrListed ∧ (0x041 : BitVec 12).toNat = 0x041 ∧ small.me.sup = false ∧
    (0x061 : BitVec 12).toNat ∈ csrFixed ∧ (0x080 : BitVec 12).toNat = 0x080 := by decide +kernel
/-- With and without feature 4. -/
theorem witness_ModeWrites : (smallWith (fun c => { c with sup := true })).me.sup = true ∧ small.feature 4 = false ∧
    (smallWith (fun c => { c with sup := true })).part (smallWith (fun c => { c with sup := true })).myPart = some part1 ∧
    (smallWith (fun c => { c with sup := true })).myPart < 64 := by decide +kernel

theorem witness_SystemTraps : handled small = true := by decide +kernel
/-- TVEC 0; NEST set; a launch of four tasks of which none has ended. -/
theorem witness_FatalTraps : (withCsr (fun c => { c with tvec := 0 })).me.csr.tvec = 0 ∧ (withCsr (fun c => { c with tstat := 2 })).me.csr.tstat.getLsbD 1 = true ∧
    (withCsr (fun c => { c with tvec := 0 })).me.sched.task = some task0 ∧
    ((withCsr (fun c => { c with tvec := 0 })).disp task0.disp).map (fun d => (d.killed, d.predBad, decide (d.ended + 1 < d.counting))) = some (false, false, true) := by
  decide +kernel
/-- An unaligned TEPC; a return up at task privilege; an aligned TEPC of a supervisor. -/
theorem witness_TrapReturns : (withCsr (fun c => { c with tepc := 2 })).me.csr.tepc.toNat % 4 ≠ 0 ∧ handled (withCsr (fun c => { c with tepc := 2 })) = true ∧
    (withCsr (fun c => { c with tstat := 1 })).me.csr.tstat.getLsbD 0 = true ∧ (withCsr (fun c => { c with tstat := 1 })).me.csr.tepc.toNat % 4 = 0 ∧
    (withCsr (fun c => { c with tstat := 1 })).me.sup = false ∧ handled (withCsr (fun c => { c with tstat := 1 })) = true ∧
    small.me.csr.tstat.getLsbD 0 = false := by decide +kernel
theorem witness_Hints : (255 : BitVec 26).toNat < 256 ∧ (256 : BitVec 26).toNat ≥ 256 ∧ small.strict = false ∧ smallStrict.strict = true ∧
    handled smallStrict = true := by decide +kernel
/-- A completion message in the inbox; an empty inbox; no release pending. -/
theorem witness_InboxReads : (62 : BitVec 6).toNat % 2 = 0 ∧ (inboxed).me.mail.inbox = [⟨5, 0⟩] ∧ small.me.mail.inbox = [] ∧
    ∀ w ∈ (inboxed).me.mem.wbuf, w.rel = false := by decide +kernel
theorem witness_Waits : (inboxed).me.mail.inbox ≠ [] ∧ small.me.mail.inbox = [] ∧ small.me.mail.rq = [] := by decide +kernel
theorem witness_DoneStops : small.me.drained = true := by decide +kernel

theorem witness_ScalarLoads : loadForm small (.ldw 3 4 0) = some (3, 4, 0xE000000000000010, 4, true) ∧ spaceOf 0xE000000000000010 ≠ 0xE8 ∧
    spaceOf 0xE000000000000010 ≠ 0xEC ∧ (0xE000000000000010 : Word).toNat % 4 = 0 ∧ locate small small.cur small.me.sup .load 0xE000000000000010 = .ok (small, place0) ∧
    loadReady small 0xE000000000000010 place0 4 = true ∧ small.late = false := by and_intros <;> first | decide +kernel | rfl
/-- A load performed later; then the only pending read of core 0. -/
theorem witness_LateLoads : loadForm { small with late := true } (.ldd 3 4 0) = some (3, 4, 0xE000000000000010, 8, false) ∧
    locate { small with late := true } 0 false .load 0xE000000000000010 = .ok ({ small with late := true }, place0) ∧
    unheld { small with late := true } 0xE000000000000010 place0 8 = true ∧ small.hasBad place0.loc 8 = false ∧ small.badNow place0 8 = false ∧
    (let r : Late := { loc := place0.loc, n := 8, mask := 0xFF, va := 0, seq := 0, mtype := 0, slot := some 0, dest := .scalar 3 false }
     let s := smallWith (fun c => { c with mem := { c.mem with late := [r] } })
     (s.core 0).mem.late = [r] ∧ (s.core 0).mem.wbuf = [] ∧ r.dest = .scalar 3 false ∧ s.hasBad r.loc r.n = false ∧
       (s.chargeList (hbmAsks s (.access 0 r.seq) 0 r.loc (s.memBytes 0 r.mtype r.seq r.dep r.loc r.n))).isSome = true) :=
  by and_intros <;> first | decide +kernel | rfl
/-- A parameter window of n bytes at s4. -/
def windowed (n : BitVec 32) : State :=
  smallWith (fun c => { c with wins := [(2, { base := 0xE000000000000010, size := n, bound := true })] })
/-- An access wholly beyond the end, and one that straddles it. -/
theorem witness_WindowLoads : ((windowed 4).base (5 : BitVec 6)).toNat % 2 ^ 2 = 0 ∧ ((windowed 4).window 2).bound = true ∧
    ((windowed 4).window 2).size.toNat ≤ ((windowed 4).base (5 : BitVec 6)).toNat ∧ ((windowed 6).base (5 : BitVec 6)).toNat < ((windowed 6).window 2).size.toNat ∧
    locate (windowed 6) 0 false .load (0xE000000000000010 + 4) = .ok (windowed 6, { place0 with loc := place0.loc + 4 }) ∧
    loadReady (windowed 6) (0xE000000000000010 + 4) { place0 with loc := place0.loc + 4 } 2 = true ∧ (windowed 6).late = false :=
  by and_intros <;> first | decide +kernel | rfl
theorem witness_ScalarStores : storeForm small (.std 1 4 0) = some (1, 4, 0xE000000000000010, 8) ∧ spaceOf 0xE000000000000010 ≠ 0xEC ∧
    (0xE000000000000010 : Word).toNat % 8 = 0 ∧ locate small small.cur small.me.sup .store 0xE000000000000010 = .ok (small, place0) ∧
    storeReady small 0xE000000000000010 place0 8 = true := by and_intros <;> first | decide +kernel | rfl
/-- The last bytes of the window of slot 0. -/
theorem witness_StoreThenLoad : storeForm (withS 4 0xE00000000003FFF8) (.sth 1 4 3) = some (1, 4, 0xE00000000003FFFE, 2) ∧
    locate (withS 4 0xE00000000003FFF8) 0 false .store 0xE00000000003FFFE = .ok (withS 4 0xE00000000003FFF8, { place0 with loc := locWagon 0 5 0x3FFFE }) ∧
    storeReady (withS 4 0xE00000000003FFF8) 0xE00000000003FFFE { place0 with loc := locWagon 0 5 0x3FFFE } 2 = true := ⟨by decide +kernel, rfl, by decide +kernel⟩
/-- A write of 8 bytes in the store buffer of core 0. -/
def write0 : Write :=
  { loc := place0.loc, n := 8, val := 7, mask := 0xFF, va := 0xE000000000000010, seq := 0, rel := false, mtype := 0, slot := some 0, part := 1,
    whole := false, member := none, win := 0 }
def writing : State := smallWith (fun c => { c with mem := { c.mem with wbuf := [write0], seq := 1 } })
theorem witness_WritesPerformed : (writing.core 0).mem.wbuf = [write0] ∧ (writing.core 0).mem.late = [] ∧ write0.member = none ∧
    writing.hasBad write0.loc write0.n = false ∧ 2 ^ 64 ≤ write0.loc ∧ (writing.chargeList (writeAsks writing 0 write0 write0.n)).isSome = true := by decide +kernel
theorem witness_Atomics : (atomicForm small (.aswp 3 4 1 3 0)).map (fun x => (x.1, x.2.1, x.2.2.1, x.2.2.2.1)) = some (3, 4, 3, 0) ∧
    (small.base (4 : BitVec 6)).toNat % 8 = 0 ∧ locate small 0 false .atomic (small.base (4 : BitVec 6)) = .ok (small, place0) ∧ atomicReady small (small.base (4 : BitVec 6)) place0 8 = true ∧
    orderReady small 3 true = true := by and_intros <;> first | decide +kernel | rfl
/-- An equal and an unequal compare value: s0 equals the zeros of memory, s1 does not. -/
theorem witness_CompareSwaps : atomicReady small (small.base (4 : BitVec 6)) place0 8 = true ∧ BitVec.ofNat 64 (small.bytes place0.loc 8) = small.getS (0 : BitVec 6) ∧
    BitVec.ofNat 64 (small.bytes place0.loc 8) ≠ small.getS (1 : BitVec 6) ∧ orderReady small 2 true = true ∧ orderReady small 2 false = true := by decide +kernel
theorem witness_FloatAtomics : (small.base (4 : BitVec 6)).toNat % 4 = 0 ∧ atomicReady small (small.base (4 : BitVec 6)) place0 4 = true ∧ orderReady small 1 true = true ∧
    modeOk small = true ∧ small.enabled (faddF32 small (BitVec.ofNat 64 (small.bytes place0.loc 4)) (small.getS (1 : BitVec 6))).2 = false := by decide +kernel
theorem witness_OrderedAccesses : (small.base (4 : BitVec 6)).toNat % 2 ^ 3 = 0 ∧ acquireOk small = true ∧
    locate small 0 false .load (small.base (4 : BitVec 6)) = .ok (small, place0) ∧ loadReady (acquireView small place0 8 1) (small.base (4 : BitVec 6)) place0 8 = true ∧ small.hasBad place0.loc 8 = false ∧
    small.me.mem.wbuf = [] ∧ small.me.sched.pfWay = [] ∧ storeReady small (small.base (4 : BitVec 6)) place0 8 = true :=
  by and_intros <;> first | decide +kernel | rfl
/-- A fence of stores with none pending; one of loads with a store pending. -/
theorem witness_Fences : small.me.mem.wbuf = [] ∧ small.me.giving = false ∧ small.sourcing small.cur = false ∧ small.me.sched.pfWay = [] ∧ small.me.mem.late = [] ∧ (1 : BitVec 2).getLsbD 1 = false ∧
    (1 : BitVec 2).getLsbD 0 = true ∧ writing.me.mem.late = [] := by decide +kernel
theorem witness_Translations : locate small 0 false .store 0xE00000000003FFFF = .ok (small, { place0 with loc := locWagon 0 5 0x3FFFF }) := rfl

/-! Vector registers: v1 has 1.0 in F32 lanes, k1 the two lowest and the highest byte. -/

/-- The small state with values in v1, v2 and k1. -/
def vec0 : State :=
  smallWith (fun c => ((c.setV 1 0x3F8000003F800000).setV 2 0x400000007F7FFFFF).setK 1 (BitVec.ofNat 512 (2 ^ 511 + 3)))
/-- FFLAGS and the enables of OF (bit 2) and IX as RMODE holds them. -/
def vecTrap : State := vec0.upd (fun c => c.updCsr (fun x => { x with fflags := 0x1F00 }))
theorem witness_VectorIntegers : (intForm vec0 (.viadd 3 1 2 1 6)).map (fun x => (x.1, x.2.1)) = some (3, 6) ∧
    (intForm vec0 (.vslide 31 1 31 1 2)).map (fun x => (x.1, x.2.1)) = some (31, 2) := by decide +kernel
theorem witness_VectorResults : (flagForm vec0 (.vadd 3 1 2 1 0)).map (fun x => (x.1, x.2.2.1, x.2.2.2.1)) = some (3, 32, true) ∧ modeOk vec0 = true ∧
    (∀ fl ∈ List.range 32, vec0.enabled fl = false) := by decide +kernel
theorem witness_VectorTraps : (flagForm vecTrap (.vmul 3 2 2 0 0)).map (fun x => (x.1, x.2.2.1, x.2.2.2.1,
      vecTrap.enabled (flagsOf x.2.1 x.2.2.1 (fun j => (x.2.2.2.2 j 0).2)))) = some (3, 32, true, true) ∧ modeOk vecTrap = true ∧ vecTrap.drawing = false ∧
    handled vecTrap = true := by decide +kernel
theorem witness_ModeTraps : (flagForm (smallStrict.upd (fun c => c.updCsr (fun x => { x with rmode := 6 }))) (.vadd 3 1 2 0 2)).isSome = true ∧
    modeOk (smallStrict.upd (fun c => c.updCsr (fun x => { x with rmode := 6 }))) = false ∧
    handled (smallStrict.upd (fun c => c.updCsr (fun x => { x with rmode := 6 }))) = true := by decide +kernel
/-- A compare that raises nothing, and one of a NaN that raises an enabled NV. -/
theorem witness_VectorCompares : (compareForm vecTrap (.vcmpLt 1 1 2 1 0)).map (fun x => (x.1, x.2.2.1, vecTrap.enabled (flagsOf x.2.1 32 (fun j => (x.2.2.2 j).2)))) =
      some (1, 0, false) ∧
    (compareForm (vecTrap.setV (2 : BitVec 5) 0x7FC00000) (.vcmpLt 7 1 2 0 0)).map (fun x => (x.1, x.2.2.1,
      (vecTrap.setV (2 : BitVec 5) 0x7FC00000).enabled (flagsOf x.2.1 32 (fun j => (x.2.2.2 j).2)))) = some (7, 0, true) ∧
    handled (vecTrap.setV (2 : BitVec 5) 0x7FC00000) = true := by decide +kernel
theorem witness_VectorWidening : Instr.wf (.vwiden 4 1 3 1 0) = true ∧ modeOk vec0 = true ∧
    vec0.enabled (flagsOf (vec0.getK (1 : BitVec 3)) 8 (fun j => (convElem vec0 0 3 0 (elem (vec0.getV (1 : BitVec 5)) 8 j)).2)) = false := by decide +kernel
theorem witness_VectorReductions : Instr.wf (.vrsum 3 1 1 9) = true ∧ Instr.wf (.vrsum 3 1 1 2) = true ∧ (∀ fl ∈ List.range 32, vec0.enabled fl = false) := by
  decide +kernel
theorem witness_MasksAndMoves : (vec0.getS (5 : BitVec 5)).toNat < elemCount 64 ∧ (vec0.getS (4 : BitVec 5)).toNat ≥ elemCount 4 := by decide +kernel

/-- The same with s4 aligned to 64 bytes; k1 makes one element of 4 or 8 bytes active. -/
def vec1 : State := vec0.upd (fun c => c.setS 4 0xE000000000000040)
def elem1 : VElem := ⟨0, 0xE000000000000040, { place0 with loc := locWagon 0 5 64 }⟩
theorem witness_VectorLoads : (vecForm vec1 false (.vld 3 4 0 1 3)).map (fun x => (x.run, x.nb, vecList x)) = some (true, 8, [(0, 0xE000000000000040)]) ∧
    vectorPlaces vec1 .load true 0xE000000000000040 8 [(0, 0xE000000000000040)] = .ok (vec1, [elem1]) ∧ vectorStall vec1 true 8 [elem1] = false ∧
    vec1.badNow elem1.place 8 = false ∧ vec1.hasBad elem1.place.loc 8 = false ∧ vec1.late = false ∧
    vec1.me.readable elem1.place 8 = true ∧ (vec1.chargeList (elemAsks vec1 8 [elem1])).isSome = true ∧ vecGate vec1 (.vld 3 4 0 1 3) = true ∧
    vecGate vec1 (.vldx 3 4 0 1 2) = true ∧ { vec1 with late := true }.late = true := by and_intros <;> first | decide +kernel | rfl
/-- A base that is not aligned to 64 bytes; elements in a slot that is not attached; elements that pass. -/
theorem witness_VectorChecks : handled vec0 = true ∧ ((vecForm vec0 false (.vld 3 4 0 1 3)).map (fun x =>
      ((vecList x).filter (fun e => decide (x.base.toNat % 64 ≠ 0 ∨ e.2.toNat % x.nb ≠ 0))).length)) = some 1 ∧
    (let s := vec1.upd (fun c => c.setS 4 0xE0000000007C0000)
     (vecForm s true (.vst 1 4 0 1 3)).map (fun x => ((vecList x).map (fun e => (decide (x.base.toNat % 64 = 0 ∧ e.2.toNat % x.nb = 0),
       decide ((s.me.slot (e.2.toNat / 2 ^ 18 % 32)).st ≠ .attached))))) = some [(true, true)]) ∧
    vectorPlaces vec1 .load true 0xE000000000000040 8 [(0, 0xE000000000000040)] = .ok (vec1, [elem1]) :=
  ⟨by decide +kernel, by decide +kernel, by decide +kernel, rfl⟩
/-- A contiguous store, and one with a stride of s1 bytes, each with one active element. -/
theorem witness_VectorStores : Instr.wf (.vst 1 4 0 1 3) = true ∧
    (vecForm vec1 true (.vst 1 4 0 1 3)).map (fun x => (x.run, x.nb, vecList x)) = some (true, 8, [(0, 0xE000000000000040)]) ∧
    vectorPlaces vec1 .store true 0xE000000000000040 8 [(0, 0xE000000000000040)] = .ok (vec1, [elem1]) ∧
    vec1.interlock 0 0xE000000000000040 (0xE000000000000040 + 7) = .go ∧
    (vecForm vec1 true (.vsts 1 4 1 1 2)).map (fun x => (x.run, x.nb, vecList x)) = some (false, 4, [(0, 0xE000000000000040)]) ∧
    vectorPlaces vec1 .store false 0xE000000000000040 4 [(0, 0xE000000000000040)] = .ok (vec1, [elem1]) ∧ vectorStall vec1 false 4 [elem1] = false ∧
    vec1.interlock 0 0xE000000000000040 (0xE000000000000040 + 3) = .go :=
  by and_intros <;> first | decide +kernel | rfl
/-- The wagon of slot 0 holds BF16 elements (livery 2), s4 names its window. -/
def vecBf : State :=
  (vec0.upd (fun c => c.setS 4 0xE000000000000000)).setCluster 0 { wagons := [(5, { prec := some 1, yard := .hitched, livery := 2 })] }
theorem witness_WagonLoads : vecBf.base (4 : BitVec 6) = 0xE000000000000000 ∧ (vecBf.me.slot 0).st = .attached ∧
    ((vecBf.cluster 0).wagon 5).livery = 2 ∧ modeOk vecBf = true ∧ vecBf.pendFull { loc := locWagon 0 5 0, mtype := 0, slot := some 0 } = false ∧
    activeList (vecBf.getK (1 : BitVec 3)) 32 = [0] ∧ spotBeyond 2 (spotOf 2 0) = false ∧ spotRanges 2 (spotOf 2 0) = [(0, 1)] ∧
    vecBf.wmStall 0 0xE000000000000000 0xE000000000000001 = false ∧ vecBf.readBad 0 0 0 0 (locWagon 0 5 0) 2 = false ∧
    vecBf.me.readable { loc := locWagon 0 5 0, mtype := 0, slot := some 0 } 2 = true ∧ (∀ fl ∈ List.range 32, vecBf.enabled fl = false) := by decide +kernel

/-! Wagons: a supervisor with slot 0 attached; other states of a slot are set where they are needed. -/

/-- The small state with a hitch entry in slot n of core g, whose task is that of core 0 with another rank. -/
def slotted (g n : Nat) (h : Hitch) : State :=
  (small.setCore 1 { core0 with sched := { run := .running, task := some { task0 with uid := 2, lin := 1, car := 4 } }, hitch := [] }).updCore g
    (fun c => { c with hitch := [(n, h)], sup := true })
/-- A free slot; a slot that is not; a record of an impounded wagon; a wagon with and one without the partition's record; a wagon whose clearing has ended. -/
theorem witness_Hitches : handled small = true ∧ small.me.sup = false ∧ (slotted 0 0 { st := .attached, wagon := 5 }).me.sup = true ∧
    acquireOk (slotted 0 0 { st := .attached, wagon := 5 }) = true ∧ (slotted 0 0 { st := .attached, wagon := 5 }).hold ≠ .zeroing ∧
    ((slotted 0 0 { st := .attached, wagon := 5 }).me.slot 0).st ≠ .detached ∧ (slotted 0 0 { st := .attached, wagon := 5 }).me.slot 31 = {} ∧
    FreeWagon ((slotted 0 0 {}).cluster 0) 0 ∧ poolRoom (slotted 0 0 {}) 1 (fun q => ((slotted 0 0 {}).cluster 0).held q) 1 1 = true ∧
    (((slotted 0 0 {}).cluster 0).wagon 0).prec ≠ some 1 ∧
    FreeWagon ({ wagons := [(0, { prec := some 1 })] } : Cluster) 0 ∧ ((({ wagons := [(0, { prec := some 1 })] } : Cluster).wagon 0).prec = some 1) ∧
    (({ wagons := (List.range 128).map (fun w => (w, { yard := .hitched })) } : Cluster).freeWagon.isNone = true) ∧
    ((({} : Cluster).impounds.any (fun r => r.wagon == 5 && r.part == 1)) = false) ∧
    (({ impounds := [⟨5, 1, 0, 1, 5⟩] } : Cluster).impounds.filter (fun r => r.wagon == 5 && r.part == 1) = [⟨5, 1, 0, 1, 5⟩]) ∧
    (((slotted 0 0 { st := .attached, wagon := 5 }).cluster 0).wagon 5).yard = .hitched := by
  unfold FreeWagon
  and_intros <;> first | decide +kernel | omega
/-- Slot 0 attached, and s2 = 0x50001 naming logical core 1 and its slot 5; core 1 runs and its slot 5 is free, or in receipt; then no core there. -/
def giving : State := (slotted 0 0 { st := .attached, wagon := 5 }).upd (fun c => c.setS 2 0x50001)
theorem witness_HandOvers : ((slotted 0 0 {}).me.slot 0).st ≠ .attached ∧ (giving.me.slot 0).st = .attached ∧ (giving.getS (2 : BitVec 6)).toNat = 0x50001 ∧
    giving.physOf giving.myPart 1 = some 1 ∧ giving.physOf giving.myPart 4 = none ∧ clusterOf 1 = clusterOf giving.cur ∧
    (giving.core 1).sched.run ∈ [Run.running, .done, .point] ∧ (giving.core 1).part = giving.myPart ∧ (giving.core 1).slot 5 = {} ∧
    (giving.core 2).sched.run ∉ [Run.running, .done, .point] ∧ giving.physOf giving.myPart 2 = some 2 ∧ 1 ≠ giving.cur := by decide +kernel
/-- A revoked slot, an empty one, an arriving wagon of the expected tag, one of another tag, an attached slot. -/
theorem witness_Takes : ((slotted 0 9 { rvk := true }).me.slot 9).rvk = true ∧ ((slotted 0 9 {}).me.slot 9).st = .detached ∧
    ((slotted 0 9 { st := .arriving, wagon := 5 }).me.slot 9).st = .arriving ∧ (((slotted 0 9 {}).cluster 0).wagon 5).tag = 0 ∧
    acquireOk (slotted 0 9 { st := .arriving, wagon := 5 }) = true ∧ ((slotted 0 9 { st := .arriving, wagon := 5, etag := 1 }).me.slot 9).etag ≠ 0 ∧
    ((slotted 0 9 { st := .attached, wagon := 5 }).me.slot 9).st ∈ [HState.attached, .leaving, .impounded] ∧
    handled (slotted 0 9 { st := .attached, wagon := 5 }) = true := by decide +kernel
/-- Each state of a slot; liveries that are valid at the limits of the offset field, and one that is not. -/
theorem witness_SlotInstructions : ((slotted 0 31 { rvk := true }).me.slot 31) = { rvk := true } ∧ ((slotted 0 31 {}).me.slot 31) = {} ∧
    ((slotted 0 31 { st := .leaving }).me.slot 31).st = .leaving ∧ ((slotted 0 31 { st := .impounded }).me.slot 31).st = .impounded ∧
    ((slotted 0 31 { st := .attached, wagon := 5 }).me.slot 31).st = .attached ∧ ((slotted 0 31 { st := .arriving, wagon := 5 }).me.slot 31).st = .arriving ∧
    liveryValid (withS 2 0xFFF0105) (((withS 2 0xFFF0105).getS (2 : BitVec 6)).setWidth 32) = true ∧
    (slotted 0 31 { st := .attached, wagon := 5 }).pend 0 31 = 0 ∧ liveryValid (withS 2 0x105) (((withS 2 0x105).getS (2 : BitVec 6)).setWidth 32) = false ∧
    handled (slotted 0 31 {}) = true := by decide +kernel
/-- A clearing that began 512 cycles ago; a drained hand-over; a drained drop; a held message; a dead core with a wagon; a record of the own cluster. -/
theorem witness_YardSteps :
    (let s := { small.setCluster 0 { zeroing := [(127, some 0)] } with cycle := 512, caravans := [] }
     (s.cluster 0).zeroing.find? (fun e => e.1 == 127) = some (127, some 0) ∧ 0 + 512 ≤ s.cycle.toNat ∧ Memory.wf s.mem = true) ∧
    (let s := (giving.updCore 0 (fun c => c.setSlot 0 { st := .leaving, wagon := 5, dest := some (1, 5) })).updCore 1 (fun c => c.setSlot 5 { inb := true })
     ((s.core 0).slot 0).st = .leaving ∧ ((s.core 0).slot 0).dest = some (1, 5) ∧ leavingDrained s 0 0 = true ∧ ((s.core 1).slot 5).inb = true ∧
      (s.core 1).sched.dead = false ∧ (s.core 1).mail.held = [] ∧ (s.core 1).mail.inbox.length < 64) ∧
    (leavingDrained (slotted 0 0 { st := .leaving, wagon := 5 }) 0 0 = true ∧ ((slotted 0 0 { st := .leaving, wagon := 5 }).me.slot 0).dest = none) ∧
    (smallWith (fun c => { c with mail := { held := [⟨1, 0⟩] } })).me.mail.held = [⟨1, 0⟩] ∧
    (let s := { (slotted 0 0 { st := .attached, wagon := 5 }).upd (fun c => c.sch (fun x => { x with dead := true })) with disps := [] }
     (s.core 0).sched.dead = true ∧ ((s.core 0).slot 0).st = .attached ∧ ((s.core 0).slot 0).dest = none ∧ s.pend 0 0 = 0 ∧ s.disp 7 = none) ∧
    (let s := (slotted 1 0 { st := .impounded, wagon := 5 }).setCluster 0 { impounds := [⟨5, 1, 0, 1, 5⟩] }
     (s.cluster 0).impounds.filter (fun r => r.wagon == 5 && r.part == s.myPart) = [⟨5, 1, 0, 1, 5⟩] ∧ clusterOf 1 = 0 ∧ s.me.sched.run = .running) := by decide +kernel

/-! Barriers, lines, mutexes. -/

/-- Barrier 46 of caravan 3 with rank 0 a member. -/
def barred (b : Bar) : State := small.setCaravan 3 (some { disp := 7, num := 0, size := 1, part := 1, own := 1, acct := 0, cores := [0], bars := [(46, b)] })
/-- A member that has not arrived, whose arrival ends the phase or does not; no member; the masks 0, 2 and 3 of a caravan of two. -/
theorem witness_Barriers : (barred { members := 1 }).me.sched.task = some task0 ∧ ((barred { members := 1 }).caravan 3).map (fun c => c.bar 46) = some { members := 1 } ∧
    (barred { members := 1 }).me.drained = true ∧ (1 : BitVec 16).getLsbD task0.rank = true ∧ (phase { members := 1, arrived := 1 }).gen ≠ (barred { members := 1 }).observed 46 ∧
    (phase { members := 3, arrived := 1 }).gen = (barred { members := 3 }).observed 46 ∧ (barred { members := 1 }).hold ≠ .arrived ∧
    ((2 : BitVec 16)).getLsbD 0 = false ∧ handled (barred { members := 2 }) = true ∧ (0 : Word).setWidth 16 = (0 : BitVec 16) ∧ 2 ^ 1 ≤ (2 : BitVec 16).toNat ∧
    (1 : BitVec 16).toNat < 2 ^ 1 ∧ ({ members := 3, arrived := 2 } : Bar).arrived ≠ 0 ∧ [0].Nodup ∧ (barred {}).cur ∈ [0] := by decide +kernel
theorem witness_LaunchBarrier : ∃ l : Dispatch, small.disp task0.disp = some l ∧ l.pkt.part = small.myPart ∧ small.me.drained = true ∧ task0.lin ∉ l.b47.withdrawn ∧
    task0.lin ∉ l.b47.arrived ∧ task0.lin ∉ l.b47.flight ∧ l.home ≠ some (clusterOf small.cur) ∧ (some 0 = some (clusterOf small.cur)) ∧
    (0 ∈ ({ flight := [0] } : Bar47).flight) ∧ (0 ∈ ({ withdrawn := [0] } : Bar47).withdrawn) ∧ handled small = true :=
  ⟨_, rfl, by and_intros <;> first | decide +kernel | rfl⟩
/-- Lines 47 and 64 at generation 0 and 1; a load of line 127; the pre-emption of line 47; flag 63. -/
theorem witness_Lines :
    (let s := small.setDisp 7 (some { pkt := pkt7, queue := 0, sup := false, b47 := { gen := 1 } })
     s.lineGen 0 47 ≠ s.observed 47 ∧ acquireOk s = true ∧ s.me.sched.preempt = false ∧ small.lineGen 0 47 = small.observed 47 ∧
     small.lineGen 0 64 = small.observed 64 ∧ (s.upd (fun c => c.sch (fun x => { x with preempt := true }))).me.sched.preempt = true ∧
     boundaryFree (s.upd (fun c => c.sch (fun x => { x with preempt := true }))) = true) ∧
    BitVec.ofNat 64 (((withS 9 0xE800000000001FC0).base (9 : BitVec 6)).toNat + 8 * (0 : BitVec 11).toNat) = BitVec.ofNat 64 (0xE8 * 2 ^ 56 + 64 * 127) ∧
    small.me.drained = true ∧ small.me.sched.task.isSome = true ∧ (withSched (fun x => { x with hold := .arrived })).hold = .arrived := by decide +kernel
/-- Mutex 15 of partition 1. -/
def mutexed (m : Mutex) : State := small.setCluster 0 { mutexes := [(31, m)] }
/-- A free mutex, one held by core 1, one held by core 0 with waiters above and below its last holder, a grant after a wait. -/
theorem witness_Mutexes : Sparse.get {} ((mutexed { dead := true }).cluster 0).mutexes ((mutexed { dead := true }).myPart * 16 + (15 : BitVec 6).toNat) = { dead := true } ∧
    acquireOk (mutexed {}) = true ∧ (mutexed {}).hold ≠ .queued ∧ 1 ≠ (mutexed { holder := some 1 }).cur ∧ handled (mutexed { holder := some 0 }) = true ∧
    ((mutexed { holder := some 0 }).upd (fun c => c.sch (fun x => { x with hold := .queued }))).hold = .queued ∧ (mutexed { holder := some 0 }).me.drained = true ∧
    (∀ x ∈ [2, 9], 0 < x → 2 ≤ x) ∧ (∀ x ∈ [2, 9], x ≤ 9 ∧ 2 ≤ x) ∧ (some 1 ≠ some (mutexed { holder := some 1 }).cur) := by decide +kernel
/-- A first and a second trigger; the addresses 0xFF…F0 (space 0xFF), 0x10 and 8; VCC at its value and below it. -/
theorem witness_Points : small.me.drained = true ∧ small.me.sched.task = some task0 ∧ small.me.sched.triggered = false ∧
    (withSched (fun x => { x with triggered := true })).me.sched.triggered = true ∧ spaceOf 0x10 = 0 ∧ (0x10 : Word).toNat % 16 = 0 ∧ (8 : Word).toNat % 16 ≠ 0 ∧
    spaceOf 0xFFFFFFFFFFFFFFF0 ≠ 0 ∧ handled small = true ∧ (0 : Word).toNat ≤ small.vcc.toNat ∧ small.vcc.toNat < (small.getS (1 : BitVec 6)).toNat ∧
    ((withSched (fun x => { x with hold := .timed 0 true none })).core 0).sched.hold = .timed 0 true none ∧
    (0 : Word).toNat ≤ ((withSched (fun x => { x with hold := .timed 0 true none })).vccOf 0).toNat := by decide +kernel
/-- A queue of partition 1 and a packet of version 1 for it. -/
def queued (d : Nat) : State := { small.setQueue 255 { owner := some 1, depth := d } with cycle := 0 }
/-- Its packet: launch 8, one task; and the same with x of 0, which is malformed. -/
def pkt8 (x : Nat) : BitVec 512 := BitVec.ofNat 512 (0x1000 + 8 * 2 ^ 192 + x * 2 ^ 288 + 2 ^ 304 + 2 ^ 320 + 2 ^ 384)
/-- A queue with room, one without, a malformed packet; the submitter's address; an interface that is locked. -/
theorem witness_Submissions : ((queued 1).queue 255).owner = some 1 ∧ (queued 1).part 1 = some part1 ∧ (pkt8 1).toNat / 2 ^ 384 % 2 ^ 6 = 1 ∧
    ((queued 1).queue 255).sup = false ∧ packetBad (queued 1) (pkt8 1) = false ∧ (queued 1).queueHeld 255 = 0 ∧
    poolRoom (queued 1) 0 (queued 1).slotsUsed 1 1 = true ∧ packetBad (queued 1) (pkt8 0) = true ∧ ((queued 0).queue 255).depth ≤ (queued 0).queueHeld 255 ∧
    spaceOf (BitVec.ofNat 64 (0xF0 * 2 ^ 56 + 64 * 255)) = 0xF0 ∧ ((queued 1).setV (31 : BitVec 5) ((pkt8 1).setWidth 4096)).getV (31 : BitVec 5) = (pkt8 1).setWidth 4096 ∧
    (queued 1).myPart = 1 ∧ (queued 1).me.drained = true ∧ (queued 1).host.tdisp = .unlocked ∧
    ({ queued 1 with host := { tdisp := .locked } } : State).host.tdisp = .locked := by decide +kernel

/-! Copies: channel 3 of core 0 copies four bytes within the window of slot 0. -/

/-- The shadows of the copy. -/
def chan3 (l : List Xfer) : Chan :=
  { shadow := [(0, 0xE000000000000000), (1, 0xE000000000000100), (2, 4), (6, 1), (10, 1)], seq := 65535, xfers := l }
/-- One side of the copy. -/
def side3 (a : Nat) : Side :=
  { base := a, ext := [4, 1, 1, 1], str := [1, 0, 0, 0], start := [0, 0, 0, 0], livery := 0, lo := a, hi := a + 3, region := none }
/-- The transfer in progress. -/
def xfer3 : Xfer :=
  { id := 3, uid := 1, part := 1, acct := 0, sup := false, kind := .bytes, src := side3 0xE000000000000000, dst := side3 0xE000000000000100, rmode := 0, seed := 0,
    flag := none, cls := 0, pos := 0, chunks := 0, signalled := 0, wm := 0, st := .running, status := 0, faddr := 0, silent := false }
/-- The small state with the channel, and with transfers on it. -/
def copying (l : List Xfer) : State := smallWith (fun c => { c with chans := [(3, chan3 l)] })
/-- Registers 0 and 18 of channel 3 by their addresses; an id that no transfer has and one that has. -/
theorem witness_CopyChannels : BitVec.ofNat 64 (((withS 9 (chanAddr 3 0)).base (9 : BitVec 6)).toNat + 8 * (18 : BitVec 11).toNat) = chanAddr 3 18 ∧
    BitVec.ofNat 64 (((withS 9 (chanAddr 3 0)).base (9 : BitVec 6)).toNat + 8 * (0 : BitVec 12).toNat) = chanAddr 3 0 ∧ (copying []).me.xfers = [] ∧
    (copying [xfer3]).me.xfers = [xfer3] ∧ xfer3.active = true ∧ xfer3.uid = (copying [xfer3]).me.uid ∧ (BitVec.ofNat 64 xfer3.id).toNat % 2 ^ 32 = xfer3.id := by
  decide +kernel
/-- Shadows that pass the checks with room, and with the channel full; shadows that fail a check; the LAUNCH register's address. -/
theorem witness_CopyStarts : cpgoCheck (copying []) (chan3 []) = .ok (copying [], ⟨.bytes, side3 0xE000000000000000, side3 0xE000000000000100⟩) ∧
    modeOk (copying []) = true ∧ (sideSlots (side3 0xE000000000000000) ++ sideSlots (side3 0xE000000000000100)).any (fun n => decide (255 ≤ (copying []).pend 0 n)) = false ∧
    8 ≤ ((List.replicate 8 xfer3).filter Xfer.active).length ∧ cpgoCheck small { chan3 [] with shadow := [(18, 0x20000)] } = .error (small, 6) ∧
    BitVec.ofNat 64 (((withS 9 (chanAddr 3 0)).base (9 : BitVec 6)).toNat + 8 * (19 : BitVec 11).toNat) = chanAddr 3 19 :=
  by and_intros <;> first | decide +kernel | rfl
theorem witness_CopyChunks : (((copying [xfer3]).core 0).chan 3).xfers = [xfer3] ∧ chunkPositions xfer3 = [0, 1, 2, 3] ∧
    ((copying [xfer3]).chargeList (chunkAsks 0 3 xfer3 4)).isSome = true ∧ (∀ p ∈ [0, 1, 2, 3], sideAbs xfer3.src p / 8 / 2 ^ 56 = 0xE0 ∧ sideAbs xfer3.dst p / 8 / 2 ^ 56 = 0xE0 ∧
      (copying [xfer3]).hasBad (windowLoc (copying [xfer3]) 0 (sideAbs xfer3.src p / 8)) 1 = false ∧
      (copying [xfer3]).hasBad (windowLoc (copying [xfer3]) 0 (sideAbs xfer3.dst p / 8)) 1 = false ∧
      ∀ q ∈ [0, 1, 2, 3], windowLoc (copying [xfer3]) 0 (sideAbs xfer3.dst p / 8) = windowLoc (copying [xfer3]) 0 (sideAbs xfer3.dst q / 8) → p = q) ∧
    ((copying [xfer3]).core 0).mem.wbuf = [] := by decide +kernel
/-- An ended transfer of a live task. (The page of a flag in a peer's memory stands in the partition's tables: see test_flag_page.) -/
theorem witness_CopyEnds : (({ xfer3 with st := .ended } : Xfer).flag = none) ∧ ((copying [{ xfer3 with st := .ended }]).core 0).uid = xfer3.uid ∧
    ((copying [{ xfer3 with st := .ended }]).core 0).mail.held = [] ∧ ((copying [{ xfer3 with st := .ended }]).core 0).mail.inbox.length < 64 := by decide +kernel

/-! Drays: dray 1 of cluster 0. -/

/-- The small state with a dray. -/
def drayed (x : Dray) : State := small.setCluster 0 { wagons := [(5, { prec := some 1, yard := .hitched, livery := 1 })], dray1 := x }
/-- A free dray, one held by core 1, one held by core 0; a wait for a batch that does not exist, one that runs, one that is over; batches and grants. -/
theorem witness_DrayLeases : (drayed {}).dray 0 1 = {} ∧ acquireOk (drayed {}) = true ∧ (drayed {}).hold ≠ .queued ∧ ((drayed { holder := some 1 }).dray 0 1).holder = some 1 ∧
    ((drayed { holder := some 0 }).upd (fun c => c.sch (fun x => { x with hold := .queued }))).hold = .queued ∧ handled (drayed { holder := some 0 }) = true ∧
    (drayed { holder := some 0 }).me.drained = true ∧ ((drayed { holder := some 0 }).dray 0 1).cmds = [] ∧ (0 < (5 + 2 ^ 32 - (1 - 1)) % 2 ^ 32 ∧ (5 + 2 ^ 32 - (1 - 1)) % 2 ^ 32 ≤ 2 ^ 31) ∧
    ¬(0 < (5 + 2 ^ 32 - (6 - 1)) % 2 ^ 32) ∧ 5 ∈ ({ closed := [5] } : Dray).closed ∧ 5 ∉ ({ closed := [] } : Dray).closed ∧
    (3 ∈ [3, 9] ∧ 2 < 3 % 16 ∧ ∀ w ∈ [3, 9], 2 < w % 16 → 3 ≤ w) := by decide +kernel
/-- A held dray with room for commands and one without; row counts 0, 1 and 256; window descriptors that are right and wrong; a matrix shape of 1 x 1 x 1. -/
theorem witness_DrayCommands : ((drayed { holder := some 0, issued := 63 }).dray 0 1).issued < 64 ∧ 64 ≤ ((drayed { holder := some 0, issued := 64 }).dray 0 1).issued ∧
    handled (drayed {}) = true ∧ ((drayed { holder := some 0 }).dray 0 1).cmds = [] ∧ 0 + 256 ≤ 256 ∧ 256 < 0 + 257 ∧
    (drayOper (drayed {}) 0xE000000000000100 1 1 true).isSome = true ∧ drayOper (drayed {}) 0xE000000000040000 1 1 true = none ∧ modeOk (drayed {}) = true ∧
    (drayed {}).pend 0 0 < 255 ∧ spaceOf 0xE000000000000010 = 0xE0 ∧ ((drayed {}).me.slot 0).st = .attached ∧ ¬(0x3FFFF + 768 ≤ 2 ^ 18) ∧
    mmaBad 0x100010001 (mmaShape (drayed {}) 0x100010001 2 false) = false ∧ mmaBad 0 (mmaShape (drayed {}) 0 2 true) = true ∧
    drayOper (drayed {}) 0xE000000000000100 1 1 false = none ∧
    (drayOper (small.setCluster 0 { wagons := [(5, { livery := 2 })] }) 0xE000000000000100 1 1 false).isSome = true ∧
    (mmaShape (drayed {}) 0x0800000100010001 2 false).aacc = some (false, 7) := by decide +kernel
/-- One command of each kind at the head of a queue. -/
theorem witness_DrayRuns :
    (∀ op ∈ [DOp.accwr true 255 128 1, .acczero false 0 256, .acccb (locWagon 0 5 0) 0, .accst true 0 0 1 1 ⟨locWagon 0 5 0, 0, 0, 1, 1⟩ true 0 0,
        .mma { mmaShape small 0x100010001 2 false with a := ⟨locWagon 0 5 0, 0, 0, 1, 2⟩, b := ⟨locWagon 0 5 0, 0, 2, 1, 2⟩ }],
      ((drayed { holder := some 0, cmds := [⟨0, 1, 1, 1, 0, false, op⟩] }).dray 0 1).head = some ⟨0, 1, 1, 1, 0, false, op⟩ ∧
      drayBlocked (drayed { holder := some 0, cmds := [⟨0, 1, 1, 1, 0, false, op⟩] }) ⟨0, 1, 1, 1, 0, false, op⟩ = false ∧
      op.reads.any (fun r => (drayed {}).hasBad r.1 r.2) = false) ∧
    (DOp.acccb (locWagon 0 5 0) 0).reads.any (fun r => ({ drayed {} with bad := [(locWagon 0 5 0, true)] } : State).hasBad r.1 r.2) = true ∧
    (mmaShape small 0x100010200 2 true).row0 + (mmaShape small 0x100010200 2 true).m ≤ 512 ∧
    (let c := fun (b : Nat) => (⟨0, 1, 1, b, 0, false, .mma (mmaShape small 0x100010200 2 true)⟩ : DCmd)
     ({ cmds := [c 1] } : Dray).head = some (c 1) ∧ ({ cmds := [c 9] } : Dray).head = some (c 9) ∧ (c 1).op = (c 9).op ∧ (c 1).core = (c 9).core) := by decide +kernel

/-! Page tables of partition 1 at 0x10000: pages 0, 1 and 2 are frames 2, 4 and 3, page 3 is a page of peer 1. -/

/-- The small state with page tables, feature 2 accepted. -/
def paged : State :=
  { small with
    mem := [(0x10000, 0x01), (0x10001, 0x20), (0x10002, 0x01), (0x12000, 0x01), (0x12001, 0x40), (0x12002, 0x01), (0x14000, 0x01), (0x14001, 0x60), (0x14002, 0x01),
      (0x16000, 0xDF), (0x16002, 0x02), (0x16008, 0xDF), (0x1600A, 0x04), (0x16010, 0xDF), (0x16012, 0x03), (0x16018, 0xDF), (0x16019, 0x08), (0x1601A, 0x05), (0x1601E, 0x01)]
    parts := [(1, some { part1 with root := 0x10000, peer := [255, 6] })]
    frames := { owner := [(1, some 1), (2, some 1), (3, some 1), (4, some 1)] }
    host := { bar0 := { featAcc0 := 4 } } }
/-- A walk of page 0 for a store lands in frame 2, and the leaf, which has A and D set, stays as it is. -/
theorem test_walk : (match translate paged 0 1 false .store 0x8 with | .ok (t, x) => x == ⟨0x20008, 0, 0, 0⟩ && t.mem == paged.mem | .error _ => false) = true := by
  decide +kernel
/-- A page that the tables do not map is an address fault (R23). -/
theorem test_walk_fails : (match translate paged 0 1 false .load 0x40000 with | .ok _ => 0 | .error c => c) = 2 := by decide +kernel
/-- A flag in page 3 is a byte of peer 1's memory, of the partition paired there. -/
theorem witness_CopyEnds_signal : (match engineAt (copying [{ xfer3 with flag := some 0x30008, chunks := 1 }]) 0 1 false .store 0x30008 with | .ok _ => true | .error _ => false) = false ∧
    (match engineAt { paged with cores := (copying [{ xfer3 with flag := some 0x30008, chunks := 1 }]).cores } 0 1 false .store 0x30008 with
      | .ok (t, p) => p == ⟨locPeer 1 6 0x50008, 2, 0, true⟩ && !t.hasBad p.loc 8 | .error _ => false) = true := by decide +kernel

/-! Stagecoach. -/

/-- A configuration: one expert, one choice, one token, capacity 1, rows of 16 bytes; score, manifest and other areas in the window of slot 0. -/
def cfg0 : BitVec 512 :=
  BitVec.ofNat 512 (1 + 2 ^ 9 + 2 ^ 16 + 2 ^ 32 + 16 * 2 ^ 64 + 0xE000000000000000 * 2 ^ 128 + 0xE000000000000100 * 2 ^ 192 + 0xE000000000000200 * 2 ^ 256 +
    0xE000000000000300 * 2 ^ 320 + 0xE000000000000400 * 2 ^ 384 + 0xE000000000000500 * 2 ^ 448)
/-- The small state with a configuration. -/
def coached (c : Option (BitVec 512)) : State := smallWith (fun k => { k with sc := { cfg := c } })
/-- Eight doublewords from s4 on, of a base aligned to 64 bytes. -/
def block0 : List VElem := (List.range 8).map (fun i => ⟨i, 0xE000000000000040 + BitVec.ofNat 64 (8 * i), { place0 with loc := locWagon 0 5 (64 + 8 * i) }⟩)
/-- A block of zeros, which is refused; entries 0 and 1 of a manifest of one entry; a manifest that is absent; a command that writes it. -/
theorem witness_StagecoachReads : BlockReads vec1 vec1 true (vec1.base (4 : BitVec 6)) 8 block0 ∧ cfgOk vec1 0 = false ∧ cfgOk vec1 cfg0 = true ∧
    (coached none).me.sc.cfg = none ∧ (coached (some cfg0)).me.sc.cfg = some cfg0 ∧ cfgField cfg0 16 14 * cfgField cfg0 9 4 = 1 ∧ cfgField cfg0 384 64 ≠ 0 ∧
    cfgField 0x10201 384 64 = 0 ∧ ((coached (some cfg0)).coachCmds 0) = [] ∧
    locate (coached (some cfg0)) 0 false .load 0xE000000000000400 = .ok (coached (some cfg0), { place0 with loc := locWagon 0 5 0x400 }) ∧
    loadReady (coached (some cfg0)) 0xE000000000000400 { place0 with loc := locWagon 0 5 0x400 } 4 = true :=
  by
  refine ⟨⟨rfl, ?_, ?_, ?_, ?_⟩, ?_⟩ <;> and_intros <;> first | decide +kernel | rfl
/-- A command that passes, one with an absent field, one over an empty slot; a claim of 1 and of 0 rows, at an aligned and an unaligned counter. -/
theorem witness_StagecoachCommands : coachForm (.sctopk 3) = some (3, 1, none) ∧ (∀ lo ∈ coachNeeds cfg0 1, cfgField cfg0 lo 64 ≠ 0) ∧
    (∃ lo ∈ coachNeeds 0x10201 1, cfgField 0x10201 lo 64 = 0) ∧ none ∉ (coachAreas cfg0 1 0).map (fun r => areaSlots (coached (some cfg0)) r.1 r.2) ∧
    areaSlots (coached (some cfg0)) 0xE000000000040000 4 = none ∧ tablePlaces (coached (some cfg0)) (coachTable cfg0 1 0) = .ok (coached (some cfg0), []) ∧
    ((coached (some cfg0)).coachCmds 0).length < 8 ∧ (∀ n ∈ List.range 32, (coached (some cfg0)).pend 0 n < 255) ∧
    ((coached (some cfg0)).charge (askOf (coached (some cfg0)).atIssue 0 1 0 4 1)).isSome = true ∧
    (coached (some cfg0)).mayReach 0 coachKey 0 = true ∧ (0x20010001 : Word).toNat % 2 ^ 14 = 1 ∧ (0x20010001 : Word).toNat / 2 ^ 16 % 2 ^ 14 = 0x2001 ∧
    (8192 < 0x2001) ∧ spaceOf 8 = 0 ∧ (4 : Word).toNat % 8 ≠ 0 :=
  by and_intros <;> first | decide +kernel | rfl
/-- The oldest command of the engine: a selection, a claim. -/
def cmd0 (func : Nat) (cfg : BitVec 512) (a : Word) : CCmd :=
  { core := 0, uid := 1, part := 1, acct := 0, sup := false, seq := 1, func := func, cfg := cfg, a := a, b := 0x10001, table := [], rmode := 0, seed := 0, slots := [0] }
/-- A selection that runs, one whose scores lie in no slot, one that a store holds; a claim at a counter in page 0. -/
theorem witness_StagecoachRuns : (match coachRun (cmd0 1 cfg0 0) small with | .ok x => (coachAsks small x.s (cmd0 1 cfg0 0)).all (coachServed small) | .error _ => false) = true ∧
    (match coachRun (cmd0 1 (cfg0 + BitVec.ofNat 512 (0x40000 * 2 ^ 128)) 0) small with | .error (.fail _ st a false) => st == 1 && a == 0xE000000000040000 | _ => false) = true ∧
    (match coachRun (cmd0 1 (cfg0 + BitVec.ofNat 512 (0x10 * 2 ^ 128)) 0) writing with | .error .blocked => true | _ => false) = true ∧
    (match coachAt paged (cmd0 8 0 8) true .atomic 8 with | .ok (t, p) => p == ⟨0x20008, 0, 0, true⟩ && t.bad == [] && !t.refused p.loc 8 && !p.awaits (paged.core 0) | .error _ => false) = true ∧
    (paged.core 0).mem.wbuf = [] ∧ (paged.core 0).uid = (cmd0 8 0 8).uid ∧ (paged.core 0).live = true := by decide +kernel
theorem witness_RankOrders : rankOrder ([0x3F800000, 0x7FC00000, 0x80000000, 0, 0x3F800000].map (decodeVal .f32)) = [0, 4, 2, 3, 1] := by decide +kernel

/-! Means. -/

/-- The small state with accumulator 7. -/
def meaned (m : MAcc) : State := vec0.upd (fun c => c.setM 7 m)
/-- A shape that is refused (a NaN), shape p = 1; FMODE with a lane that overflows; accumulators of one shape and of two; folds that fit and do not. -/
theorem witness_MeanSteps : isNan (decodeVal .f32 0x7FC00000) = true ∧ handled vec0 = true ∧ isNan (decodeVal .f32 (0x3F800000 % 2 ^ 32)) = false ∧
    ((meaned { cfg := 0x1003F800000 }).me.getM 7).fmode = true ∧ (∀ b, b < 64 → b ≠ 40 → (0x1003F800000 : Word).getLsbD b = (0x3F800000 : Word).getLsbD b) ∧
    (0x3F800000 : Word).getLsbD 0 ≠ (0x3F800001 : Word).getLsbD 0 ∧
    (foldLanes (shapeOf 0x3F800000) 7 ((List.range 128).map (fun _ => ({} : Lane))) none).2 = none ∧
    ((foldLanes (shapeOf 0x3F800000) 7 ((List.range 128).map (fun _ => ({ n := 2 ^ 31 } : Lane))) none).2).isSome = true := by decide +kernel
/-- A lane with room for a count and one without entries. -/
theorem witness_MeanArithmetic : ({} : Lane).e = 0 ∧ isNan (f32 0x3F800000) = false ∧ ({ n := 2 ^ 32 - 2 } : Lane).n < 2 ^ 32 - 1 ∧
    (let y := fp32 (addVal .rne (f32 0) (f32 0x3F800000)).1; y / 2 ^ 23 % 256 < 191) ∧ ({} : Lane).n = 0 ∧ ({ n := 1 } : Lane).n ≠ 0 ∧
    ([({ n := 5 } : Lane), { n := 6 }].map (fun x => x.n)).sum < 2 ^ 32 := by decide +kernel
/-- A mean that is a value and one that is a NaN; a save of one lane that packs and one that does not; a load; a table of zeros, whose headers are valid. -/
theorem witness_MeanMoves : (laneMean vec0.me (shapeOf 0x3F800000) {}).2 = 0 ∧ (laneMean vec0.me (shapeOf 0x3F800000) { s := 0x7FC00000, n := 1 }).2 ≠ 0 ∧
    vectorPlaces vec1 .store true 0xE000000000000040 8 [(0, 0xE000000000000040)] = .ok (vec1, [elem1]) ∧
    vectorPlaces vec1 .load true 0xE000000000000040 8 [(0, 0xE000000000000040)] = .ok (vec1, [elem1]) ∧
    activeList (vec1.getK (1 : BitVec 3)) 32 = [0] ∧ 2 ^ 24 ≤ ({ n := 2 ^ 24 } : Lane).n ∧ headerOk 0 0 = true ∧ headerOk 0 8256 = true ∧ headerOk (3 <<< 16) 0 = false :=
  by and_intros <;> first | decide +kernel | rfl
/-- A count of 0; an empty queue, without and with a request; an entry. -/
theorem witness_QueueMeans : small.getS (0 : BitVec 6) = 0 ∧ small.getS (1 : BitVec 6) ≠ 0 ∧ small.me.mail.rq = [] ∧ small.me.sched.preempt = false ∧
    (withSched (fun x => { x with preempt := true })).me.sched.preempt = true ∧ acquireOk small = true ∧
    (smallWith (fun c => { c with mail := { rq := [⟨0, 0, 0, 1⟩] } })).me.mail.rq = [⟨0, 0, 0, 1⟩] := by decide +kernel

/-! Exchange. -/

/-- Core 0 with a message in its port, in a caravan of cores 0 and 1, of which core 1 is at `r1`. -/
def ported (p : Option PortMsg) (r1 : Run) (h1 : Hold) : State :=
  ((smallWith (fun c => { c with mail := { port := p } })).setCaravan 3 (some { disp := 7, num := 0, size := 2, part := 1, own := 1, acct := 0, cores := [0, 1], vcc := 5 })).setCore 1
    { core0 with sched := { run := r1, task := some { task0 with uid := 2, lin := 1, rank := 1 }, hold := h1 } }
/-- Slot 7 is not reached, slot 5 is; ranks 1 and 15; a receiver that has ended, one that waits beyond, an empty port; messages of the slot, of an earlier and a later
one; members that can send and that cannot. -/
theorem witness_TimedExchange : (ported none .running .free).vcc.toNat < ((ported none .running .free).getS (2 : BitVec 6)).toNat ∧
    ((ported none .running .free).getS (1 : BitVec 6)).toNat ≤ (ported none .running .free).vcc.toNat ∧ [0, 1].length ≤ 15 ∧ (ported none .running .free).staleRank = none ∧
    ((ported none .finished .free).core 1).sched.run = .finished ∧ ((ported none .running (.timed 9 false none)).core 1).heldAbove 5 = true ∧
    sendConflict (ported none .running .free) 5 1 none = false ∧ (ported none .running .free).me.vbusy 31 = false ∧
    (ported (some ⟨1, 5, 1, false⟩) .running .free).me.mail.port = some ⟨1, 5, 1, false⟩ ∧ (4 : Word).toNat < (5 : Word).toNat ∧
    ((ported none .running .free).core 1).sched.run ≠ .finished ∧ ((ported none .running .free).core 1).heldAbove 5 = false ∧ (ported none .running .free).strict = false ∧
    (ported none .running .free).myCar.isSome = true := by decide +kernel
/-- No core under an index; a core that does not run, one whose queue is full, one with room; entries. -/
theorem witness_ReceiveQueues : small.physOf 1 4 = none ∧ giving.physOf 1 1 = some 1 ∧ (giving.core 1).sched.run = .running ∧ (giving.core 1).mail.rq.length < 16 ∧
    giving.me.drained = true ∧ 16 ≤ (List.replicate 16 (⟨0, 0, 0, 1⟩ : QEntry)).length ∧ small.physOf 1 2 = some 2 ∧ (small.core 2).sched.run = .idle ∧
    writing.me.drained = false ∧ acquireOk small = true := by decide +kernel
/-- A group of two members in pages 0 and 2, in a state with page tables; s1 names its first byte. -/
def group0 (absent : Bool) : Group := { base := 0, size := 512, dlid := 9, members := [⟨absent, 0, some 0⟩, ⟨false, 0x20000, none⟩], lost := [] }
def grouped (g : Group) (h : Hold) : State :=
  ((paged.setPart 1 (some { part1 with root := 0x10000, groups := [(2, some g)] })).upd (fun c => c.setS 1 0)).upd (fun c => c.sch (fun x => { x with hold := h }))
theorem witness_Groups : GroupIs (grouped (group0 false) .free) 0 2 (group0 false) ∧ (grouped (group0 false) .free).hold = .free ∧
    (match membersAt (group0 false) .load 0 (group0 false).members.zipIdx (grouped (group0 false) .free) [] with
      | .all _ ps => ps == [[⟨0x20000, 512, 0⟩], [⟨0x30000, 512, 0⟩]] | _ => false) = true ∧
    (match membersAt (group0 true) .store 0 (group0 true).members.zipIdx (grouped (group0 true) .free) [] with | .absent _ 0 => true | _ => false) = true ∧
    firstLost (grouped (group0 false) .free) 2 [some (0, 1), none] = none ∧ firstLost (grouped { group0 false with lost := [1] } .free) 2 [some (0, 1), none] = some 1 ∧
    (grouped (group0 false) .free).interlock 0 0 511 = .go ∧ (grouped (group0 false) .free).me.storesDone = true ∧ acquireOk (grouped (group0 false) .free) = true ∧
    badPiece (grouped (group0 false) .free) [⟨0x20000, 512, 0⟩] = none ∧ ((grouped (group0 false) .free).chargeList (pieceAsks (grouped (group0 false) .free) [⟨0x20000, 512, 0⟩])).isSome = true ∧
    (grouped (group0 false) .free).me.readable ⟨0x20000, 0, none⟩ 512 = true ∧
    (grouped (group0 false) (.ldred 2 [[], []] [] [0, 0] 0)).hold = .ldred 2 [[], []] [] [0, 0] 0 ∧ (∀ i, i < 64 → (redLane [0, 0] i).isSome = true) ∧
    redLane [0x3F800000 * 2 ^ 32 + 2 ^ 24 - 1, 0x3F80000000000001] 0 = none ∧
    badPiece { grouped (group0 false) .free with bad := [(0x20000, true)] } [⟨0x20000, 512, 0⟩] = some 0 ∧ ((grouped (group0 false) .free).base (1 : BitVec 6)).toNat % 64 = 0 ∧
    (grouped (group0 false) (.stmc 2 [] none)).hold = .stmc 2 [] none ∧ handled (grouped (group0 false) .free) = true ∧ spaceOf 0x1000000000000000 ≠ 0 := by
  refine ⟨⟨by decide, by decide, _, rfl, by decide +kernel, by decide +kernel, by decide, by decide, fun k h m _ _ => by simpa [grouped, paged] using m⟩, ?_⟩
  and_intros <;> decide +kernel
theorem witness_ChunkFlags : (small.base (4 : BitVec 6)).toNat % 8 = 0 ∧ locate small 0 false .load (small.base (4 : BitVec 6)) = .ok (small, place0) ∧ acquireOk small = true ∧
    loadReady (acquireView small place0 8 3) (small.base (4 : BitVec 6)) place0 8 = true ∧ small.me.mem.wbuf = [] := ⟨by decide +kernel, rfl, by decide +kernel, by decide +kernel, rfl⟩

/-! The distributor. -/

/-- Queue 255 of partition 1 with launch 7, account 0 of 16 cores, the core table given. -/
def distributing (sel : List Pick) (tab : List (Option Nat)) (pw : Word) : State :=
  { small with
    queues := [(255, { owner := some 1, pkts := [7] })]
    parts := [(1, some { part1 with accts := [(0, 16)], table := tab })]
    disps := [(7, some { pkt := { pkt7 with pwtab := pw, entry := 0x2000 }, queue := 255, sup := false, picks := sel })] }
theorem witness_Selections : Sparse.wf {} (distributing [] [] 0).queues = true ∧ (∀ e ∈ (distributing [] [] 0).queues, e.1 < 256) ∧
    (selectQueue (distributing [] [] 0)).map (fun x => (x.q, x.did)) = some (255, 7) ∧ ((distributing [] [] 0).disp 7).isSome = true ∧ choices small = [] := by decide +kernel
/-- A core that is free and none; no window table, and one that cannot be read. -/
theorem witness_Binds : ((distributing [⟨1, 1, 0⟩] [some 0, some 1] 0).disp 7).map (fun d => d.picks.head?) = some (some ⟨1, 1, 0⟩) ∧
    (findCluster (distributing [⟨1, 1, 0⟩] [some 0] 0) 1 { part1 with table := [some 0] } 1 0) = none ∧
    (findCluster (distributing [⟨1, 1, 0⟩] [some 0, some 1] 0) 1 { part1 with table := [some 0, some 1] } 1 0) = some (0, [1]) ∧
    (readWindows (distributing [⟨1, 1, 0⟩] [some 0, some 1] 0) 1 0).isSome = true ∧ (readWindows (distributing [⟨1, 1, 0⟩] [some 0, some 1] 0x40) 1 0x40) = none ∧
    yardMay (distributing [⟨1, 1, 0⟩] [some 0, some 1] 0) 1 0 = true ∧ part1.killing = false := by decide +kernel
theorem witness_Retirements : (withSched (fun x => { x with run := .done })).me.sched.task.isSome = true ∧ small.me.sched.run ≠ .done ∧
    issuedDone (withSched (fun x => { x with run := .done })) 0 = true ∧ handsResolved (withSched (fun x => { x with run := .done })) 0 = true ∧
    mayWithdraw (withSched (fun x => { x with run := .done })) 0 0 = true := by decide +kernel
/-- A rotation of two gangs whose tick has come; partition 1 runs and its caravan is not saved, or is. -/
def rotating (dl : Option Word) (m : Nat) (st : CarState) : State :=
  { small.setCaravan 3 (some { disp := 7, num := 0, size := 1, part := 1, own := 1, acct := 0, cores := [0], st := st }) with
    time := 9
    rots := [(1, some { clusters := [0], gangs := [{ parts := [1], misses := m }, { parts := [2] }], tick := 5, next := 9, deadline := dl, into := 1 })] }
theorem witness_Rotations : (gangCaravans (rotating none 0 .running) { parts := [1] }).map (fun c => c.2.st) = [.running] ∧
    (gangCaravans (rotating (some 9) 0 .saved) { parts := [1] }).map (fun c => c.2.st) = [.saved] ∧ ((rotating none 0 .running).rot 1).map (fun r => (r.deadline, r.next)) = some (none, 9) ∧
    ((rotating (some 10) 2 .running).rot 1).map (fun r => (r.deadline, (r.gang 0).misses)) = some (some 10, 2) ∧ (rotating none 0 .running).time = 9 ∧
    ((rotating none 0 .running).part 1).map (fun x => x.killing) = some false ∧ (rotating none 0 .running).launches 1 ≠ [] ∧ (rotating none 0 .running).launches 2 = [] ∧
    (255 < 256 ∧ 1 ≤ 256 ∧ 256 ≤ 256) := by decide +kernel
/-- What the caravan of core 0 keeps: nothing before its save. -/
def keptBy (run : Run) : List Saved := if run = .point ∨ run = .running then [] else [{ rank := 0, task := task0, live := ⟨0, 0, 0, 0, []⟩, mail := {}, sc := {} }]
/-- Core 0 at its point with a table of zeros in page 2, its record in page 0; then its caravan saved, and with wagons that are clear. -/
def pointed (run : Run) (st : CarState) (out : Bool) : State :=
  { paged with
    cores := [(0, { core0 with hitch := [], sched := { run := run, task := if run = .idle then none else some task0, lrt := some 0x20000 } })]
    parts := [(1, some { part1 with root := 0x10000, out := out })]
    caravans := [(3, some { disp := 7, num := 0, size := 1, part := 1, own := 1, acct := 0, cores := [0], st := st, saved := keptBy run })] }
/-- Its caravan. -/
def pointedCar (run : Run) (st : CarState) (out : Bool) : Caravan := ((pointed run st out).caravan 3).getD { disp := 0, num := 0, size := 0, part := 0, own := 0, acct := 0, cores := [] }
theorem witness_Contexts : toSave (pointed .point .running true) (pointedCar .point .running true) = [0] ∧
    memberReady (pointed .point .running true) 0 = true ∧ memberReady (pointed .running .running true) 0 = false ∧
    (let r := readLives (pointed .point .running true) [0]
     r.2.2 = true ∧ (match writeRecords (pointedCar .point .running true) r.2.1 r.1 with | .ok v => !lateNow v 1 | .error _ => false) = true) ∧
    [0].Nodup ∧ lateNow { pointed .point .running true with rots := [(0, some { clusters := [0], gangs := [{ parts := [1] }], tick := 5, deadline := some 0 })] } 1 = true := by
  decide +kernel
/-- A caravan that stays, one without and one with room, one whose wagons are clear. -/
theorem witness_Restores : ((pointed .idle .saved true).caravan 3).map (fun c => c.st) = some .saved ∧
    recordsReadable (recordWalk (pointed .idle .saved false) (pointedCar .idle .saved false)) (pointedCar .idle .saved false) = true ∧
    coresBack (recordWalk (pointed .idle .saved false) (pointedCar .idle .saved false)) (pointedCar .idle .saved false) = true ∧
    coresBack (pointed .running .saved false) (pointedCar .idle .saved false) = false ∧
    recordsReadable (recordWalk { pointed .idle .saved false with mem := [] } (pointedCar .idle .saved false)) (pointedCar .idle .saved false) = false ∧
    slotsToFill (pointed .idle .saved false) 1 0 = [] ∧ ((pointed .idle .saved false).cluster 0).freeCount ≠ 0 ∧
    poolRoom (pointed .idle .saved false) 1 (fun q => ((pointed .idle .saved false).cluster 0).held q) 1 0 = true ∧
    ((pointedCar .idle .saved false).kept.map (fun e => e.1)) = [0] ∧
    recordsReadable (recordWalk (pointed .binding .restoring false) (pointedCar .binding .restoring false)) (pointedCar .binding .restoring false) = true ∧
    wagonsClear (recordWalk (pointed .binding .restoring false) (pointedCar .binding .restoring false)) (pointedCar .binding .restoring false) = true ∧
    wagonsClear { pointed .binding .restoring false with cores := small.cores, clusters := [(0, { wagons := [(5, { prec := some 1, yard := .zeroing })] })] }
      (pointedCar .binding .restoring false) = false := by decide +kernel
/-- The state with page 0 in the TLB of cluster 0, its leaf with A and D set. -/
def cachedPage : State := { paged with mem := [], clusters := [(0, { tlb := [⟨1, 0, 65536, 0x200DF, 0x16000⟩] })] }
/-- A translation that is held answers with the state as it is, whatever the memory; fields that lie side by side. -/
theorem witness_ContextRecords : (∀ m, translate { cachedPage with mem := m } (clusterOf 0) 1 true .store (8 + 16) = .ok ({ cachedPage with mem := m }, ⟨0x20018, 0, 0, 0⟩)) ∧
    cachedPage.owns 1 0x20018 = true ∧ cachedPage.bad = [] ∧ [(⟨16, 8, 7⟩ : RecField), ⟨24, 2, 9⟩].Pairwise (fun f h => f.off + f.n ≤ h.off ∨ h.off + h.n ≤ f.off) ∧
    (small.core 0).mail.inbox.length ≤ 64 ∧ (small.core 0).mail.rq.length ≤ 16 :=
  ⟨fun _ => rfl, by and_intros <;> first | decide +kernel | rfl⟩

/-! Driver and interface. -/

/-- A driver command: OP, partition, CADDR. -/
def cmdOf (op part addr : Nat) : BitVec 512 := BitVec.ofNat 512 (op + part * 2 ^ 8 + addr * 2 ^ 448)
/-- The small state with host-side state. -/
def hosted (h : HostSide) : State := { small with host := h }
theorem witness_Kills : small.part 1 = some part1 ∧ small.host.tdisp = .unlocked ∧ small.host.cmds = [] ∧ coresOf small 1 = [0] ∧ small.tagOf 1 = 1 ∧ (small.core 0).mem.wbuf = [] ∧
    (writing.core 0).mem.wbuf ≠ [] ∧ ((small.setPart 1 (some { part1 with killing := true })).part 1).map (fun x => x.killing) = some true := by decide +kernel
/-- CADDR 16 and 8; another command of the partition; each state of the interface; partitions 63 and 64; each OP with and without what it needs. -/
theorem witness_DriverCommands : cmdAddr (cmdOf 1 63 16) % 16 = 0 ∧ cmdAddr (cmdOf 9 63 8) % 16 ≠ 0 ∧ cmdPart (cmdOf 1 63 16) = 63 ∧ 64 ≤ cmdPart (cmdOf 2 64 16) ∧
    cmdOp (cmdOf 9 63 8) = 9 ∧ DriverForm 9 (cmdOf 9 63 8) (.alloc (cmdOf 9 63 8)) ∧ runsNow small (cmdOf 1 63 16) ∧ small.tagOf 1 = 1 ∧ small.part 1 = some part1 ∧
    (hosted { cmds := [{ pkt := cmdOf 3 63 0 }] }).host.cmds.map (fun c => cmdPart c.pkt) = [63] ∧ (hosted { tdisp := .locked }).host.tdisp = .locked ∧
    small.host.featSet ≠ 3 ∧ (hosted { featSet := 3 }).host.featSet = 3 ∧ (hosted { featSet := 3 }).launches 63 = [] ∧ describe (hosted { featSet := 3 }) 0 63 = none ∧
    small.feature 7 = false ∧ (hosted { bar0 := { featAcc0 := 128 } }).feature 7 = true ∧ pktField (cmdOf 7 0 0) 16 4 ≤ 6 ∧ small.dispatching = false ∧
    (small.setDisp 7 (some { pkt := pkt7, queue := 0, sup := false, boundC := 1 })).dispatching = true ∧ pktField (cmdOf 8 0 0) 64 64 % 65536 = 0 ∧
    pktField (cmdOf 8 0 0) 64 64 / 65536 + pktField (cmdOf 8 0 0) 128 32 ≤ 8789062 := by
  unfold runsNow
  and_intros <;> first | decide +kernel | simp [DriverForm]
/-- A descriptor at address 0: PART 3, one core, entry 0 of its core table core 5. -/
theorem witness_DriverCommands_pset : (describe { hosted { featSet := 3 } with mem := [(0, 5), (1, 0x80), (0x30, 1), (0x32, 3)] } 0 3).map (fun x => (x.1, x.2.table)) =
    some (3, [some 5]) := by decide +kernel
/-- The first and the second of two commands of partition 63; a started one that is ready; a queued frame; a record with room in the ring and without. -/
theorem witness_DriverSteps : (let s := hosted { cmds := [{ pkt := cmdOf 3 63 0, started := true }, { pkt := cmdOf 3 63 16 }] }
     oldest s 0 = true ∧ oldest s 1 = false ∧ cmdReady s { pkt := cmdOf 3 63 0, started := true } = true ∧
       cmdReady writing { pkt := cmdOf 3 63 0, started := true, wait := [(0, 1)] } = false ∧ cmdOp (cmdOf 3 63 0) ∉ [2, 9] ∧ cmdOp (cmdOf 2 63 0) = 2) ∧
    (cmdReady { hosted {} with frames := { clean := [(5, 1)] } } { pkt := cmdOf 9 1 0, started := true } = true) ∧ cmdAddr (cmdOf 9 1 0) + 8 ≤ 8 ∧
    ({ small with frames := { scrub := [(5, 1)] } } : State).frames.scrub = [(5, 0 + 1)] ∧ Memory.wf small.mem = true ∧
    (hosted { held := [⟨1, 2⟩], bar0 := { fqSize := 1 } }).host.held = [⟨1, 2⟩] ∧ (1 : Word) ≠ 0 ∧ (0 : Word) - 0 ≠ 1 ∧ (1 : Word) - 0 = 1 := by decide +kernel
theorem witness_Interface : (hosted {}).host.tdisp = .unlocked ∧ (hosted { tdisp := .locked }).host.tdisp = .locked ∧ (hosted { tdisp := .run }).host.stopping = false ∧
    (hosted { tdisp := .run, stopping := true }).host.stopping = true ∧ (hosted { tdisp := .error }).host.tdisp = .error ∧ 0x38 ∉ [0x10, 0x18, 0x20, 0x28, 0x30, 0x58, 0x60] := by decide
/-- An access to the last 8 bytes of HBM; one beyond, one unaligned, one outside an IDE stream; a peer that is refused, one that is paired; a flag that
waits for its chunk. -/
theorem witness_OutsideRequests : 575999999992 % 8 = 0 ∧ ¬(576000000000 < 575999999992 + 8) ∧ small.hasBad 575999999992 8 = false ∧ small.bad = [] ∧
    small.feature 2 = false ∧ paired small 1 0 0 = false ∧ attachedTo small 0 6 = none ∧
    (let s := { paged with parts := [(1, some { part1 with root := 0x10000, peer := List.replicate 24 1 })] }
     let r : PeerReq := { port := 0, remote := 1, part := 1, wagon := false, addr := 8, write := true, val := 7 }
     (match peerPlace s r with | .ok (u, loc, p) => loc == 0x20008 && p == 1 && u.bad.isEmpty | .error _ => false) = true ∧
     (match peerPlace s { r with addr := 0x30000, write := false } with | .ok _ => false | .error _ => true) = true ∧ flagReady s r = true ∧ s.host.flags = [] ∧
     flagReady s { r with flag := some (4, [64]) } = false) := by decide +kernel
theorem witness_ManagementLimits : (hosted {}).host.tdisp = .unlocked ∧ (hosted { tdisp := .run }).host.tdisp ≠ .unlocked ∧ (∀ e ∈ (hosted {}).host.dma, ¬(e.2 ≤ 0 ∧ 0 < e.2 + 4096)) ∧
    (∃ e ∈ (hosted { dma := [(0, 4096)] }).host.dma, e.2 ≤ 8191 ∧ 8191 < e.2 + 4096) ∧ 575999999992 + 8 ≤ 576000000000 ∧ (hosted { held := [⟨1, 2⟩] }).host.held[0]? = some ⟨1, 2⟩ := by
  decide +kernel
/-- Feature 6 off and on; a timebase that is locked; route 27 working and failed; granules with and without an error, in HBM and in a wagon. -/
theorem witness_DeviceEvents : small.feature 6 = false ∧ (hosted { bar0 := { featAcc0 := 64 } }).feature 6 = true ∧ (hosted { bar0 := { tsync := true } }).host.bar0.tsync = true ∧
    small.host.bar0.tsync = false ∧ 27 ∉ small.routes ∧ 27 ∈ ({ small with routes := [27] } : State).routes ∧ Sparse.get false small.bad (granuleOf 64) = false ∧
    Sparse.get false ({ small with bad := [(64, true)] } : State).bad (granuleOf 95) = true ∧ 95 / 65536 ∉ small.frames.retired ∧
    Sparse.get false ({ small with bad := [(2 ^ 64 + 8, true)] } : State).bad (granuleOf (2 ^ 64 + 15)) = true ∧ ((small.cluster 0).wagon 0).retired = false := by decide +kernel
/-- A store to a frame of no owner; its report under way and arrived; a line of an owned frame. -/
theorem witness_StoreReports : (let s := smallWith (fun c => { c with mem := { c.mem with wbuf := [{ write0 with loc := 0x50000, slot := none }] } })
     (s.core 0).mem.wbuf.length = 1 ∧ (s.core 0).mem.late = [] ∧ (s.core 0).sched.dead = false ∧ 0x50000 < 2 ^ 64 ∧ s.owns 1 0x50000 = false) ∧
    (withSched (fun x => { x with pfWay := [8] })).me.sched.pfWay = [8] ∧ (withSched (fun x => { x with pfHere := [8] })).me.sched.pfHere = [8] ∧
    small.me.sched.run = .running ∧ small.hold = .free ∧ small.me.csr.tstat.getLsbD 1 = false ∧ small.me.csr.tvec ≠ 0 ∧
    small.me.sched.pfHere = [] ∧ (paged.core 0).sched.task.isSome = true ∧ paged.owns (paged.core 0).part (0x800 * 64) = true ∧ paged.hasBad (0x800 * 64) 64 = false ∧
    (paged.core 0).mem.rcache.length < 512 ∧ Sparse.wf none (paged.core 0).mem.rcache = true := by
  decide +kernel
/-- TIME may take a value, or a write is due; a caravan that runs, and one with a member held at this slot. -/
theorem witness_ClockTurns : mayPass small 1 = true ∧
    mayPass (smallWith (fun c => { c with mem := { c.mem with wbuf := [write0] } })) (2 ^ 60) = false ∧
    (small.caravan 3).map (fun c => (decide (c.st = .running), (small.cluster (clusterOf (c.cores.headD 0))).throttled, c.cores.all (fun g => !(small.core g).pauses c.vcc))) =
      some (true, false, true) ∧ ((withSched (fun x => { x with hold := .timed 0 false none })).core 0).pauses 0 = true := by decide +kernel

/-! The machine. -/

/-- Core 0 at 0x20FFC with a word there, in what its fetches see. -/
def fetching (w : Nat) : State :=
  paged.upd (fun c => { c with pc := 0x20FFC, mem := { c.mem with imem := [(0x30FFC, byteOf w 0), (0x30FFD, byteOf w 1), (0x30FFE, byteOf w 2), (0x30FFF, byteOf w 3)] } })
/-- ADD s3, s1, s2. -/
theorem witness_StepRunsDecoded : (fetching 0x04304200).me.sched.run = .running ∧ (fetching 0x04304200).me.sched.wantLease = [] ∧ (fetching 0x04304200).me.asyncTrap = none ∧
    (match fetchPlace (fetching 0x04304200) with | .ok (_, loc) => loc == 0x30FFC | .error _ => false) = true ∧
    Decode.bytes [0x00, 0x42, 0x30, 0x04] = .ok (⟨.add 3 1 2, false⟩, []) ∧ (fetching 0x04304200).me.busy (.add 3 1 2) = false ∧ (fetching 0x04304200).me.upsetRead (.add 3 1 2) = false ∧ (fetching 0).schedule = [] ∧
    (fetching 0).cur < 768 ∧ agentStep .frameScrub = true ∧ agentStep (.taskRetire 0) = true := by decide +kernel
/-- Words to fetch that are no instruction, or have a reserved field set in strict mode; fetches that fail: outside space 0, from a page of no owner, from
bad data; cores that issue nothing: done, waiting for a lease, held at a slot. -/
theorem witness_FetchTraps : (fetching 0).schedule = [] ∧ (fetching 0).me.sched.run = .running ∧ (fetching 0).me.sched.wantLease = [] ∧ (fetching 0).me.asyncTrap = none ∧
    (fetching 0).me.sched.hold = .free ∧ handled (fetching 0) = true ∧ (match fetchPlace (fetching 0) with | .ok (s1, loc) => loc == 0x30FFC && !s1.strict | .error _ => false) = true ∧
    (match Decode.word ((fetching 0).me.fetchWord 0x30FFC).toNat with | .ok _ => false | .error _ => true) = true ∧
    (match fetchPlace ((fetching 0xC4000103).setPart 1 (((fetching 0).part 1).map (fun x => { x with strict := true }))) with | .ok (s1, _) => s1.strict | .error _ => false) = true ∧
    Decode.word ((fetching 0xC4000103).me.fetchWord 0x30FFC).toNat = .ok ⟨.doneT, true⟩ ∧
    Decode.word ((fetching 0x04304200).me.fetchWord 0x30FFC).toNat = .ok ⟨.add 3 1 2, false⟩ ∧
    ((fetching 0x04304200).upd (fun c => { c with regs := { c.regs with upset := [1] } })).me.upsetRead (.add 3 1 2) = true := by decide +kernel
theorem witness_FetchTraps_fails : spaceOf ((fetching 0).upd (fun c => { c with pc := 0xE000000000000000 })).pc ≠ 0 ∧
    (match fetchPlace { fetching 0 with frames := {} } with | .ok _ => 0 | .error c => c) = 15 ∧
    (match fetchPlace { fetching 0 with bad := [(granuleOf 0x30FFC, true)] } with | .ok _ => 0 | .error c => c) = 11 ∧
    (withSched (fun x => { x with run := .done })).me.sched.run ≠ .running ∧ (withSched (fun x => { x with wantLease := [1] })).me.sched.wantLease ≠ [] ∧
    (withSched (fun x => { x with hold := .timed 5 false none })).me.sched.hold = .timed 5 false none := by decide +kernel
theorem witness_EncodeDecode : Instr.wf (.bfx 1 2 59 4) = true ∧ (Decode.encode (.bfx 1 2 59 4)).isSome = true := by decide
theorem witness_EveryStepGoesOn : (fetching 0).schedule = [] ∧ agentStep .frameScrub = true ∧ 767 < 768 := by decide +kernel
theorem witness_MemoryForm : Memory.wf paged.mem = true ∧ (match step paged with | .next _ => true | _ => false) = true := by decide +kernel

/-! Accesses that trap, walks, commands over windows. -/

/-- The small state with an error in the granule of s4. -/
def upsetAt (s : State) (loc : Nat) : State := { s with bad := [(granuleOf loc, true)] }
/-- A load and an atomic of bad data; an address that is not aligned; a slot that is empty; windows bound and not; event lines and channels. -/
theorem witness_AccessTraps : handled small = true ∧ (accessForm small (.ldw 3 4 1)).map (fun x => (x.1, x.2.1, x.2.2)) = some (.load, 0xE000000000000014, 4) ∧
    (accessForm small (.ldw 3 6 0)).map (fun x => x.2.1.toNat % x.2.2) = some 2 ∧ accessGate small (.ldw 3 4 1) = true ∧
    locate (withS 4 0xE000000000040000) 0 false .load 0xE000000000040000 = .error 5 ∧ locate paged 0 false .store 0x40000 = .error 2 ∧
    (upsetAt small place0.loc).badAt (place0.loc + 0) = true ∧ (upsetAt small place0.loc).me.mem.rcache = [] ∧ (upsetAt small place0.loc).me.giving = false ∧
    unheld (upsetAt small place0.loc) 0xE000000000000010 place0 8 = true ∧ accessForm small (.acas 3 4 1 0 0) = some (.atomic, 0xE000000000000010, 8) ∧
    storeReady (upsetAt small place0.loc) 0xE000000000000010 place0 8 = true ∧ (upsetAt small place0.loc).hasBad place0.loc 8 = true ∧
    ((windowed 4).window 3).bound = false ∧ ((windowed 8).base (5 : BitVec 6)).toNat < ((windowed 8).window 2).size.toNat ∧
    spaceOf 0xE800000000000C04 = 0xE8 ∧ (0xE800000000000C00 : Word).toNat % 2 ^ 56 / 64 = 48 ∧ ¬((0xEC00000000000400 : Word).toNat % 2 ^ 56 < 1024) ∧
    (coached (some cfg0)).me.sc.cfg = some cfg0 ∧ (coached (some cfg0)).coachCmds 0 = [] := by decide +kernel
theorem witness_AtomicRepairs : (atomicForm (upsetAt small place0.loc) (.aadd 3 4 1 0 0)).map (fun x => (x.1, x.2.1, x.2.2.1)) = some (3, 4, 0) ∧
    locate (upsetAt small place0.loc) 0 false .atomic (small.base (4 : BitVec 6)) = .ok (upsetAt small place0.loc, place0) ∧ 2 ^ 64 ≤ place0.loc ∧ place0.loc % 8 = 0 ∧
    (upsetAt small place0.loc).hasBad place0.loc 8 = true ∧ storeReady (upsetAt small place0.loc) (small.base (4 : BitVec 6)) place0 8 = true ∧
    orderReady (upsetAt small place0.loc) 0 true = true := by and_intros <;> first | decide +kernel | rfl
/-- A walk to the leaf of page 0, and a leaf that a TLB holds. -/
theorem witness_Translations_walk : (match locate paged 0 false .store 0x8 with | .ok (t, p) => p.loc == 0x20008 && t.bytes 0x16000 8 == 0x200DF | .error _ => false) = true ∧
    (match walkFrom paged 1 8 4 0x10000 with | .ok (e, a, l) => e == 0x200DF && a == 0x16000 && l == 1 | .error _ => false) = true ∧
    locate cachedPage 0 false .store 0x8 = .ok (cachedPage, ⟨0x20008, 0, none⟩) := ⟨by decide +kernel, by decide +kernel, rfl⟩
/-- Page tables whose level 4 entry points on, one beyond HBM, one of no owner; the leaves of pages 0 and 3, and one that no task may use. -/
theorem witness_TranslationFaults : paged.part 1 = some { part1 with root := 0x10000, peer := [255, 6] } ∧ (paged.cluster 0).tlb = [] ∧ Sparse.get [] paged.walks (dieOf 0) = [] ∧
    (walkFrom paged 1 0x40000 4 0x10000 matches .error 2) ∧ paged.owns 1 0x10000 = true ∧ paged.bytes 0x10000 8 % 2 = 1 ∧ pteField (paged.bytes 0x10000 8) 1 1 = 0 ∧
    pteField (paged.bytes 0x16000 8) 1 1 = 1 ∧ 576000000000 + 8 > Config.hbmBytes ∧ paged.owns 1 0x60000 = false ∧
    (match translate paged 0 1 false .load 0x30008 with | .ok (_, y) => y.region == 2 | .error _ => false) = true ∧ pteField 0x200DF 10 2 = 0 ∧ pteField 0x200DF 5 1 = 0 ∧
    pteField 0x200FF 5 1 = 1 := by decide +kernel
/-- Strict mode with the reserved code 7 of RMODE: an accumulator store, a conversion, a copy that converts. -/
theorem witness_ModeTraps_more : convRounds 0 1 = true ∧ (0x800000000000000 : Word).getLsbD 59 = true ∧
    modeOk (smallStrict.upd (fun c => c.updCsr (fun x => { x with rmode := 1 }))) = false := by decide +kernel
/-- Addresses of one slot name one byte only once. -/
theorem window_single {s : State} {g x y : Nat} (h : x / 2 ^ 18 = y / 2 ^ 18) (e : windowLoc s g x = windowLoc s g y) : x = y := by
  have : x % 2 ^ 18 = y % 2 ^ 18 := by
    simp only [windowLoc, locWagon, h] at e
    omega
  omega
/-- Ranges in the window of slot 0. -/
theorem slot0_windows {s : State} {c : CCmd} {l : List (Nat × Nat)} (h : ∀ r ∈ l, 0xE000000000000000 ≤ r.1 ∧ r.1 + r.2 ≤ 0xE000000000040000)
    (st : ((s.core c.core).slot 0).st = .attached) (ap : l.Pairwise (fun r q => r.1 + r.2 ≤ q.1 ∨ q.1 + q.2 ≤ r.1)) (bad : s.bad = [])
    (quiet : (s.core c.core).mem.wbuf = []) : CoachWindows s c l where
  window r m := by have := h r m; omega
  slots r m i b := by
    have := h r m
    rw [show (r.1 + i) / 2 ^ 18 % 32 = 0 by omega]
    exact st
  apart := ap
  single r m q n i j a b e := window_single (by have := h r m; have := h q n; omega) e
  sound := bad
  quiet := quiet
/-- A cluster whose stagecoach has a command. -/
def coachWith (c : CCmd) : State := (coached (some cfg0)).updCluster 0 (fun y => { y with coach := [c] })
theorem witness_SelectionEffects : ((coachWith (cmd0 1 cfg0 0)).cluster 0).coach = [cmd0 1 cfg0 0] ∧ cfgOk (coachWith (cmd0 1 cfg0 0)) cfg0 = true ∧
    CoachWindows (coachWith (cmd0 1 cfg0 0)) (cmd0 1 cfg0 0) [(cfgField cfg0 384 64, 4), (cfgField cfg0 128 64, 4)] ∧ cfgField cfg0 16 14 * cfgField cfg0 9 4 * 4 = 4 :=
  ⟨by decide +kernel, by decide +kernel, by apply slot0_windows <;> decide +kernel, by decide +kernel⟩
theorem witness_RoutingEffects : ((coachWith (cmd0 3 cfg0 0)).cluster 0).coach = [cmd0 3 cfg0 0] ∧ cfgOk (coachWith (cmd0 3 cfg0 0)) cfg0 = true ∧ cfgField cfg0 48 1 = 0 ∧
    CoachWindows (coachWith (cmd0 3 cfg0 0)) (cmd0 3 cfg0 0) [(cfgField cfg0 384 64, 4), (cfgField cfg0 448 64, 1028)] ∧
    CoachWindows (coachWith (cmd0 4 cfg0 0)) (cmd0 4 cfg0 0) [(cfgField cfg0 384 64, 4), (cfgField cfg0 448 64, 4)] :=
  ⟨by decide +kernel, by decide +kernel, by decide +kernel, by apply slot0_windows <;> decide +kernel,
    by apply slot0_windows <;> decide +kernel⟩
theorem witness_RowEffects : CoachWindows (coachWith (cmd0 5 cfg0 0)) (cmd0 5 cfg0 0) [(cfgField cfg0 384 64, 4), (cfgField cfg0 192 64, 16), (0xE000000000000600, 16)] ∧
    CoachWindows (coachWith (cmd0 6 cfg0 0xE000000000000700)) (cmd0 6 cfg0 0xE000000000000700)
      [(cfgField cfg0 384 64, 4), (cfgField cfg0 256 64, 4), (0xE000000000000700, 16)] ∧ cfgField cfg0 64 16 = 16 :=
  ⟨by apply slot0_windows <;> decide +kernel,
    by apply slot0_windows <;> decide +kernel, by decide +kernel⟩
/-- A cycle in which a later event has reached slot 0 of core 0: the core's own event waits. -/
theorem witness_HandOvers_order : (small.updCluster 0 (fun y => { y with order := [(slotKey 0 0, (1, 2))] })).mayReach 0 (slotKey 0 0) 0 = false ∧
    giving.mayReach 0 (slotKey 0 0) 0 = true ∧ giving.mayReach 0 (slotKey 1 5) 2 = true := by decide +kernel

/-! ### Single steps: the spec's worked examples and tables -/

/-- What an instruction leaves. -/
def after {α : Type} (i : Instr) (s : State) (f : State → α) : Option α := match exec i s with | .next t => some (f t) | _ => none
/-- Core 0 with two scalar operands. -/
def two (x y : Word) : State := smallWith (fun c => (c.setS 1 x).setS 2 y)

/-- Table 08-6. -/
theorem test_div : after (.div 3 1 2) (two (-7) 2) (fun t => (t.getS (3 : BitVec 6)).toInt) = some (-3) ∧
    after (.rem 3 1 2) (two (-7) 2) (fun t => (t.getS (3 : BitVec 6)).toInt) = some (-1) := by decide +kernel
theorem test_div_least : after (.div 3 1 2) (two 0x8000000000000000 (-1)) (fun t => t.getS (3 : BitVec 6)) = some 0x8000000000000000 ∧
    after (.divu 3 1 0) ((two 7 0).upd (fun c => c.updCsr (fun x => { x with dzt := 0 }))) (fun t => t.getS (3 : BitVec 6)) = some 0xFFFFFFFFFFFFFFFF := by decide +kernel
theorem test_mulh : after (.mulh 3 1 2) (two (-1) (-1)) (fun t => t.getS (3 : BitVec 6)) = some 0 ∧
    after (.mulhu 3 1 2) (two (-1) (-1)) (fun t => t.getS (3 : BitVec 6)) = some 0xFFFFFFFFFFFFFFFE := by decide +kernel
theorem test_count_shift : after (.clz 3 0) small (fun t => t.getS (3 : BitVec 6)) = some 64 ∧ after (.ctz 3 0) small (fun t => t.getS (3 : BitVec 6)) = some 64 ∧
    after (.shl 3 1 2) (two 5 65) (fun t => t.getS (3 : BitVec 6)) = some 10 := by decide +kernel
/-- Table 08-6: a division by zero traps with TCAUSE 8 although s0 discards the result; the handler is at TVEC + 128 * 8. -/
theorem test_div_trap : after (.div 0 1 0) small (fun t => (t.me.csr.tcause, t.me.csr.tepc, t.pc)) = some (8, 0x1000, 0x8400) := by decide +kernel
/-- SYSCALL 5: TCAUSE 13, TVAL 5, the handler at TVEC + 128 * 13 (R165, R259). -/
theorem test_syscall : after (.syscall 5) small (fun t => (t.me.csr.tcause, t.me.csr.tval, t.pc, t.me.csr.tstat)) = some (13, 5, 0x8680, 2) := by decide +kernel
/-- A branch back by 1024 words, taken and not (R154). -/
theorem test_branch : after (.brLt 8 1 1024) small (fun t => t.pc) = some 0 ∧ after (.brLtu 8 1 1024) small (fun t => t.pc) = some 0x1004 := by decide +kernel
/-- CALL leaves PC + 4 in s63 (R155). -/
theorem test_call : after (.call 2) small (fun t => (t.pc, t.getS (63 : BitVec 6))) = some (0x1008, 0x1004) := by decide +kernel
/-- A store enters the store buffer, the core's load sees it, memory does not (R78, R79). -/
theorem test_store : after (.std 1 4 0) small (fun t => (t.readNow place0 8, t.bytes place0.loc 8)) = some (5, 0) := by decide +kernel
/-- AADD returns the old value and adds at once (R162). -/
theorem test_aadd : after (.aadd 3 4 1 0 0) { small with mem := [(place0.loc, 7)] } (fun t => (t.getS (3 : BitVec 6), t.bytes place0.loc 8)) = some (7, 12) := by decide +kernel

/-- The example of R69: SRSEED 1 and the rounding mode SR, 0x3F808000 and 0x3F80F000 to BF16. -/
theorem test_sr : after (.vnarrow 3 2 0 0 1) ({ smallWith (fun c => (c.setV 2 0x3F80F0003F808000).updCsr (fun x => { x with rmode := 1, srseed := 1 })) with
      host := { bar0 := { featAcc0 := 32 } } }) (fun t => (elem (t.getV (3 : BitVec 5)) 16 0, elem (t.getV (3 : BitVec 5)) 16 1, srAdvance 2 1)) =
    some (0x3F80, 0x3F81, 0x100041060C011441) := by decide +kernel
/-- The example of R174: (1 + 2^-23)(1 - 2^-23) - 1 = -2^-46. -/
theorem test_vfma : after (.vfma 3 1 2 0 0) (smallWith (fun c => ((c.setV 1 0x3F800001).setV 2 0x3F7FFFFE).setV 3 0xBF800000)) (fun t => elem (t.getV (3 : BitVec 5)) 32 0) =
    some 0xA8800000 := by decide +kernel
/-- The example of R174: VEXP2.BF16 of 128 overflows, with OF and NX. -/
theorem test_vexp2 : after (.vexp2 5 5 0 1) (smallWith (fun c => c.setV 5 0x4300)) (fun t => (elem (t.getV (5 : BitVec 5)) 16 0, t.me.csr.fflags)) = some (0x7F80, 0x14) := by
  decide +kernel
/-- The examples of R175: 100 + 100 saturates at 127 with NV, or gives -56; a shift of a 4-bit element by 5 shifts by 1. -/
theorem test_viadds : after (.viadds 2 0 1 0 7) (smallWith (fun c => (c.setV 0 100).setV 1 100)) (fun t => (elem (t.getV (2 : BitVec 5)) 8 0, t.me.csr.fflags)) = some (127, 1) ∧
    after (.viadd 2 0 1 0 7) (smallWith (fun c => (c.setV 0 100).setV 1 100)) (fun t => elem (t.getV (2 : BitVec 5)) 8 0) = some 200 ∧
    after (.vishl 2 0 1 0 8) (smallWith (fun c => (c.setV 0 3).setV 1 5)) (fun t => elem (t.getV (2 : BitVec 5)) 4 0) = some 6 := by decide +kernel
/-- The example of R57: livery 0x08000104, element 1000 at byte 1000 with its scale at 0x2001F. -/
theorem test_livery : (spotOf 0x08000104 1000).byte = 1000 ∧ (spotOf 0x08000104 1000).scale = 0x2001F ∧ liveryValid small 0x08000104 = true := by decide +kernel
/-- The example of R282: a write to 0x1049ABCDE sets bit 2 of byte 8339 of the bitmap. -/
theorem test_dirty : ({ small with host := { bar0 := { featAcc0 := 128, dbBase0 := 0x100 } } }.markDirty 0x1049ABCDE).byte (0x100 + 8339) = 4 := by decide +kernel
/-- The score order of R223: ties by ascending index, a NaN last. -/
theorem test_order : rankOrder ([0xBF800000, 0x7FC00000, 0x3F800000, 0xBF800000].map (decodeVal .f32)) = [2, 0, 3, 1] := by decide +kernel
/-- BINIT of members 1, then an arrival that ends the phase (R195, R197). -/
theorem test_barrier : after (.barr 3 46) (barred { members := 1 }) (fun t => (t.getS (3 : BitVec 6), (t.caravan 3).map (fun c => c.bar 46))) =
    some (0, some { gen := 1, members := 1 }) := by decide +kernel
/-- A hand-over leaves the slot LEAVING and marks the target slot (R40). -/
theorem test_hand : after (.hand 3 0 2) giving (fun t => (t.getS (3 : BitVec 6), (t.me.slot 0).st, ((t.core 1).slot 5).inb)) = some (0, .leaving, true) := by decide +kernel
/-- A chunk copies the bytes (R205). -/
theorem test_chunk : after (.copyChunk 0 3) { copying [xfer3] with mem := [(locWagon 0 5 2, 9)] } (fun t => t.bytes (locWagon 0 5 0x100) 4) = some 0x90000 := by decide +kernel
/-- A step fetches and decodes the word (R143). -/
theorem test_step : (match step (fetching 0x04304200) with | .next t => some (t.getS (3 : BitVec 6), t.pc) | _ => none) = some (12, 0x21000) := by decide +kernel
/-- A word of zeros is no instruction: TCAUSE 1, TVAL the word (R147). -/
theorem test_step_bad : (match step (fetching 0) with | .next t => some (t.me.csr.tcause, t.me.csr.tval, t.pc) | _ => none) = some (1, 0, 0x8080) := by decide +kernel

end
end

