-- ==== Sys2Proof/Proofs/Branches.lean ====
section
/-!
PROOFS. BR.cond (R154): the effect of a branch, its word, and the statement on branches.
-/

namespace Sys2Proof.Machine
open Sys2Proof

/-! ### The effect of a branch -/

/-- The model's pc-relative address is the word offset of Table 07-20, as a number. -/
theorem pcRel_eq_target (s : State) {n : Nat} (i : BitVec n) : pcRel s i = target s i := by
  unfold pcRel target
  rw [← wordOf_sext, BitVec.shiftLeft_eq_mul_twoPow, mul_comm]
  unfold wordOf
  rw [BitVec.ofInt_add, BitVec.ofInt_mul, BitVec.ofInt_natCast, BitVec.ofNat_toNat, BitVec.setWidth_eq]
  rfl

/-- A branch goes to its target when its condition holds of the two registers, else to the next word, and changes nothing else (R154). -/
theorem branch_goes (c : Word → Word → Bool) (a b : BitVec 6) (off : BitVec 11) (s : State) :
    ∃ t, branch c a b off s = .next t ∧ OnlyGoes s t (if c (s.getS a) (s.getS b) then target s off else s.pc + 4) := by
  unfold branch
  split
  · exact ⟨_, rfl, pcRel_eq_target s off ▸ goes_goto s _⟩
  · exact ⟨_, rfl, goes_goto s _⟩

section
variable (a b : BitVec 6) (off : BitVec 11) (s : State)

theorem exec_brEq : exec (.brEq a b off) s = branch (fun x y => decide (x.toInt = y.toInt)) a b off s := by
  change branch (fun x y => x == y) a b off s = _
  simp only [BitVec.toInt_inj, Bool.beq_eq_decide_eq]
theorem exec_brNe : exec (.brNe a b off) s = branch (fun x y => decide (x.toInt ≠ y.toInt)) a b off s := by
  change branch (fun x y => !(x == y)) a b off s = _
  simp only [ne_eq, BitVec.toInt_inj, Bool.beq_eq_decide_eq, decide_not]
theorem exec_brLt : exec (.brLt a b off) s = branch (fun x y => decide (x.toInt < y.toInt)) a b off s := by
  change branch BitVec.slt a b off s = _
  simp only [← slt_eq]
theorem exec_brGe : exec (.brGe a b off) s = branch (fun x y => decide (x.toInt ≥ y.toInt)) a b off s := by
  change branch (fun x y => !x.slt y) a b off s = _
  simp only [slt_eq, ← decide_not, not_lt, ge_iff_le]
theorem exec_brLtu : exec (.brLtu a b off) s = branch (fun x y => decide (x.toNat < y.toNat)) a b off s := by
  change branch BitVec.ult a b off s = _
  simp only [← ult_eq]
theorem exec_brGeu : exec (.brGeu a b off) s = branch (fun x y => decide (x.toNat ≥ y.toNat)) a b off s := by
  change branch (fun x y => !x.ult y) a b off s = _
  simp only [ult_eq, ← decide_not, not_lt, ge_iff_le]

end

/-- Each of the six branches has the effect that its condition in `branchOf` gives it (R154). -/
theorem exec_goes_of_branchOf {i : Instr} {s : State} {c : Bool} {off : BitVec 11} (h : branchOf s i = some (c, off)) :
    ∃ t, exec i s = .next t ∧ OnlyGoes s t (if c then target s off else s.pc + 4) := by
  unfold branchOf at h
  split at h <;> cases h
  case h_1 a b => exact exec_brEq a b off s ▸ branch_goes _ a b off s
  case h_2 a b => exact exec_brNe a b off s ▸ branch_goes _ a b off s
  case h_3 a b => exact exec_brLt a b off s ▸ branch_goes _ a b off s
  case h_4 a b => exact exec_brGe a b off s ▸ branch_goes _ a b off s
  case h_5 a b => exact exec_brLtu a b off s ▸ branch_goes _ a b off s
  case h_6 a b => exact exec_brGeu a b off s ▸ branch_goes _ a b off s

/-- An 11-bit offset reaches from -1024 to +1023 words (R154). -/
theorem branch_reach (off : BitVec 11) : -1024 ≤ off.toInt ∧ off.toInt ≤ 1023 := by
  have lo := BitVec.le_toInt off
  have hi := BitVec.toInt_lt (x := off)
  omega

/-! ### The word of a branch -/

/-- A field of a word is the value that its bits hold. -/
theorem fld_eq {w lo n : Nat} {x : BitVec n} (h : w / 2 ^ lo % 2 ^ n = x.toNat) : Decode.fld w lo n = x :=
  BitVec.eq_of_toNat_eq (by simpa [Decode.fld] using h)

theorem parse_major08 {w : Nat} (h : w / 2 ^ 26 % 64 = 0x08) : Decode.parse w = Decode.decode08 w := by
  simp only [Decode.parse, h]

/-- The word of major 0x08 with its fields (Table 08-1). -/
def branchWord (a b : BitVec 6) (cond : BitVec 3) (off : BitVec 11) : Nat :=
  0x08 * 2 ^ 26 + a.toNat * 2 ^ 20 + b.toNat * 2 ^ 14 + cond.toNat * 2 ^ 11 + off.toNat

section
variable (a b : BitVec 6) (cond : BitVec 3) (off : BitVec 11)

theorem branchWord_major : branchWord a b cond off / 2 ^ 26 % 64 = 0x08 := by unfold branchWord; omega
/-- The condition code is bits [13:11]; the divisor 2 ^ 11 is written as `simp` leaves it. -/
@[simp] theorem branchWord_cond : branchWord a b cond off / 2048 % 8 = cond.toNat := by unfold branchWord; omega
@[simp] theorem branchWord_fld_a : Decode.fld (branchWord a b cond off) 20 6 = a := fld_eq (by unfold branchWord; omega)
@[simp] theorem branchWord_fld_b : Decode.fld (branchWord a b cond off) 14 6 = b := fld_eq (by unfold branchWord; omega)
@[simp] theorem branchWord_fld_off : Decode.fld (branchWord a b cond off) 0 11 = off := fld_eq (by unfold branchWord; omega)

end

/-- A row without reserved fields, of an instruction without a check of its own, decodes to that instruction. -/
theorem word_of_plain_row {w : Nat} {i : Instr} (row : Decode.parse w = some ⟨i, []⟩) (plain : Decode.relax i = (i, []))
    (wf : i.wf = true) : Decode.word w = .ok ⟨i, false⟩ := by
  simp [Decode.word, row, plain, wf, Decode.zeros]

theorem word_of_no_row {w : Nat} (h : Decode.parse w = none) : Decode.word w = .error .unassigned := by
  simp [Decode.word, h]

/-- The word of a branch decodes by its condition code; the codes 6 and 7 are unassigned (R154). -/
theorem word_branchWord (a b : BitVec 6) (cond : BitVec 3) (off : BitVec 11) : Decode.word (branchWord a b cond off) = match cond.toNat with
    | 0 => .ok ⟨.brEq a b off, false⟩
    | 1 => .ok ⟨.brNe a b off, false⟩
    | 2 => .ok ⟨.brLt a b off, false⟩
    | 3 => .ok ⟨.brGe a b off, false⟩
    | 4 => .ok ⟨.brLtu a b off, false⟩
    | 5 => .ok ⟨.brGeu a b off, false⟩
    | _ => .error .unassigned := by
  have row := parse_major08 (branchWord_major a b cond off)
  split
  case h_7 h0 h1 h2 h3 h4 h5 =>
    refine word_of_no_row (row.trans ?_)
    have codes : cond.toNat = 6 ∨ cond.toNat = 7 := by
      have := cond.isLt
      grind
    obtain h | h := codes
    · simp [Decode.decode08, h]
    · simp [Decode.decode08, h]
  all_goals
    rename_i h
    exact word_of_plain_row (row.trans (by simp [Decode.decode08, h])) rfl rfl

/-- Settles O2: the six branches one by one, and the word of a branch by its condition code. -/
theorem branches : Obligations.Branches :=
  ⟨fun _ _ _ off h => ⟨exec_goes_of_branchOf h, branch_reach off⟩, fun a b off cond => word_branchWord a b cond off⟩

end Sys2Proof.Machine
end

