-- ==== Sys2Proof/Proofs/TrapReturns.lean ====
section
/-!
PROOFS. TRET (R166): the three ends of a trap return, and the statement on trap returns.
-/

namespace Sys2Proof.Machine
open Sys2Proof

/-- A core after TRET: NEST cleared, and a supervisor at the privilege of PPRIV (R166). -/
def Core.resumed (c : Core) : Core :=
  { c with sup := if c.sup then c.csr.tstat.getLsbD 0 else c.sup, csr := { c.csr with tstat := c.csr.tstat &&& ~~~2 } }

theorem Core.resumed_sup (c : Core) : c.resumed.sup = (c.sup && c.csr.tstat.getLsbD 0) := by
  change (if c.sup then c.csr.tstat.getLsbD 0 else c.sup) = _
  cases c.sup <;> rfl
theorem Core.resumed_csr (c : Core) : c.resumed.csr = { c.csr with tstat := c.csr.tstat &&& ~~~2 } := rfl

/-- What TRET changes beside the program counter is the privilege and the CSRs. -/
theorem keeps_resumed (s : State) : Keeps s (s.upd Core.resumed) s.cur [.sup, .csrs] [] :=
  keeps_upd s _ _ (fun p hp => by cases p <;> simp_all [Core.same, Core.resumed])

theorem exec_tret (s : State) : exec .tret s = finish s (trapReturn s) := rfl

section
variable {s : State}

theorem trapReturn_unaligned (h : s.me.csr.tepc.toNat % 4 ≠ 0) : trapReturn s = .trap 4 s.me.csr.tepc := if_pos h

theorem trapReturn_to_supervisor (h : s.me.csr.tepc.toNat % 4 = 0) (task : s.me.sup = false) (up : s.me.csr.tstat.getLsbD 0 = true) :
    trapReturn s = .trap 3 0 := by
  unfold trapReturn
  rw [if_neg (not_not_intro h), if_pos (by simp only [task, up, Bool.not_false, and_self])]

theorem trapReturn_resumes (h : s.me.csr.tepc.toNat % 4 = 0) (ok : s.me.sup = true ∨ s.me.csr.tstat.getLsbD 0 = false) :
    trapReturn s = .ok ((s.upd Core.resumed).goto s.me.csr.tepc) := by
  have allowed : ¬((!s.me.sup) = true ∧ s.me.csr.tstat.getLsbD 0 = true) := by
    rintro ⟨task, up⟩
    obtain super | down := ok
    · rw [super] at task; cases task
    · rw [down] at up; cases up
  unfold trapReturn
  rw [if_neg (not_not_intro h), if_neg allowed]
  rfl

end

/-- Settles O6: the two checks trap, and what passes both resumes at TEPC. -/
theorem trapReturns : Obligations.TrapReturns := by
  refine fun s => ⟨fun odd hh => ?_, fun al task up hh => ?_, fun al ok => ?_⟩
  · rw [exec_tret, trapReturn_unaligned odd]
    exact finish_trap s 4 _ hh (by decide)
  · rw [exec_tret, trapReturn_to_supervisor al task up]
    exact finish_trap s 3 0 hh (by decide)
  · rw [exec_tret, trapReturn_resumes al ok]
    refine ⟨_, rfl, by simp, by simp [Core.resumed_sup], by simp [Core.resumed_csr], ?_⟩
    exact ((keeps_resumed s).trans (keeps_goto _ _)).weaken (by simp) (by simp)

end Sys2Proof.Machine
end

