-- ==== Sys2Proof/Proofs/VectorIntegers.lean ====
section
/-!
PROOFS. Integer, logic, permute, selection and move instructions of vectors (R170, R175 to R179, R191): each operation of the model on one element,
and the statement on the instructions.
-/

namespace Sys2Proof.Machine
open Sys2Proof

/-! ### Elements as two's complement integers -/

/-- The model's signed value of w bits is that of the bit vector. -/
theorem intOf_eq_toInt (w x : Nat) : intOf w x = (BitVec.ofNat w x).toInt := by
  have half : x % 2 ^ w < 2 ^ (w - 1) ↔ 2 * (x % 2 ^ w) < 2 ^ w := by
    cases w with
    | zero => simp [Nat.mod_one]
    | succ n => rw [Nat.add_sub_cancel, Nat.pow_succ]; omega
  simp only [intOf, BitVec.toInt, BitVec.toNat_ofNat, half]

theorem intBits_eq_bitsOf (w : Nat) (z : Int) : intBits w z = bitsOf w z := by simp [intBits, bitsOf]

theorem bitsOf_lt (w : Nat) (z : Int) : bitsOf w z < 2 ^ w := BitVec.isLt _

/-- The bits of an integer are those of any natural number in the same class modulo 2^w. -/
theorem bitsOf_eq_mod {w n : Nat} {z : Int} (h : BitVec.ofInt w z = BitVec.ofNat w n) : bitsOf w z = n % 2 ^ w := by
  rw [bitsOf, h, BitVec.toNat_ofNat]

theorem bitsOf_toInt (w x : Nat) : bitsOf w (BitVec.ofNat w x).toInt = x % 2 ^ w := bitsOf_eq_mod BitVec.ofInt_toInt

/-! ### The operations on one element (Tables 09-4 to 09-6) -/

section
variable {w x y : Nat}

theorem add_lane (w x y : Nat) : (x + y) % 2 ^ w % 2 ^ w = bitsOf w ((BitVec.ofNat w x).toInt + (BitVec.ofNat w y).toInt) := by
  rw [Nat.mod_mod]
  exact (bitsOf_eq_mod (by simp [BitVec.ofInt_add, BitVec.ofNat_add])).symm

theorem sub_lane (hy : y < 2 ^ w) : (x + 2 ^ w - y) % 2 ^ w % 2 ^ w = bitsOf w ((BitVec.ofNat w x).toInt - (BitVec.ofNat w y).toInt) := by
  rw [Nat.mod_mod]
  refine (bitsOf_eq_mod ?_).symm
  have diff : BitVec.ofInt w ((BitVec.ofNat w x).toInt - (BitVec.ofNat w y).toInt) = BitVec.ofNat w x - BitVec.ofNat w y :=
    BitVec.eq_of_toInt_eq (by simp [BitVec.toInt_sub])
  rw [diff, sub_eq_iff_eq_add, ← BitVec.ofNat_add, Nat.sub_add_cancel (by omega)]
  exact BitVec.eq_of_toNat_eq (by simp)

theorem mul_lane (w x y : Nat) : x * y % 2 ^ w % 2 ^ w = bitsOf w ((BitVec.ofNat w x).toInt * (BitVec.ofNat w y).toInt) := by
  rw [Nat.mod_mod]
  exact (bitsOf_eq_mod (by simp [BitVec.ofInt_mul, BitVec.ofNat_mul])).symm

theorem mad_lane (w x y c : Nat) : (x * y + c) % 2 ^ w % 2 ^ w =
    bitsOf w ((BitVec.ofNat w x).toInt * (BitVec.ofNat w y).toInt + (BitVec.ofNat w c).toInt) := by
  rw [Nat.mod_mod]
  exact (bitsOf_eq_mod (by simp [BitVec.ofInt_add, BitVec.ofInt_mul, BitVec.ofNat_add, BitVec.ofNat_mul])).symm

theorem min_lane (w x y : Nat) : (if intOf w y < intOf w x then y else x) % 2 ^ w = bitsOf w (min (BitVec.ofNat w x).toInt (BitVec.ofNat w y).toInt) := by
  rw [intOf_eq_toInt, intOf_eq_toInt]
  split
  · rw [min_eq_right (by omega), bitsOf_toInt]
  · rw [min_eq_left (by omega), bitsOf_toInt]

theorem max_lane (w x y : Nat) : (if intOf w x < intOf w y then y else x) % 2 ^ w = bitsOf w (max (BitVec.ofNat w x).toInt (BitVec.ofNat w y).toInt) := by
  rw [intOf_eq_toInt, intOf_eq_toInt]
  split
  · rw [max_eq_right (by omega), bitsOf_toInt]
  · rw [max_eq_left (by omega), bitsOf_toInt]

theorem shl_lane (w x n : Nat) : x * 2 ^ n % 2 ^ w % 2 ^ w = bitsOf w ((BitVec.ofNat w x).toInt * 2 ^ n) := by
  rw [Nat.mod_mod]
  refine (bitsOf_eq_mod ?_).symm
  rw [BitVec.ofInt_mul, BitVec.ofInt_toInt, BitVec.ofNat_mul, ← BitVec.ofInt_natCast (n := 2 ^ n), Int.natCast_pow]
  rfl

theorem shr_lane (n : Nat) (hx : x < 2 ^ w) : x / 2 ^ n % 2 ^ w = x / 2 ^ n := Nat.mod_eq_of_lt (Nat.lt_of_le_of_lt (Nat.div_le_self _ _) hx)

theorem shra_lane (w x n : Nat) : intBits w (intOf w x / (2 ^ n : Nat)) % 2 ^ w = bitsOf w ((BitVec.ofNat w x).toInt / 2 ^ n) := by
  rw [intBits_eq_bitsOf, intOf_eq_toInt, Int.natCast_pow, Nat.mod_eq_of_lt (bitsOf_lt _ _)]
  rfl

theorem not_lane (hx : x < 2 ^ w) : (2 ^ w - 1 - x) % 2 ^ w = 2 ^ w - 1 - x := Nat.mod_eq_of_lt (by omega)

end

/-! ### The instructions -/

theorem elem_mod (x : VReg) (w j : Nat) : elem x w j % 2 ^ w = elem x w j := Nat.mod_eq_of_lt (elem_lt x w j)

/-- The moves name their mask in two bits (R191). -/
theorem State.getK_widened (s : State) (k : BitVec 2) : s.getK (k.setWidth 3) = s.getK k := by
  have := k.isLt
  simp only [State.getK, BitVec.toNat_setWidth]
  rw [Nat.mod_eq_of_lt (by omega)]

/-- An instruction that writes a register element-wise and goes on: active elements take their results, the others those of `old`; no other register
changes (R170). -/
theorem writes_mapElems {i : Instr} {s : State} {d : BitVec 5} {t : BitVec 4} {k : KReg} {old : VReg} {g f : Nat → Nat}
    (he : exec i s = .next ((s.setV d (mapElems (typeWidth t) k old g)).advance)) (hg : ∀ j, g j % 2 ^ typeWidth t = f j) :
    ∃ u, exec i s = .next u ∧ ElemsAre s u d.toNat (typeWidth t) (fun j => if active k (typeWidth t) j then f j else elem old (typeWidth t) j) ∧
      u.pc = s.pc + 4 ∧ Keeps s u s.cur [.pc, .vectors] [] := by
  refine ⟨_, he, ⟨fun j hj => ?_, fun r hr => ?_⟩, by simp, ?_⟩
  · simp only [← hg j, ← elem_mapElems (type_fills t) k old g hj]
    simp [State.setV]
  · simp [State.setV, hr]
  · exact ((keeps_setV s d _).trans (keeps_advance _)).weaken (by simp) (by simp)

/-- Settles O15: each instruction writes its destination element-wise, and its operation on one element is that of its table row. -/
theorem vectorIntegers : Obligations.VectorIntegers := by
  intro i s d ty f h
  cases i <;> cases h
  case viadd => exact writes_mapElems rfl fun _ => add_lane _ _ _
  case visub => exact writes_mapElems rfl fun _ => sub_lane (elem_lt _ _ _)
  case vimul => exact writes_mapElems rfl fun _ => mul_lane _ _ _
  case vimad => exact writes_mapElems rfl fun _ => mad_lane _ _ _ _
  case vimin => exact writes_mapElems rfl fun _ => min_lane _ _ _
  case vimax => exact writes_mapElems rfl fun _ => max_lane _ _ _
  case viminu => exact writes_mapElems rfl fun _ => Nat.mod_eq_of_lt (min_lt_of_left_lt (elem_lt _ _ _))
  case vimaxu => exact writes_mapElems rfl fun _ => Nat.mod_eq_of_lt (max_lt (elem_lt _ _ _) (elem_lt _ _ _))
  case vishl => exact writes_mapElems rfl fun _ => shl_lane _ _ _
  case vishr => exact writes_mapElems rfl fun _ => shr_lane _ (elem_lt _ _ _)
  case vishra => exact writes_mapElems rfl fun _ => shra_lane _ _ _
  case vand => exact writes_mapElems rfl fun _ => Nat.mod_eq_of_lt (Nat.and_lt_two_pow _ (elem_lt _ _ _))
  case vor => exact writes_mapElems rfl fun _ => Nat.mod_eq_of_lt (Nat.or_lt_two_pow (elem_lt _ _ _) (elem_lt _ _ _))
  case vxor => exact writes_mapElems rfl fun _ => Nat.mod_eq_of_lt (Nat.xor_lt_two_pow (elem_lt _ _ _) (elem_lt _ _ _))
  case vnot => exact writes_mapElems rfl fun _ => not_lane (elem_lt _ _ _)
  case vperm => exact writes_mapElems rfl fun _ => elem_mod _ _ _
  case vslide =>
    refine writes_mapElems rfl fun j => ?_
    split
    · exact elem_mod _ _ _
    · exact Nat.zero_mod _
  case vbcast => exact writes_mapElems rfl fun _ => elem_mod _ _ _
  case vsel => exact writes_mapElems rfl fun _ => elem_mod _ _ _
  case vmov a k => exact s.getK_widened k ▸ writes_mapElems rfl fun _ => elem_mod _ _ _
  case vmovS b k => exact s.getK_widened k ▸ writes_mapElems rfl fun _ => Nat.mod_mod _ _

end Sys2Proof.Machine
end

