-- ==== Sys2Proof/Proofs/VectorReductions.lean ====
section
/-!
PROOFS. Reductions and scan (R75, R187 to R189): the pairwise tree of an associative operation is its fold, the passes of the scan are the running
sums, and the statement on VRSUM, VRMAX, VRMIN and VSCAN.
-/

namespace Sys2Proof.Machine
open Sys2Proof

/-! ### Folds of a commutative operation -/

section
variable {β : Type} {g : β → β → β} [Std.Commutative g] [Std.Associative g]

/-- A fold may take an operand at its end instead of its start. -/
theorem foldl_start (c y : β) (l : List β) : l.foldl g (g c y) = g (l.foldl g c) y := by
  rw [Std.Commutative.comm (op := g) c y, List.foldl_assoc, Std.Commutative.comm (op := g)]

/-- Folding two lists entry by entry is folding both. -/
theorem foldl_zipWith (a b : List β) (h : a.length = b.length) (e : β) : (List.zipWith g a b).foldl g e = (a ++ b).foldl g e := by
  induction a generalizing b e with
  | nil => cases b with
    | nil => rfl
    | cons y b => simp at h
  | cons x a ih => cases b with
    | nil => simp at h
    | cons y b =>
      have hl : a.length = b.length := by simpa using h
      calc (List.zipWith g (x :: a) (y :: b)).foldl g e
        _ = (List.zipWith g a b).foldl g (g (g e x) y) := by rw [List.zipWith_cons_cons, List.foldl_cons, Std.Associative.assoc (op := g)]
        _ = b.foldl g (a.foldl g (g (g e x) y)) := by rw [ih b hl, List.foldl_append]
        _ = b.foldl g (g (a.foldl g (g e x)) y) := by rw [foldl_start]
        _ = ((x :: a) ++ (y :: b)).foldl g e := by simp [List.foldl_append]

/-- Entries that add nothing to the start of a fold may be left out. -/
theorem foldl_map_ite {p : Nat → Bool} {z : Nat → β} {c x : β} (hx : g x c = x) (l : List Nat) :
    (l.map (fun j => if p j then z j else c)).foldl g x = (l.filter p).foldl (fun x j => g x (z j)) x := by
  induction l generalizing x with
  | nil => rfl
  | cons j l ih =>
    by_cases hj : p j = true
    · have keep : g (g x (z j)) c = g x (z j) := by
        rw [Std.Associative.assoc (op := g), Std.Commutative.comm (op := g) (z j), ← Std.Associative.assoc (op := g), hx]
      simp [hj, ih keep]
    · simp [hj, hx, ih hx]

end

/-! ### The pairwise tree (R75) -/

theorem treeLevel_fst (op : Nat → Nat → Nat × Nat) (h : Nat) (x : List Nat) :
    (treeLevel op h x).1 = List.zipWith (fun a b => (op a b).1) (x.take h) (x.drop h) := by
  simp [treeLevel, List.map_zip_eq_zipWith, Function.curry]

/-- Where the operation of a tree is a commutative and associative one of the values of its entries, the tree's value is their fold, from any start. -/
theorem pairwiseTree_fold {β : Type} {g : β → β → β} [Std.Commutative g] [Std.Associative g] {op : Nat → Nat → Nat × Nat} {val : Nat → β}
    (hop : ∀ x y, val (op x y).1 = g (val x) (val y)) (e : β) {n : Nat} {x : List Nat} (hx : x.length = 2 ^ n) :
    g e (val (pairwiseTree op n x).1) = (x.map val).foldl g e := by
  induction n generalizing x with
  | zero =>
    obtain ⟨a, rfl⟩ := List.length_eq_one_iff.1 hx
    rfl
  | succ n ih =>
    have level : (treeLevel op (2 ^ n) x).1.length = 2 ^ n := by simp [treeLevel_fst]; omega
    have vals : (treeLevel op (2 ^ n) x).1.map val = List.zipWith g ((x.take (2 ^ n)).map val) ((x.drop (2 ^ n)).map val) := by
      simp only [treeLevel_fst, List.map_zipWith, hop, List.zipWith_map]
    rw [pairwiseTree, ih level, vals, foldl_zipWith _ _ (by simp; omega), ← List.map_append, List.take_append_drop]

/-- A tree of operations that raise nothing raises nothing. -/
theorem pairwiseTree_quiet {op : Nat → Nat → Nat × Nat} (hop : ∀ x y, (op x y).2 = 0) (n : Nat) (x : List Nat) : (pairwiseTree op n x).2 = 0 := by
  induction n generalizing x with
  | zero => rfl
  | succ n ih => simp [pairwiseTree, treeLevel, ih, hop, List.foldl_map]

/-! ### The passes of the scan (R188) -/

theorem scanLevel_length (op : Nat → Nat → Nat × Nat) (act : Nat → Bool) (d : Nat) (x : List Nat) : (scanLevel op act d x).1.length = x.length := by
  simp [scanLevel]; omega

/-- An entry of a pass: from d on, the operation of the entry d before with the entry. -/
theorem scanLevel_get (op : Nat → Nat → Nat × Nat) (act : Nat → Bool) (d : Nat) (x : List Nat) {i : Nat} (hi : i < x.length) :
    (scanLevel op act d x).1[i]'(by rwa [scanLevel_length]) = if d ≤ i then (op x[i - d] x[i]).1 else x[i] := by
  simp only [scanLevel, List.getElem_append, List.length_take]
  split
  · rw [if_neg (by omega), List.getElem_take]
  · have : d ≤ i := by omega
    simp [this, Nat.min_eq_left (by omega : d ≤ x.length)]

theorem scanGo_length (op : Nat → Nat → Nat × Nat) (act : Nat → Bool) (n d : Nat) (x : List Nat) : (scanGo op act n d x).1.length = x.length := by
  induction n generalizing d x with
  | zero => rfl
  | succ n ih => rw [scanGo, ih, scanLevel_length]

/-- Passes of operations that raise nothing raise nothing. -/
theorem scanGo_quiet {op : Nat → Nat → Nat × Nat} (hop : ∀ x y, (op x y).2 = 0) (act : Nat → Bool) (n d : Nat) (x : List Nat) :
    (scanGo op act n d x).2 = 0 := by
  induction n generalizing d x with
  | zero => rfl
  | succ n ih => simp [scanGo, scanLevel, ih, hop, List.zipIdx_map, List.foldl_map]

/-- The sum of the first n entries, as it is folded. -/
def runningSum (u : Nat → Nat) (n : Nat) : Nat := (List.range n).foldl (fun x j => x + u j) 0

@[simp] theorem runningSum_zero (u : Nat → Nat) : runningSum u 0 = 0 := rfl
theorem runningSum_succ (u : Nat → Nat) (n : Nat) : runningSum u (n + 1) = runningSum u n + u n := by
  simp [runningSum, List.range_succ]

theorem foldl_ofNat (w : Nat) (u : Nat → Nat) (n : Nat) :
    (((List.range n).map u).map (BitVec.ofNat w)).foldl (· + ·) 0 = BitVec.ofNat w (runningSum u n) := by
  induction n with
  | zero => rfl
  | succ n ih =>
    rw [List.range_succ, List.map_append, List.map_append, List.foldl_append, ih, runningSum_succ, BitVec.ofNat_add]
    rfl

/-- Each entry of `x` is, modulo 2^w, the sum of the last `d` entries of `u` up to its place, or of all up to its place where they are fewer. -/
def WindowSums (w : Nat) (u : Nat → Nat) (d : Nat) (x : List Nat) : Prop :=
  ∀ i (h : i < x.length), x[i] + runningSum u (i + 1 - d) ≡ runningSum u (i + 1) [MOD 2 ^ w]

section
variable {w : Nat} {u : Nat → Nat} {op : Nat → Nat → Nat × Nat} (hop : ∀ x y, (op x y).1 ≡ x + y [MOD 2 ^ w])
include hop

/-- A pass doubles the windows. -/
theorem WindowSums.pass {d : Nat} {x : List Nat} (h : WindowSums w u d x) (act : Nat → Bool) :
    WindowSums w u (2 * d) (scanLevel op act d x).1 := by
  intro i hi
  rw [scanLevel_length] at hi
  rw [scanLevel_get op act d x hi]
  split
  · next hd =>
    have left := h (i - d) (by omega)
    have right := h i hi
    rw [show i - d + 1 = i + 1 - d by omega, show i + 1 - d - d = i + 1 - 2 * d by omega] at left
    calc (op x[i - d] x[i]).1 + runningSum u (i + 1 - 2 * d)
      _ ≡ x[i - d] + x[i] + runningSum u (i + 1 - 2 * d) [MOD 2 ^ w] := (hop _ _).add_right _
      _ = x[i] + (x[i - d] + runningSum u (i + 1 - 2 * d)) := by ring
      _ ≡ x[i] + runningSum u (i + 1 - d) [MOD 2 ^ w] := left.add_left _
      _ ≡ runningSum u (i + 1) [MOD 2 ^ w] := right
  · next hd =>
    have whole := h i hi
    rwa [show i + 1 - d = 0 by omega, show (0 : Nat) = i + 1 - 2 * d by omega] at whole

/-- n passes multiply the windows by 2^n. -/
theorem WindowSums.passes {d : Nat} {x : List Nat} (h : WindowSums w u d x) (act : Nat → Bool) (n : Nat) :
    WindowSums w u (d * 2 ^ n) (scanGo op act n d x).1 := by
  induction n generalizing d x with
  | zero => simpa [scanGo] using h
  | succ n ih =>
    rw [Nat.pow_succ, Nat.mul_comm (2 ^ n) 2, ← Nat.mul_assoc, Nat.mul_comm d 2]
    exact ih (h.pass hop act)

/-- The passes over 2^n entries give the running sums. -/
theorem scanGo_sums {n : Nat} (act : Nat → Bool) {j : Nat} (hj : j < 2 ^ n) :
    (scanGo op act n 1 ((List.range (2 ^ n)).map u)).1[j]?.getD 0 ≡ runningSum u (j + 1) [MOD 2 ^ w] := by
  have start : WindowSums w u 1 ((List.range (2 ^ n)).map u) := by
    intro i hi
    rw [List.getElem_map, List.getElem_range, Nat.add_sub_cancel, runningSum_succ, Nat.add_comm]
  have hl : j < (scanGo op act n 1 ((List.range (2 ^ n)).map u)).1.length := by simpa [scanGo_length] using hj
  have all := start.passes hop act n j hl
  rw [List.getElem?_eq_getElem hl]
  simpa [show j + 1 - 2 ^ n = 0 by omega] using all

end

/-! ### The operations of a type (R187) -/

/-- A type that is not floating-point is the integer type of its width. -/
theorem fmtOfType_int {ty : BitVec 4} (h : (VT.isFloat ty || VT.isInt ty) = true) (hf : VT.isFloat ty = false) : fmtOfType ty = .int (typeWidth ty) := by
  revert ty; decide

/-- The floating-point types, for which picking is that of VMAX and VMIN. -/
theorem pickElem_float {ty : BitVec 4} (hf : VT.isFloat ty = true) (larger : Bool) : pickElem larger ty = fpPick larger ty := by
  have types : ty = 0 ∨ ty = 1 ∨ ty = 2 := by revert ty; decide
  rcases types with rfl | rfl | rfl <;> rfl

theorem elemCount_log2 (ty : BitVec 4) : 2 ^ (elemCount (typeWidth ty)).log2 = elemCount (typeWidth ty) := by revert ty; decide

section
variable {ty : BitVec 4} {w : Nat} (hty : fmtOfType ty = .int w)
include hty

theorem sumElem_int (x y : Nat) : sumElem ty x y = ((x + y) % 2 ^ w, 0) := by simp only [sumElem, hty]
theorem sumIdent_int : sumIdent ty = 0 := by simp only [sumIdent, hty]
theorem pickElem_int (larger : Bool) (x y : Nat) :
    pickElem larger ty x y = (if decide (intOf w x < intOf w y) == larger then y else x, 0) := by simp only [pickElem, hty]
theorem pickIdent_int (larger : Bool) : pickIdent larger ty = if larger then 2 ^ (w - 1) else 2 ^ (w - 1) - 1 := by simp only [pickIdent, hty]

theorem sumElem_mod (x y : Nat) : (sumElem ty x y).1 ≡ x + y [MOD 2 ^ w] := by
  rw [sumElem_int hty]
  exact Nat.mod_modEq _ _

/-! ### Integer reductions and scan -/

/-- The tree's sum is the sum of the entries modulo 2^w. -/
theorem treeSum_int {n : Nat} {u : Nat → Nat} :
    (pairwiseTree (sumElem ty) n ((List.range (2 ^ n)).map u)).1 % 2 ^ w = runningSum u (2 ^ n) % 2 ^ w := by
  have bits : ∀ x y, BitVec.ofNat w (sumElem ty x y).1 = BitVec.ofNat w x + BitVec.ofNat w y := fun x y => by
    rw [sumElem_int hty, ← BitVec.ofNat_add]
    exact BitVec.eq_of_toNat_eq (by simp)
  have fold := pairwiseTree_fold bits 0 (n := n) (x := (List.range (2 ^ n)).map u) (by simp)
  rw [foldl_ofNat, zero_add] at fold
  simpa using congrArg BitVec.toNat fold

end

/-- The larger or the smaller of two integers. -/
def pickInt (larger : Bool) (x y : Int) : Int := if larger then max x y else min x y

theorem pickInt_comm (larger : Bool) : Std.Commutative (pickInt larger) := ⟨by cases larger <;> simp [pickInt, max_comm, min_comm]⟩
theorem pickInt_assoc (larger : Bool) : Std.Associative (pickInt larger) := ⟨by cases larger <;> simp [pickInt, max_assoc, min_assoc]⟩

/-- The identity of Table 09-7 as an integer: the least of width w for a maximum, the largest for a minimum. -/
def pickLimit (larger : Bool) (w : Nat) : Int := if larger then -2 ^ (w - 1) else 2 ^ (w - 1) - 1

theorem pickInt_limit (larger : Bool) (w x : Nat) : pickInt larger (pickLimit larger w) (BitVec.ofNat w x).toInt = (BitVec.ofNat w x).toInt := by
  cases larger
  · exact min_eq_right BitVec.toInt_le
  · exact max_eq_right (BitVec.le_toInt _)

theorem pickInt_limit_self (larger : Bool) (w : Nat) : pickInt larger (pickLimit larger w) (pickLimit larger w) = pickLimit larger w := by
  cases larger <;> simp [pickInt]

section
variable {ty : BitVec 4} {w : Nat} (hty : fmtOfType ty = .int w) (larger : Bool)
include hty

theorem pickElem_val (x y : Nat) : (BitVec.ofNat w (pickElem larger ty x y).1).toInt = pickInt larger (BitVec.ofNat w x).toInt (BitVec.ofNat w y).toInt := by
  rw [pickElem_int hty, intOf_eq_toInt, intOf_eq_toInt]
  cases larger
  · by_cases h : (BitVec.ofNat w x).toInt < (BitVec.ofNat w y).toInt
    · simp [pickInt, h, min_eq_left h.le]
    · simp [pickInt, h, min_eq_right (not_lt.1 h)]
  · by_cases h : (BitVec.ofNat w x).toInt < (BitVec.ofNat w y).toInt
    · simp [pickInt, h, max_eq_right h.le]
    · simp [pickInt, h, max_eq_left (not_lt.1 h)]

theorem pickIdent_val (hw : 0 < w) : (BitVec.ofNat w (pickIdent larger ty)).toInt = pickLimit larger w := by
  have double : 2 ^ w = 2 * 2 ^ (w - 1) := by rw [← Nat.pow_succ', Nat.succ_eq_add_one, Nat.sub_add_cancel hw]
  have pos := Nat.two_pow_pos (w - 1)
  rw [pickIdent_int hty, ← intOf_eq_toInt, intOf, double]
  cases larger
  · simp only [Bool.false_eq_true, if_false, pickLimit]
    rw [Nat.mod_eq_of_lt (by omega), if_pos (by omega)]
    push_cast [Nat.one_le_two_pow]
    rfl
  · simp only [if_true, pickLimit]
    rw [Nat.mod_eq_of_lt (by omega), if_neg (by omega)]
    push_cast
    ring

/-- The tree's pick is the largest, or the smallest, of the active entries. -/
theorem treePick_int (hw : 0 < w) {n : Nat} {act : Nat → Bool} {u : Nat → Nat} :
    (pairwiseTree (pickElem larger ty) n ((List.range (2 ^ n)).map (fun j => if act j then u j else pickIdent larger ty))).1 % 2 ^ w =
      bitsOf w (((List.range (2 ^ n)).filter act).foldl (fun x j => pickInt larger x (BitVec.ofNat w (u j)).toInt) (pickLimit larger w)) := by
  have := pickInt_comm larger
  have := pickInt_assoc larger
  have fold := pairwiseTree_fold (val := fun x => (BitVec.ofNat w x).toInt) (pickElem_val hty larger) (pickLimit larger w) (n := n)
    (x := (List.range (2 ^ n)).map (fun j => if act j then u j else pickIdent larger ty)) (by simp)
  rw [pickInt_limit] at fold
  rw [← bitsOf_toInt, fold, List.map_map, ← foldl_map_ite (pickInt_limit_self larger w)]
  congr 3
  funext j
  simp only [Function.comp, apply_ite (fun x => (BitVec.ofNat w x).toInt), pickIdent_val hty larger hw]

end

/-! ### The end of an instruction that raises flags (R71, R172) -/

@[simp] theorem State.getV_raise (s : State) {n : Nat} (r : Nat) (d : BitVec n) : (s.raise r).getV d = s.getV d := by simp [State.getV]
@[simp] theorem handled_raise (s : State) (r : Nat) : handled (s.raise r) = handled s := by simp [handled]

theorem keeps_raise (s : State) (r : Nat) : Keeps s (s.raise r) s.cur [.csrs] [] :=
  keeps_upd s _ _ (fun p hp => by cases p <;> simp_all [Core.same])

/-- With one of the flags enabled, the instruction sets them and traps with TCAUSE 9. -/
def TrapsRaised (s : State) (i : Instr) (flags : Nat) : Prop :=
  s.enabled flags = true → handled s = true → ∃ t, exec i s = .next t ∧ TakesTrap (s.raise flags) t 9 (BitVec.ofNat 64 (flags % 32))

/-- With none of the flags enabled, the instruction sets them and gives its destination the elements `f`, without a draw. -/
def WritesRaised (s : State) (i : Instr) (flags : Nat) (d : BitVec 5) (w : Nat) (f : Nat → Nat) : Prop :=
  s.enabled flags = false → ∃ t, exec i s = .next t ∧ ElemsAre s t d.toNat w f ∧ FlagsAre s t flags 0 ∧ t.pc = s.pc + 4 ∧
    Keeps s t s.cur [.pc, .vectors, .csrs] []

section
variable {i : Instr} {s : State} {flags : Nat}

theorem trapsRaised {k : State → Issue State} (he : exec i s = finish s (raising s flags k)) : TrapsRaised s i flags := fun en hh =>
  ⟨_, by rw [he, raising, if_pos en]; rfl, takesTrap _ 9 _ ((handled_raise s flags).trans hh) (by decide)⟩

theorem writesRaised {d : BitVec 5} {w : Nat} {f : Nat → Nat} {x : State → VReg}
    (he : exec i s = finish s (raising s flags (fun u => .ok ((u.setV d (x u)).advance))))
    (hx : ∀ j, j < elemCount w → elem (x (s.raise flags)) w j = f j) : WritesRaised s i flags d w f := by
  intro en
  refine ⟨_, by rw [he, raising, if_neg (by simp [en])]; rfl, ⟨fun j hj => ?_, fun r hr => ?_⟩, ?_, by simp [State.pc], ?_⟩
  · simp [hx j hj]
  · simp [hr]
  · simp [FlagsAre, srAdvance]
  · exact (((keeps_raise s flags).trans (keeps_setV (s.raise flags) d _)).trans (keeps_advance _)).weaken (by simp) (by simp)

/-! ### The instructions -/

variable {d a : BitVec 5} {k : BitVec 3} {ty : BitVec 4}

theorem entries_eq (s : State) (a : BitVec 5) (k : BitVec 3) (ty : BitVec 4) (c : Nat) :
    entries s a k ty c = (List.range (2 ^ (elemCount (typeWidth ty)).log2)).map
      (fun j => if active (s.getK k) (typeWidth ty) j then elem (s.getV a) (typeWidth ty) j else c) := by
  rw [elemCount_log2]; rfl

/-- A reduction writes the value of its tree to element 0 alone, unless a flag of the tree traps (R187). -/
theorem reduces {c : Nat} {op : Nat → Nat → Nat × Nat} {r : Nat × Nat} (he : exec i s = finish s (reduceOp s d a k ty c op))
    (value : (pairwiseTree op (elemCount (typeWidth ty)).log2 (entries s a k ty c)).1 % 2 ^ typeWidth ty = r.1 % 2 ^ typeWidth ty)
    (raised : (pairwiseTree op (elemCount (typeWidth ty)).log2 (entries s a k ty c)).2 = r.2) :
    TrapsRaised s i r.2 ∧ WritesRaised s i r.2 d (typeWidth ty) (fun j => if j = 0 then r.1 % 2 ^ typeWidth ty else elem (s.getV d) (typeWidth ty) j) := by
  rw [reduceOp, raised] at he
  refine ⟨trapsRaised he, writesRaised he fun j hj => ?_⟩
  rw [elem_setElem (type_fills ty) _ _ _ hj, value, State.getV_raise]

/-- The scan writes the values of its passes to the active elements, unless a flag of the passes traps (R188). -/
theorem scans {r : List Nat × Nat}
    (value : ∀ j, j < elemCount (typeWidth ty) → (scanGo (sumElem ty) (active (s.getK k) (typeWidth ty)) (elemCount (typeWidth ty)).log2 1
      (entries s a k ty (sumIdent ty))).1[j]?.getD 0 % 2 ^ typeWidth ty = r.1[j]?.getD 0 % 2 ^ typeWidth ty)
    (raised : (scanGo (sumElem ty) (active (s.getK k) (typeWidth ty)) (elemCount (typeWidth ty)).log2 1 (entries s a k ty (sumIdent ty))).2 = r.2) :
    TrapsRaised s (.vscan d a k ty) r.2 ∧ WritesRaised s (.vscan d a k ty) r.2 d (typeWidth ty)
      (fun j => if active (s.getK k) (typeWidth ty) j then r.1[j]?.getD 0 % 2 ^ typeWidth ty else elem (s.getV d) (typeWidth ty) j) := by
  have he : exec (.vscan d a k ty) s = execVscan d a k ty s := rfl
  rw [execVscan, raised] at he
  refine ⟨trapsRaised he, writesRaised he fun j hj => ?_⟩
  rw [elem_mapElems (type_fills ty) _ _ _ hj, value j hj, State.getV_raise]

end

/-- Settles O21: a floating-point type has the model's own tree and passes; for an integer type the tree is a fold and the passes are running sums. -/
theorem vectorReductions : Obligations.VectorReductions := by
  intro d a k ty s wf
  cases hf : VT.isFloat ty with
  | true =>
    have same := pickElem_float hf
    exact ⟨reduces rfl rfl rfl, reduces rfl (by rw [same]; rfl) (by rw [same]; rfl), reduces rfl (by rw [same]; rfl) (by rw [same]; rfl),
      scans (fun _ _ => rfl) rfl⟩
  | false =>
    have hty := fmtOfType_int wf hf
    have pos : 0 < typeWidth ty := by have := type_pos ty; omega
    have addQuiet : ∀ x y, (sumElem ty x y).2 = 0 := fun x y => by rw [sumElem_int hty]
    have pickQuiet : ∀ larger x y, (pickElem larger ty x y).2 = 0 := fun larger x y => by rw [pickElem_int hty]
    refine ⟨reduces rfl ?sum (pairwiseTree_quiet addQuiet _ _), reduces rfl ?max (pairwiseTree_quiet (pickQuiet true) _ _),
      reduces rfl ?min (pairwiseTree_quiet (pickQuiet false) _ _), scans (fun j hj => ?scan) (scanGo_quiet addQuiet _ _ _ _)⟩
    case sum =>
      rw [entries_eq, sumIdent_int hty, treeSum_int hty, elemCount_log2]
      exact (Nat.mod_mod _ _).symm
    case max =>
      rw [entries_eq, treePick_int hty true pos, elemCount_log2]
      exact (Nat.mod_eq_of_lt (bitsOf_lt _ _)).symm
    case min =>
      rw [entries_eq, treePick_int hty false pos, elemCount_log2]
      exact (Nat.mod_eq_of_lt (bitsOf_lt _ _)).symm
    case scan =>
      rw [entries_eq, sumIdent_int hty, scanGo_sums (sumElem_mod hty) _ (by rwa [elemCount_log2])]
      simp [hj, runningSum]

end Sys2Proof.Machine
end

