-- ==== Sys2Proof/Proofs/ManagementLimits.lean ====
section
/-!
PROOFS. Requests of the management controller's firmware (R280): the state that each answers, and the statement on the limits.
-/

namespace Sys2Proof.Machine
open Sys2Proof

/-! ### Changes of the host side -/

theorem keeps_updHost (s : State) (f : HostSide → HostSide) (g : Nat) : Keeps s (s.updHost f) g [] [.host] :=
  ⟨fun p hp => by cases p <;> simp_all [State.same, State.updHost], fun _ _ => rfl, fun p _ => Core.same_refl _ p, fun _ _ => rfl⟩

theorem leaves_updHost (s : State) (f : HostSide → HostSide) : Leaves s (s.updHost f) [] [] [.host] := leaves_dev (keeps_updHost s f)

theorem leaves_setReply (s : State) (x : Reply) : Leaves s (s.setReply x) [] [] [.host] :=
  leaves_updHost s (fun h => { h with reply := x })

@[simp] theorem byte_setReply (s : State) (x : Reply) (j : Nat) : (s.setReply x).byte j = s.byte j := rfl
@[simp] theorem setReply_host (s : State) (x : Reply) : (s.setReply x).host = { s.host with reply := x } := rfl

theorem byte_putBytes_single (s : State) (loc : Nat) (v : Byte) (j : Nat) : (s.putBytes [(loc, v)]).byte j = if j = loc then v else s.byte j :=
  Sparse.get_set 0 s.mem loc j v

/-- The request `r` turns the host side into `x` and changes nothing else. -/
def HostBecomes (s : State) (r : MgmtReq) (x : HostSide) : Prop :=
  ∃ t, exec (.managementControllerRequest r) s = .next t ∧ Leaves s t [] [] [.host] ∧ t.host = x

theorem hostBecomes_of_updHost {s : State} {r : MgmtReq} {f : HostSide → HostSide} {x : Reply}
    (h : exec (.managementControllerRequest r) s = .next ((s.updHost f).setReply x)) : HostBecomes s r { f s.host with reply := x } :=
  ⟨_, h, (leaves_updHost s f).trans (leaves_setReply _ x) |>.weaken (by simp) (by simp) (by simp), rfl⟩

theorem hostBecomes_of_setReply {s : State} {r : MgmtReq} {x : Reply}
    (h : exec (.managementControllerRequest r) s = .next (s.setReply x)) : HostBecomes s r { s.host with reply := x } :=
  ⟨_, h, leaves_setReply s x, rfl⟩

section
variable {s : State} {a : Nat}

/-! ### IDE, power and clock -/

theorem exec_clearIde (s : State) : exec (.managementControllerRequest .clearIde) s =
    .next (if s.host.tdisp = .unlocked then (s.updHost (fun h => { h with ide := false })).setReply .accepted else s.setReply .refused) := rfl

theorem clearIde_unlocked (h : s.host.tdisp = .unlocked) : HostBecomes s .clearIde { s.host with ide := false, reply := .accepted } :=
  hostBecomes_of_updHost (f := fun h => { h with ide := false }) (by rw [exec_clearIde, if_pos h])

theorem clearIde_refused (h : s.host.tdisp ≠ .unlocked) : HostBecomes s .clearIde { s.host with reply := .refused } :=
  hostBecomes_of_setReply (by rw [exec_clearIde, if_neg h])

theorem exec_rekeyIde (s : State) : exec (.managementControllerRequest .rekeyIde) s =
    .next (s.setReply (if s.host.tdisp = .unlocked then .accepted else .refused)) := rfl

theorem rekeyIde_unlocked (h : s.host.tdisp = .unlocked) : HostBecomes s .rekeyIde { s.host with reply := .accepted } :=
  hostBecomes_of_setReply (by rw [exec_rekeyIde, if_pos h])

theorem rekeyIde_refused (h : s.host.tdisp ≠ .unlocked) : HostBecomes s .rekeyIde { s.host with reply := .refused } :=
  hostBecomes_of_setReply (by rw [exec_rekeyIde, if_neg h])

theorem setPower_clamped (s : State) (n : Nat) : HostBecomes s (.setPower n) { s.host with power := min n 2700, reply := .accepted } :=
  hostBecomes_of_updHost (f := fun h => { h with power := min n 2700 }) rfl

theorem setClock_clamped (s : State) (n : Nat) : HostBecomes s (.setClock n) { s.host with clock := min n 1200, reply := .accepted } :=
  hostBecomes_of_updHost (f := fun h => { h with clock := min n 1200 }) rfl

/-! ### Host memory through the windows of the driver -/

/-- Host address `a` lies in a DMA window that the driver has set. -/
def InWindow (s : State) (a : Nat) : Prop := ∃ e ∈ s.host.dma, e.2 ≤ a ∧ a < e.2 + 4096

theorem not_inWindow (out : ∀ e ∈ s.host.dma, ¬(e.2 ≤ a ∧ a < e.2 + 4096)) : ¬InWindow s a := by
  rintro ⟨e, he, inside⟩
  exact out e he inside

/-- The model's test of the windows. -/
theorem any_window_iff : s.host.dma.any (fun e => decide (e.2 ≤ a) && decide (a < e.2 + 4096)) = true ↔ InWindow s a := by
  simp [InWindow]

theorem exec_writeHost (s : State) (a : Nat) (v : Byte) : exec (.managementControllerRequest (.writeHost a v)) s =
    .next (if s.host.dma.any (fun e => decide (e.2 ≤ a) && decide (a < e.2 + 4096)) then (s.putBytes [(locHost a, v)]).setReply .accepted
      else s.setReply .refused) := rfl

theorem exec_readHost (s : State) (a : Nat) : exec (.managementControllerRequest (.readHost a)) s =
    .next (if s.host.dma.any (fun e => decide (e.2 ≤ a) && decide (a < e.2 + 4096)) then s.setReply (.data ((s.byte (locHost a)).setWidth 64))
      else s.setReply .refused) := rfl

/-- A write inside a window puts its byte and no other. -/
theorem writeHost_inside (v : Byte) (h : InWindow s a) : ∃ t, exec (.managementControllerRequest (.writeHost a v)) s = .next t ∧
    Leaves s t [] [] [.host, .memory] ∧ t.host = { s.host with reply := .accepted } ∧ ∀ j, t.byte j = if j = locHost a then v else s.byte j := by
  have answer : exec (.managementControllerRequest (.writeHost a v)) s = .next ((s.putBytes [(locHost a, v)]).setReply .accepted) := by
    rw [exec_writeHost, if_pos (any_window_iff.2 h)]
  refine ⟨_, answer, ?_, by simp, fun j => by rw [byte_setReply, byte_putBytes_single]⟩
  exact (leaves_dev (State.keeps_putBytes s _)).trans (leaves_setReply _ _) |>.weaken (by simp) (by simp) (by simp)

theorem writeHost_outside (v : Byte) (h : ¬InWindow s a) : HostBecomes s (.writeHost a v) { s.host with reply := .refused } :=
  hostBecomes_of_setReply (by rw [exec_writeHost, if_neg (any_window_iff.not.2 h)])

theorem readHost_inside (h : InWindow s a) : HostBecomes s (.readHost a) { s.host with reply := .data ((s.byte (locHost a)).setWidth 64) } :=
  hostBecomes_of_setReply (by rw [exec_readHost, if_pos (any_window_iff.2 h)])

theorem readHost_outside (h : ¬InWindow s a) : HostBecomes s (.readHost a) { s.host with reply := .refused } :=
  hostBecomes_of_setReply (by rw [exec_readHost, if_neg (any_window_iff.not.2 h)])

/-! ### Frames and the fault queue -/

theorem exec_readFrame (s : State) (a : Nat) : exec (.managementControllerRequest (.readFrame a)) s =
    .next (if a % 8 ≠ 0 then s.setReply .refused
      else if a / 65536 < 8789062 ∧ (s.ownerOfFrame (a / 65536)).isNone then s.setReply (.data (BitVec.ofNat 64 (s.bytes a 8)))
      else s.setReply (.data 0)) := rfl

theorem readFrame_unaligned (h : a % 8 ≠ 0) : HostBecomes s (.readFrame a) { s.host with reply := .refused } :=
  hostBecomes_of_setReply (by rw [exec_readFrame, if_pos h])

/-- An aligned read gives the doubleword of a frame without an owner, and zero elsewhere. -/
theorem readFrame_aligned (h : a % 8 = 0) : HostBecomes s (.readFrame a) { s.host with
    reply := .data (if a / 65536 < 8789062 ∧ s.ownerOfFrame (a / 65536) = none then BitVec.ofNat 64 (s.bytes a 8) else 0) } := by
  refine hostBecomes_of_setReply ?_
  rw [exec_readFrame, if_neg (not_not_intro h)]
  simp only [Option.isNone_iff_eq_none, apply_ite Reply.data, apply_ite s.setReply]

theorem readFaultQueue_held {i : Nat} {f : FRec} (h : s.host.held[i]? = some f) :
    HostBecomes s (.readFaultQueue i) { s.host with reply := .data f.w0 } := by
  have answer : exec (.managementControllerRequest (.readFaultQueue i)) s =
      .next (s.setReply (.data (match s.host.held[i]? with | some f => f.w0 | none => 0))) := rfl
  exact hostBecomes_of_setReply (by rw [answer, h])

theorem writeFrameOwner_refused (s : State) (f : Nat) : HostBecomes s (.writeFrameOwner f) { s.host with reply := .refused } :=
  hostBecomes_of_setReply rfl

end

/-- Settles O54: each request by its test, the tests of the interface, of the windows and of the frames among them. -/
theorem managementLimits : Obligations.ManagementLimits := fun s =>
  ⟨clearIde_unlocked, clearIde_refused, rekeyIde_unlocked, rekeyIde_refused, setPower_clamped s, setClock_clamped s,
   fun _ v out => writeHost_outside v (not_inWindow out), fun _ v => writeHost_inside v,
   fun _ out => readHost_outside (not_inWindow out), fun _ => readHost_inside,
   fun _ => readFrame_unaligned, fun _ => readFrame_aligned, fun _ _ => readFaultQueue_held, writeFrameOwner_refused s⟩

end Sys2Proof.Machine
end
